-- ==== Sys2Proof/Word.lean ====
section
/-! DEFINITION. The word types of the engine (00_scope.md R9 to R11). Every value is an unsigned bit vector of
stated width or a natural number; nothing here is signed. -/

namespace Sys2Proof

/-- One byte of a shift buffer (20_memory.md R50). -/
abbrev Byte := BitVec 8

/-- A 32-bit word: DMI data, a DTMCS value, a DM register, an instruction word (20_memory.md R54). -/
abbrev Word := BitVec 32

/-- A DMI word. Its width is `34 + A` (30_encoding.md R68) with `A` at most 63, so 97 bits hold every one of them;
the bits above `33 + A` are zero. -/
abbrev DmiWord := BitVec 97

/-- The bytes of the largest capture buffer, `ceil(97 / 8)` (20_memory.md R50). Byte 0 comes first. -/
abbrev Buffer := Vector Byte 13

end Sys2Proof
end

