-- ==== Sys2Proof/Config.lean ====
section
/-! DEFINITION. What an implementation fixes (00_scope.md R8) and the free values. A constant without a body stands
for a value that the spec leaves open: no proof can see what it is. -/

namespace Sys2Proof

/-- Placement of the two 10-bit halves of hart-select in DMCONTROL (30_encoding.md R73, 92 D48): `doc` puts the low
half at [15:6], as the source says; `riscv` puts it at [25:16]. -/
inductive HartselLayout where
  | doc
  | riscv
  deriving DecidableEq, Repr, Inhabited

/-- The parameters of 00_scope.md R8 that the spec leaves to the implementation. Every value of this type is inside
the ranges of R8: a bound of 1 is written as one more than a natural number, and DMCONTROL_BASE, whose bits [25:6]
are zero, is given by its two other fields. -/
structure Params where
  /-- HART_CAPACITY − 1, so that the capacity is in 1..1024. -/
  hartCapacityLess1 : Fin 1024
  /-- DMI_RETRY_MAX − 1. -/
  dmiRetryLess1 : Nat
  /-- POLL_MAX − 1. -/
  pollLess1 : Nat
  /-- BUSY_RETRY_MAX. -/
  busyRetryMax : Nat
  /-- DMCONTROL_BASE[31:26]. -/
  dmcontrolHigh : BitVec 6
  /-- DMCONTROL_BASE[5:0]. -/
  dmcontrolLow : BitVec 6
  /-- HARTSEL_LAYOUT. -/
  hartselLayout : HartselLayout
  deriving DecidableEq, Repr, Inhabited

/-- HART_CAPACITY, 1..1024 (R8). -/
def Params.hartCapacity (p : Params) : Nat := p.hartCapacityLess1.val + 1

/-- DMI_RETRY_MAX, at least 1 (R8). -/
def Params.dmiRetryMax (p : Params) : Nat := p.dmiRetryLess1 + 1

/-- POLL_MAX, at least 1 (R8). -/
def Params.pollMax (p : Params) : Nat := p.pollLess1 + 1

/-- DMCONTROL_BASE: bits [25:6] are zero (R8). -/
def Params.dmcontrolBase (p : Params) : Word := p.dmcontrolHigh ++ 0#20 ++ p.dmcontrolLow

/-- The OPEN parameters of the machine at reset: no value is chosen (DESIGN CHOICE, safe, log 4). -/
opaque Config.params : Params

/-- FREE VALUE (log 2): whether the transport action number `n` fails, where `State.replies` lists no answer. -/
opaque Config.freeFailure : Nat → Bool

/-- FREE VALUE (log 2): what the transport action number `n` captures, where `State.replies` lists no answer. -/
opaque Config.freeCapture : Nat → Buffer

end Sys2Proof
end

