-- ==== Sys2Proof/Syntax.lean ====
section
/-! DEFINITION. The instructions: one constructor for each row of spec/opcode_table.json, that is for each word the
engine emits or decodes and for each host request (INDEX, 30_encoding.md R63). -/

namespace Sys2Proof

/-- The fields of a captured ABSTRACT_CS word that the engine uses, besides cmderr (30_encoding.md R76). The other
bits are ignored on read (R85). -/
structure AcsFields where
  datacount   : BitVec 4
  busy        : Bool
  progbufsize : BitVec 5
  deriving DecidableEq, Repr, Inhabited

/-- The four DMI statuses (30_encoding.md R71). -/
inductive DmiStatus where
  | noError
  | reserved
  | opFailed
  | opInterrupted
  deriving DecidableEq, Repr, Inhabited

/-- The eight cmderr codes (30_encoding.md R77). -/
inductive CmdErr where
  | none
  | busy
  | notSupported
  | exception
  | haltResume
  | bus
  | reserved
  | other
  deriving DecidableEq, Repr, Inhabited

/-- The instruction set. The operands of a word are the fields its encoding has besides the fixed ones. -/
inductive Instr where
  -- JTAG instruction words (R64)
  | irDtmcs
  | irDmi
  -- values shifted into DTMCS (R67)
  | dtmcsRead
  | dtmcsDmireset
  | dtmcsDmihardreset
  -- DMI request words (R68, R69); the block emits a no-op with both fields zero and a read with data zero (92 D56)
  | dmiNop (addr : BitVec 63) (data : Word)
  | dmiRead (addr : BitVec 63) (data : Word)
  | dmiWrite (addr : BitVec 63) (data : Word)
  -- captured DMI words, by status (R70, R71)
  | statusNoError (data : Word)
  | statusReserved (data : Word)
  | statusOpFailed (data : Word)
  | statusOpInterrupted (data : Word)
  -- access-register command words (R78, R79)
  | arRead (regno : BitVec 16)
  | arWrite (regno : BitVec 16)
  | arReadPostinc (regno : BitVec 16)
  | arWritePostinc (regno : BitVec 16)
  | arPostexec
  -- captured ABSTRACT_CS words, by cmderr (R76, R77)
  | cmderrNone (acs : AcsFields)
  | cmderrBusy (acs : AcsFields)
  | cmderrNotSupported (acs : AcsFields)
  | cmderrException (acs : AcsFields)
  | cmderrHaltResume (acs : AcsFields)
  | cmderrBus (acs : AcsFields)
  | cmderrReserved (acs : AcsFields)
  | cmderrOther (acs : AcsFields)
  -- the word written to ABSTRACT_CS (R76)
  | acsClear
  -- words written to ABSTRACT_AUTOEXEC (R80)
  | autoexecSentinel
  | autoexecArm
  | autoexecDisarm
  -- the word written to DMCONTROL (R73)
  | dmcontrolHartsel (index : BitVec 20)
  -- instruction words put in the program buffer (R83, R84)
  | csrrsX1 (csr : BitVec 12)
  | ebreak
  -- host requests (R88)
  | hostAttach (idcode : Word)
  | hostDetach
  | hostDmiRead (address : Nat)
  | hostDmiWrite (address : Nat) (word : Word)
  | hostRun (commandWord : Word)
  | hostReadRegs (baseId : BitVec 16) (count : Nat)
  | hostWriteRegs (baseId : BitVec 16) (values : List Word)
  | hostReadCsrProgbuf (csrId : Nat)
  | hostSelectHart (index : Nat)
  deriving DecidableEq, Repr, Inhabited

/-- The formats of 30_encoding.md R63 that have a row of the opcode table. ABSTRACT_CS stands twice, for the word
captured from it and the word written to it. -/
inductive Format where
  | ir
  | dtmcsW
  | dmiReq
  | dmiRsp
  | cmdAr
  | acsRead
  | acsWrite
  | autoexec
  | dmcontrol
  | rv32
  deriving DecidableEq, Repr, Inhabited

/-- A word of the wire with its format; a word narrower than 97 bits is zero extended. -/
structure WireWord where
  format : Format
  bits   : DmiWord
  deriving DecidableEq, Repr, Inhabited

/-- A host request as the port carries it: the code and the symbolic operands (R63, R88). A list operand stands at
the end. -/
structure HostWord where
  code     : Byte
  operands : List Nat
  deriving DecidableEq, Repr, Inhabited

/-- An instruction's words: on the wire or on the host port. -/
inductive RawWord where
  | wire (w : WireWord)
  | host (w : HostWord)
  deriving DecidableEq, Repr, Inhabited

/-- Why the decoder refuses a word. -/
inductive Reject where
  /-- An IR code that is neither 0x10 nor 0x11 (R64). -/
  | irCode
  /-- A DTMCS value that is none of the three (R67). -/
  | dtmcsValue
  /-- DMI op 3, which is never emitted (R69, R85). -/
  | dmiOpReserved
  /-- A command word of none of the five forms (R79). -/
  | commandForm
  /-- A word written to ABSTRACT_CS that is not the clear word (R76). -/
  | acsWriteValue
  /-- A word written to ABSTRACT_AUTOEXEC that is none of the three (R80). -/
  | autoexecValue
  /-- A DMCONTROL word whose bits outside hart-select are not DMCONTROL_BASE (R73). -/
  | dmcontrolBase
  /-- A program-buffer word that is neither csrrs x1, csr, x0 nor ebreak (R83, R84). -/
  | programWord
  /-- A word with bits above its format's width. -/
  | width
  /-- A request code outside 0x01 to 0x09 (R88). -/
  | requestCode
  /-- A request with the wrong number of operands (R88). -/
  | operandCount
  /-- A request operand wider than R88 gives it. -/
  | operandRange
  deriving DecidableEq, Repr

end Sys2Proof
end

