-- ==== Sys2Proof/WellFormed.lean ====
section
/-! DEFINITION. Which instructions the block emits or receives, for an address width `A`. -/

namespace Sys2Proof

/-- The operands are those the encoding gives the word: a no-op has both fields zero, a read has data zero
(30_encoding.md R69, 92 D56), and a DMI address has at most `A` bits (R68). Every other operand is bounded by its
type. -/
def Instr.wf (A : Nat) : Instr → Bool
  | .dmiNop addr data => addr == 0 && data == 0
  | .dmiRead addr data => data == 0 && decide (addr.toNat < 2 ^ A)
  | .dmiWrite addr _ => decide (addr.toNat < 2 ^ A)
  | .irDtmcs | .irDmi | .dtmcsRead | .dtmcsDmireset | .dtmcsDmihardreset => true
  | .statusNoError _ | .statusReserved _ | .statusOpFailed _ | .statusOpInterrupted _ => true
  | .arRead _ | .arWrite _ | .arReadPostinc _ | .arWritePostinc _ | .arPostexec => true
  | .cmderrNone _ | .cmderrBusy _ | .cmderrNotSupported _ | .cmderrException _ => true
  | .cmderrHaltResume _ | .cmderrBus _ | .cmderrReserved _ | .cmderrOther _ => true
  | .acsClear | .autoexecSentinel | .autoexecArm | .autoexecDisarm | .dmcontrolHartsel _ => true
  | .csrrsX1 _ | .ebreak => true
  | .hostAttach _ | .hostDetach | .hostDmiRead _ | .hostDmiWrite _ _ | .hostRun _ => true
  | .hostReadRegs _ _ | .hostWriteRegs _ _ | .hostReadCsrProgbuf _ | .hostSelectHart _ => true

end Sys2Proof
end

