-- ==== Sys2Proof/Decode.lean ====
section
/-! DEFINITION. Encodings and formats (30_encoding.md), the decoder, the encoder, and the byte order of the shift
buffers (20_memory.md R50). -/

namespace Sys2Proof

/-! ## Shift buffers -/

/-- The low `n` bits of a value: what a shift of `n` bits carries (R50). -/
def lowBits (n : Nat) (v : DmiWord) : DmiWord := BitVec.ofNat 97 (v.toNat % 2 ^ n)

/-- The buffer of an `n`-bit shift: `ceil(n/8)` bytes, bit `j` of the value in byte `j div 8` at bit `j mod 8`, bits
above `n - 1` zero (R50). -/
def packBytes (n : Nat) (v : DmiWord) : List Byte :=
  (List.range ((n + 7) / 8)).map fun j => (lowBits n v).extractLsb' (8 * j) 8

/-- The number a byte buffer holds, byte 0 lowest. -/
def bytesToNat (bs : List Byte) : Nat := bs.foldr (fun b acc => b.toNat + 256 * acc) 0

/-- The `n`-bit value of a captured buffer; bits above `n - 1` are ignored (R50). -/
def unpackBytes (n : Nat) (bs : List Byte) : DmiWord := lowBits n (BitVec.ofNat 97 (bytesToNat bs))

/-! ## DMI words -/

/-- The width of a DMI word for an address width `A` (R68, R86). -/
def dmiWidth (A : Nat) : Nat := 34 + A

/-- `((addr mod 2^A) << 34) | (zext(data) << 2) | op` (R72). -/
def dmiEncode (op : BitVec 2) (addr : Nat) (data : Word) (A : Nat) : DmiWord :=
  (BitVec.ofNat 97 (addr % 2 ^ A) <<< 34) ||| (data.setWidth 97 <<< 2) ||| op.setWidth 97

/-- `w[1:0]`: the operation of a request, the status of a response (R68, R70). -/
def dmiOp (w : DmiWord) : BitVec 2 := w.extractLsb' 0 2

/-- `w[33:2]` (R70, R106). -/
def dmiData (w : DmiWord) : Word := w.extractLsb' 2 32

/-- `w[33+A:34]` (R72). -/
def dmiAddr (w : DmiWord) (A : Nat) : Nat := (w.toNat / 2 ^ 34) % 2 ^ A

/-- `dmi_decode` (R72). -/
def dmiDecode (w : DmiWord) (A : Nat) : BitVec 2 × Word × Nat := (dmiOp w, dmiData w, dmiAddr w A)

/-- The all-zero retrieval word `dmi_encode(0, 0, 0, A)` (40_dmi_transaction.md R105). -/
def nopWord : DmiWord := 0

/-- R71. -/
def DmiStatus.ofBits (b : BitVec 2) : DmiStatus :=
  if b = 0 then .noError else if b = 1 then .reserved else if b = 2 then .opFailed else .opInterrupted

/-- R71. -/
def DmiStatus.toBits : DmiStatus → BitVec 2
  | .noError => 0
  | .reserved => 1
  | .opFailed => 2
  | .opInterrupted => 3

/-- The captured word with a status and a data field, its ignored bits zero (R70). -/
def dmiResponse (st : DmiStatus) (data : Word) : DmiWord :=
  (data.setWidth 97 <<< 2) ||| st.toBits.setWidth 97

/-! ## ABSTRACT_CS -/

/-- R77. -/
def CmdErr.ofBits (b : BitVec 3) : CmdErr :=
  if b = 0 then .none else if b = 1 then .busy else if b = 2 then .notSupported else if b = 3 then .exception
  else if b = 4 then .haltResume else if b = 5 then .bus else if b = 6 then .reserved else .other

/-- R77. -/
def CmdErr.toBits : CmdErr → BitVec 3
  | .none => 0
  | .busy => 1
  | .notSupported => 2
  | .exception => 3
  | .haltResume => 4
  | .bus => 5
  | .reserved => 6
  | .other => 7

/-- datacount[3:0], busy[12] and progbufsize[28:24] (R76). -/
def acsFields (w : Word) : AcsFields :=
  { datacount := w.extractLsb' 0 4, busy := w.getLsbD 12, progbufsize := w.extractLsb' 24 5 }

/-- cmderr[10:8] (R76). -/
def acsCmderr (w : Word) : CmdErr := CmdErr.ofBits (w.extractLsb' 8 3)

/-- The ABSTRACT_CS word with these fields, its other bits zero (R76). -/
def acsWord (f : AcsFields) (e : CmdErr) : Word :=
  (f.progbufsize.setWidth 32 <<< 24) ||| ((BitVec.ofBool f.busy).setWidth 32 <<< 12)
    ||| (e.toBits.setWidth 32 <<< 8) ||| f.datacount.setWidth 32

/-- The clear word: cmderr all ones, every other bit zero (R76, R137). -/
def cmderrClearWord : Word := 0x00000700

/-! ## Command, autoexec, DMCONTROL and program-buffer words -/

/-- `ar_cmd` (R78). -/
def arCmd (postinc postexec transfer write : Bool) (regno : BitVec 16) : Word :=
  (0 <<< 24) ||| (2 <<< 20) ||| ((BitVec.ofBool postinc).setWidth 32 <<< 19)
    ||| ((BitVec.ofBool postexec).setWidth 32 <<< 18) ||| ((BitVec.ofBool transfer).setWidth 32 <<< 17)
    ||| ((BitVec.ofBool write).setWidth 32 <<< 16) ||| regno.setWidth 32

/-- CMD.AR_READ (R79). -/
def arReadWord (regno : BitVec 16) : Word := arCmd false false true false regno
/-- CMD.AR_WRITE (R79). -/
def arWriteWord (regno : BitVec 16) : Word := arCmd false false true true regno
/-- CMD.AR_READ_POSTINC (R79). -/
def arReadPostincWord (regno : BitVec 16) : Word := arCmd true false true false regno
/-- CMD.AR_WRITE_POSTINC (R79). -/
def arWritePostincWord (regno : BitVec 16) : Word := arCmd true false true true regno
/-- CMD.AR_POSTEXEC: regno 0x1000 (R79, 92 D31). -/
def arPostexecWord : Word := arCmd false true false false 0x1000

/-- AUTOEXEC.SENTINEL (R80). -/
def autoexecSentinelWord : Word := 0x00000AAA
/-- AUTOEXEC.ARM: AUTOEXEC_ARM_WORD, bit 0 arms data0 (R80, 90 C1). -/
def autoexecArmWord : Word := 0x00000001
/-- AUTOEXEC.DISARM (R80). -/
def autoexecDisarmWord : Word := 0x00000000

/-- `hartsel_field` (R73); the other layout is the model parameter of 92 D48. -/
def hartselField (l : HartselLayout) (i : BitVec 20) : Word :=
  match l with
  | .doc => ((i.extractLsb' 0 10).setWidth 32 <<< 6) ||| ((i.extractLsb' 10 10).setWidth 32 <<< 16)
  | .riscv => ((i.extractLsb' 0 10).setWidth 32 <<< 16) ||| ((i.extractLsb' 10 10).setWidth 32 <<< 6)

/-- `hartsel_decode` (R73). -/
def hartselDecode (l : HartselLayout) (w : Word) : BitVec 20 :=
  match l with
  | .doc => w.extractLsb' 16 10 ++ w.extractLsb' 6 10
  | .riscv => w.extractLsb' 6 10 ++ w.extractLsb' 16 10

/-- `DMCONTROL_BASE | hartsel_field(i)` (R73). -/
def dmcontrolWord (p : Params) (i : BitVec 20) : Word := p.dmcontrolBase ||| hartselField p.hartselLayout i

/-- `csrrs x1, csr, x0` (R83). -/
def csrrsX1Word (csr : BitVec 12) : Word := (csr.setWidth 32 <<< 20) ||| 0x000020F3

/-- `ebreak` (R84). -/
def ebreakWord : Word := 0x00100073

/-! ## IR codes and DTMCS values -/

/-- R64. -/
def irCodeDtmcs : Byte := 0x10
/-- R64. -/
def irCodeDmi : Byte := 0x11
/-- DTMCS.READ (R67). -/
def dtmcsReadValue : Word := 0x00000000
/-- DTMCS.DMIRESET (R67). -/
def dtmcsDmiresetValue : Word := 0x00010000
/-- DTMCS.DMIHARDRESET (R67). -/
def dtmcsDmihardresetValue : Word := 0x00020000

/-! ## The decoder -/

/-- The width of a format's word (R63). -/
def Format.width (A : Nat) : Format → Nat
  | .ir => 8
  | .dmiReq | .dmiRsp => dmiWidth A
  | .dtmcsW | .cmdAr | .acsRead | .acsWrite | .autoexec | .dmcontrol | .rv32 => 32

/-- IR words (R64). -/
def decodeIr (c : Byte) : Except Reject Instr :=
  if c = irCodeDtmcs then .ok .irDtmcs else if c = irCodeDmi then .ok .irDmi else .error .irCode

/-- Values shifted into DTMCS (R67). -/
def decodeDtmcsW (w : Word) : Except Reject Instr :=
  if w = dtmcsReadValue then .ok .dtmcsRead
  else if w = dtmcsDmiresetValue then .ok .dtmcsDmireset
  else if w = dtmcsDmihardresetValue then .ok .dtmcsDmihardreset
  else .error .dtmcsValue

/-- DMI request words, by op (R69); op 3 is refused (R85). -/
def decodeDmiReq (A : Nat) (w : DmiWord) : Except Reject Instr :=
  let addr := BitVec.ofNat 63 (dmiAddr w A)
  if dmiOp w = 0 then .ok (.dmiNop addr (dmiData w))
  else if dmiOp w = 1 then .ok (.dmiRead addr (dmiData w))
  else if dmiOp w = 2 then .ok (.dmiWrite addr (dmiData w))
  else .error .dmiOpReserved

/-- Captured DMI words, by status (R71); the address bits are ignored (R70). -/
def decodeDmiRsp (w : DmiWord) : Instr :=
  match DmiStatus.ofBits (dmiOp w) with
  | .noError => .statusNoError (dmiData w)
  | .reserved => .statusReserved (dmiData w)
  | .opFailed => .statusOpFailed (dmiData w)
  | .opInterrupted => .statusOpInterrupted (dmiData w)

/-- Command words: the upper half selects the form, the lower half is regno (R79). -/
def decodeCmdAr (w : Word) : Except Reject Instr :=
  let regno : BitVec 16 := w.extractLsb' 0 16
  let form : BitVec 16 := w.extractLsb' 16 16
  if w = arPostexecWord then .ok .arPostexec
  else if form = 0x0022 then .ok (.arRead regno)
  else if form = 0x0023 then .ok (.arWrite regno)
  else if form = 0x002A then .ok (.arReadPostinc regno)
  else if form = 0x002B then .ok (.arWritePostinc regno)
  else .error .commandForm

/-- Captured ABSTRACT_CS words, by cmderr (R77). -/
def decodeAcsRead (w : Word) : Instr :=
  match acsCmderr w with
  | .none => .cmderrNone (acsFields w)
  | .busy => .cmderrBusy (acsFields w)
  | .notSupported => .cmderrNotSupported (acsFields w)
  | .exception => .cmderrException (acsFields w)
  | .haltResume => .cmderrHaltResume (acsFields w)
  | .bus => .cmderrBus (acsFields w)
  | .reserved => .cmderrReserved (acsFields w)
  | .other => .cmderrOther (acsFields w)

/-- Words written to ABSTRACT_AUTOEXEC (R80). -/
def decodeAutoexec (w : Word) : Except Reject Instr :=
  if w = autoexecSentinelWord then .ok .autoexecSentinel
  else if w = autoexecArmWord then .ok .autoexecArm
  else if w = autoexecDisarmWord then .ok .autoexecDisarm
  else .error .autoexecValue

/-- DMCONTROL words: hart-select, the other bits equal to DMCONTROL_BASE (R73). -/
def decodeDmcontrol (p : Params) (w : Word) : Except Reject Instr :=
  if w &&& 0xFC00003F = p.dmcontrolBase then .ok (.dmcontrolHartsel (hartselDecode p.hartselLayout w))
  else .error .dmcontrolBase

/-- Program-buffer words (R83, R84). -/
def decodeRv32 (w : Word) : Except Reject Instr :=
  if w = ebreakWord then .ok .ebreak
  else if w.extractLsb' 0 20 = (0x020F3 : BitVec 20) then .ok (.csrrsX1 (w.extractLsb' 20 12))
  else .error .programWord

/-- A word of the wire, for the machine's parameters and its address width. Total; a word that is no instruction is
refused by name. -/
def decodeWire (p : Params) (A : Nat) (w : WireWord) : Except Reject Instr :=
  if 2 ^ w.format.width A ≤ w.bits.toNat then .error .width
  else match w.format with
    | .ir => decodeIr (w.bits.setWidth 8)
    | .dtmcsW => decodeDtmcsW (w.bits.setWidth 32)
    | .dmiReq => decodeDmiReq A w.bits
    | .dmiRsp => .ok (decodeDmiRsp w.bits)
    | .cmdAr => decodeCmdAr (w.bits.setWidth 32)
    | .acsRead => .ok (decodeAcsRead (w.bits.setWidth 32))
    | .acsWrite => if w.bits.setWidth 32 = cmderrClearWord then .ok .acsClear else .error .acsWriteValue
    | .autoexec => decodeAutoexec (w.bits.setWidth 32)
    | .dmcontrol => decodeDmcontrol p (w.bits.setWidth 32)
    | .rv32 => decodeRv32 (w.bits.setWidth 32)

/-- An operand of at most `n` bits. -/
def operand (n : Nat) (v : Nat) : Except Reject (BitVec n) :=
  if v < 2 ^ n then .ok (BitVec.ofNat n v) else .error .operandRange

/-- A list operand of 32-bit words. -/
def wordOperands : List Nat → Except Reject (List Word)
  | [] => .ok []
  | v :: vs =>
    match operand 32 v, wordOperands vs with
    | .ok w, .ok ws => .ok (w :: ws)
    | _, _ => .error .operandRange

/-- A host request (R88). -/
def decodeHost (w : HostWord) : Except Reject Instr :=
  match w.code.toNat, w.operands with
  | 1, [idcode] => (operand 32 idcode).map .hostAttach
  | 2, [] => .ok .hostDetach
  | 3, [address] => .ok (.hostDmiRead address)
  | 4, [address, word] => (operand 32 word).map (.hostDmiWrite address)
  | 5, [command] => (operand 32 command).map .hostRun
  | 6, [base, count] => (operand 16 base).map (.hostReadRegs · count)
  | 7, base :: values =>
    match operand 16 base, wordOperands values with
    | .ok b, .ok vs => .ok (.hostWriteRegs b vs)
    | _, _ => .error .operandRange
  | 8, [csr] => .ok (.hostReadCsrProgbuf csr)
  | 9, [index] => .ok (.hostSelectHart index)
  | code, _ => if 1 ≤ code ∧ code ≤ 9 then .error .operandCount else .error .requestCode

/-- The decoder: total on any word of any format. -/
def decode (p : Params) (A : Nat) : RawWord → Except Reject Instr
  | .wire w => decodeWire p A w
  | .host w => decodeHost w

/-- The decoder over the bytes of a shift buffer: the word laid out as R50 lays it out. -/
def decodeBytes (p : Params) (A : Nat) (f : Format) (bs : List Byte) : Except Reject Instr :=
  decodeWire p A { format := f, bits := unpackBytes (f.width A) bs }

/-! ## The encoder -/

/-- A 32-bit word of the wire. -/
def wire32 (f : Format) (w : Word) : RawWord := .wire { format := f, bits := w.setWidth 97 }

/-- A host request. -/
def hostWord (code : Byte) (operands : List Nat) : RawWord := .host { code := code, operands := operands }

/-- The words of an instruction, for the machine's parameters and its address width. -/
def encode (p : Params) (A : Nat) : Instr → RawWord
  | .irDtmcs => .wire { format := .ir, bits := irCodeDtmcs.setWidth 97 }
  | .irDmi => .wire { format := .ir, bits := irCodeDmi.setWidth 97 }
  | .dtmcsRead => wire32 .dtmcsW dtmcsReadValue
  | .dtmcsDmireset => wire32 .dtmcsW dtmcsDmiresetValue
  | .dtmcsDmihardreset => wire32 .dtmcsW dtmcsDmihardresetValue
  | .dmiNop addr data => .wire { format := .dmiReq, bits := dmiEncode 0 addr.toNat data A }
  | .dmiRead addr data => .wire { format := .dmiReq, bits := dmiEncode 1 addr.toNat data A }
  | .dmiWrite addr data => .wire { format := .dmiReq, bits := dmiEncode 2 addr.toNat data A }
  | .statusNoError data => .wire { format := .dmiRsp, bits := dmiResponse .noError data }
  | .statusReserved data => .wire { format := .dmiRsp, bits := dmiResponse .reserved data }
  | .statusOpFailed data => .wire { format := .dmiRsp, bits := dmiResponse .opFailed data }
  | .statusOpInterrupted data => .wire { format := .dmiRsp, bits := dmiResponse .opInterrupted data }
  | .arRead regno => wire32 .cmdAr (arReadWord regno)
  | .arWrite regno => wire32 .cmdAr (arWriteWord regno)
  | .arReadPostinc regno => wire32 .cmdAr (arReadPostincWord regno)
  | .arWritePostinc regno => wire32 .cmdAr (arWritePostincWord regno)
  | .arPostexec => wire32 .cmdAr arPostexecWord
  | .cmderrNone acs => wire32 .acsRead (acsWord acs .none)
  | .cmderrBusy acs => wire32 .acsRead (acsWord acs .busy)
  | .cmderrNotSupported acs => wire32 .acsRead (acsWord acs .notSupported)
  | .cmderrException acs => wire32 .acsRead (acsWord acs .exception)
  | .cmderrHaltResume acs => wire32 .acsRead (acsWord acs .haltResume)
  | .cmderrBus acs => wire32 .acsRead (acsWord acs .bus)
  | .cmderrReserved acs => wire32 .acsRead (acsWord acs .reserved)
  | .cmderrOther acs => wire32 .acsRead (acsWord acs .other)
  | .acsClear => wire32 .acsWrite cmderrClearWord
  | .autoexecSentinel => wire32 .autoexec autoexecSentinelWord
  | .autoexecArm => wire32 .autoexec autoexecArmWord
  | .autoexecDisarm => wire32 .autoexec autoexecDisarmWord
  | .dmcontrolHartsel index => wire32 .dmcontrol (dmcontrolWord p index)
  | .csrrsX1 csr => wire32 .rv32 (csrrsX1Word csr)
  | .ebreak => wire32 .rv32 ebreakWord
  | .hostAttach idcode => hostWord 0x01 [idcode.toNat]
  | .hostDetach => hostWord 0x02 []
  | .hostDmiRead address => hostWord 0x03 [address]
  | .hostDmiWrite address word => hostWord 0x04 [address, word.toNat]
  | .hostRun command => hostWord 0x05 [command.toNat]
  | .hostReadRegs base count => hostWord 0x06 [base.toNat, count]
  | .hostWriteRegs base values => hostWord 0x07 (base.toNat :: values.map BitVec.toNat)
  | .hostReadCsrProgbuf csr => hostWord 0x08 [csr]
  | .hostSelectHart index => hostWord 0x09 [index]

/-! ## Words given by their bits alone

spec/opcode_table.json numbers a word's bits without its format, and several rows share their bits (log 9). A word is
read in the first of these formats that has it. -/

/-- The parameters the table's DMCONTROL row is shown for: DMCONTROL_BASE = 0 and the layout of the source. -/
def tableParams : Params :=
  { hartCapacityLess1 := 0, dmiRetryLess1 := 0, pollLess1 := 0, busyRetryMax := 0
    dmcontrolHigh := 0, dmcontrolLow := 0, hartselLayout := .doc }

/-- The operands of a request whose operand words are all zero (R88). -/
def zeroOperands (code : Nat) : List Nat :=
  if code = 2 then [] else if code = 4 ∨ code = 6 then [0, 0] else [0]

/-- The word of a table row with 8 bits: a request code, an IR code, or the low bits of a DMI word. -/
def tableByte (w : Nat) : RawWord :=
  if 1 ≤ w ∧ w ≤ 9 then .host { code := BitVec.ofNat 8 w, operands := zeroOperands w }
  else if w = 0x10 ∨ w = 0x11 then .wire { format := .ir, bits := BitVec.ofNat 97 w }
  else if w % 4 = 3 then .wire { format := .dmiRsp, bits := BitVec.ofNat 97 w }
  else .wire { format := .dmiReq, bits := BitVec.ofNat 97 w }

/-- The format of a table row with 32 bits. -/
def tableWordFormat (w : Nat) : Format :=
  if w / 2 ^ 16 = 0x22 ∨ w / 2 ^ 16 = 0x23 ∨ w / 2 ^ 16 = 0x2A ∨ w / 2 ^ 16 = 0x2B ∨ w = 0x241000 then .cmdAr
  else if w % 2 ^ 20 = 0x020F3 ∨ w = 0x100073 then .rv32
  else if w = 0 ∨ w = 0x10000 ∨ w = 0x20000 then .dtmcsW
  else if w = 0x700 then .acsWrite
  else if w = 0xAAA ∨ w = 1 then .autoexec
  else .dmcontrol

/-- The word whose `nbits` low bits are `w` and whose other bits are zero. -/
def tableRawWord (nbits w : Nat) : RawWord :=
  if nbits ≤ 8 then tableByte (w % 2 ^ 8)
  else if nbits ≤ 16 then .wire { format := .acsRead, bits := BitVec.ofNat 97 (w % 2 ^ 16) }
  else if nbits ≤ 32 then
    .wire { format := tableWordFormat (w % 2 ^ 32), bits := BitVec.ofNat 97 (w % 2 ^ 32) }
  else if w % 4 = 3 then .wire { format := .dmiRsp, bits := BitVec.ofNat 97 w }
  else .wire { format := .dmiReq, bits := BitVec.ofNat 97 w }

/-- What the decoder reads from a word given by the table's bits; DMI words are read with the widest address field. -/
def decodeTableWord (nbits w : Nat) : Option Instr :=
  match decode tableParams 63 (tableRawWord nbits w) with
  | .ok i => some i
  | .error _ => none

end Sys2Proof
end

