-- ==== Sys2Proof/Machine/State.lean ====
section
/-! DEFINITION. The machine's state (10_state.md), the errors of 60_exceptions.md R179, the reasons a step can stop,
and the state after reset (10_state.md R44). -/

namespace Sys2Proof.Machine

/-- The session's lifecycle (R19). -/
inductive Phase where
  | detached
  | probing
  | discovering
  | ready
  deriving DecidableEq, Repr, Inhabited

/-- The debug versions (R21). -/
inductive DebugVersion where
  | v0_11
  | v0_13
  | unknown
  deriving DecidableEq, Repr, Inhabited

/-- The JTAG instruction the block last selected (R30). -/
inductive IrSel where
  | none
  | dtmcs
  | dmi
  deriving DecidableEq, Repr, Inhabited

/-- What a bounded loop ran out of (60_exceptions.md R182). -/
inductive TimeoutKind where
  | dmiRetry
  | poll
  | busyRetry
  deriving DecidableEq, Repr, Inhabited

/-- The surfaced abstract-command errors (60_exceptions.md R183). -/
inductive AbstractKind where
  | notSupported
  | exception
  | haltResume
  | bus
  | other
  deriving DecidableEq, Repr, Inhabited

/-- The errors (60_exceptions.md R179). An error is no stop of the machine: it ends an operation and is answered. -/
inductive Error where
  | transportFailure
  | versionUnsupported (resolved : DebugVersion)
  | authenticationRequired
  | dmiOperationFailed (status : BitVec 2)
  | timeout (kind : TimeoutKind)
  | abstractCmdError (kind : AbstractKind)
  | invalidCapabilities (datacount : BitVec 4) (progbufsize : BitVec 5) (impebreak : Bool)
  | registerNotPresent (regno : BitVec 16)
  | tooManyArgs (count : Nat)
  | strategyUnavailable
  | sessionNotReady (phase : Phase)
  | noCurrentHart
  | invalidRequest
  deriving DecidableEq, Repr, Inhabited

/-- What an operation returns: the results of 30_encoding.md R89, and the captured word of a wire operation. -/
inductive Value where
  | unit
  | hartCount (n : Nat)
  | word (w : Word)
  | words (ws : List Word)
  deriving DecidableEq, Repr, Inhabited

/-- A response, or the end of an operation (30_encoding.md R89). -/
inductive Response where
  | ok (v : Value)
  | err (e : Error)
  deriving DecidableEq, Repr, Inhabited

/-- The diagnostic events (60_exceptions.md R189). -/
inductive Diag where
  | nextDmIgnored (nextdm : Word)
  | attachFailed (code : Nat)
  deriving DecidableEq, Repr, Inhabited

/-- What the block sends on the upper port (R42). -/
inductive HostEvent where
  | response (r : Response)
  | diag (d : Diag)
  deriving DecidableEq, Repr, Inhabited

/-- The three actions of the lower port (R41). -/
inductive Action where
  | writeIr (code : Byte)
  | shiftDr (out : List Byte) (bitCount : Nat)
  | idleClock (cycles : Nat)
  deriving DecidableEq, Repr, Inhabited

/-- The transport's answer to an action (R41): it completes, and a shift captures a buffer, or it fails. -/
inductive Reply where
  | done (capture : Buffer)
  | failed
  deriving DecidableEq, Repr, Inhabited

/-- A hart-table entry (R33, R34). `registerBackup` lists the written slots: slot `j` holds GPR `x[j+1]`, and a slot
beyond the list holds no value (log 12). -/
structure HartEntry where
  index          : Nat
  hartId         : Option Word
  registerBackup : List Word
  backupLen      : Nat
  deriving DecidableEq, Repr, Inhabited

/-- A cleanup obligation in force (R36, 60_exceptions.md R187). -/
inductive Pending where
  | clearProbe
  | disarm
  | restore
  deriving DecidableEq, Repr, Inhabited

/-- A place in a rule's pseudocode: the line `line` of the code of rule R`rule`, counted from 1 below its heading. A
step that the spec gives in prose, without code, is line 1 of its rule (00_scope.md R15, log 1). -/
structure Line where
  rule : Nat
  line : Nat
  deriving DecidableEq, Repr, Inhabited

/-- The session registers whose reset value is "no value" (R44) and whose reading can stop the machine (00_scope.md
R16). -/
inductive SessionReg where
  | idleCycles
  | addressBits
  | impebreak
  | autoexecSupported
  | progbufCsrEnabled
  | lastDmiCommand
  deriving DecidableEq, Repr, Inhabited

/-- The whole state. -/
structure State where
  -- session register file (R19 to R31)
  phase             : Phase
  idcode            : Option Word
  dtmVersion        : Option DebugVersion
  debugVersion      : Option DebugVersion
  idleCycles        : Option (BitVec 3)
  addressBits       : Option (BitVec 6)
  programBufferSize : Option (BitVec 5)
  impebreak         : Option Bool
  abstractDataCount : Option (BitVec 4)
  autoexecSupported : Option Bool
  progbufCsrEnabled : Option Bool
  lastDmiCommand    : Option DmiWord
  lastValid         : Bool
  irCurrent         : IrSel
  hartsellen        : Option (BitVec 20)
  -- hart table (R32 to R35); its length is hart_count
  harts             : List HartEntry
  currentHart       : Option Nat
  -- sequencer state (R36, R37); the label is the line in force and the lines that called it, innermost first
  req               : Option Instr
  label             : List Line
  dmiTries          : Nat
  polls             : Nat
  busyTries         : Nat
  batchIndex        : Nat
  discoveryIndex    : Nat
  dmiCmd            : DmiWord
  runCmd            : Word
  pending           : List Pending
  primaryError      : Option Error
  -- the parameters of 00_scope.md R8, written by no step
  params            : Params
  -- the model's own: what the two ports will bring, and a lone word the block is given (logs 2, 3 and 8)
  hostQueue         : List HostWord
  wire              : Option WireWord
  replies           : List Reply
  actionCount       : Nat
  -- the model's own records: the labels taken, and what the block put on the ports (log 16)
  moves             : List (List Line)
  trace             : List (Action × Reply)
  hostOut           : List HostEvent
  result            : Option Response
  deriving DecidableEq, Repr

/-- Why the machine stops with a fault. Both constructors stand for the one stop the spec asks for: "A model must make a
read of an unwritten field a fault, not a zero. The same holds for `register_backup` slots that no backup has written."
(00_scope.md R16, 93 A11). -/
inductive Fault where
  /-- Raised where a rule reads a session register that holds no value (`readReg`). Safe: no run from reset
  performs such a read (70_reset_and_hazards.md R204). -/
  | unwrittenRead (r : SessionReg)
  /-- Raised where a rule reads slot `slot` of the backup of entry `hart` and no backup has written it (`backedUp`).
  Safe, as above. -/
  | unwrittenSlot (hart slot : Nat)
  deriving DecidableEq, Repr

/-- What ends an operation before its result: an error of 60_exceptions.md R179, which is handled or answered, or a
fault, which stops the machine. -/
inductive Stop where
  | err (e : Error)
  | fault (f : Fault)
  deriving DecidableEq, Repr

/-- Why the machine has no meaning for what it fetched. -/
inductive Refusal where
  /-- An instruction without a meaning yet, raised by its arm of `exec`. Safe. -/
  | notModelled (mnemonic : String)
  /-- Raised by `step` on a word that is no instruction; the reason is the decoder's. Safe: the spec gives such a
  word no effect (log 14). -/
  | undecodable (why : Reject)
  deriving DecidableEq, Repr

/-- The state after reset (R44). The fields that R44 does not name are the sequencer's counters and operands
(DESIGN CHOICE 0, unsafe, log 7), the parameters (log 4) and the model's own records (log 16). -/
def State.reset : State where
  phase := .detached
  idcode := none
  dtmVersion := none
  debugVersion := none
  idleCycles := none
  addressBits := none
  programBufferSize := none
  impebreak := none
  abstractDataCount := none
  autoexecSupported := none
  progbufCsrEnabled := none
  lastDmiCommand := none
  lastValid := false
  irCurrent := .none
  hartsellen := none
  harts := []
  currentHart := none
  req := none
  label := []
  dmiTries := 0
  polls := 0
  busyTries := 0
  batchIndex := 0
  discoveryIndex := 0
  dmiCmd := 0
  runCmd := 0
  pending := []
  primaryError := none
  params := { Config.params with hartselLayout := .doc }
  hostQueue := []
  wire := none
  replies := []
  actionCount := 0
  moves := []
  trace := []
  hostOut := []
  result := none

end Sys2Proof.Machine
end

