-- ==== Sys2Proof/Machine/Operands.lean ====
section
/-! DEFINITION. The DMI address map, the fields the block extracts from captured registers, and the checks and
derived values of request operands. -/

namespace Sys2Proof.Machine

/-! ## DMI address map (20_memory.md R46) -/

/-- data0 -/
def addrData0 : Nat := 0x04
/-- DMCONTROL -/
def addrDmcontrol : Nat := 0x10
/-- DMSTATUS -/
def addrDmstatus : Nat := 0x11
/-- ABSTRACT_CS -/
def addrAbstractCs : Nat := 0x16
/-- ABSTRACT_CMD -/
def addrAbstractCmd : Nat := 0x17
/-- ABSTRACT_AUTOEXEC -/
def addrAutoexec : Nat := 0x18
/-- NEXTDM_ADDR -/
def addrNextdm : Nat := 0x1D
/-- progbuf0 -/
def addrProgbuf0 : Nat := 0x20
/-- progbuf1 -/
def addrProgbuf1 : Nat := 0x21

/-! ## Versions -/

/-- `decode_dtm_version` (30_encoding.md R66). -/
def decodeDtmVersion (v : BitVec 4) : DebugVersion :=
  if v = 0 then .v0_11 else if v = 1 then .v0_13 else .unknown

/-- `decode_dm_version` (30_encoding.md R75). -/
def decodeDmVersion (v : BitVec 4) : DebugVersion :=
  if v = 1 then .v0_11 else if v = 2 then .v0_13 else .unknown

/-- The version the session resolves: DMSTATUS is trusted unless it reports unknown (41_capability_negotiation.md
R117). -/
def resolveVersion (dm dtm : DebugVersion) : DebugVersion := if dm = .unknown then dtm else dm

/-! ## DTMCS (30_encoding.md R65) and DMSTATUS (R74) -/

/-- DTMCS version [3:0], decoded. -/
def dtmcsVersion (d : Word) : DebugVersion := decodeDtmVersion (d.extractLsb' 0 4)
/-- DTMCS address-bits [9:4]. -/
def dtmcsAbits (d : Word) : BitVec 6 := d.extractLsb' 4 6
/-- DTMCS idle-cycles [14:12]. -/
def dtmcsIdle (d : Word) : BitVec 3 := d.extractLsb' 12 3

/-- DMSTATUS version [3:0], decoded. -/
def dmstatusVersion (st : Word) : DebugVersion := decodeDmVersion (st.extractLsb' 0 4)
/-- DMSTATUS authenticated [7]. -/
def dmstatusAuthenticated (st : Word) : Bool := st.getLsbD 7
/-- DMSTATUS any-nonexistent [14]. -/
def dmstatusAnynonexistent (st : Word) : Bool := st.getLsbD 14

/-! ## Abstract commands -/

/-- What a cmderr code means to the caller (42_abstract_command.md R136). -/
inductive CmdClass where
  | ok
  | busy
  | fail (kind : AbstractKind)
  deriving DecidableEq, Repr

/-- `classify` (42_abstract_command.md R136): 6 is Other (92 D21). -/
def classify : CmdErr → CmdClass
  | .none => .ok
  | .busy => .busy
  | .notSupported => .fail .notSupported
  | .exception => .fail .exception
  | .haltResume => .fail .haltResume
  | .bus => .fail .bus
  | .reserved => .fail .other
  | .other => .fail .other

/-- ABSTRACT_CS busy [12]. -/
def acsBusy (acs : Word) : Bool := (acsFields acs).busy

/-! ## Register runs -/

/-- The register number of register `k` of a run (43_register_access.md R142). -/
def regnoAt (base : BitVec 16) (k : Nat) : BitVec 16 := BitVec.ofNat 16 (base.toNat + k)

/-- A run that does not fit the 16-bit register numbers (43_register_access.md R143). -/
def runTooLong (base : BitVec 16) (count : Nat) : Bool := decide (0x10000 < base.toNat + count)

/-- x1, where backups start (44_progbuf_csr.md R162). -/
def regnoX1 : BitVec 16 := 0x1001

/-- The largest GPR backup, MAX_BACKUP (00_scope.md R8). -/
def maxBackup : Nat := 31

/-- The bounds of negotiation step (f) (41_capability_negotiation.md R123). -/
def capabilitiesValid (datacount : BitVec 4) (progbufsize : BitVec 5) (impebreak : Bool) : Bool :=
  decide (1 ≤ datacount.toNat) && decide (datacount.toNat ≤ 12) && decide (progbufsize.toNat ≤ 16)
    && (progbufsize.toNat != 1 || impebreak)

/-! ## Error codes -/

/-- The response code of an error (60_exceptions.md R179). -/
def Error.code : Error → Nat
  | .transportFailure => 1
  | .versionUnsupported _ => 2
  | .authenticationRequired => 3
  | .dmiOperationFailed _ => 4
  | .timeout _ => 5
  | .abstractCmdError .notSupported => 6
  | .abstractCmdError .exception => 7
  | .abstractCmdError .haltResume => 8
  | .abstractCmdError .bus => 9
  | .abstractCmdError .other => 10
  | .invalidCapabilities _ _ _ => 11
  | .registerNotPresent _ => 12
  | .tooManyArgs _ => 13
  | .strategyUnavailable => 14
  | .sessionNotReady _ => 15
  | .noCurrentHart => 16
  | .invalidRequest => 17

end Sys2Proof.Machine
end

