-- ==== Sys2Proof/Machine/Flags.lean ====
section
/-! DEFINITION. The block has no condition codes; its Boolean state is `impebreak`, `autoexec_supported`,
`progbuf_csr_enabled` and `last_valid` (10_state.md R39). How each is computed. -/

namespace Sys2Proof.Machine

/-- `impebreak` is DMSTATUS bit 22 (41_capability_negotiation.md R122). -/
def impebreakFlag (dmstatus : Word) : Bool := dmstatus.getLsbD 22

/-- `progbuf_csr_enabled` is `program_buffer_size > 0` (41_capability_negotiation.md R125). -/
def progbufCsrFlag (progbufsize : BitVec 5) : Bool := decide (0 < progbufsize.toNat)

/-- `autoexec_supported`: the whole read-back equals the sentinel (41_capability_negotiation.md R126). -/
def autoexecFlag (readback : Word) : Bool := readback == autoexecSentinelWord

/-- `S.last_dmi_command <- cmd`: NO_ERROR records the word just shifted (40_dmi_transaction.md R97). -/
def State.recordWord (s : State) : State := { s with lastDmiCommand := some s.dmiCmd }

/-- `S.last_valid <- true` (40_dmi_transaction.md R97). -/
def State.markValid (s : State) : State := { s with lastValid := true }

end Sys2Proof.Machine
end

