-- ==== Sys2Proof/Machine/Ops.lean ====
section
/-! DEFINITION. The shared operations: state access, transport actions (00_scope.md R12), raising and handling
errors (60_exceptions.md R185 to R188, R193), and the DMI transaction layer (40_dmi_transaction.md). -/

namespace Sys2Proof.Machine

/-- An operation of the block: it ends with a result, raises an error or stops the machine, and leaves a state. -/
abbrev Op (α : Type) := EStateM Stop State α

/-- The outcome of a meaning. -/
abbrev Outcome := Host.Outcome State Fault Refusal

/-- `S.f <- v` (R14). -/
def update (f : State → State) : Op Unit := fun s => .ok () (f s)

/-- Reads the state. -/
def look {α : Type} (f : State → α) : Op α := fun s => .ok (f s) s

/-- `raise E(info)` (R14): the current operation ends with the error. -/
def raise {α : Type} (e : Error) : Op α := fun s => .error (.err e) s

/-- Goes on if the condition holds, else raises. -/
def require (b : Bool) (e : Error) : Op Unit := if b then pure () else raise e

/-! ## The step label (00_scope.md R15, 10_state.md R36) -/

/-- The label moves to line `l`, called from the lines of the label in force; the move is recorded. -/
def State.moveTo (s : State) (l : Line) : State := { s with label := l :: s.label, moves := s.moves ++ [l :: s.label] }

/-- The label returns to the line that called. -/
def State.backTo (s : State) (label : List Line) : State := { s with label := label }

/-- Line `n` of the pseudocode of rule R`rule`: the label stands at it while `x` runs, and an end of `x`, with a result
or an error, hands the control back (R14). DESIGN CHOICE: how lines are numbered, and that each takes a label of its own
(log 1). -/
def line {α : Type} (rule n : Nat) (x : Op α) : Op α := fun s =>
  match x (s.moveTo ⟨rule, n⟩) with
  | .ok a t => .ok a (t.backTo s.label)
  | .error e t => .error e (t.backTo s.label)

/-- The values the label takes at the lines `ns` of rule R`rule`, in that order, called from the lines `caller`. -/
def movesAt (rule : Nat) (ns : List Nat) (caller : List Line) : List (List Line) :=
  ns.map fun n => ⟨rule, n⟩ :: caller

/-- The label has stood at each of the lines `ns` in turn. -/
def State.passed (s : State) (rule : Nat) (ns : List Nat) : State :=
  { s with moves := s.moves ++ movesAt rule ns s.label }

/-- Lines that only compute a value, test, mark a place, jump or return: the label stands at each in turn, and no other
state changes (log 1). -/
def pass (rule : Nat) (ns : List Nat) : Op Unit := update (State.passed · rule ns)

/-! ## Reading what may hold no value (R16, log 6) -/

/-- Reads a session register: its value, or the fault of R16. -/
def readReg {α : Type} (r : SessionReg) (f : State → Option α) : Op α := fun s =>
  match f s with
  | some a => .ok a s
  | none => .error (.fault (.unwrittenRead r)) s

/-- A, the width of a DMI address: `S.address_bits` (10_state.md R23). -/
def addressWidth : Op Nat := do
  let a ← readReg .addressBits State.addressBits
  pure a.toNat

/-- A diagnostic event on the upper port. -/
def State.diagnose (s : State) (d : Diag) : State := { s with hostOut := s.hostOut ++ [.diag d] }

/-- `emit Diag` (R14): an event on the host port. -/
def emitDiag (d : Diag) : Op Unit := update (State.diagnose · d)

/-! ## The lower port (10_state.md R41) -/

/-- The answer the environment gives to the next action: the first one listed, else a free value (log 2). -/
def State.nextReply (s : State) : Reply :=
  match s.replies with
  | r :: _ => r
  | [] => if Config.freeFailure s.actionCount then .failed else .done (Config.freeCapture s.actionCount)

/-- The state once an action has been issued and answered. -/
def State.issued (s : State) (a : Action) : State :=
  { s with
    trace := s.trace ++ [(a, s.nextReply)]
    replies := s.replies.tail
    actionCount := s.actionCount + 1 }

/-- One action of the lower port: it completes, or it raises TransportFailure (R41). -/
def act (a : Action) : Op Buffer := fun s =>
  match s.nextReply with
  | .done b => .ok b (s.issued a)
  | .failed => .error (.err .transportFailure) (s.issued a)

/-- `S.ir_current <- c` (R30). -/
def State.selectIr (s : State) (c : IrSel) : State := { s with irCurrent := c }

/-- `TxIR(code)`; on a normal return `ir_current` is the selected register (R30). -/
def txIr (code : Byte) (sel : IrSel) : Op Unit := do
  let _ ← act (.writeIr code)
  update (State.selectIr · sel)

/-- `TxIR(0x10)` -/
def selectDtmcs : Op Unit := txIr irCodeDtmcs .dtmcs
/-- `TxIR(0x11)` -/
def selectDmi : Op Unit := txIr irCodeDmi .dmi

/-- `TxShift(n, out)` (R12), through buffers of R50. -/
def txShift (n : Nat) (out : DmiWord) : Op DmiWord := do
  let b ← act (.shiftDr (packBytes n out) n)
  pure (unpackBytes n b.toList)

/-- `TxIdle(n)` -/
def txIdle (n : Nat) : Op Unit := do
  let _ ← act (.idleClock n)
  pure ()

/-! ## Errors: entry, cleanup, return -/

/-- On entry to a `finally` with an error in flight, `primary_error` takes it, unless it already holds one
(60_exceptions.md R188). -/
def State.holdPrimary (s : State) (e : Error) : State :=
  { s with primaryError := some (s.primaryError.getD e) }

/-- The obligation is in force while the body runs (10_state.md R36). -/
def State.pushPending (s : State) (o : Pending) : State := { s with pending := o :: s.pending }

/-- The obligation is taken up by its cleanup. -/
def State.popPending (s : State) : State := { s with pending := s.pending.tail }

/-- `try { body } finally { cleanup }`: the cleanup runs on every exit but TransportFailure (60_exceptions.md R187).
The error in flight outranks an error of the cleanup, except TransportFailure; with no error in flight the cleanup's
error is the result (R188). A fault stops the machine at once. -/
def withCleanup {α : Type} (o : Pending) (cleanup : Op Unit) (body : Op α) : Op α := fun s =>
  match body (s.pushPending o) with
  | .ok a t =>
    match cleanup t.popPending with
    | .ok _ u => .ok a u
    | .error e u => .error e u
  | .error (.err e) t =>
    if e = .transportFailure then .error (.err e) t
    else match cleanup (t.popPending.holdPrimary e) with
      | .ok _ u => .error (.err e) u
      | .error (.err e2) u => .error (.err (if e2 = .transportFailure then e2 else e)) u
      | .error (.fault f) u => .error (.fault f) u
  | .error (.fault f) t => .error (.fault f) t

/-- `on any error E`: the handler runs, and the error goes on unless the handler raises one of its own
(41_capability_negotiation.md R114). -/
def onError {α : Type} (handler : Error → Op Unit) (body : Op α) : Op α := fun s =>
  match body s with
  | .ok a t => .ok a t
  | .error (.err e) t =>
    match handler e t with
    | .ok _ u => .error (.err e) u
    | .error e2 u => .error e2 u
  | .error (.fault f) t => .error (.fault f) t

/-- `x except E1 -> raise E2` (43_register_access.md R153): the error of `x` under the map `f`. -/
def mapError {α : Type} (f : Error → Error) (x : Op α) : Op α := fun s =>
  match x s with
  | .ok a t => .ok a t
  | .error (.err e) t => .error (.err (f e)) t
  | .error (.fault f) t => .error (.fault f) t

/-- The Detached state: every session register, the hart table and `current_hart` at the values of 10_state.md
R44. -/
def State.resetSession (s : State) : State :=
  { s with
    phase := .detached
    idcode := none
    dtmVersion := none
    debugVersion := none
    idleCycles := none
    addressBits := none
    programBufferSize := none
    impebreak := none
    abstractDataCount := none
    autoexecSupported := none
    progbufCsrEnabled := none
    lastDmiCommand := none
    lastValid := false
    irCurrent := .none
    hartsellen := none
    harts := []
    currentHart := none }

/-- What an error does to the session (60_exceptions.md R180). -/
def State.sessionEffect (s : State) (e : Error) : State :=
  match s.phase with
  | .detached => s
  | .probing | .discovering => s.resetSession
  | .ready => if e = .transportFailure then s.resetSession else s

/-- The operation is over: `primary_error` is cleared, the request is done, the label is idle and no obligation is
pending (10_state.md R36, 60_exceptions.md R185, R187). -/
def State.finish (s : State) (r : Response) : State :=
  { s with primaryError := none, req := none, label := [], pending := [], result := some r }

/-- Sends a response on the upper port. -/
def State.respond (s : State) (r : Response) : State := { s with hostOut := s.hostOut ++ [.response r] }

/-- `S.req <- req` and the admission, lines 1, 2 and 4 of `Serve` (60_exceptions.md R185). -/
def State.takeUp (s : State) (req : Instr) : State := { s.passed 185 [1, 2, 4] with req := some req }

/-- The lines of `Serve` after its body: an error passes line 6 (60_exceptions.md R185). -/
def endLines : Response → List Nat
  | .ok _ => [7]
  | .err _ => [6, 7]

/-- The response is sent and the request is done (60_exceptions.md R185). -/
def State.answer (s : State) (r : Response) : State := ((s.passed 185 (endLines r)).respond r).finish r

/-- Serves an admitted request (60_exceptions.md R185): line 5 runs the body, whose value is the response, and an error
is the error response once R180 is applied. -/
def serve (req : Instr) (body : Op Value) (s : State) : Outcome :=
  match line 185 5 body (s.takeUp req) with
  | .ok v t => .next (t.answer (.ok v))
  | .error (.err e) t => .next ((t.sessionEffect e).answer (.err e))
  | .error (.fault f) _ => .fault f

/-- A request in the wrong phase: `err(SessionNotReady)` and no transport action (60_exceptions.md R185). -/
def turnAway (s : State) : State :=
  ((s.passed 185 [1, 2, 3, 7]).respond (.err (.sessionNotReady s.phase))).finish (.err (.sessionNotReady s.phase))

/-- Admission of every request but ATTACH: only when Ready (30_encoding.md R88). -/
def whenReady (s : State) (k : Outcome) : Outcome := if s.phase = .ready then k else .next (turnAway s)

/-- Runs an operation that no request asked for, one word of the wire (log 8): its result or its error is kept, and
an error has the effect of R180 on the session. -/
def runWord (body : Op Value) (s : State) : Outcome :=
  match body s with
  | .ok v t => .next (t.finish (.ok v))
  | .error (.err e) t => .next ((t.sessionEffect e).finish (.err e))
  | .error (.fault f) _ => .fault f

/-! ## The DMI transaction layer -/

/-- `SoftReset()` (R92). -/
def softReset : Op Unit := do
  line 92 1 selectDtmcs
  let _ ← line 92 2 (txShift 32 (dtmcsDmiresetValue.setWidth 97))
  pure ()

/-- `HardReset()` (R93). -/
def hardReset : Op Unit := do
  line 93 1 selectDtmcs
  let _ ← line 93 2 (txShift 32 (dtmcsDmihardresetValue.setWidth 97))
  pure ()

/-- `DtmcsRead()` (R94). -/
def readDtmcs : Op Word := do
  line 94 1 selectDtmcs
  let d ← line 94 2 (txShift 32 (dtmcsReadValue.setWidth 97))
  pure (d.setWidth 32)

/-- `EnsureIR(0x11)` (R102). -/
def ensureDmi : Op Unit := line 102 1 fun s => if s.irCurrent = .dmi then .ok () s else selectDmi s

/-- The word `ReplayWord()` names, where `last_dmi_command` is written (R110). -/
def State.replayWord (s : State) : DmiWord := if s.lastValid then s.lastDmiCommand.getD nopWord else nopWord

/-- `ReplayWord()` (R110). -/
def replayWord : Op DmiWord := do
  let valid ← look State.lastValid
  if valid then readReg .lastDmiCommand State.lastDmiCommand else pure nopWord

/-- A shift of the DMI register, `34 + S.address_bits` bits wide (R95). -/
def shiftDmi (w : DmiWord) : Op DmiWord := do
  let A ← addressWidth
  txShift (dmiWidth A) w

/-- The replay, its capture discarded (R98). -/
def replay : Op Unit := do
  let w ← replayWord
  let _ ← shiftDmi w
  pure ()

/-- `TxIdle(idle_cycles - 1)` if `idle_cycles >= 2`, nothing otherwise (R98). -/
def recoveryIdle : Op Unit := do
  let idle ← readReg .idleCycles State.idleCycles
  if 2 ≤ idle.toNat then txIdle (idle.toNat - 1) else pure ()

/-- One more recovery in the DMI shift in force (R98). -/
def State.countRecovery (s : State) : State := { s with dmiTries := s.dmiTries + 1 }

/-- The recovery from OP_INTERRUPTED (R98), up to its `goto SHIFT`: soft reset, re-selection, the replay and the idle
clocks. -/
def recover : Op Unit := do
  line 95 14 (update State.countRecovery)
  line 95 15 softReset
  line 95 16 selectDmi
  line 95 17 replay
  line 95 18 recoveryIdle
  pass 95 [19]

/-- SHIFT: the word of the DMI shift in force (R95). -/
def shiftCmd : Op DmiWord := do
  pass 95 [3]
  line 95 4 do
    let w ← look State.dmiCmd
    shiftDmi w

/-- `S.last_dmi_command <- cmd; S.last_valid <- true` and the data (R97). -/
def recordShift (r : DmiWord) : Op Word := do
  line 95 7 (update State.recordWord)
  line 95 8 (update State.markValid)
  pass 95 [9]
  pure (dmiData r)

/-- A capture that is neither a success nor interrupted: a soft reset, then the error (R100). -/
def statusFailed (st : BitVec 2) : Op Word := do
  pass 95 [10]
  line 95 21 softReset
  line 95 22 (raise (.dmiOperationFailed st))

/-- What the status of a capture leads to, the moves CLASSIFY of R107: `again` is what an interrupted shift does next. -/
def onStatus (again : Op Word) (r : DmiWord) : Op Word :=
  match DmiStatus.ofBits (dmiOp r) with
  | .noError => recordShift r
  | .reserved => statusFailed 1
  | .opFailed => statusFailed 2
  | .opInterrupted => again

/-- The status and data of a capture are classified (R95). -/
def classifyWith (again : Op Word) (r : DmiWord) : Op Word := do
  pass 95 [5, 6]
  onStatus again r

/-- What an interrupted shift does with `left` recoveries left, `DMI_RETRY_MAX - dmi_tries` (R98, R99): the recovery and
`goto SHIFT`, or the end of the retries. -/
def dmiRetry : Nat → Op Word
  | 0 => do
    pass 95 [10, 11]
    line 95 12 softReset
    line 95 13 (raise (.timeout .dmiRetry))
  | left + 1 => do
    pass 95 [10, 11]
    recover
    let r ← shiftCmd
    classifyWith (dmiRetry left) r

/-- A capture is classified with `left` recoveries left. -/
def dmiClassify (left : Nat) (r : DmiWord) : Op Word := classifyWith (dmiRetry left) r

/-- A DMI shift of `cmd` begins: no recovery yet (R95). -/
def State.beginShift (s : State) (cmd : DmiWord) : State := { s with dmiTries := 0, dmiCmd := cmd }

/-- The shift's word takes the session's width, and the shift begins. -/
def beginShift (cmd : Nat → DmiWord) : Op Unit := do
  let A ← addressWidth
  update (State.beginShift · (cmd A))

/-- `DmiShift(cmd)` (R95); `cmd` is the word for each address width A. -/
def dmiShift (cmd : Nat → DmiWord) : Op Word := do
  line 95 1 (beginShift cmd)
  line 95 2 ensureDmi
  let p ← look State.params
  let r ← shiftCmd
  dmiClassify p.dmiRetryMax r

/-- `dmi_read(address)` (R103): the read, then the no-op that retrieves its result. -/
def dmiRead (address : Nat) : Op Word := do
  let _ ← line 103 1 (dmiShift (dmiEncode 1 address 0))
  let d ← line 103 2 (dmiShift (dmiEncode 0 0 0))
  pass 103 [3]
  pure d

/-- `dmi_write(address, word)` (R104): one shift. -/
def dmiWrite (address : Nat) (word : Word) : Op Unit := do
  let _ ← line 104 1 (dmiShift (dmiEncode 2 address word))
  pure ()

end Sys2Proof.Machine
end

