-- ==== Sys2Proof/Machine/Dmi.lean ====
section
/-! DEFINITION. The DMI request and response words and the two host requests on the DMI layer
(40_dmi_transaction.md). -/

namespace Sys2Proof.Machine

/-- One DMI word given to `DmiShift` (R91, R95). -/
def shiftWord (cmd : Nat → DmiWord) (s : State) : Outcome := runWord (do let d ← dmiShift cmd; pure (.word d)) s

/-- DMI.NOP (R105). -/
def execDmiNop (addr : BitVec 63) (data : Word) (s : State) : Outcome := shiftWord (dmiEncode 0 addr.toNat data) s

/-- DMI.READ (R69): the first of the two shifts of `dmi_read` (R103). -/
def execDmiRead (addr : BitVec 63) (data : Word) (s : State) : Outcome := shiftWord (dmiEncode 1 addr.toNat data) s

/-- DMI.WRITE (R104). -/
def execDmiWrite (addr : BitVec 63) (data : Word) (s : State) : Outcome := shiftWord (dmiEncode 2 addr.toNat data) s

/-- How many recoveries the DMI shift in force has left (R99, log 22). -/
def State.recoveriesLeft (s : State) : Nat := s.params.dmiRetryMax - s.dmiTries

/-- A captured word classified for the `DmiShift` in force (R107): its command is `dmi_cmd` and `dmi_tries` recoveries
are spent. -/
def classifyCapture (st : DmiStatus) (data : Word) (s : State) : Outcome :=
  runWord (do
    let left ← look State.recoveriesLeft
    let d ← dmiClassify left (dmiResponse st data)
    pure (.word d)) s

/-- DMI.STATUS.NO_ERROR (R97). -/
def execStatusNoError (data : Word) (s : State) : Outcome := classifyCapture .noError data s

/-- DMI.STATUS.RESERVED (R100). -/
def execStatusReserved (data : Word) (s : State) : Outcome := classifyCapture .reserved data s

/-- DMI.STATUS.OP_FAILED (R100). -/
def execStatusOpFailed (data : Word) (s : State) : Outcome := classifyCapture .opFailed data s

/-- DMI.STATUS.OP_INTERRUPTED (R98, R99). -/
def execStatusOpInterrupted (data : Word) (s : State) : Outcome := classifyCapture .opInterrupted data s

/-- HOST.DMI_READ (R108). -/
def execHostDmiRead (address : Nat) (s : State) : Outcome :=
  whenReady s (serve (.hostDmiRead address) (do let d ← line 108 1 (dmiRead address); pure (.word d)) s)

/-- HOST.DMI_WRITE (R109). -/
def execHostDmiWrite (address : Nat) (word : Word) (s : State) : Outcome :=
  whenReady s (serve (.hostDmiWrite address word) (do line 109 1 (dmiWrite address word); pure .unit) s)

end Sys2Proof.Machine
end

