-- ==== Sys2Proof/Machine/Abstract.lean ====
section
/-! DEFINITION. The abstract command engine (42_abstract_command.md): `run`, the captured cmderr codes, the clear
word, the command words and the request RUN. -/

namespace Sys2Proof.Machine

/-- One more ABSTRACT_CS read (R135). -/
def State.countPoll (s : State) : State := { s with polls := s.polls + 1 }

/-- A busy poll begins (R135). -/
def State.startPolls (s : State) : State := { s with polls := 0 }

/-- A run of `cmd` begins (R134). -/
def State.startRun (s : State) (cmd : Word) : State := { s with busyTries := 0, runCmd := cmd }

/-- One more issue of a command rejected as busy (R134). -/
def State.countReissue (s : State) : State := { s with busyTries := s.busyTries + 1 }

/-- One ABSTRACT_CS read of the busy poll, counted (R135). -/
def pollOnce : Op Word := do
  pass 135 [2]
  let acs ← line 135 3 (dmiRead addrAbstractCs)
  line 135 4 (update State.countPoll)
  pure acs

/-- A polled word: it is the result when busy is 0, else `again` is what the loop does next (R135). -/
def pollWith (again : Op Word) (acs : Word) : Op Word := do
  pass 135 [5]
  if acsBusy acs then again else pure acs

/-- What the loop does after a read that saw busy, with `left` reads left: it reads again, or its ceiling is reached
(R135). -/
def pollAgain : Nat → Op Word
  | 0 => line 135 6 (raise (.timeout .poll))
  | left + 1 => do
    pass 135 [6]
    let acs ← pollOnce
    pollWith (pollAgain left) acs

/-- `WaitIdle()` (R135): at most POLL_MAX reads. -/
def waitIdle : Op Word := do
  line 135 1 (update State.startPolls)
  let acs ← pollOnce
  let p ← look State.params
  pollWith (pollAgain (p.pollMax - 1)) acs

/-- The clear of cmderr (R137). -/
def clearCmderr : Op Unit := dmiWrite addrAbstractCs cmderrClearWord

/-- TOP: one issue of the command and its poll (R134). -/
def issue (cmd : Word) : Op Word := do
  pass 134 [2]
  line 134 3 (dmiWrite addrAbstractCmd cmd)
  line 134 4 waitIdle

/-- What `run` does with the polled word (R134): success, or the clear of a nonzero code and then the error surfaced
(R139) or, for busy, `again`. -/
def runWith (again : Op Unit) (acs : Word) : Op Unit := do
  pass 134 [5, 6]
  match classify (acsCmderr acs) with
  | .ok => pure ()
  | .fail kind => do
    line 134 7 clearCmderr
    pass 134 [8]
    line 134 12 (raise (.abstractCmdError kind))
  | .busy => do
    line 134 7 clearCmderr
    pass 134 [8]
    again

/-- What `run` does with a cleared busy code, `left` re-issues left: `goto TOP`, or its ceiling is reached (R138). -/
def runAgain (cmd : Word) : Nat → Op Unit
  | 0 => line 134 9 (raise (.timeout .busyRetry))
  | left + 1 => do
    pass 134 [9]
    line 134 10 (update State.countReissue)
    pass 134 [11]
    let acs ← issue cmd
    runWith (runAgain cmd left) acs

/-- `run(cmd)` (R134). -/
def run (cmd : Word) : Op Unit := do
  line 134 1 (update (State.startRun · cmd))
  let acs ← issue cmd
  let p ← look State.params
  runWith (runAgain cmd p.busyRetryMax) acs

/-- The error of a register access of `r`: Exception becomes RegisterNotPresent (43_register_access.md R153). -/
def regError (r : BitVec 16) (e : Error) : Error := if e = .abstractCmdError .exception then .registerNotPresent r else e

/-- `RunReg(cmd, r)` (43_register_access.md R153). -/
def runReg (cmd : Word) (r : BitVec 16) : Op Unit := line 153 1 (mapError (regError r) (run cmd))

/-- A command word issued for register `r` (R79, R153). -/
def issueCommand (cmd : Word) (r : BitVec 16) (s : State) : Outcome := runWord (do runReg cmd r; pure .unit) s

/-- CMD.AR_READ: the command of a None-mode read (43_register_access.md R144). -/
def execArRead (regno : BitVec 16) (s : State) : Outcome := issueCommand (arReadWord regno) regno s

/-- CMD.AR_WRITE: the command of a None-mode write (43_register_access.md R145). -/
def execArWrite (regno : BitVec 16) (s : State) : Outcome := issueCommand (arWriteWord regno) regno s

/-- CMD.AR_READ_POSTINC: the command of an Init-mode read (43_register_access.md R146). -/
def execArReadPostinc (regno : BitVec 16) (s : State) : Outcome := issueCommand (arReadPostincWord regno) regno s

/-- CMD.AR_WRITE_POSTINC: the command of an Init-mode write (43_register_access.md R148). -/
def execArWritePostinc (regno : BitVec 16) (s : State) : Outcome := issueCommand (arWritePostincWord regno) regno s

/-- CMD.AR_POSTEXEC: `run` called directly, so an exception stays AbstractCmdError (44_progbuf_csr.md R164). -/
def execArPostexec (s : State) : Outcome := runWord (do run arPostexecWord; pure .unit) s

/-- How many reads the poll in force has left (R135, log 22). -/
def State.pollsLeft (s : State) : Nat := s.params.pollMax - s.polls

/-- How many re-issues the run in force has left (R138, log 22). -/
def State.reissuesLeft (s : State) : Nat := s.params.busyRetryMax - s.busyTries

/-- A captured ABSTRACT_CS word classified for the `run` in force, inside its `WaitIdle`: its command is `run_cmd`, and
`polls` reads and `busy_tries` re-issues are spent. Busy is tested before cmderr (60_exceptions.md R190). -/
def classifyAcs (acs : AcsFields) (e : CmdErr) (s : State) : Outcome :=
  runWord (do
    let polls ← look State.pollsLeft
    let cmd ← look State.runCmd
    let reissues ← look State.reissuesLeft
    let w ← line 134 4 (pollWith (pollAgain polls) (acsWord acs e))
    runWith (runAgain cmd reissues) w
    pure .unit) s

/-- ABSTRACTCS.CMDERR.NONE (R134). -/
def execCmderrNone (acs : AcsFields) (s : State) : Outcome := classifyAcs acs .none s
/-- ABSTRACTCS.CMDERR.BUSY (R138). -/
def execCmderrBusy (acs : AcsFields) (s : State) : Outcome := classifyAcs acs .busy s
/-- ABSTRACTCS.CMDERR.NOT_SUPPORTED (R136). -/
def execCmderrNotSupported (acs : AcsFields) (s : State) : Outcome := classifyAcs acs .notSupported s
/-- ABSTRACTCS.CMDERR.EXCEPTION (R136). -/
def execCmderrException (acs : AcsFields) (s : State) : Outcome := classifyAcs acs .exception s
/-- ABSTRACTCS.CMDERR.HALT_RESUME (R136). -/
def execCmderrHaltResume (acs : AcsFields) (s : State) : Outcome := classifyAcs acs .haltResume s
/-- ABSTRACTCS.CMDERR.BUS (R136). -/
def execCmderrBus (acs : AcsFields) (s : State) : Outcome := classifyAcs acs .bus s
/-- ABSTRACTCS.CMDERR.RESERVED (R136). -/
def execCmderrReserved (acs : AcsFields) (s : State) : Outcome := classifyAcs acs .reserved s
/-- ABSTRACTCS.CMDERR.OTHER (R136). -/
def execCmderrOther (acs : AcsFields) (s : State) : Outcome := classifyAcs acs .other s

/-- A word written to a DM register. -/
def writeWord (address : Nat) (word : Word) (s : State) : Outcome := runWord (do dmiWrite address word; pure .unit) s

/-- ABSTRACTCS.CLEAR (R137). -/
def execAcsClear (s : State) : Outcome := writeWord addrAbstractCs cmderrClearWord s

/-- HOST.RUN (R140): the word is passed unchanged. -/
def execHostRun (commandWord : Word) (s : State) : Outcome :=
  whenReady s (serve (.hostRun commandWord) (do line 140 1 (run commandWord); pure .unit) s)

end Sys2Proof.Machine
end

