-- ==== Sys2Proof/Machine/Registers.lean ====
section
/-! DEFINITION. The register access layer (43_register_access.md): single accesses, autoexec batches, the
ABSTRACT_AUTOEXEC words and the requests READ_REGS and WRITE_REGS. -/

namespace Sys2Proof.Machine

/-- `ReadOne(r)` (R144). -/
def readOne (r : BitVec 16) : Op Word := do
  line 144 1 (runReg (arReadWord r) r)
  line 144 2 (dmiRead addrData0)

/-- `WriteOne(r, v)` (R145): the value first, then the command that moves it. -/
def writeOne (r : BitVec 16) (v : Word) : Op Unit := do
  line 145 1 (dmiWrite addrData0 v)
  line 145 2 (runReg (arWriteWord r) r)

/-- The batch index is `k` (10_state.md R36). -/
def State.atRegister (s : State) (k : Nat) : State := { s with batchIndex := k }

/-- The batch index `k` of 10_state.md R36. -/
def setBatchIndex (k : Nat) : Op Unit := update (State.atRegister · k)

/-- The error of the nonzero code of a poll after a data0 access, for register `r` (R151): each raise at its own line,
past the tests before it. -/
def surfacePoll (r : BitVec 16) : CmdClass → Op Unit
  | .ok | .busy => line 151 6 (raise (.timeout .busyRetry))
  | .fail kind =>
    if kind = .exception then do
      pass 151 [6]
      line 151 7 (raise (.registerNotPresent r))
    else do
      pass 151 [6, 7]
      line 151 8 (raise (.abstractCmdError kind))

/-- `ContinuePoll(r, trailing)` (R151, R152): a nonzero cmderr is cleared; the trailing one is not surfaced. -/
def continuePoll (r : BitVec 16) (trailing : Bool) : Op Unit := do
  let acs ← line 151 1 waitIdle
  pass 151 [2, 3]
  if classify (acsCmderr acs) = .ok then pure ()
  else do
    line 151 4 clearCmderr
    pass 151 [5]
    if trailing then pure () else surfacePoll r (classify (acsCmderr acs))

/-- The arm write of Init mode (R146, R148). -/
def armAutoexec : Op Unit := dmiWrite addrAutoexec autoexecArmWord

/-- The disarm write (R150). -/
def disarmAutoexec : Op Unit := dmiWrite addrAutoexec autoexecDisarmWord

/-- `InitRead(base)` (R146): the command, the arm, then data0, then the poll of the execution that read started. -/
def initRead (base : BitVec 16) (count : Nat) : Op Word := do
  setBatchIndex 0
  line 146 1 (runReg (arReadPostincWord base) base)
  line 146 2 armAutoexec
  let v ← line 146 3 (dmiRead addrData0)
  line 146 4 (continuePoll (regnoAt base 1) (decide (count = 1)))
  pass 146 [5]
  pure v

/-- `ContinueRead(base, k)` (R147). -/
def continueRead (base : BitVec 16) (count k : Nat) : Op Word := do
  setBatchIndex k
  let v ← line 147 1 (dmiRead addrData0)
  line 147 2 (continuePoll (regnoAt base (k + 1)) (decide (k = count - 1)))
  pass 147 [3]
  pure v

/-- The Continue-mode reads from register `k` on (R154). -/
def continueReads (base : BitVec 16) (count : Nat) : Nat → Nat → Op (List Word)
  | 0, _ => pure []
  | n + 1, k => do
    let v ← line 154 7 (continueRead base count k)
    let vs ← continueReads base count n (k + 1)
    pure (v :: vs)

/-- `InitWrite(base, v0)` (R148). -/
def initWrite (base : BitVec 16) (v : Word) : Op Unit := do
  setBatchIndex 0
  line 148 1 (dmiWrite addrData0 v)
  line 148 2 (runReg (arWritePostincWord base) base)
  line 148 3 armAutoexec

/-- `ContinueWrite(base, k, v)` (R149). -/
def continueWrite (base : BitVec 16) (k : Nat) (v : Word) : Op Unit := do
  setBatchIndex k
  line 149 1 (dmiWrite addrData0 v)
  line 149 2 (continuePoll (regnoAt base k) false)

/-- The Continue-mode writes from register `k` on (R155). -/
def continueWrites (base : BitVec 16) : List Word → Nat → Op Unit
  | [], _ => pure ()
  | v :: vs, k => do
    line 155 7 (continueWrite base k v)
    continueWrites base vs (k + 1)

/-- The None-mode reads from register `k` on (R154). -/
def readNone (base : BitVec 16) : Nat → Nat → Op (List Word)
  | 0, _ => pure []
  | n + 1, k => do
    let v ← line 154 3 (do setBatchIndex k; readOne (regnoAt base k))
    let vs ← readNone base n (k + 1)
    pure (v :: vs)

/-- The None-mode writes from register `k` on (R155). -/
def writeNone (base : BitVec 16) : List Word → Nat → Op Unit
  | [], _ => pure ()
  | v :: vs, k => do
    line 155 3 (do setBatchIndex k; writeOne (regnoAt base k) v)
    writeNone base vs (k + 1)

/-- A batch read: Init, then Continue, and the disarm on every exit (R150, R154). -/
def readBatch (base : BitVec 16) (count : Nat) : Op (List Word) := do
  pass 154 [5]
  let out ← withCleanup .disarm (do pass 154 [8]; line 154 9 disarmAutoexec) do
    let v ← line 154 6 (initRead base count)
    let vs ← continueReads base count (count - 1) 1
    pure (v :: vs)
  pass 154 [10]
  pure out

/-- A batch write (R150, R155). -/
def writeBatch (base : BitVec 16) (v : Word) (vs : List Word) : Op Unit := do
  pass 155 [5]
  withCleanup .disarm (do pass 155 [8]; line 155 9 disarmAutoexec) do
    line 155 6 (initWrite base v)
    continueWrites base vs 1

/-- Whether a run of `count` registers uses autoexec (R142); one register never does, so `autoexec_supported` is not
read for it. -/
def usesAutoexec (count : Nat) : Op Bool :=
  if count = 1 then pure false else readReg .autoexecSupported State.autoexecSupported

/-- A None-mode read and its `return out` (R154). -/
def readEach (base : BitVec 16) (count : Nat) : Op (List Word) := do
  let out ← readNone base count 0
  pass 154 [4]
  pure out

/-- A None-mode write and its `return` (R155). -/
def writeEach (base : BitVec 16) (vals : List Word) : Op Unit := do
  writeNone base vals 0
  pass 155 [4]

/-- `read_registers(base, n)` (R154). An empty run is never too long (R143). -/
def readRegisters (base : BitVec 16) (count : Nat) : Op (List Word) := do
  line 154 1 (require (!runTooLong base count) .invalidRequest)
  if count = 0 then pure []
  else do
    let batch ← line 154 2 (usesAutoexec count)
    if batch then readBatch base count else readEach base count

/-- `write_registers(base, vals)` (R155). -/
def writeRegisters (base : BitVec 16) (vals : List Word) : Op Unit := do
  line 155 1 (require (!runTooLong base vals.length) .invalidRequest)
  match vals with
  | [] => pure ()
  | v :: vs => do
    let batch ← line 155 2 (usesAutoexec (vs.length + 1))
    if batch then writeBatch base v vs else writeEach base (v :: vs)

/-- AUTOEXEC.SENTINEL: the probe write (41_capability_negotiation.md R126). -/
def execAutoexecSentinel (s : State) : Outcome := writeWord addrAutoexec autoexecSentinelWord s

/-- AUTOEXEC.ARM (R146). -/
def execAutoexecArm (s : State) : Outcome := writeWord addrAutoexec autoexecArmWord s

/-- AUTOEXEC.DISARM (R150). -/
def execAutoexecDisarm (s : State) : Outcome := writeWord addrAutoexec autoexecDisarmWord s

/-- HOST.READ_REGS (R154). -/
def execHostReadRegs (baseId : BitVec 16) (count : Nat) (s : State) : Outcome :=
  whenReady s (serve (.hostReadRegs baseId count) (do let out ← readRegisters baseId count; pure (.words out)) s)

/-- HOST.WRITE_REGS (R155). -/
def execHostWriteRegs (baseId : BitVec 16) (values : List Word) (s : State) : Outcome :=
  whenReady s (serve (.hostWriteRegs baseId values) (do writeRegisters baseId values; pure .unit) s)

end Sys2Proof.Machine
end

