-- ==== Sys2Proof/Machine/Progbuf.lean ====
section
/-! DEFINITION. The program-buffer CSR path (44_progbuf_csr.md): upload, backup, execution, restore, the
program-buffer words and the request READ_CSR_PROGBUF. -/

namespace Sys2Proof.Machine

/-- The explicit ebreak that `Upload` puts in progbuf1, only when `impebreak` is false (R159). -/
def uploadEbreak : Op Unit := do
  let impebreak ← readReg .impebreak State.impebreak
  if impebreak then pure () else dmiWrite addrProgbuf1 ebreakWord

/-- `Upload(w)` (R159). -/
def upload (w : Word) : Op Unit := do
  line 159 1 (dmiWrite addrProgbuf0 w)
  line 159 2 uploadEbreak

/-- Slots 0..L-1 take the values, the later slots keep what they held (R162, 10_state.md R34). -/
def HartEntry.backUp (e : HartEntry) (b : List Word) : HartEntry :=
  { e with registerBackup := b ++ e.registerBackup.drop b.length, backupLen := b.length }

/-- The backup goes to hart-table entry `h` (R162). -/
def State.backUp (s : State) (h : Nat) (b : List Word) : State := { s with harts := s.harts.modify h (·.backUp b) }

/-- The slots of entry `h` that a backup has written (10_state.md R34). -/
def State.writtenSlots (s : State) (h : Nat) : List Word := (s.harts[h]?.elim [] HartEntry.registerBackup)

/-- `H[h].register_backup[0 .. L-1]` (R166): its values, or the fault of R16 at the first slot that no backup has
written. -/
def backedUp (h L : Nat) : Op (List Word) := fun s =>
  if L ≤ (s.writtenSlots h).length then .ok ((s.writtenSlots h).take L) s
  else .error (.fault (.unwrittenSlot h (s.writtenSlots h).length)) s

/-- Step (2): back up x1..xL into entry `h` (R162); nothing for `L = 0` (R161). -/
def backupGprs (h L : Nat) : Op Unit := do
  pass 160 [4]
  if L = 0 then pure () else do
    let b ← line 160 5 (readRegisters regnoX1 L)
    line 160 6 (update (State.backUp · h b))

/-- Step (6): write the backed-up registers back (R166); nothing for `L = 0`. -/
def restoreGprs (h L : Nat) : Op Unit := do
  pass 160 [11]
  line 160 12 (if L = 0 then pure () else do
    let b ← backedUp h L
    writeRegisters regnoX1 b)

/-- Steps (3) to (5) (R163 to R165). -/
def execBody (inp : List Word) (m : Nat) : Op (List Word) := do
  line 160 8 (if inp = [] then pure () else writeRegisters regnoX1 inp)
  line 160 9 (run arPostexecWord)
  line 160 10 (if m = 0 then pure [] else readRegisters regnoX1 m)

/-- The entry that `current_hart` names, if any; with no value it names none (10_state.md R35, R44, log 13). -/
def State.namedEntry (s : State) : Option Nat := s.currentHart.filter fun h => decide (h < s.harts.length)

/-- `S.current_hart`, where it names an entry; else NoCurrentHart (10_state.md R35, log 13). -/
def currentEntry : Op Nat := do
  let h ← look State.namedEntry
  match h with
  | some h => pure h
  | none => raise .noCurrentHart

/-- Steps (2) to (6) for entry `h` and `L` registers (R162 to R166). -/
def aroundExec (h L : Nat) (inp : List Word) (m : Nat) : Op (List Word) := do
  backupGprs h L
  pass 160 [7]
  withCleanup .restore (restoreGprs h L) (execBody inp m)

/-- `progbuf_exec(in, m)` (R160). -/
def progbufExec (inp : List Word) (m : Nat) : Op (List Word) := do
  let L := max inp.length m
  pass 160 [1]
  line 160 2 (require (decide (L ≤ maxBackup)) (.tooManyArgs L))
  let h ← line 160 3 currentEntry
  let out ← aroundExec h L inp m
  pass 160 [13]
  pure out

/-- `out[0]`, x1 after the program; with `m = 1` there is one (R157). -/
def firstOut : List Word → Value
  | w :: _ => .word w
  | [] => .words []

/-- `read_csr_via_progbuf(csr)` (R157): the checks in R157's order, then the program. -/
def readCsr (csrId : Nat) : Op Value := do
  let enabled ← readReg .progbufCsrEnabled State.progbufCsrEnabled
  line 157 1 (require enabled .strategyUnavailable)
  line 157 2 (require (decide (csrId ≤ 0xFFF)) .invalidRequest)
  let n ← look fun s => s.harts.length
  line 157 3 (require (decide (n ≠ 0)) .noCurrentHart)
  line 157 4 (upload (csrrsX1Word (BitVec.ofNat 12 csrId)))
  let out ← line 157 5 (progbufExec [] 1)
  pass 157 [6]
  pure (firstOut out)

/-- RV32.CSRRS_X1: the program word in progbuf0 (R158, R159). -/
def execCsrrsX1 (csr : BitVec 12) (s : State) : Outcome := writeWord addrProgbuf0 (csrrsX1Word csr) s

/-- RV32.EBREAK: the explicit ebreak in progbuf1 (R159). -/
def execEbreak (s : State) : Outcome := writeWord addrProgbuf1 ebreakWord s

/-- HOST.READ_CSR_PROGBUF (R157). -/
def execHostReadCsrProgbuf (csrId : Nat) (s : State) : Outcome :=
  whenReady s (serve (.hostReadCsrProgbuf csrId) (readCsr csrId) s)

end Sys2Proof.Machine
end

