-- ==== Sys2Proof/Machine/Harts.lean ====
section
/-! DEFINITION. The hart-select and hart-discovery sequencer (45_hart_manager.md): the DMCONTROL word, discovery and
the request SELECT_HART. -/

namespace Sys2Proof.Machine

/-- The write of a hart-select value to DMCONTROL (30_encoding.md R73). -/
def writeHartsel (index : BitVec 20) : Op Unit := do
  let p ← look State.params
  dmiWrite addrDmcontrol (dmcontrolWord p index)

/-- `S.hartsellen <- n` (R170). -/
def State.wroteHartsellen (s : State) (n : BitVec 20) : State := { s with hartsellen := some n }

/-- `S.hart_count <- 0; i <- 0` (R171); `hart_count` is the length of the table (10_state.md R32). -/
def State.startScan (s : State) : State := { s with harts := [], discoveryIndex := 0 }

/-- `i <- i + 1` (R171). -/
def State.nextCandidate (s : State) : State := { s with discoveryIndex := s.discoveryIndex + 1 }

/-- `S.current_hart <- h` (R173, R175). -/
def State.makeCurrent (s : State) (h : Nat) : State := { s with currentHart := some h }

/-- The width probe (R170): all-ones written, the value read back is `hartsellen`. -/
def probeWidth : Op (BitVec 20) := do
  line 170 1 (writeHartsel 0xFFFFF)
  let c ← line 170 2 (dmiRead addrDmcontrol)
  let p ← look State.params
  let n := hartselDecode p.hartselLayout c
  line 170 3 (update (State.wroteHartsellen · n))
  pure n

/-- The entry discovery appends for candidate `i` (R171). -/
def newHart (i : Nat) : HartEntry := { index := i, hartId := none, registerBackup := [], backupLen := 0 }

/-- Candidate `i` is appended to the hart table, which counts it too: lines 6 and 7 of R171 (log 1). -/
def State.addHart (s : State) (i : Nat) : State := { s with harts := s.harts ++ [newHart i] }

/-- The scan from candidate `i`, the discovery index, on (R171, R172), `left` being the room left in the hart table:
each test of the loop at line 2, and the way back to it from line 8. -/
def scanHarts (hartsellen : BitVec 20) : Nat → Nat → Op Unit
  | 0, _ => pass 171 [2]
  | left + 1, i => do
    pass 171 [2]
    if i ≤ hartsellen.toNat then do
      line 171 3 (writeHartsel (BitVec.ofNat 20 i))
      let st ← line 171 4 (dmiRead addrDmstatus)
      pass 171 [5]
      if dmstatusAnynonexistent st then pure ()
      else do
        line 171 6 (update (State.addHart · i))
        pass 171 [7]
        line 171 8 (update State.nextCandidate)
        scanHarts hartsellen left (i + 1)
    else pure ()

/-- `DiscoverHarts()` (R169 to R173): the result is `hart_count`. -/
def discoverHarts : Op Nat := do
  let n ← probeWidth
  line 171 1 (update State.startScan)
  let p ← look State.params
  scanHarts n p.hartCapacity 0
  line 171 9 (update (State.makeCurrent · 0))
  pass 171 [10]
  look fun s => s.harts.length

/-- DMCONTROL.HARTSEL: the word with this index is written to DMCONTROL (30_encoding.md R73). -/
def execDmcontrolHartsel (index : BitVec 20) (s : State) : Outcome :=
  writeWord addrDmcontrol (dmcontrolWord s.params index) s

/-- `SELECT_HART(i)` (R175): `current_hart` changes only after the write returns. -/
def selectHart (i : Nat) : Op Value := do
  let e ← look fun s => s.harts[i]?
  match e with
  | none => line 175 1 (raise .invalidRequest)
  | some e => do
    pass 175 [1]
    line 175 2 (writeHartsel (BitVec.ofNat 20 e.index))
    line 175 3 (update (State.makeCurrent · i))
    pure .unit

/-- HOST.SELECT_HART (R175). -/
def execHostSelectHart (index : Nat) (s : State) : Outcome :=
  whenReady s (serve (.hostSelectHart index) (selectHart index) s)

end Sys2Proof.Machine
end

