-- ==== Sys2Proof/Machine/Session.lean ====
section
/-! DEFINITION. Session start, capability negotiation, ATTACH and DETACH (41_capability_negotiation.md). -/

namespace Sys2Proof.Machine

/-- `S.idcode <- idcode` (R114). -/
def State.wroteIdcode (s : State) (idcode : Word) : State := { s with idcode := some idcode }

/-- `S.dtm_version <- v` (R115). -/
def State.wroteDtmVersion (s : State) (v : DebugVersion) : State := { s with dtmVersion := some v }

/-- `S.address_bits <- a` (R115). -/
def State.wroteAddressBits (s : State) (a : BitVec 6) : State := { s with addressBits := some a }

/-- `S.idle_cycles <- i` (R115). -/
def State.wroteIdleCycles (s : State) (i : BitVec 3) : State := { s with idleCycles := some i }

/-- `S.last_valid <- false` (R115). -/
def State.clearValid (s : State) : State := { s with lastValid := false }

/-- `S.debug_version <- v` (R117). -/
def State.wroteVersion (s : State) (v : DebugVersion) : State := { s with debugVersion := some v }

/-- `S.impebreak <- b` (R122). -/
def State.wroteImpebreak (s : State) (b : Bool) : State := { s with impebreak := some b }

/-- `S.abstract_data_count <- dc` (R123). -/
def State.wroteDataCount (s : State) (dc : BitVec 4) : State := { s with abstractDataCount := some dc }

/-- `S.program_buffer_size <- pb` (R123). -/
def State.wroteBufferSize (s : State) (pb : BitVec 5) : State := { s with programBufferSize := some pb }

/-- `S.progbuf_csr_enabled <- b` (R125). -/
def State.wroteCsrPath (s : State) (b : Bool) : State := { s with progbufCsrEnabled := some b }

/-- `S.autoexec_supported <- b` (R126). -/
def State.wroteAutoexec (s : State) (b : Bool) : State := { s with autoexecSupported := some b }

/-- `S.phase <- p` (10_state.md R19). -/
def State.atPhase (s : State) (p : Phase) : State := { s with phase := p }

/-- A move of the lifecycle. -/
def setPhase (p : Phase) : Op Unit := update (State.atPhase · p)

/-- The four session registers that the DTMCS word `d` gives (R115). -/
def writeDtmcs (d : Word) : Op Unit := do
  line 115 2 (update (State.wroteDtmVersion · (dtmcsVersion d)))
  line 115 3 (update (State.wroteAddressBits · (dtmcsAbits d)))
  line 115 4 (update (State.wroteIdleCycles · (dtmcsIdle d)))
  line 115 5 (update State.clearValid)

/-- `SessionStart()` (R115); the result is the DTMCS version, for R117. -/
def sessionStart : Op DebugVersion := do
  let d ← line 115 1 readDtmcs
  writeDtmcs d
  pure (dtmcsVersion d)

/-- Step (b) and the version check (R117, R118); the result is the DMSTATUS word. -/
def negotiateVersion (dtm : DebugVersion) : Op Word := do
  let st ← line 117 1 (dmiRead addrDmstatus)
  pass 117 [2]
  let v := resolveVersion (dmstatusVersion st) dtm
  line 117 3 (update (State.wroteVersion · v))
  line 118 1 (require (v == .v0_13) (.versionUnsupported v))
  pure st

/-- Step (d) (R120, R121): further debug modules are reported and ignored. -/
def negotiateNextdm : Op Unit := do
  let n ← line 120 1 (dmiRead addrNextdm)
  line 121 1 (if n = 0 then pure () else emitDiag (.nextDmIgnored n))

/-- The validation of step (f) (R123). -/
def checkCapabilities (f : AcsFields) (impebreak : Bool) : Op Unit := do
  pass 123 [2, 3, 4]
  if capabilitiesValid f.datacount f.progbufsize impebreak then pure ()
  else line 123 5 (raise (.invalidCapabilities f.datacount f.progbufsize impebreak))

/-- The fields of step (f) (R123, R124). -/
def writeCapabilities (f : AcsFields) : Op Unit := do
  line 123 6 (update (State.wroteDataCount · f.datacount))
  line 123 7 (update (State.wroteBufferSize · f.progbufsize))

/-- Steps (e) to (g) (R122 to R125): the fields of step (f) are written only after validation. -/
def negotiateCapabilities (st : Word) : Op Unit := do
  line 122 1 (update (State.wroteImpebreak · (impebreakFlag st)))
  let acs ← line 123 1 (dmiRead addrAbstractCs)
  let f := acsFields acs
  checkCapabilities f (impebreakFlag st)
  writeCapabilities f
  line 125 1 (update (State.wroteCsrPath · (progbufCsrFlag f.progbufsize)))

/-- Step (h), `AutoexecProbe()` (R126): the clear is issued on every exit but TransportFailure. -/
def autoexecProbe : Op Unit := do
  pass 126 [1, 2]
  let r ← withCleanup .clearProbe (do pass 126 [5]; line 126 6 (dmiWrite addrAutoexec autoexecDisarmWord)) (do
    line 126 3 (dmiWrite addrAutoexec autoexecSentinelWord)
    line 126 4 (dmiRead addrAutoexec))
  line 126 7 (update (State.wroteAutoexec · (autoexecFlag r)))

/-- `Negotiate()` after step (a), steps (b) to (h) (R117 to R127). -/
def negotiateSteps (dtm : DebugVersion) : Op Unit := do
  let st ← negotiateVersion dtm
  line 119 1 (require (dmstatusAuthenticated st) .authenticationRequired)
  negotiateNextdm
  negotiateCapabilities st
  autoexecProbe

/-- `Negotiate()`, steps (a) to (h) (R116 to R127). -/
def negotiate (dtm : DebugVersion) : Op Unit := do
  line 116 1 hardReset
  negotiateSteps dtm

/-- The steps of ATTACH inside its `try-all` (R114); `Serve` sends the response of line 9 (60_exceptions.md R185). -/
def attachSteps : Op Nat := do
  pass 114 [3]
  let dtm ← line 114 4 sessionStart
  line 114 5 (negotiate dtm)
  line 114 6 (setPhase .discovering)
  let n ← line 114 7 discoverHarts
  line 114 8 (setPhase .ready)
  pass 114 [9]
  pure n

/-- `on any error E` of ATTACH (R114): the session is reset and the diagnostic is emitted; `Serve` sends the response of
line 13 (60_exceptions.md R185). -/
def attachFailure (e : Error) : Op Unit := do
  pass 114 [10]
  line 114 11 (update State.resetSession)
  line 114 12 (emitDiag (.attachFailed e.code))
  pass 114 [13]

/-- ATTACH begins: lines 1 and 2 (R114). -/
def beginAttach (idcode : Word) : Op Unit := do
  line 114 1 (update (State.wroteIdcode · idcode))
  line 114 2 (setPhase .probing)

/-- The body of ATTACH (R114). -/
def attach (idcode : Word) : Op Value := do
  beginAttach idcode
  let n ← onError attachFailure attachSteps
  pure (.hartCount n)

/-- HOST.ATTACH (R114), admitted only when Detached (30_encoding.md R88). -/
def execHostAttach (idcode : Word) (s : State) : Outcome :=
  if s.phase = .detached then serve (.hostAttach idcode) (attach idcode) s else .next (turnAway s)

/-- HOST.DETACH (R130): the session is reset, no transport action. -/
def execHostDetach (s : State) : Outcome :=
  whenReady s (serve .hostDetach (do line 130 1 (update State.resetSession); pure .unit) s)

end Sys2Proof.Machine
end

