-- ==== Sys2Proof/Machine/Transport.lean ====
section
/-! DEFINITION. The words IR.* and DTMCS.* (30_encoding.md R64, R67). -/

namespace Sys2Proof.Machine

/-- IR.DTMCS: `TxIR(0x10)` (R64). -/
def execIrDtmcs (s : State) : Outcome := runWord (do selectDtmcs; pure .unit) s

/-- IR.DMI: `TxIR(0x11)` (R64, R102). -/
def execIrDmi (s : State) : Outcome := runWord (do selectDmi; pure .unit) s

/-- DTMCS.READ: `DtmcsRead()` (R94). -/
def execDtmcsRead (s : State) : Outcome := runWord (do let d ← readDtmcs; pure (.word d)) s

/-- DTMCS.DMIRESET: `SoftReset()` (R92). -/
def execDtmcsDmireset (s : State) : Outcome := runWord (do softReset; pure .unit) s

/-- DTMCS.DMIHARDRESET: `HardReset()` (R93). -/
def execDtmcsDmihardreset (s : State) : Outcome := runWord (do hardReset; pure .unit) s

end Sys2Proof.Machine
end

