-- ==== Sys2Proof/Machine/Dispatch.lean ====
section
/-! DEFINITION. One arm for each instruction. -/

namespace Sys2Proof.Machine

/-- The effect of an instruction on a state. -/
def exec (i : Instr) (s : State) : Host.Outcome State Fault Refusal :=
  match i with
  | .irDtmcs => Sys2Proof.Machine.execIrDtmcs s
  | .irDmi => Sys2Proof.Machine.execIrDmi s
  | .dtmcsRead => Sys2Proof.Machine.execDtmcsRead s
  | .dtmcsDmireset => Sys2Proof.Machine.execDtmcsDmireset s
  | .dtmcsDmihardreset => Sys2Proof.Machine.execDtmcsDmihardreset s
  | .dmiNop addr data => Sys2Proof.Machine.execDmiNop addr data s
  | .dmiRead addr data => Sys2Proof.Machine.execDmiRead addr data s
  | .dmiWrite addr data => Sys2Proof.Machine.execDmiWrite addr data s
  | .statusNoError data => Sys2Proof.Machine.execStatusNoError data s
  | .statusReserved data => Sys2Proof.Machine.execStatusReserved data s
  | .statusOpFailed data => Sys2Proof.Machine.execStatusOpFailed data s
  | .statusOpInterrupted data => Sys2Proof.Machine.execStatusOpInterrupted data s
  | .arRead regno => Sys2Proof.Machine.execArRead regno s
  | .arWrite regno => Sys2Proof.Machine.execArWrite regno s
  | .arReadPostinc regno => Sys2Proof.Machine.execArReadPostinc regno s
  | .arWritePostinc regno => Sys2Proof.Machine.execArWritePostinc regno s
  | .arPostexec => Sys2Proof.Machine.execArPostexec s
  | .cmderrNone acs => Sys2Proof.Machine.execCmderrNone acs s
  | .cmderrBusy acs => Sys2Proof.Machine.execCmderrBusy acs s
  | .cmderrNotSupported acs => Sys2Proof.Machine.execCmderrNotSupported acs s
  | .cmderrException acs => Sys2Proof.Machine.execCmderrException acs s
  | .cmderrHaltResume acs => Sys2Proof.Machine.execCmderrHaltResume acs s
  | .cmderrBus acs => Sys2Proof.Machine.execCmderrBus acs s
  | .cmderrReserved acs => Sys2Proof.Machine.execCmderrReserved acs s
  | .cmderrOther acs => Sys2Proof.Machine.execCmderrOther acs s
  | .acsClear => Sys2Proof.Machine.execAcsClear s
  | .autoexecSentinel => Sys2Proof.Machine.execAutoexecSentinel s
  | .autoexecArm => Sys2Proof.Machine.execAutoexecArm s
  | .autoexecDisarm => Sys2Proof.Machine.execAutoexecDisarm s
  | .dmcontrolHartsel index => Sys2Proof.Machine.execDmcontrolHartsel index s
  | .csrrsX1 csr => Sys2Proof.Machine.execCsrrsX1 csr s
  | .ebreak => Sys2Proof.Machine.execEbreak s
  | .hostAttach idcode => Sys2Proof.Machine.execHostAttach idcode s
  | .hostDetach => Sys2Proof.Machine.execHostDetach s
  | .hostDmiRead address => Sys2Proof.Machine.execHostDmiRead address s
  | .hostDmiWrite address word => Sys2Proof.Machine.execHostDmiWrite address word s
  | .hostRun commandWord => Sys2Proof.Machine.execHostRun commandWord s
  | .hostReadRegs baseId count => Sys2Proof.Machine.execHostReadRegs baseId count s
  | .hostWriteRegs baseId values => Sys2Proof.Machine.execHostWriteRegs baseId values s
  | .hostReadCsrProgbuf csrId => Sys2Proof.Machine.execHostReadCsrProgbuf csrId s
  | .hostSelectHart index => Sys2Proof.Machine.execHostSelectHart index s

end Sys2Proof.Machine
end

