-- ==== Sys2Proof/Machine/Fetch.lean ====
section
/-! DEFINITION. Where the next instruction comes from: a lone word of the wire if the block was given one (log 8), else
the host port (10_state.md R42). -/

namespace Sys2Proof.Machine

/-- What a fetch finds. -/
inductive Fetched where
  /-- No request has arrived. -/
  | waiting
  /-- An instruction, and the state once its word is taken. -/
  | instr (i : Instr) (s : State)
  /-- The word is no instruction. -/
  | refused (r : Refusal)
  deriving DecidableEq, Repr

/-- The address width a lone DMI word is read with: the session's (30_encoding.md R68, R70), or the widest where no
session has one (DESIGN CHOICE, log 8). It bounds the word and delimits the address of a request, which then stops in its
shift (`shiftDmi`); a captured word's address bits are ignored. -/
def State.fetchWidth (s : State) : Nat := s.addressBits.elim 63 BitVec.toNat

/-- A decoded word as what the fetch finds. -/
def Fetched.ofDecoded (d : Except Reject Instr) (s : State) : Fetched :=
  match d with
  | .ok i => .instr i s
  | .error why => .refused (.undecodable why)

/-- The state once the lone word is taken. -/
def State.takeWord (s : State) : State := { s with wire := none }

/-- The state once the first request is taken from the host port. -/
def State.takeRequest (s : State) : State := { s with hostQueue := s.hostQueue.tail }

/-- The next instruction. -/
def fetch (s : State) : Fetched :=
  match s.wire with
  | some w => .ofDecoded (decodeWire s.params s.fetchWidth w) s.takeWord
  | none =>
    match s.hostQueue with
    | [] => .waiting
    | w :: _ => .ofDecoded (decodeHost w) s.takeRequest

/-- The words that run without the DMI register: the IR words and the DTMCS words (30_encoding.md R64, R67). -/
def outsideDmi : Format → Bool
  | .ir | .dtmcsW => true
  | .dmiReq | .dmiRsp | .cmdAr | .acsRead | .acsWrite | .autoexec | .dmcontrol | .rv32 => false

/-- The block is given a lone word of the wire. A word that runs through the DMI register needs its width, and the idle
cycles where its shift is interrupted, so those two registers are written where they hold no value: the widest address,
and no idle clocks (DESIGN CHOICE, log 9). -/
def State.placeWire (s : State) (w : WireWord) : State :=
  if outsideDmi w.format then { s with wire := some w }
  else { s with
    wire := some w
    addressBits := some (s.addressBits.getD 63)
    idleCycles := some (s.idleCycles.getD 0) }

/-- A DMCONTROL word of the table, shown for DMCONTROL_BASE = 0, as this machine writes it (30_encoding.md R73). -/
def State.ownDmcontrol (s : State) (w : WireWord) : WireWord :=
  if w.format = .dmcontrol then
    { w with bits := (dmcontrolWord s.params (hartselDecode .doc (w.bits.setWidth 32))).setWidth 97 }
  else w

/-- The environment's answers, where none is listed: completed actions that capture zeros, more than any one table word
takes from reset (DESIGN CHOICE, log 9). -/
def State.withAnswers (s : State) : State :=
  if s.replies = [] then { s with replies := List.replicate 12 (.done (Vector.replicate 13 0)) } else s

/-- The machine is about to take a word: a request is the next on the host port, any other word is the lone word the
block is given. -/
def State.place (s : State) (w : RawWord) : State :=
  match w with
  | .host h => { s.withAnswers with wire := none, hostQueue := h :: s.hostQueue }
  | .wire w => s.withAnswers.placeWire (s.ownDmcontrol w)

end Sys2Proof.Machine
end

