-- ==== Sys2Proof/Machine/Step.lean ====
section
/-! DEFINITION. One step: the next instruction is fetched and run. A step that serves a request serves it to its
response (10_state.md R42, log 1). With no request waiting nothing changes (60_exceptions.md R201, log 3). -/

namespace Sys2Proof.Machine

/-- One step of the machine. -/
def step (s : State) : Host.Outcome State Fault Refusal :=
  match fetch s with
  | .waiting => .next s
  | .instr i t => exec i t
  | .refused r => .refused r

/-- `s` with the table's word placed where `step` fetches its next instruction (log 9). -/
def State.withFetchWord (s : State) (nbits w : Nat) : State := s.place (tableRawWord nbits w)

end Sys2Proof.Machine
end

