-- ==== Sys2Proof/Safety.lean ====
section
/-! DEFINITION. The terms the claims use: what the environment answers, what a run puts on the lower port, what it
leaves unchanged, and the invariant of the machine between steps (10_state.md R38). -/

namespace Sys2Proof.Machine

/-! ## What the environment answers -/

/-- The transport action completed. -/
def Reply.completes : Reply → Prop
  | .done _ => True
  | .failed => False

/-- The answer `r` to a shift of a DMI word is a capture with status `st` and data `d` (30_encoding.md R70). -/
def Reply.answers (A : Nat) (st : DmiStatus) (d : Word) : Reply → Prop
  | .done b =>
    dmiOp (unpackBytes (dmiWidth A) b.toList) = st.toBits ∧ dmiData (unpackBytes (dmiWidth A) b.toList) = d
  | .failed => False

/-- The answers `rs` all have status NO_ERROR, with the data `ds`. -/
def Quiet (A : Nat) (rs : List Reply) (ds : List Word) : Prop :=
  List.Forall₂ (fun r d => r.answers A .noError d) rs ds

/-- What `EnsureIR(0x11)` needs of the environment: nothing where the DMI register is selected, else one completed
selection (40_dmi_transaction.md R102). -/
def Selected (s : State) (pre : List Reply) : Prop :=
  (s.irCurrent = .dmi → pre = []) ∧ (s.irCurrent ≠ .dmi → ∃ b, pre = [.done b])

/-- The requests of the host port (30_encoding.md R88); every other instruction is a word of the wire. -/
def isRequest : Instr → Bool
  | .hostAttach _ | .hostDetach | .hostDmiRead _ | .hostDmiWrite _ _ | .hostRun _ | .hostReadRegs _ _
  | .hostWriteRegs _ _ | .hostReadCsrProgbuf _ | .hostSelectHart _ => true
  | .irDtmcs | .irDmi | .dtmcsRead | .dtmcsDmireset | .dtmcsDmihardreset | .dmiNop _ _ | .dmiRead _ _ | .dmiWrite _ _
  | .statusNoError _ | .statusReserved _ | .statusOpFailed _ | .statusOpInterrupted _ | .arRead _ | .arWrite _
  | .arReadPostinc _ | .arWritePostinc _ | .arPostexec | .cmderrNone _ | .cmderrBusy _ | .cmderrNotSupported _
  | .cmderrException _ | .cmderrHaltResume _ | .cmderrBus _ | .cmderrReserved _ | .cmderrOther _ | .acsClear
  | .autoexecSentinel | .autoexecArm | .autoexecDisarm | .dmcontrolHartsel _ | .csrrsX1 _ | .ebreak => false

/-- The request is admitted: ATTACH when Detached, every other one when Ready (30_encoding.md R88). -/
def Admitted (i : Instr) (s : State) : Prop :=
  match i with
  | .hostAttach _ => s.phase = .detached
  | _ => s.phase = .ready

/-! ## What a run puts on the lower port -/

/-- What a DMI shift with its recoveries takes from the session: `address_bits` and `idle_cycles` (10_state.md R22,
R23). -/
structure Link where
  abits : BitVec 6
  idle  : BitVec 3
  deriving DecidableEq, Repr

/-- A, the address width. -/
def Link.A (lk : Link) : Nat := lk.abits.toNat

/-- Both registers are written, and so is the replay word where one is recorded: what the recoveries of a DMI shift read
(00_scope.md R16). -/
structure Linked (s : State) (lk : Link) : Prop where
  abits : s.addressBits = some lk.abits
  idle : s.idleCycles = some lk.idle
  last : s.lastValid = true → s.lastDmiCommand.isSome

/-- The selections of IR 0x11 with their answers. -/
def selectLines (pre : List Reply) : List (Action × Reply) := pre.map fun r => (.writeIr irCodeDmi, r)

/-- `SOFT_RESET` with its answers (30_encoding.md R87). -/
def softResetLines (a b : Reply) : List (Action × Reply) :=
  [(.writeIr irCodeDtmcs, a), (.shiftDr (packBytes 32 (dtmcsDmiresetValue.setWidth 97)) 32, b)]

/-- One DMI word shifted, with its answer (30_encoding.md R87). -/
def dmiLine (A : Nat) (w : DmiWord) (r : Reply) : Action × Reply :=
  (.shiftDr (packBytes (dmiWidth A) w) (dmiWidth A), r)

/-- `IR 0x10` and one DTMCS shift of `v`, with their answers (30_encoding.md R87). -/
def dtmcsLines (v : Word) (a b : Reply) : List (Action × Reply) :=
  [(.writeIr 0x10, a), (.shiftDr (packBytes 32 (v.setWidth 97)) 32, b)]

/-- `RD a` (30_encoding.md R87). -/
def readWords (A a : Nat) : List DmiWord := [dmiEncode 1 a 0 A, dmiEncode 0 0 0 A]

/-- `WR a, v` (30_encoding.md R87). -/
def writeWords (A a : Nat) (v : Word) : List DmiWord := [dmiEncode 2 a v A]

/-- The words `ws` were shifted one after the other, after the selection if one was needed, each answered NO_ERROR,
with nothing between them: the trace, the answers left, the replay register and the selected JTAG instruction show it
(40_dmi_transaction.md R97, R102). -/
structure Shifted (s t : State) (A : Nat) (ws : List DmiWord) (pre rs rest : List Reply) : Prop where
  trace : t.trace = s.trace ++ selectLines pre ++ List.zipWith (dmiLine A) ws rs
  replies : t.replies = rest
  last : t.lastDmiCommand = ws.getLast?
  valid : t.lastValid = true
  ir : t.irCurrent = .dmi

/-! ## Interrupted shifts (40_dmi_transaction.md R98) -/

/-- The actions of one recovery: the soft reset, the selection, the replay of `w`, and the idle clocks. -/
def recoveryActions (lk : Link) (w : DmiWord) : List Action :=
  [.writeIr irCodeDtmcs, .shiftDr (packBytes 32 (dtmcsDmiresetValue.setWidth 97)) 32, .writeIr irCodeDmi,
    .shiftDr (packBytes (dmiWidth lk.A) w) (dmiWidth lk.A)]
    ++ (if 2 ≤ lk.idle.toNat then [.idleClock (lk.idle.toNat - 1)] else [])

/-- One interrupted shift with its recovery: the answer to the shift and the answers to the recovery's actions. -/
structure Round where
  shift    : Reply
  recovery : List Reply
  deriving DecidableEq, Repr

/-- The shift was answered OP_INTERRUPTED and every action of the recovery completed. -/
def Round.Recovers (lk : Link) (w : DmiWord) (q : Round) : Prop :=
  (∃ d, q.shift.answers lk.A .opInterrupted d) ∧ q.recovery.length = (recoveryActions lk w).length
    ∧ ∀ r ∈ q.recovery, r.completes

/-- The answers of interrupted shifts of a command. -/
def roundReplies (qs : List Round) : List Reply := qs.flatMap fun q => q.shift :: q.recovery

/-- What interrupted shifts of `cmd` with replay word `w` put on the lower port. -/
def roundLines (lk : Link) (cmd w : DmiWord) (qs : List Round) : List (Action × Reply) :=
  qs.flatMap fun q => dmiLine lk.A cmd q.shift :: (recoveryActions lk w).zip q.recovery

/-! ## Polls and commands (42_abstract_command.md R134, R135) -/

/-- The answers of one `WaitIdle` that ends: the reads that saw busy, and the read that did not. Each read has the data
of two shifts. -/
structure Poll where
  busy  : List (Word × Word)
  stale : Word
  acs   : Word
  deriving DecidableEq, Repr

/-- The words of the poll. -/
def Poll.words (A : Nat) (q : Poll) : List DmiWord :=
  (List.replicate (q.busy.length + 1) (readWords A addrAbstractCs)).flatten

/-- The data of its answers. -/
def Poll.data (q : Poll) : List Word := q.busy.flatMap (fun b => [b.1, b.2]) ++ [q.stale, q.acs]

/-- The poll ends within POLL_MAX reads (R135). -/
def Poll.Ends (p : Params) (q : Poll) : Prop :=
  (∀ b ∈ q.busy, acsBusy b.2 = true) ∧ q.busy.length < p.pollMax ∧ acsBusy q.acs = false

/-- One issue of a command: the ABSTRACT_CMD write and its poll. -/
structure Attempt where
  issue : Word
  poll  : Poll
  deriving DecidableEq, Repr

/-- The words of the attempt. -/
def Attempt.words (A : Nat) (cmd : Word) (q : Attempt) : List DmiWord :=
  writeWords A addrAbstractCmd cmd ++ q.poll.words A

/-- The data of its answers. -/
def Attempt.data (q : Attempt) : List Word := q.issue :: q.poll.data

/-- A run of a command: the attempts rejected as busy, each with the data of its clear write, and the last one. -/
structure Command where
  rejected : List (Attempt × Word)
  last     : Attempt
  deriving DecidableEq, Repr

/-- The words of the rejected attempts and their clears (R134, R137). -/
def rejectedWords (A : Nat) (cmd : Word) (qs : List (Attempt × Word)) : List DmiWord :=
  qs.flatMap fun q => q.1.words A cmd ++ writeWords A addrAbstractCs cmderrClearWord

/-- The data of their answers. -/
def rejectedData (qs : List (Attempt × Word)) : List Word := qs.flatMap fun q => q.1.data ++ [q.2]

/-- The attempts end their polls with cmderr busy. -/
def Rejected (p : Params) (qs : List (Attempt × Word)) : Prop :=
  ∀ q ∈ qs, q.1.poll.Ends p ∧ acsCmderr q.1.poll.acs = .busy

/-- The words of the run. -/
def Command.words (A : Nat) (cmd : Word) (c : Command) : List DmiWord :=
  rejectedWords A cmd c.rejected ++ c.last.words A cmd

/-- The data of its answers. -/
def Command.data (c : Command) : List Word := rejectedData c.rejected ++ c.last.data

/-- The run ends with cmderr `e` after at most BUSY_RETRY_MAX re-issues (R134, R138). -/
def Command.Ends (p : Params) (e : CmdErr) (c : Command) : Prop :=
  Rejected p c.rejected ∧ c.rejected.length ≤ p.busyRetryMax ∧ c.last.poll.Ends p ∧ acsCmderr c.last.poll.acs = e

/-! ## Register accesses (43_register_access.md) -/

/-- The answers of a None-mode read (R144). -/
structure OneRead where
  command : Command
  stale   : Word
  value   : Word
  deriving DecidableEq, Repr

/-- The words of a None-mode read of register `r`. -/
def OneRead.words (A : Nat) (r : BitVec 16) (q : OneRead) : List DmiWord :=
  q.command.words A (arReadWord r) ++ readWords A addrData0

/-- The data of its answers. -/
def OneRead.data (q : OneRead) : List Word := q.command.data ++ [q.stale, q.value]

/-- The answers of a None-mode write (R145). -/
structure OneWrite where
  put     : Word
  command : Command
  deriving DecidableEq, Repr

/-- The words of a None-mode write of `v` to register `r`. -/
def OneWrite.words (A : Nat) (r : BitVec 16) (v : Word) (q : OneWrite) : List DmiWord :=
  writeWords A addrData0 v ++ q.command.words A (arWriteWord r)

/-- The data of its answers. -/
def OneWrite.data (q : OneWrite) : List Word := q.put :: q.command.data

/-- The words of the None-mode reads from register `k` on (R154). -/
def noneReadWords (A : Nat) (base : BitVec 16) : List OneRead → Nat → List DmiWord
  | [], _ => []
  | q :: qs, k => q.words A (regnoAt base k) ++ noneReadWords A base qs (k + 1)

/-- The words of the None-mode writes from register `k` on (R155). -/
def noneWriteWords (A : Nat) (base : BitVec 16) : List (Word × OneWrite) → Nat → List DmiWord
  | [], _ => []
  | q :: qs, k => q.2.words A (regnoAt base k) q.1 ++ noneWriteWords A base qs (k + 1)

/-- The answers to one data0 read of a batch and the poll after it (R146, R147). -/
structure BatchStep where
  stale : Word
  value : Word
  poll  : Poll
  deriving DecidableEq, Repr

/-- The words of the data0 reads of a batch and their polls. -/
def batchReadWords (A : Nat) (qs : List BatchStep) : List DmiWord :=
  qs.flatMap fun q => readWords A addrData0 ++ q.poll.words A

/-- The data of their answers. -/
def batchReadData (qs : List BatchStep) : List Word := qs.flatMap fun q => [q.stale, q.value] ++ q.poll.data

/-- The words of the data0 writes of a batch and their polls, each with the value written and the data of the write's
answer (R149). -/
def batchWriteWords (A : Nat) (qs : List (Word × Word × Poll)) : List DmiWord :=
  qs.flatMap fun q => writeWords A addrData0 q.1 ++ q.2.2.words A

/-- The data of their answers. -/
def batchWriteData (qs : List (Word × Word × Poll)) : List Word := qs.flatMap fun q => q.2.1 :: q.2.2.data

/-- The clear writes after a poll that ended with the code `e`: none, or one (R151). -/
def clearWords (A : Nat) (e : CmdErr) : List DmiWord :=
  if e = .none then [] else writeWords A addrAbstractCs cmderrClearWord

/-! ## Program-buffer CSR reads and discovery -/

/-- The words of `Upload` (44_progbuf_csr.md R159). -/
def uploadWords (A : Nat) (impebreak : Bool) (w : Word) : List DmiWord :=
  writeWords A addrProgbuf0 w ++ (if impebreak then [] else writeWords A addrProgbuf1 ebreakWord)

/-- The data of the answers to one candidate of the scan: the DMCONTROL write and the DMSTATUS read
(45_hart_manager.md R171). -/
structure Candidate where
  select   : Word
  stale    : Word
  dmstatus : Word
  deriving DecidableEq, Repr

/-- The words of the candidates from index `i` on. -/
def scanWords (A : Nat) (p : Params) : List Candidate → Nat → List DmiWord
  | [], _ => []
  | _ :: cs, i =>
    writeWords A addrDmcontrol (dmcontrolWord p (BitVec.ofNat 20 i)) ++ readWords A addrDmstatus
      ++ scanWords A p cs (i + 1)

/-- The data of their answers. -/
def scanData (cs : List Candidate) : List Word := cs.flatMap fun c => [c.select, c.stale, c.dmstatus]

/-- The scan over `found` then `stop`: the candidates found exist, within the width read back and the capacity, and
the scan stops at a nonexistent candidate or at the first of the two limits (R171, R172). -/
def ScanEnds (p : Params) (hartsellen : BitVec 20) (found stop : List Candidate) : Prop :=
  (∀ c ∈ found, dmstatusAnynonexistent c.dmstatus = false)
    ∧ found.length ≤ min (hartsellen.toNat + 1) p.hartCapacity
    ∧ (if found.length = min (hartsellen.toNat + 1) p.hartCapacity then stop = []
      else ∃ c, stop = [c] ∧ dmstatusAnynonexistent c.dmstatus = true)

/-! ## Frames -/

/-- The registers that negotiation and discovery write once per session (10_state.md R39, 70_reset_and_hazards.md
R204) hold what they held, and so does the phase. -/
structure SameSession (s t : State) : Prop where
  phase : t.phase = s.phase
  idcode : t.idcode = s.idcode
  dtmVersion : t.dtmVersion = s.dtmVersion
  debugVersion : t.debugVersion = s.debugVersion
  idleCycles : t.idleCycles = s.idleCycles
  addressBits : t.addressBits = s.addressBits
  programBufferSize : t.programBufferSize = s.programBufferSize
  impebreak : t.impebreak = s.impebreak
  abstractDataCount : t.abstractDataCount = s.abstractDataCount
  autoexecSupported : t.autoexecSupported = s.autoexecSupported
  progbufCsrEnabled : t.progbufCsrEnabled = s.progbufCsrEnabled
  hartsellen : t.hartsellen = s.hartsellen

/-- What no instruction changes, whatever becomes of the session: the lone word not yet taken, the parameters, the
requests not yet taken and the discovery index (which only ATTACH uses). -/
structure SameHost (s t : State) : Prop where
  wire : t.wire = s.wire
  params : t.params = s.params
  hostQueue : t.hostQueue = s.hostQueue
  discoveryIndex : t.discoveryIndex = s.discoveryIndex

/-- The session, the hart table, the current hart and the fields of `SameHost` are what they were. What is left may
change: the replay register, the selected JTAG instruction, the step label, the sequencer's counters and operands, and
the records. -/
structure SameButWire (s t : State) : Prop extends SameSession s t, SameHost s t where
  harts : t.harts = s.harts
  currentHart : t.currentHart = s.currentHart

/-- The DMI layer's registers and the operands above it are what they were (40_dmi_transaction.md R97). -/
structure SameReplay (s t : State) : Prop where
  lastDmiCommand : t.lastDmiCommand = s.lastDmiCommand
  lastValid : t.lastValid = s.lastValid

/-- Nothing is in service, the step label is idle and no obligation is in force (10_state.md R36, 60_exceptions.md R185,
R187). -/
structure AtRest (t : State) : Prop where
  req : t.req = none
  label : t.label = []
  pending : t.pending = []
  primaryError : t.primaryError = none

/-- The operation that no request asked for ended with `r`: nothing went to the host. -/
structure Ended (s t : State) (r : Response) : Prop extends AtRest t where
  result : t.result = some r
  hostOut : t.hostOut = s.hostOut

/-- The request ended with the response `r`, sent after the diagnostics `ds`. -/
structure Answered (s t : State) (ds : List Diag) (r : Response) : Prop extends AtRest t where
  result : t.result = some r
  hostOut : t.hostOut = s.hostOut ++ ds.map .diag ++ [.response r]

/-- The session is destroyed: every session register, the hart table and the current hart are at their reset values
(10_state.md R44). -/
structure SessionGone (t : State) : Prop where
  phase : t.phase = .detached
  idcode : t.idcode = none
  dtmVersion : t.dtmVersion = none
  debugVersion : t.debugVersion = none
  idleCycles : t.idleCycles = none
  addressBits : t.addressBits = none
  programBufferSize : t.programBufferSize = none
  impebreak : t.impebreak = none
  abstractDataCount : t.abstractDataCount = none
  autoexecSupported : t.autoexecSupported = none
  progbufCsrEnabled : t.progbufCsrEnabled = none
  lastDmiCommand : t.lastDmiCommand = none
  lastValid : t.lastValid = false
  irCurrent : t.irCurrent = .none
  hartsellen : t.hartsellen = none
  harts : t.harts = []
  currentHart : t.currentHart = none

/-- The last DMI word that the run put on the lower port is the disarm write, with the answer `r`; after it comes at
most a soft reset (43_register_access.md R150, 40_dmi_transaction.md R99, R100). -/
def DisarmedLast (A : Nat) (s t : State) : Prop :=
  ∃ (before : List (Action × Reply)) (r : Reply) (tail : List (Action × Reply)),
    t.trace = s.trace ++ before ++ [dmiLine A (dmiEncode 2 0x18 0x00000000 A) r] ++ tail
      ∧ (tail = [] ∨ ∃ a b, tail = softResetLines a b)

/-- A transport action failed at the end of the run, and nothing was issued after it; every action before it
completed (40_dmi_transaction.md R101, 60_exceptions.md R187). -/
def StopsAtFailure (s t : State) : Prop :=
  ∃ (done : List (Action × Reply)) (a : Action),
    t.trace = s.trace ++ done ++ [(a, .failed)] ∧ ∀ x ∈ done, x.2.completes

/-- Every transport action of the run completed. -/
def AllComplete (s t : State) : Prop :=
  ∃ done : List (Action × Reply), t.trace = s.trace ++ done ∧ ∀ x ∈ done, x.2.completes

/-- The transport actions of a session: the two IR codes, shifts of the two widths, and the idle clocks of a recovery
(30_encoding.md R64, R86; 40_dmi_transaction.md R112). -/
def State.emits (s : State) : Action → Prop
  | .writeIr c => c = irCodeDtmcs ∨ c = irCodeDmi
  | .shiftDr _ n => n = 32 ∨ ∃ a, s.addressBits = some a ∧ n = dmiWidth a.toNat
  | .idleClock n => ∃ i, s.idleCycles = some i ∧ 2 ≤ i.toNat ∧ n = i.toNat - 1

/-! ## Moves of the step label (00_scope.md R15) -/

/-- The values the label takes from the classification of an interrupted capture on, through one recovery and its
`goto SHIFT`, to the classification of the next capture (40_dmi_transaction.md R92, R95). -/
def recoveryMoves (caller : List Line) : List (List Line) :=
  movesAt 95 [10, 11, 14, 15] caller ++ movesAt 92 [1, 2] (⟨95, 15⟩ :: caller)
    ++ movesAt 95 [16, 17, 18, 19, 3, 4, 5, 6] caller

/-- The values the label takes in a DMI shift up to the classification of its first capture, the selection's line
among them (40_dmi_transaction.md R95, R102). -/
def shiftMoves (caller : List Line) : List (List Line) :=
  movesAt 95 [1, 2] caller ++ movesAt 102 [1] (⟨95, 2⟩ :: caller) ++ movesAt 95 [3, 4, 5, 6] caller

/-! ## Groups of instructions -/

/-- The DMI words of the three request instructions (R69). -/
def dmiWordOf (A : Nat) (i : Instr) (w : DmiWord) : Prop :=
  (∃ addr data, i = .dmiNop addr data ∧ w = dmiEncode 0 addr.toNat data A)
  ∨ (∃ addr data, i = .dmiRead addr data ∧ w = dmiEncode 1 addr.toNat data A)
  ∨ (∃ addr data, i = .dmiWrite addr data ∧ w = dmiEncode 2 addr.toNat data A)

/-- The register and the value of each of the seven words (R46, R73, R80, R83, R84, R137, R159). -/
def registerWrite (p : Params) (i : Instr) (address : Nat) (word : Word) : Prop :=
  (i = .acsClear ∧ address = 0x16 ∧ word = 0x00000700)
  ∨ (i = .autoexecSentinel ∧ address = 0x18 ∧ word = 0x00000AAA)
  ∨ (i = .autoexecArm ∧ address = 0x18 ∧ word = 0x00000001)
  ∨ (i = .autoexecDisarm ∧ address = 0x18 ∧ word = 0x00000000)
  ∨ (∃ h, i = .dmcontrolHartsel h ∧ address = 0x10 ∧ word = p.dmcontrolBase ||| hartselField p.hartselLayout h)
  ∨ (∃ csr : BitVec 12, i = .csrrsX1 csr ∧ address = 0x20 ∧ word = csr.setWidth 32 <<< 20 ||| 0x000020F3)
  ∨ (i = .ebreak ∧ address = 0x21 ∧ word = 0x00100073)

/-- The five command words (R79). -/
def commandOf (i : Instr) (word : Word) : Prop :=
  (∃ r : BitVec 16, (i = .arRead r ∧ word = 0x00220000 ||| r.setWidth 32)
    ∨ (i = .arWrite r ∧ word = 0x00230000 ||| r.setWidth 32)
    ∨ (i = .arReadPostinc r ∧ word = 0x002A0000 ||| r.setWidth 32)
    ∨ (i = .arWritePostinc r ∧ word = 0x002B0000 ||| r.setWidth 32))
  ∨ (i = .arPostexec ∧ word = 0x00241000)

/-- The error kind of each code that is surfaced (R136). -/
def surfaced (acs : AcsFields) (i : Instr) (kind : AbstractKind) : Prop :=
  (i = .cmderrNotSupported acs ∧ kind = .notSupported) ∨ (i = .cmderrException acs ∧ kind = .exception)
  ∨ (i = .cmderrHaltResume acs ∧ kind = .haltResume) ∨ (i = .cmderrBus acs ∧ kind = .bus)
  ∨ (i = .cmderrReserved acs ∧ kind = .other) ∨ (i = .cmderrOther acs ∧ kind = .other)

/-- The eight words (R77). -/
def cmderrWord (acs : AcsFields) (i : Instr) : Prop :=
  i = .cmderrNone acs ∨ i = .cmderrBusy acs ∨ i = .cmderrNotSupported acs ∨ i = .cmderrException acs
  ∨ i = .cmderrHaltResume acs ∨ i = .cmderrBus acs ∨ i = .cmderrReserved acs ∨ i = .cmderrOther acs

/-- The hart table once entry `h` has x1's value `b` backed up (R162): the other entries, and the later slots of this
one, keep what they held. -/
def backedUpX1 (s t : State) (h : Nat) (b : Word) : Prop :=
  ∃ e, s.harts[h]? = some e
    ∧ t.harts = s.harts.set h { e with registerBackup := b :: e.registerBackup.drop 1, backupLen := 1 }

/-! ## The invariant between steps -/

/-- A DMI word of the session's width. -/
def State.fits (s : State) (w : DmiWord) : Prop := ∃ a, s.addressBits = some a ∧ w.toNat < 2 ^ dmiWidth a.toNat

/-- The hart table is in order: entry `k` has index `k`, within the capacity and the width read back, `hart_id` is not
filled, and every backup fits 31 slots and was written where `backup_len` says (10_state.md R32 to R34, R38). -/
structure HartsInOrder (s : State) : Prop where
  capacity : s.harts.length ≤ s.params.hartCapacity
  width : ∃ n, s.hartsellen = some n ∧ s.harts.length ≤ n.toNat + 1
  index : ∀ (k : Nat) (e : HartEntry), s.harts[k]? = some e → e.index = k
  hartId : ∀ e ∈ s.harts, e.hartId = none
  backup : ∀ e ∈ s.harts, e.registerBackup.length ≤ maxBackup ∧ e.backupLen ≤ e.registerBackup.length

/-- What a Ready session holds (10_state.md R38, 70_reset_and_hazards.md R204): every register is written, the bounds
hold, and the DMI words recorded have the session's width. -/
structure ReadySession (s : State) : Prop where
  idcode : s.idcode.isSome
  dtmVersion : s.dtmVersion.isSome
  debugVersion : s.debugVersion = some .v0_13
  autoexecSupported : s.autoexecSupported.isSome
  capabilities : ∃ dc pb imp, s.abstractDataCount = some dc ∧ s.programBufferSize = some pb
    ∧ s.impebreak = some imp ∧ capabilitiesValid dc pb imp = true
    ∧ s.progbufCsrEnabled = some (progbufCsrFlag pb)
  idleCycles : s.idleCycles.isSome
  last : ∃ w, s.lastDmiCommand = some w ∧ s.fits w
  cmd : s.fits s.dmiCmd
  lastValid : s.lastValid = true
  ir : s.irCurrent ≠ .none
  harts : HartsInOrder s
  currentHart : ∃ h, s.currentHart = some h ∧ (h < s.harts.length ∨ h = 0)

/-- The invariant: between steps nothing is in service; the block is Detached with nothing left of a session, or Ready
with a whole one; and it is given a lone word of the wire only in a session. -/
structure MachineInv (s : State) : Prop extends AtRest s where
  phase : (s.phase = .detached ∧ s.wire = none ∧ SessionGone s) ∨ (s.phase = .ready ∧ ReadySession s)

end Sys2Proof.Machine
end

