-- ==== Sys2Proof/Certificates/Slice0/Obligations.lean ====
section
/-! DEFINITION. The statements for the provers. Each docstring names the rules of spec/ it formalises. In a statement
about an instruction, `s.addressBits = some lk.abits` says that the width of a DMI word is written, and `Linked s lk`
that the registers a recovery reads are written too (in every Ready session both hold); `Selected s pre` gives the answers
that EnsureIR takes, and `Quiet A rs ds` says that every DMI shift is answered NO_ERROR with the data `ds`. -/

open Sys2Proof Sys2Proof.Machine

/-! ## Encodings -/

/-- Decoding an instruction's words gives the instruction, for every operand the encoding admits and every address
width (R72, R73, R78 to R80, R83, R84, R88). -/
def Obligations.EncodeThenDecode : Prop :=
  ∀ (p : Params) (A : Nat) (i : Instr), A ≤ 63 → i.wf A = true → decode p A (encode p A i) = .ok i

/-- Where a word decodes, it is the word of the instruction it decodes to: no other word is taken for one (R64, R67,
R79, R80, R85). Captured words are left out: the bits the block ignores are free there (R70, R85). -/
def Obligations.DecodedWordIsTheEncoding : Prop :=
  ∀ (p : Params) (A : Nat) (i : Instr), A ≤ 63 →
    (∀ w : WireWord, w.format ≠ .dmiRsp → w.format ≠ .acsRead → decodeWire p A w = .ok i → encode p A i = .wire w)
    ∧ (∀ w : HostWord, decodeHost w = .ok i → encode p A i = .host w)

/-- R72: `dmi_encode` as a number, and `dmi_decode` undoes it for every address below `2^A`. -/
def Obligations.DmiWordFields : Prop :=
  ∀ (A : Nat) (op : BitVec 2) (addr : Nat) (data : Word), A ≤ 63 →
    (dmiEncode op addr data A).toNat = (addr % 2 ^ A) * 2 ^ 34 + data.toNat * 2 ^ 2 + op.toNat
    ∧ (addr < 2 ^ A → dmiDecode (dmiEncode op addr data A) A = (op, data, addr))

/-- R73: the two halves of hart-select, their decoding, the DMCONTROL write word, and the all-ones word of either
layout. -/
def Obligations.HartselWord : Prop :=
  (∀ i : BitVec 20,
    (hartselField .doc i).extractLsb' 6 10 = i.extractLsb' 0 10
    ∧ (hartselField .doc i).extractLsb' 16 10 = i.extractLsb' 10 10
    ∧ hartselField .doc i &&& 0xFC00003F = 0)
  ∧ (∀ w : Word, hartselDecode .doc w = w.extractLsb' 16 10 ++ w.extractLsb' 6 10)
  ∧ (∀ (p : Params) (i : BitVec 20),
    dmcontrolWord p i = p.dmcontrolBase ||| hartselField p.hartselLayout i
    ∧ hartselDecode p.hartselLayout (dmcontrolWord p i) = i
    ∧ dmcontrolWord p i &&& 0xFC00003F = p.dmcontrolBase)
  ∧ (∀ l : HartselLayout, hartselField l 0xFFFFF = 0x03FFFFC0)

/-- R50: `TxShift` passes its value as `ceil(n/8)` bytes, bit `j` of the value in byte `j div 8` at bit `j mod 8`, the
bits above zero when sent and ignored when received, and the captured buffer is read back the same way. -/
def Obligations.ShiftBufferLayout : Prop :=
  ∀ n : Nat, n ≤ 97 →
    (∀ (v : DmiWord) (s : State) (b : Buffer) (rest : List Reply), s.replies = .done b :: rest →
      ∃ t, txShift n v s = .ok (unpackBytes n b.toList) t
        ∧ t.trace = s.trace ++ [(.shiftDr (packBytes n v) n, .done b)] ∧ t.replies = rest)
    ∧ (∀ v : DmiWord,
      (packBytes n v).length = (n + 7) / 8
      ∧ ∀ (j : Nat) (b : Byte), (packBytes n v)[j / 8]? = some b →
          b.getLsbD (j % 8) = (decide (j < n) && v.getLsbD j))
    ∧ ∀ (bs : List Byte) (j : Nat),
        (unpackBytes n bs).getLsbD j = (decide (j < n) && (bs.getD (j / 8) 0).getLsbD (j % 8))

/-- R78, R79: the five command words, and no other word decodes as one. -/
def Obligations.CommandForms : Prop :=
  ∀ (w : Word) (i : Instr), decodeCmdAr w = .ok i ↔
    (w = 0x00241000 ∧ i = .arPostexec)
    ∨ ∃ r : BitVec 16,
      (w = 0x00220000 ||| r.setWidth 32 ∧ i = .arRead r)
      ∨ (w = 0x00230000 ||| r.setWidth 32 ∧ i = .arWrite r)
      ∨ (w = 0x002A0000 ||| r.setWidth 32 ∧ i = .arReadPostinc r)
      ∨ (w = 0x002B0000 ||| r.setWidth 32 ∧ i = .arWritePostinc r)

/-- Words written out from the spec's encodings decode to what they stand for (R64, R67, R69, R70, R73, R76, R79, R80,
R83, R84, R88), with an address width of 7. -/
def Obligations.WordsOfTheSpecDecode : Prop :=
  decode tableParams 7 (.wire ⟨.ir, 0x11⟩) = .ok .irDmi
  ∧ decode tableParams 7 (.wire ⟨.dtmcsW, 0x00010000⟩) = .ok .dtmcsDmireset
  ∧ decode tableParams 7 (.wire ⟨.dmiReq, 0x4400000001⟩) = .ok (.dmiRead 0x11 0)
  ∧ decode tableParams 7 (.wire ⟨.dmiReq, 0x400FFFFF02⟩) = .ok (.dmiWrite 0x10 0x03FFFFC0)
  ∧ decode tableParams 7 (.wire ⟨.dmiRsp, 0x00001000208⟩) = .ok (.statusNoError 0x00400082)
  ∧ decode tableParams 7 (.wire ⟨.cmdAr, 0x00231001⟩) = .ok (.arWrite 0x1001)
  ∧ decode tableParams 7 (.wire ⟨.acsRead, 0x01001302⟩)
    = .ok (.cmderrException { datacount := 2, busy := true, progbufsize := 1 })
  ∧ decode tableParams 7 (.wire ⟨.autoexec, 0xAAA⟩) = .ok .autoexecSentinel
  ∧ decode tableParams 7 (.wire ⟨.dmcontrol, 0x00010040⟩) = .ok (.dmcontrolHartsel 0x401)
  ∧ decode tableParams 7 (.wire ⟨.rv32, 0xF14020F3⟩) = .ok (.csrrsX1 0xF14)
  ∧ decode tableParams 7 (.wire ⟨.rv32, 0x00100073⟩) = .ok .ebreak
  ∧ decode tableParams 7 (.host ⟨0x04, [0x18, 0]⟩) = .ok (.hostDmiWrite 0x18 0)

/-! ## The step -/

/-- A step runs the instruction it decodes: the lone word of the wire where the block was given one, which is taken, else
the request at the head of the host port, which is taken; a word that is no instruction is refused by name; with no
request waiting nothing changes. A DMI word is read with the session's address width, or with 63, the model's choice, where
no session has one; no other word depends on it (R36, R42, R201; logs 1, 3, 8, 14). -/
def Obligations.StepRunsDecoded : Prop :=
  ∀ s : State,
    (∀ (w : HostWord) (q : List HostWord) (i : Instr), s.wire = none → s.hostQueue = w :: q → decodeHost w = .ok i →
      step s = exec i { s with hostQueue := q })
    ∧ (∀ (w : WireWord) (i : Instr), s.wire = some w → decodeWire s.params s.fetchWidth w = .ok i →
      step s = exec i { s with wire := none })
    ∧ (∀ (w : HostWord) (q : List HostWord) (why : Reject), s.wire = none → s.hostQueue = w :: q →
      decodeHost w = .error why → step s = .refused (.undecodable why))
    ∧ (∀ (w : WireWord) (why : Reject), s.wire = some w → decodeWire s.params s.fetchWidth w = .error why →
      step s = .refused (.undecodable why))
    ∧ (s.wire = none → s.hostQueue = [] → step s = .next s)
    ∧ (∀ a : BitVec 6, s.addressBits = some a → s.fetchWidth = a.toNat)
    ∧ (s.addressBits = none → s.fetchWidth = 63)
    ∧ (∀ (w : WireWord) (A : Nat), w.format ≠ .dmiReq → w.format ≠ .dmiRsp →
      decodeWire s.params A w = decodeWire s.params 0 w)

/-! ## Reset and the invariant -/

/-- R44: the Detached state and its four entries: power-up, DETACH, a failed ATTACH, and TransportFailure in a Ready
session. -/
def Obligations.DetachedStateEntries : Prop :=
  (SessionGone State.reset ∧ State.reset.req = none ∧ State.reset.primaryError = none)
  ∧ (∀ s : State, s.phase = .ready → ∃ t, exec .hostDetach s = .next t ∧ SessionGone t ∧ AtRest t)
  ∧ (∀ (s t : State) (idcode : Word) (e : Error), s.phase = .detached → exec (.hostAttach idcode) s = .next t →
      t.result = some (.err e) → SessionGone t ∧ AtRest t)
  ∧ (∀ (i : Instr) (s t : State), isRequest i = true → s.phase = .ready → exec i s = .next t →
      t.result = some (.err .transportFailure) → SessionGone t ∧ AtRest t)

/-- The machine after reset meets the invariant. -/
def Obligations.ResetMeetsInvariant : Prop := MachineInv State.reset

/-- Every step keeps the invariant (R38, R185, R187, R204): Detached with nothing left of a session, or Ready with
every session register written, the capability bounds, the hart table in order and the DMI words of the session's
width; nothing in service, and the step label idle (one step serves a whole request, log 1). -/
def Obligations.StepKeepsInvariant : Prop := ∀ s t : State, MachineInv s → step s = .next t → MachineInv t

/-- R16, R204: no step from a state that meets the invariant reads a session register that holds no value, or a backup
slot that no backup has written. A DMI request word run alone, which is the model's choice (log 8), where no session has
an address width: the shift of R95 is that wide, so the step stops with the fault of R16, and it keeps nothing (log 6). -/
def Obligations.NoUnwrittenRead : Prop :=
  (∀ (s : State) (f : Fault), MachineInv s → step s ≠ .fault f)
  ∧ ∀ (s : State) (i : Instr), s.addressBits = none →
    (∃ (a : BitVec 63) (d : Word), i = .dmiNop a d ∨ i = .dmiRead a d ∨ i = .dmiWrite a d) →
    exec i s = .fault (.unwrittenRead .addressBits)

/-! ## Transport words -/

/-- R30, R64 (log 8): an IR word selects its register; the session, the hart table and the replay register stay. -/
def Obligations.IrWordsSelect : Prop :=
  ∀ (s : State) (i : Instr) (code : Byte) (sel : IrSel) (r : Reply) (rest : List Reply),
    (i = .irDtmcs ∧ code = 0x10 ∧ sel = .dtmcs) ∨ (i = .irDmi ∧ code = 0x11 ∧ sel = .dmi) →
    s.replies = r :: rest → r.completes →
    ∃ t, exec i s = .next t ∧ t.trace = s.trace ++ [(.writeIr code, r)] ∧ t.replies = rest ∧ t.irCurrent = sel
      ∧ SameReplay s t ∧ SameButWire s t ∧ Ended s t (.ok .unit)

/-- R92, R93, R94 (log 8): the three DTMCS words: IR 0x10, one 32-bit shift of the value; DTMCS.READ answers the
captured word. The replay register keeps its value. -/
def Obligations.DtmcsWordsShift : Prop :=
  ∀ (s : State) (i : Instr) (v : Word) (a : Reply) (b : Buffer) (rest : List Reply) (out : Value),
    (i = .dtmcsRead ∧ v = 0x00000000 ∧ out = .word ((unpackBytes 32 b.toList).setWidth 32))
    ∨ (i = .dtmcsDmireset ∧ v = 0x00010000 ∧ out = .unit)
    ∨ (i = .dtmcsDmihardreset ∧ v = 0x00020000 ∧ out = .unit) →
    s.replies = a :: .done b :: rest → a.completes →
    ∃ t, exec i s = .next t ∧ t.trace = s.trace ++ dtmcsLines v a (.done b) ∧ t.replies = rest ∧ t.irCurrent = .dtmcs
      ∧ SameReplay s t ∧ SameButWire s t ∧ Ended s t (.ok out)

/-! ## DMI words -/

/-- R15, R91, R97, R102, R106 (logs 1 and 8): a DMI word answered NO_ERROR: IR 0x11 is selected unless it is, the word is
shifted once, it becomes the replay word, and the captured data is the result; the step label moves through lines 1 to 9
of `DmiShift`, with line 1 of `EnsureIR` under line 2. -/
def Obligations.DmiWordsShift : Prop :=
  ∀ (s : State) (lk : Link) (i : Instr) (w : DmiWord) (d : Word) (pre rest : List Reply) (r : Reply),
    dmiWordOf lk.A i w → s.addressBits = some lk.abits → Selected s pre → s.replies = pre ++ r :: rest →
    r.answers lk.A .noError d →
    ∃ t, exec i s = .next t ∧ Shifted s t lk.A [w] pre [r] rest
      ∧ t.moves = s.moves ++ (shiftMoves s.label ++ movesAt 95 [7, 8, 9] s.label)
      ∧ SameButWire s t ∧ Ended s t (.ok (.word d))

/-- R97, R113 (log 8): the replay register is written only on success: a DMI word that ends in an error which keeps
the session leaves it as it was. -/
def Obligations.ReplayWordOnlyOnSuccess : Prop :=
  ∀ (s t : State) (A : Nat) (i : Instr) (w : DmiWord) (e : Error),
    dmiWordOf A i w → exec i s = .next t → s.phase = .ready → t.result = some (.err e) → e ≠ .transportFailure →
    SameReplay s t

/-- R100 (logs 8 and 19): RESERVED and OP_FAILED: a soft reset, no retry, DmiOperationFailed with the status; the
replay word and the session stay. -/
def Obligations.FailedStatusResets : Prop :=
  ∀ (s : State) (lk : Link) (i : Instr) (w : DmiWord) (st : DmiStatus) (d : Word) (pre rest : List Reply)
    (r a b : Reply),
    dmiWordOf lk.A i w → st = .reserved ∨ st = .opFailed → s.phase = .ready → s.addressBits = some lk.abits →
    Selected s pre →
    s.replies = pre ++ r :: a :: b :: rest → r.answers lk.A st d → a.completes → b.completes →
    ∃ t, exec i s = .next t
      ∧ t.trace = s.trace ++ (selectLines pre ++ [dmiLine lk.A w r] ++ softResetLines a b)
      ∧ t.replies = rest ∧ t.irCurrent = .dtmcs ∧ SameReplay s t ∧ SameButWire s t
      ∧ Ended s t (.err (.dmiOperationFailed st.toBits))

/-- R15, R98, R99, R110 (logs 1 and 8): up to DMI_RETRY_MAX interrupted attempts, each followed by soft reset, selection,
replay of the last successful word (or the no-op) and the idle clocks, then `goto SHIFT` takes the step label back to line
3 and the same word goes out again; on NO_ERROR it becomes the replay word. -/
def Obligations.InterruptedShiftRetries : Prop :=
  ∀ (s : State) (lk : Link) (i : Instr) (w : DmiWord) (d : Word) (pre rest : List Reply) (qs : List Round) (r : Reply),
    dmiWordOf lk.A i w → Linked s lk → Selected s pre →
    s.replies = pre ++ roundReplies qs ++ r :: rest → (∀ q ∈ qs, q.Recovers lk s.replayWord) →
    qs.length ≤ s.params.dmiRetryMax → r.answers lk.A .noError d →
    ∃ t, exec i s = .next t
      ∧ t.trace = s.trace ++ (selectLines pre ++ roundLines lk w s.replayWord qs ++ [dmiLine lk.A w r])
      ∧ t.replies = rest ∧ t.irCurrent = .dmi ∧ t.lastDmiCommand = some w ∧ t.lastValid = true
      ∧ t.moves = s.moves ++ (shiftMoves s.label ++ (qs.flatMap fun _ => recoveryMoves s.label)
          ++ movesAt 95 [7, 8, 9] s.label)
      ∧ SameButWire s t ∧ Ended s t (.ok (.word d))

/-- R99 (log 8): OP_INTERRUPTED after DMI_RETRY_MAX recoveries: a soft reset, then Timeout(DmiRetry). -/
def Obligations.RetryBoundExhausted : Prop :=
  ∀ (s : State) (lk : Link) (i : Instr) (w : DmiWord) (d : Word) (pre rest : List Reply) (qs : List Round)
    (r a b : Reply),
    dmiWordOf lk.A i w → s.phase = .ready → Linked s lk → Selected s pre →
    s.replies = pre ++ roundReplies qs ++ r :: a :: b :: rest → (∀ q ∈ qs, q.Recovers lk s.replayWord) →
    qs.length = s.params.dmiRetryMax → r.answers lk.A .opInterrupted d → a.completes → b.completes →
    ∃ t, exec i s = .next t
      ∧ t.trace = s.trace ++ (selectLines pre ++ roundLines lk w s.replayWord qs ++ [dmiLine lk.A w r]
          ++ softResetLines a b)
      ∧ t.replies = rest ∧ t.irCurrent = .dtmcs ∧ SameReplay s t ∧ SameButWire s t
      ∧ Ended s t (.err (.timeout .dmiRetry))

/-- R99, R216 (log 8): whatever the environment answers, a DMI word ends after at most 6 * DMI_RETRY_MAX + 4 transport
actions, as many as the selection, the shift, DMI_RETRY_MAX recoveries with their retries and the last soft reset
make. -/
def Obligations.DmiWordIsBounded : Prop :=
  ∀ (s : State) (lk : Link) (i : Instr) (w : DmiWord), dmiWordOf lk.A i w → Linked s lk →
    ∃ t, exec i s = .next t ∧ t.trace.length ≤ s.trace.length + 6 * s.params.dmiRetryMax + 4

/-! ## Captured DMI words -/

/-- R97, R107 (log 8): NO_ERROR, classified for the shift in force: its word is recorded and the data returned, with
no transport action. -/
def Obligations.StatusNoErrorRecords : Prop :=
  ∀ (s : State) (d : Word),
    ∃ t, exec (.statusNoError d) s = .next t ∧ t.lastDmiCommand = some s.dmiCmd ∧ t.lastValid = true
      ∧ t.trace = s.trace ∧ t.replies = s.replies ∧ t.irCurrent = s.irCurrent ∧ SameButWire s t
      ∧ Ended s t (.ok (.word d))

/-- R100, R107 (logs 8 and 19): RESERVED and OP_FAILED, classified for the shift in force. -/
def Obligations.StatusFailedResets : Prop :=
  ∀ (s : State) (d : Word) (i : Instr) (st : BitVec 2) (rest : List Reply) (a b : Reply),
    (i = .statusReserved d ∧ st = 1) ∨ (i = .statusOpFailed d ∧ st = 2) → s.phase = .ready →
    s.replies = a :: b :: rest → a.completes → b.completes →
    ∃ t, exec i s = .next t ∧ t.trace = s.trace ++ softResetLines a b ∧ t.replies = rest ∧ t.irCurrent = .dtmcs
      ∧ SameReplay s t ∧ SameButWire s t ∧ Ended s t (.err (.dmiOperationFailed st))

/-- R15, R98, R99, R107 (logs 1, 8 and 22): OP_INTERRUPTED, classified for the shift in force: while a recovery is left,
the recovery, and the step label back at line 3 with the shift's word again; else a soft reset and Timeout(DmiRetry). -/
def Obligations.StatusInterruptedRecovers : Prop :=
  (∀ (s : State) (lk : Link) (d v : Word) (mid rest : List Reply) (r : Reply), Linked s lk →
    s.dmiTries < s.params.dmiRetryMax → s.replies = mid ++ r :: rest →
    mid.length = (recoveryActions lk s.replayWord).length → (∀ x ∈ mid, x.completes) → r.answers lk.A .noError v →
    ∃ t, exec (.statusOpInterrupted d) s = .next t
      ∧ t.trace = s.trace ++ ((recoveryActions lk s.replayWord).zip mid ++ [dmiLine lk.A s.dmiCmd r])
      ∧ t.replies = rest ∧ t.irCurrent = .dmi ∧ t.lastDmiCommand = some s.dmiCmd ∧ t.lastValid = true
      ∧ t.moves = s.moves ++ movesAt 95 [5, 6] s.label ++ recoveryMoves s.label ++ movesAt 95 [7, 8, 9] s.label
      ∧ SameButWire s t ∧ Ended s t (.ok (.word v)))
  ∧ (∀ (s : State) (d : Word) (rest : List Reply) (a b : Reply), s.phase = .ready →
    s.params.dmiRetryMax ≤ s.dmiTries → s.replies = a :: b :: rest → a.completes → b.completes →
    ∃ t, exec (.statusOpInterrupted d) s = .next t ∧ t.trace = s.trace ++ softResetLines a b ∧ t.replies = rest
      ∧ t.irCurrent = .dtmcs ∧ SameReplay s t ∧ SameButWire s t ∧ Ended s t (.err (.timeout .dmiRetry)))

/-! ## Words written to DM registers -/

/-- R104 (log 8): each of the seven words is one DMI write to its register. -/
def Obligations.RegisterWordsWrite : Prop :=
  ∀ (s : State) (lk : Link) (i : Instr) (address : Nat) (word d : Word) (pre rest : List Reply) (r : Reply),
    registerWrite s.params i address word → s.addressBits = some lk.abits → Selected s pre →
    s.replies = pre ++ r :: rest →
    r.answers lk.A .noError d →
    ∃ t, exec i s = .next t ∧ Shifted s t lk.A [dmiEncode 2 address word lk.A] pre [r] rest ∧ SameButWire s t
      ∧ Ended s t (.ok .unit)

/-! ## Command words -/

/-- R134, R135, R138 (log 8): a command word is written to ABSTRACT_CMD and polled until busy clears, again after each
busy rejection and its clear, and succeeds where cmderr is none. -/
def Obligations.CommandWordsRun : Prop :=
  ∀ (s : State) (lk : Link) (i : Instr) (word : Word) (c : Command) (pre rs rest : List Reply),
    commandOf i word → s.addressBits = some lk.abits → Selected s pre → s.replies = pre ++ rs ++ rest →
    Quiet lk.A rs c.data →
    c.Ends s.params .none →
    ∃ t, exec i s = .next t ∧ Shifted s t lk.A (c.words lk.A word) pre rs rest ∧ SameButWire s t
      ∧ Ended s t (.ok .unit)

/-- R139, R153, R164 (log 8): cmderr exception is cleared, and is RegisterNotPresent for a register access and
AbstractCmdError for the program-buffer run. -/
def Obligations.CommandExceptionIsMapped : Prop :=
  ∀ (s : State) (lk : Link) (i : Instr) (word d : Word) (c : Command) (pre rs rest : List Reply),
    commandOf i word → s.phase = .ready → s.addressBits = some lk.abits → Selected s pre →
    s.replies = pre ++ rs ++ rest →
    Quiet lk.A rs (c.data ++ [d]) → c.Ends s.params .exception →
    ∃ t, exec i s = .next t
      ∧ Shifted s t lk.A (c.words lk.A word ++ writeWords lk.A 0x16 0x00000700) pre rs rest ∧ SameButWire s t
      ∧ Ended s t (.err (if i = .arPostexec then .abstractCmdError .exception
          else .registerNotPresent (word.extractLsb' 0 16)))

/-! ## Captured ABSTRACT_CS words -/

/-- R134 (log 8): cmderr none with busy clear ends the run in force, with no transport action. -/
def Obligations.CmderrNoneSucceeds : Prop :=
  ∀ (s : State) (acs : AcsFields), acs.busy = false →
    ∃ t, exec (.cmderrNone acs) s = .next t ∧ t.trace = s.trace ∧ t.replies = s.replies ∧ t.irCurrent = s.irCurrent
      ∧ SameReplay s t ∧ SameButWire s t ∧ Ended s t (.ok .unit)

/-- R136, R137, R139 (log 8): cmderr 2 to 7 with busy clear: one clear write, then AbstractCmdError of the kind. -/
def Obligations.CmderrSurfaces : Prop :=
  ∀ (s : State) (lk : Link) (acs : AcsFields) (i : Instr) (kind : AbstractKind) (d : Word) (pre rest : List Reply)
    (r : Reply),
    surfaced acs i kind → acs.busy = false → s.phase = .ready → s.addressBits = some lk.abits → Selected s pre →
    s.replies = pre ++ r :: rest → r.answers lk.A .noError d →
    ∃ t, exec i s = .next t ∧ Shifted s t lk.A (writeWords lk.A 0x16 0x00000700) pre [r] rest ∧ SameButWire s t
      ∧ Ended s t (.err (.abstractCmdError kind))

/-- R137, R138 (logs 8 and 22): cmderr busy with busy clear: one clear write; while a re-issue is left the command in
force again, else Timeout(BusyRetry). -/
def Obligations.CmderrBusyReissues : Prop :=
  (∀ (s : State) (lk : Link) (acs : AcsFields) (d : Word) (c : Command) (pre rs rest : List Reply),
    acs.busy = false → s.addressBits = some lk.abits → Selected s pre → s.replies = pre ++ rs ++ rest →
    Quiet lk.A rs (d :: c.data) → Rejected s.params c.rejected → c.last.poll.Ends s.params →
    acsCmderr c.last.poll.acs = .none → s.busyTries + c.rejected.length < s.params.busyRetryMax →
    ∃ t, exec (.cmderrBusy acs) s = .next t
      ∧ Shifted s t lk.A (writeWords lk.A 0x16 0x00000700 ++ c.words lk.A s.runCmd) pre rs rest ∧ SameButWire s t
      ∧ Ended s t (.ok .unit))
  ∧ (∀ (s : State) (lk : Link) (acs : AcsFields) (d : Word) (pre rest : List Reply) (r : Reply),
    acs.busy = false → s.phase = .ready → s.addressBits = some lk.abits → Selected s pre →
    s.replies = pre ++ r :: rest →
    r.answers lk.A .noError d → s.params.busyRetryMax ≤ s.busyTries →
    ∃ t, exec (.cmderrBusy acs) s = .next t ∧ Shifted s t lk.A (writeWords lk.A 0x16 0x00000700) pre [r] rest
      ∧ SameButWire s t ∧ Ended s t (.err (.timeout .busyRetry)))

/-- R135, R190 (logs 8 and 22): busy is tested before cmderr: whatever the code, a word with busy set is polled again,
and the first word with busy clear decides; with POLL_MAX reads made it is Timeout(Poll), with no further action. -/
def Obligations.CmderrWaitsWhileBusy : Prop :=
  (∀ (s : State) (lk : Link) (acs : AcsFields) (i : Instr) (q : Poll) (pre rs rest : List Reply),
    cmderrWord acs i → acs.busy = true → s.addressBits = some lk.abits → Selected s pre →
    s.replies = pre ++ rs ++ rest →
    Quiet lk.A rs q.data → (∀ b ∈ q.busy, acsBusy b.2 = true) → s.polls + q.busy.length < s.params.pollMax →
    acsBusy q.acs = false → acsCmderr q.acs = .none →
    ∃ t, exec i s = .next t ∧ Shifted s t lk.A (q.words lk.A) pre rs rest ∧ SameButWire s t ∧ Ended s t (.ok .unit))
  ∧ (∀ (s : State) (acs : AcsFields) (i : Instr),
    cmderrWord acs i → acs.busy = true → s.phase = .ready → s.params.pollMax ≤ s.polls →
    ∃ t, exec i s = .next t ∧ t.trace = s.trace ∧ t.replies = s.replies ∧ t.irCurrent = s.irCurrent ∧ SameReplay s t
      ∧ SameButWire s t ∧ Ended s t (.err (.timeout .poll)))

/-! ## The request port -/

/-- R88, R185: a request in the wrong phase is answered SessionNotReady with the phase; no transport action is issued,
and the session, the hart table, the replay register and the selected JTAG instruction stay. -/
def Obligations.WrongPhaseIsTurnedAway : Prop :=
  ∀ (s : State) (i : Instr), isRequest i = true → ¬ Admitted i s →
    ∃ t, exec i s = .next t ∧ t.trace = s.trace ∧ t.replies = s.replies ∧ t.irCurrent = s.irCurrent ∧ SameReplay s t
      ∧ SameButWire s t ∧ Answered s t [] (.err (.sessionNotReady s.phase))

/-- R185, R189: a request is answered with exactly one response, after at most two diagnostics, which only ATTACH
sends; a word of the wire sends nothing to the host (log 8). -/
def Obligations.OneResponsePerRequest : Prop :=
  ∀ (s t : State) (i : Instr), exec i s = .next t →
    if isRequest i then ∃ ds r, Answered s t ds r ∧ ds.length ≤ 2 ∧ ((∀ w, i ≠ .hostAttach w) → ds = [])
    else ∃ r, Ended s t r

/-- R103, R104, R108, R109: DMI_READ: the read word and the retrieval no-op; the second capture's data is the response,
and the no-op is left as the replay word. DMI_WRITE: one shift, and an empty response. -/
def Obligations.DmiRequests : Prop :=
  ∀ (s : State) (lk : Link) (address : Nat) (word d v : Word) (pre rs rest : List Reply),
    s.phase = .ready → s.addressBits = some lk.abits → Selected s pre → s.replies = pre ++ rs ++ rest →
    (Quiet lk.A rs [d, v] →
      ∃ t, exec (.hostDmiRead address) s = .next t
        ∧ Shifted s t lk.A [dmiEncode 1 address 0 lk.A, dmiEncode 0 0 0 lk.A] pre rs rest ∧ SameButWire s t
        ∧ Answered s t [] (.ok (.word v)))
    ∧ (Quiet lk.A rs [d] →
      ∃ t, exec (.hostDmiWrite address word) s = .next t
        ∧ Shifted s t lk.A [dmiEncode 2 address word lk.A] pre rs rest ∧ SameButWire s t
        ∧ Answered s t [] (.ok .unit))

/-- R134, R140: RUN passes any word unchanged and succeeds where the last poll has busy clear and cmderr none. -/
def Obligations.RunRequestSucceeds : Prop :=
  ∀ (s : State) (lk : Link) (word : Word) (c : Command) (pre rs rest : List Reply),
    s.phase = .ready → s.addressBits = some lk.abits → Selected s pre → s.replies = pre ++ rs ++ rest →
    Quiet lk.A rs c.data →
    c.Ends s.params .none →
    ∃ t, exec (.hostRun word) s = .next t ∧ Shifted s t lk.A (c.words lk.A word) pre rs rest ∧ SameButWire s t
      ∧ Answered s t [] (.ok .unit)

/-- R134, R136, R139, R183: a cmderr of 2 to 7 is cleared and surfaced with its kind; the session stays. -/
def Obligations.RunRequestSurfacesError : Prop :=
  ∀ (s : State) (lk : Link) (word d : Word) (c : Command) (e : CmdErr) (kind : AbstractKind)
    (pre rs rest : List Reply),
    (e = .notSupported ∧ kind = .notSupported) ∨ (e = .exception ∧ kind = .exception)
    ∨ (e = .haltResume ∧ kind = .haltResume) ∨ (e = .bus ∧ kind = .bus) ∨ (e = .reserved ∧ kind = .other)
    ∨ (e = .other ∧ kind = .other) →
    s.phase = .ready → s.addressBits = some lk.abits → Selected s pre → s.replies = pre ++ rs ++ rest →
    Quiet lk.A rs (c.data ++ [d]) → c.Ends s.params e →
    ∃ t, exec (.hostRun word) s = .next t
      ∧ Shifted s t lk.A (c.words lk.A word ++ writeWords lk.A 0x16 0x00000700) pre rs rest ∧ SameButWire s t
      ∧ Answered s t [] (.err (.abstractCmdError kind))

/-- R135, R138, R182: the two ceilings of a run: BUSY_RETRY_MAX re-issues, each rejection cleared, then
Timeout(BusyRetry); POLL_MAX reads with busy set, then Timeout(Poll) with no clear and no further action. -/
def Obligations.RunRequestCeilings : Prop :=
  (∀ (s : State) (lk : Link) (word : Word) (qs : List (Attempt × Word)) (pre rs rest : List Reply),
    s.phase = .ready → s.addressBits = some lk.abits → Selected s pre → s.replies = pre ++ rs ++ rest →
    Quiet lk.A rs (rejectedData qs) → Rejected s.params qs → qs.length = s.params.busyRetryMax + 1 →
    ∃ t, exec (.hostRun word) s = .next t ∧ Shifted s t lk.A (rejectedWords lk.A word qs) pre rs rest
      ∧ SameButWire s t ∧ Answered s t [] (.err (.timeout .busyRetry)))
  ∧ (∀ (s : State) (lk : Link) (word d : Word) (busy : List (Word × Word)) (pre rs rest : List Reply),
    s.phase = .ready → s.addressBits = some lk.abits → Selected s pre → s.replies = pre ++ rs ++ rest →
    Quiet lk.A rs (d :: busy.flatMap fun b => [b.1, b.2]) → (∀ b ∈ busy, acsBusy b.2 = true) →
    busy.length = s.params.pollMax →
    ∃ t, exec (.hostRun word) s = .next t
      ∧ Shifted s t lk.A (writeWords lk.A 0x17 word ++ (List.replicate busy.length (readWords lk.A 0x16)).flatten)
        pre rs rest
      ∧ SameButWire s t ∧ Answered s t [] (.err (.timeout .poll)))

/-! ## Register accesses -/

/-- R143: an empty run is answered at once, a run past 0x10000 is InvalidRequest, both with no transport action. -/
def Obligations.RegisterRunsAreValidated : Prop :=
  ∀ (s : State) (base : BitVec 16), s.phase = .ready →
    (∃ t, exec (.hostReadRegs base 0) s = .next t ∧ t.trace = s.trace ∧ SameReplay s t ∧ SameButWire s t
      ∧ Answered s t [] (.ok (.words [])))
    ∧ (∃ t, exec (.hostWriteRegs base []) s = .next t ∧ t.trace = s.trace ∧ SameReplay s t ∧ SameButWire s t
      ∧ Answered s t [] (.ok .unit))
    ∧ (∀ count : Nat, 0 < count → 0x10000 < base.toNat + count →
      ∃ t, exec (.hostReadRegs base count) s = .next t ∧ t.trace = s.trace ∧ SameReplay s t ∧ SameButWire s t
        ∧ Answered s t [] (.err .invalidRequest))
    ∧ (∀ vals : List Word, 0 < vals.length → 0x10000 < base.toNat + vals.length →
      ∃ t, exec (.hostWriteRegs base vals) s = .next t ∧ t.trace = s.trace ∧ SameReplay s t ∧ SameButWire s t
        ∧ Answered s t [] (.err .invalidRequest))

/-- R142, R144, R154: READ_REGS in None mode (one register, or no autoexec): a full command and a data0 read for each
register, and no disarm. -/
def Obligations.ReadRegsNoneMode : Prop :=
  ∀ (s : State) (lk : Link) (base : BitVec 16) (qs : List OneRead) (pre rs rest : List Reply),
    s.phase = .ready → s.addressBits = some lk.abits → qs ≠ [] → base.toNat + qs.length ≤ 0x10000 →
    qs.length = 1 ∨ s.autoexecSupported = some false → Selected s pre → s.replies = pre ++ rs ++ rest →
    Quiet lk.A rs (qs.flatMap OneRead.data) → (∀ q ∈ qs, q.command.Ends s.params .none) →
    ∃ t, exec (.hostReadRegs base qs.length) s = .next t
      ∧ Shifted s t lk.A (noneReadWords lk.A base qs 0) pre rs rest ∧ SameButWire s t
      ∧ Answered s t [] (.ok (.words (qs.map OneRead.value)))

/-- R142, R145, R155: WRITE_REGS in None mode: for each register its value to data0, then the full command. -/
def Obligations.WriteRegsNoneMode : Prop :=
  ∀ (s : State) (lk : Link) (base : BitVec 16) (qs : List (Word × OneWrite)) (pre rs rest : List Reply),
    s.phase = .ready → s.addressBits = some lk.abits → qs ≠ [] → base.toNat + qs.length ≤ 0x10000 →
    qs.length = 1 ∨ s.autoexecSupported = some false → Selected s pre → s.replies = pre ++ rs ++ rest →
    Quiet lk.A rs (qs.flatMap fun q => q.2.data) → (∀ q ∈ qs, q.2.command.Ends s.params .none) →
    ∃ t, exec (.hostWriteRegs base (qs.map Prod.fst)) s = .next t
      ∧ Shifted s t lk.A (noneWriteWords lk.A base qs 0) pre rs rest ∧ SameButWire s t
      ∧ Answered s t [] (.ok .unit)

/-- R146, R147, R150, R152, R154: READ_REGS as a batch: one command with postincrement, the arm, a data0 read and a poll
for each register, a nonzero code of the trailing poll cleared and not surfaced, and the disarm. -/
def Obligations.ReadRegsBatch : Prop :=
  ∀ (s : State) (lk : Link) (base : BitVec 16) (c : Command) (arm : Word) (qs : List BatchStep) (last : BatchStep)
    (clears : List Word) (disarm : Word) (pre rs rest : List Reply),
    s.phase = .ready → s.addressBits = some lk.abits → qs ≠ [] → base.toNat + qs.length + 1 ≤ 0x10000 →
    s.autoexecSupported = some true → Selected s pre → s.replies = pre ++ rs ++ rest →
    Quiet lk.A rs (c.data ++ arm :: batchReadData (qs ++ [last]) ++ clears ++ [disarm]) →
    c.Ends s.params .none → (∀ q ∈ qs, q.poll.Ends s.params ∧ acsCmderr q.poll.acs = .none) →
    last.poll.Ends s.params → clears.length = (clearWords lk.A (acsCmderr last.poll.acs)).length →
    ∃ t, exec (.hostReadRegs base (qs.length + 1)) s = .next t
      ∧ Shifted s t lk.A (c.words lk.A (0x002A0000 ||| base.setWidth 32) ++ writeWords lk.A 0x18 0x00000001
          ++ batchReadWords lk.A (qs ++ [last]) ++ clearWords lk.A (acsCmderr last.poll.acs)
          ++ writeWords lk.A 0x18 0x00000000) pre rs rest
      ∧ SameButWire s t ∧ Answered s t [] (.ok (.words (qs.map BatchStep.value ++ [last.value])))

/-- R148, R149, R150, R155: WRITE_REGS as a batch: the first value, one command with postincrement, the arm, then a
data0 write and a poll for each further register, and the disarm. -/
def Obligations.WriteRegsBatch : Prop :=
  ∀ (s : State) (lk : Link) (base : BitVec 16) (v put : Word) (c : Command) (arm : Word)
    (qs : List (Word × Word × Poll)) (disarm : Word) (pre rs rest : List Reply),
    s.phase = .ready → s.addressBits = some lk.abits → qs ≠ [] → base.toNat + qs.length + 1 ≤ 0x10000 →
    s.autoexecSupported = some true → Selected s pre → s.replies = pre ++ rs ++ rest →
    Quiet lk.A rs (put :: c.data ++ arm :: batchWriteData qs ++ [disarm]) →
    c.Ends s.params .none → (∀ q ∈ qs, q.2.2.Ends s.params ∧ acsCmderr q.2.2.acs = .none) →
    ∃ t, exec (.hostWriteRegs base (v :: qs.map Prod.fst)) s = .next t
      ∧ Shifted s t lk.A (writeWords lk.A 0x04 v ++ c.words lk.A (0x002B0000 ||| base.setWidth 32)
          ++ writeWords lk.A 0x18 0x00000001 ++ batchWriteWords lk.A qs ++ writeWords lk.A 0x18 0x00000000) pre rs rest
      ∧ SameButWire s t ∧ Answered s t [] (.ok .unit)

/-- R150, R156, R187: whatever the environment answers, a batch that is not ended by TransportFailure has the disarm
write as the last DMI word on the lower port: after it comes at most the soft reset of that very write (R99, R100). -/
def Obligations.BatchAlwaysDisarms : Prop :=
  ∀ (s t : State) (lk : Link) (i : Instr) (base : BitVec 16) (n : Nat),
    i = .hostReadRegs base n ∨ (∃ vals, i = .hostWriteRegs base vals ∧ vals.length = n) →
    s.phase = .ready → s.addressBits = some lk.abits → 1 < n → base.toNat + n ≤ 0x10000 → exec i s = .next t →
    s.autoexecSupported = some true → t.result ≠ some (.err .transportFailure) → DisarmedLast lk.A s t

/-- R147, R149, R151, R153, R186, R188: a nonzero code found by a poll of a batch, but for the trailing poll of a read, is
cleared and ends the batch with the disarm: RegisterNotPresent for an exception, Timeout(BusyRetry) for busy,
AbstractCmdError otherwise. The register in error is the next one in a read and the one just written in a write. -/
def Obligations.BatchStopsAtError : Prop :=
  (∀ (s : State) (lk : Link) (base : BitVec 16) (count : Nat) (c : Command) (arm : Word) (qs : List BatchStep)
    (bad : BatchStep) (d disarm : Word) (pre rs rest : List Reply),
    s.phase = .ready → s.addressBits = some lk.abits → qs.length + 1 < count → base.toNat + count ≤ 0x10000 →
    s.autoexecSupported = some true → Selected s pre → s.replies = pre ++ rs ++ rest →
    Quiet lk.A rs (c.data ++ arm :: batchReadData (qs ++ [bad]) ++ [d, disarm]) →
    c.Ends s.params .none → (∀ q ∈ qs, q.poll.Ends s.params ∧ acsCmderr q.poll.acs = .none) →
    bad.poll.Ends s.params → acsCmderr bad.poll.acs ≠ .none →
    ∃ t, exec (.hostReadRegs base count) s = .next t
      ∧ Shifted s t lk.A (c.words lk.A (0x002A0000 ||| base.setWidth 32) ++ writeWords lk.A 0x18 0x00000001
          ++ batchReadWords lk.A (qs ++ [bad]) ++ writeWords lk.A 0x16 0x00000700 ++ writeWords lk.A 0x18 0x00000000)
        pre rs rest
      ∧ SameButWire s t
      ∧ Answered s t [] (.err (match classify (acsCmderr bad.poll.acs) with
          | .ok | .busy => .timeout .busyRetry
          | .fail .exception => .registerNotPresent (BitVec.ofNat 16 (base.toNat + qs.length + 1))
          | .fail kind => .abstractCmdError kind)))
  ∧ (∀ (s : State) (lk : Link) (base : BitVec 16) (v put : Word) (c : Command) (arm : Word)
    (qs : List (Word × Word × Poll)) (bad : Word × Word × Poll) (more : List Word) (d disarm : Word)
    (pre rs rest : List Reply),
    s.phase = .ready → s.addressBits = some lk.abits → base.toNat + (qs.length + more.length + 2) ≤ 0x10000 →
    s.autoexecSupported = some true → Selected s pre → s.replies = pre ++ rs ++ rest →
    Quiet lk.A rs (put :: c.data ++ arm :: batchWriteData (qs ++ [bad]) ++ [d, disarm]) →
    c.Ends s.params .none → (∀ q ∈ qs, q.2.2.Ends s.params ∧ acsCmderr q.2.2.acs = .none) →
    bad.2.2.Ends s.params → acsCmderr bad.2.2.acs ≠ .none →
    ∃ t, exec (.hostWriteRegs base (v :: (qs.map Prod.fst ++ bad.1 :: more))) s = .next t
      ∧ Shifted s t lk.A (writeWords lk.A 0x04 v ++ c.words lk.A (0x002B0000 ||| base.setWidth 32)
          ++ writeWords lk.A 0x18 0x00000001 ++ batchWriteWords lk.A (qs ++ [bad]) ++ writeWords lk.A 0x16 0x00000700
          ++ writeWords lk.A 0x18 0x00000000) pre rs rest
      ∧ SameButWire s t
      ∧ Answered s t [] (.err (match classify (acsCmderr bad.2.2.acs) with
          | .ok | .busy => .timeout .busyRetry
          | .fail .exception => .registerNotPresent (BitVec.ofNat 16 (base.toNat + qs.length + 1))
          | .fail kind => .abstractCmdError kind)))

/-! ## Program-buffer CSR reads -/

/-- R157, R190: the three checks in their order, before any transport action. Of R35: `progbuf_exec`, which needs the
current hart, raises NoCurrentHart, with no transport action, where `current_hart` names no entry; that it names none
where it holds no value, or is past a table that is not empty, is the model's reading (log 13). -/
def Obligations.ReadCsrChecks : Prop :=
  (∀ (s : State) (csr : Nat) (enabled : Bool), s.phase = .ready → s.progbufCsrEnabled = some enabled →
    enabled = false ∨ 0xFFF < csr ∨ s.harts = [] →
    ∃ t, exec (.hostReadCsrProgbuf csr) s = .next t ∧ t.trace = s.trace ∧ SameReplay s t ∧ SameButWire s t
      ∧ Answered s t [] (.err (if enabled = false then .strategyUnavailable
          else if 0xFFF < csr then .invalidRequest else .noCurrentHart)))
  ∧ ∀ (s : State) (inp : List Word) (m : Nat), max inp.length m ≤ 31 →
    (∀ h, s.currentHart = some h → s.harts.length ≤ h) →
    ∃ t, progbufExec inp m s = .error (.err .noCurrentHart) t ∧ t.trace = s.trace

/-- R157 to R166: the upload (with the explicit ebreak only where impebreak is false), the backup of x1, the run, the
read of x1, which is the response, and the restore. -/
def Obligations.ReadCsrRequest : Prop :=
  ∀ (s : State) (lk : Link) (csr h : Nat) (impebreak : Bool) (us : List Word) (backup : OneRead) (c : Command)
    (value : OneRead) (restore : OneWrite) (pre rs rest : List Reply),
    s.phase = .ready → s.addressBits = some lk.abits → s.progbufCsrEnabled = some true → csr ≤ 0xFFF →
    s.currentHart = some h →
    h < s.harts.length → s.impebreak = some impebreak → Selected s pre → s.replies = pre ++ rs ++ rest →
    us.length = (if impebreak then 1 else 2) →
    Quiet lk.A rs (us ++ backup.data ++ c.data ++ value.data ++ restore.data) →
    backup.command.Ends s.params .none → c.Ends s.params .none → value.command.Ends s.params .none →
    restore.command.Ends s.params .none →
    ∃ t, exec (.hostReadCsrProgbuf csr) s = .next t
      ∧ Shifted s t lk.A (uploadWords lk.A impebreak (BitVec.ofNat 32 csr <<< 20 ||| 0x000020F3)
          ++ backup.words lk.A 0x1001 ++ c.words lk.A 0x00241000 ++ value.words lk.A 0x1001
          ++ restore.words lk.A 0x1001 backup.value) pre rs rest
      ∧ SameSession s t ∧ SameHost s t ∧ t.currentHart = s.currentHart ∧ backedUpX1 s t h backup.value
      ∧ Answered s t [] (.ok (.word value.value))

/-- R164, R166, R167, R168: the program's run ends with a code that is surfaced: the code is cleared, x1 is restored all
the same, and the error is AbstractCmdError, an exception not mapped. -/
def Obligations.ReadCsrRestoresOnError : Prop :=
  ∀ (s : State) (lk : Link) (csr h : Nat) (impebreak : Bool) (us : List Word) (backup : OneRead) (c : Command)
    (e : CmdErr) (kind : AbstractKind) (d : Word) (restore : OneWrite) (pre rs rest : List Reply),
    s.phase = .ready → s.addressBits = some lk.abits → s.progbufCsrEnabled = some true → csr ≤ 0xFFF →
    s.currentHart = some h →
    h < s.harts.length → s.impebreak = some impebreak → Selected s pre → s.replies = pre ++ rs ++ rest →
    us.length = (if impebreak then 1 else 2) →
    Quiet lk.A rs (us ++ backup.data ++ c.data ++ [d] ++ restore.data) →
    backup.command.Ends s.params .none → c.Ends s.params e → classify e = .fail kind →
    restore.command.Ends s.params .none →
    ∃ t, exec (.hostReadCsrProgbuf csr) s = .next t
      ∧ Shifted s t lk.A (uploadWords lk.A impebreak (BitVec.ofNat 32 csr <<< 20 ||| 0x000020F3)
          ++ backup.words lk.A 0x1001 ++ c.words lk.A 0x00241000 ++ writeWords lk.A 0x16 0x00000700
          ++ restore.words lk.A 0x1001 backup.value) pre rs rest
      ∧ SameSession s t ∧ SameHost s t ∧ t.currentHart = s.currentHart ∧ backedUpX1 s t h backup.value
      ∧ Answered s t [] (.err (.abstractCmdError kind))

/-! ## Harts -/

/-- R175: SELECT_HART, only when Ready: an index past the table is InvalidRequest with no transport action; else one
DMCONTROL write, after which the hart is current; an error leaves `current_hart` as it was. -/
def Obligations.SelectHartRequest : Prop :=
  (∀ (s : State) (index : Nat), s.phase ≠ .ready →
    ∃ t, exec (.hostSelectHart index) s = .next t ∧ t.trace = s.trace ∧ SameReplay s t ∧ SameButWire s t
      ∧ Answered s t [] (.err (.sessionNotReady s.phase)))
  ∧ (∀ (s : State) (index : Nat), s.phase = .ready → s.harts.length ≤ index →
    ∃ t, exec (.hostSelectHart index) s = .next t ∧ t.trace = s.trace ∧ SameReplay s t ∧ SameButWire s t
      ∧ Answered s t [] (.err .invalidRequest))
  ∧ (∀ (s : State) (lk : Link) (index : Nat) (e : HartEntry) (d : Word) (pre rest : List Reply) (r : Reply),
    s.phase = .ready → s.addressBits = some lk.abits → s.harts[index]? = some e → Selected s pre →
    s.replies = pre ++ r :: rest →
    r.answers lk.A .noError d →
    ∃ t, exec (.hostSelectHart index) s = .next t
      ∧ Shifted s t lk.A (writeWords lk.A 0x10
          (s.params.dmcontrolBase ||| hartselField s.params.hartselLayout (BitVec.ofNat 20 e.index))) pre [r] rest
      ∧ t.currentHart = some index ∧ SameSession s t ∧ SameHost s t ∧ t.harts = s.harts
      ∧ Answered s t [] (.ok .unit))
  ∧ (∀ (s t : State) (index : Nat) (e : Error), s.phase = .ready → exec (.hostSelectHart index) s = .next t →
    t.result = some (.err e) → e ≠ .transportFailure → t.currentHart = s.currentHart)

/-! ## The session -/

/-- R130: DETACH, only when Ready: every session register, the hart table and `current_hart` at their reset values, no
transport action, an empty response. -/
def Obligations.DetachRequest : Prop :=
  (∀ s : State, s.phase = .ready →
    ∃ t, exec .hostDetach s = .next t ∧ SessionGone t ∧ t.trace = s.trace ∧ t.replies = s.replies ∧ SameHost s t
      ∧ Answered s t [] (.ok .unit))
  ∧ ∀ s : State, s.phase ≠ .ready →
    ∃ t, exec .hostDetach s = .next t ∧ t.trace = s.trace ∧ t.replies = s.replies ∧ SameReplay s t ∧ SameButWire s t
      ∧ Answered s t [] (.err (.sessionNotReady s.phase))

/-- R114 to R127, R131, R169 to R174: an ATTACH in which nothing fails: the DTMCS read, the hard reset, the negotiation
and the scan, word by word, and the Ready session they leave. -/
def Obligations.AttachRequest : Prop :=
  ∀ (s : State) (idcode : Word) (a0 a1 a2 a3 : Reply) (cap : Buffer) (d st nextdm acs readback width : Word)
    (x1 x2 x3 x4 x5 x6 x7 x8 : Word) (found stop : List Candidate) (rs rest : List Reply) (lk : Link),
    s.phase = .detached → s.replies = [a0, .done cap, a1, a2, a3] ++ rs ++ rest →
    a0.completes → a1.completes → a2.completes → a3.completes →
    d = (unpackBytes 32 cap.toList).setWidth 32 → lk.abits = d.extractLsb' 4 6 → lk.idle = d.extractLsb' 12 3 →
    Quiet lk.A rs ([x1, st, x2, nextdm, x3, acs, x4, x5, readback, x6, x7, x8, width] ++ scanData (found ++ stop)) →
    resolveVersion (dmstatusVersion st) (dtmcsVersion d) = .v0_13 → st.getLsbD 7 = true →
    capabilitiesValid (acsFields acs).datacount (acsFields acs).progbufsize (st.getLsbD 22) = true →
    ScanEnds s.params (hartselDecode s.params.hartselLayout width) found stop →
    ∃ t, exec (.hostAttach idcode) s = .next t
      ∧ t.trace = s.trace ++ dtmcsLines 0x00000000 a0 (.done cap) ++ dtmcsLines 0x00020000 a1 a2 ++ selectLines [a3]
          ++ List.zipWith (dmiLine lk.A)
            (readWords lk.A 0x11 ++ readWords lk.A 0x1D ++ readWords lk.A 0x16 ++ writeWords lk.A 0x18 0x00000AAA
              ++ readWords lk.A 0x18 ++ writeWords lk.A 0x18 0x00000000
              ++ writeWords lk.A 0x10 (s.params.dmcontrolBase ||| 0x03FFFFC0) ++ readWords lk.A 0x10
              ++ scanWords lk.A s.params (found ++ stop) 0) rs
      ∧ t.replies = rest
      ∧ t.phase = .ready ∧ t.idcode = some idcode ∧ t.dtmVersion = some (dtmcsVersion d)
      ∧ t.debugVersion = some .v0_13 ∧ t.addressBits = some lk.abits ∧ t.idleCycles = some lk.idle
      ∧ t.impebreak = some (st.getLsbD 22) ∧ t.abstractDataCount = some (acsFields acs).datacount
      ∧ t.programBufferSize = some (acsFields acs).progbufsize
      ∧ t.progbufCsrEnabled = some (decide (0 < (acsFields acs).progbufsize.toNat))
      ∧ t.autoexecSupported = some (readback == 0x00000AAA)
      ∧ t.hartsellen = some (hartselDecode s.params.hartselLayout width)
      ∧ t.harts = (List.range found.length).map newHart ∧ t.currentHart = some 0 ∧ t.lastValid = true
      ∧ Answered s t (if nextdm = 0 then [] else [.nextDmIgnored nextdm]) (.ok (.hartCount found.length))

/-- R114, R178, R180, R189: session initialization is all-or-nothing: from Detached, ATTACH is answered either with a
hart count and a whole Ready session of that many harts, at most HART_CAPACITY, or with an error, the session gone and
the diagnostic AttachFailed just before the response. -/
def Obligations.AttachIsAllOrNothing : Prop :=
  ∀ (s : State) (idcode : Word), s.phase = .detached →
    ∃ t, exec (.hostAttach idcode) s = .next t
      ∧ ((∃ n ds, Answered s t ds (.ok (.hartCount n)) ∧ t.phase = .ready ∧ ReadySession t ∧ t.harts.length = n
          ∧ n ≤ s.params.hartCapacity ∧ t.currentHart = some 0)
        ∨ (∃ e ds, Answered s t (ds ++ [.attachFailed e.code]) (.err e) ∧ SessionGone t))

/-- R117 to R119, R123, R128, R190: the checks of the negotiation, in their order: the version, the authentication,
the capability bounds. -/
def Obligations.AttachRefusals : Prop :=
  ∀ (s : State) (idcode : Word) (a0 a1 a2 a3 : Reply) (cap : Buffer) (d st : Word) (ds : List Word) (e : Error)
    (rs rest : List Reply) (lk : Link),
    s.phase = .detached → s.replies = [a0, .done cap, a1, a2, a3] ++ rs ++ rest →
    a0.completes → a1.completes → a2.completes → a3.completes →
    d = (unpackBytes 32 cap.toList).setWidth 32 → lk.abits = d.extractLsb' 4 6 → lk.idle = d.extractLsb' 12 3 →
    Quiet lk.A rs ds →
    (∃ x v, ds = [x, st] ∧ v = resolveVersion (dmstatusVersion st) (dtmcsVersion d) ∧ v ≠ .v0_13
      ∧ e = .versionUnsupported v)
    ∨ (∃ x, ds = [x, st] ∧ resolveVersion (dmstatusVersion st) (dtmcsVersion d) = .v0_13 ∧ st.getLsbD 7 = false
      ∧ e = .authenticationRequired)
    ∨ (∃ x1 x2 x3 acs, ds = [x1, st, x2, 0, x3, acs]
      ∧ resolveVersion (dmstatusVersion st) (dtmcsVersion d) = .v0_13 ∧ st.getLsbD 7 = true
      ∧ ((acsFields acs).datacount.toNat < 1 ∨ 12 < (acsFields acs).datacount.toNat
        ∨ 16 < (acsFields acs).progbufsize.toNat ∨ ((acsFields acs).progbufsize = 1 ∧ st.getLsbD 22 = false))
      ∧ e = .invalidCapabilities (acsFields acs).datacount (acsFields acs).progbufsize (st.getLsbD 22)) →
    ∃ t, exec (.hostAttach idcode) s = .next t ∧ SessionGone t ∧ t.replies = rest
      ∧ Answered s t [.attachFailed e.code] (.err e)

/-- R23, R39, R180: in a Ready session an instruction other than DETACH keeps every register that negotiation and
discovery wrote, whatever its outcome, unless a transport action failed: then the session is gone (for a lone word,
log 19). -/
def Obligations.ReadySessionIsKept : Prop :=
  ∀ (s t : State) (i : Instr), s.phase = .ready → i ≠ .hostDetach → exec i s = .next t →
    if t.result = some (.err .transportFailure) then SessionGone t else SameSession s t

/-- R32, R34, R35: the hart table and the current hart: only SELECT_HART changes `current_hart`, only READ_CSR_PROGBUF
changes an entry, and then only the backup of the current hart's entry. -/
def Obligations.HartTableIsKept : Prop :=
  ∀ (s t : State) (i : Instr), s.phase = .ready → i ≠ .hostDetach → exec i s = .next t →
    t.result ≠ some (.err .transportFailure) →
    ((∀ k, i ≠ .hostSelectHart k) → t.currentHart = s.currentHart)
    ∧ ((∀ csr, i ≠ .hostReadCsrProgbuf csr) → t.harts = s.harts)
    ∧ t.harts.length = s.harts.length
    ∧ ∀ (k : Nat) (e f : HartEntry), s.harts[k]? = some e → t.harts[k]? = some f →
        f.index = e.index ∧ f.hartId = e.hartId ∧ (s.currentHart ≠ some k → f = e)

/-! ## Whole-machine rules -/

/-- R101, R187: a transport action that fails is the last one: no soft reset, no replay, no cleanup follows it, and the
result is TransportFailure; where every action completed the result is something else. -/
def Obligations.NothingAfterTransportFailure : Prop :=
  ∀ (s t : State) (i : Instr), exec i s = .next t →
    if t.result = some (.err .transportFailure) then StopsAtFailure s t else AllComplete s t

/-- R41, R64, R86, R112, R207: in a session the lower port sees only selections of 0x10 and 0x11, shifts of 32 or
34 + A bits, and the idle clocks of a recovery, `idle_cycles - 1` where that is at least 1. -/
def Obligations.LowerPortActions : Prop :=
  ∀ (s t : State) (i : Instr), (∀ w, i ≠ .hostAttach w) → exec i s = .next t →
    ∃ new, t.trace = s.trace ++ new ∧ ∀ x ∈ new, s.emits x.1

/-- What no instruction changes, by the model's own choices where a log is named: the parameters, which R8 makes
arguments of the model and State holds (log 4), the requests waiting (log 3) and a lone word not yet taken (log 8); the
model's records of the two ports and of the step label only grow (logs 1 and 16); and after it no request is in service,
no cleanup is pending and no primary error is held (R36, R37, R187), and the label is idle, since one step serves a whole
request (log 1). -/
def Obligations.EveryInstructionFrame : Prop :=
  ∀ (s t : State) (i : Instr), exec i s = .next t →
    t.wire = s.wire ∧ t.params = s.params ∧ t.hostQueue = s.hostQueue ∧ s.trace <+: t.trace
    ∧ s.hostOut <+: t.hostOut ∧ s.moves <+: t.moves ∧ AtRest t

/-- The model's choice (logs 7 and 8: each counter and operand keeps what it last held, `dmi_cmd` and `run_cmd` with the
five counters of R36, and a lone word of the wire is an operation): a selection or a DTMCS word changes none; a DMI
word, a captured DMI word, a register write and the requests DMI_READ, DMI_WRITE and SELECT_HART change only those of the
DMI layer; a command, a captured ABSTRACT_CS word and RUN leave the batch index. -/
def Obligations.SequencerFrame : Prop :=
  ∀ (s t : State) (i : Instr), exec i s = .next t →
    (i = .irDtmcs ∨ i = .irDmi ∨ i = .dtmcsRead ∨ i = .dtmcsDmireset ∨ i = .dtmcsDmihardreset →
      t.dmiTries = s.dmiTries ∧ t.dmiCmd = s.dmiCmd ∧ t.polls = s.polls ∧ t.busyTries = s.busyTries
      ∧ t.runCmd = s.runCmd ∧ t.batchIndex = s.batchIndex ∧ t.discoveryIndex = s.discoveryIndex)
    ∧ (∀ (A a : Nat) (w : DmiWord) (d v : Word), dmiWordOf A i w ∨ registerWrite s.params i a v
        ∨ i = .statusNoError d ∨ i = .statusReserved d ∨ i = .statusOpFailed d ∨ i = .statusOpInterrupted d
        ∨ i = .hostDmiRead a ∨ i = .hostDmiWrite a d ∨ i = .hostSelectHart a →
      t.polls = s.polls ∧ t.busyTries = s.busyTries ∧ t.runCmd = s.runCmd ∧ t.batchIndex = s.batchIndex
      ∧ t.discoveryIndex = s.discoveryIndex)
    ∧ (∀ (v : Word) (acs : AcsFields), commandOf i v ∨ cmderrWord acs i ∨ i = .hostRun v →
      t.batchIndex = s.batchIndex ∧ t.discoveryIndex = s.discoveryIndex)

/-- R187, R188: the cleanup runs on every exit of the body but TransportFailure. Where `primary_error` holds no other error
(log 20 says what happens where it does), it takes the error in flight, which outranks the cleanup's, unless that is
TransportFailure; with no error in flight the cleanup's error is the result. -/
def Obligations.CleanupPriority : Prop :=
  ∀ (o : Pending) (cleanup : Op Unit) (body : Op Value) (s t u : State) (v : Value) (e e2 : Error),
    (body (s.pushPending o) = .error (.err .transportFailure) t →
      withCleanup o cleanup body s = .error (.err .transportFailure) t)
    ∧ (t.primaryError = none → body (s.pushPending o) = .ok v t →
      (cleanup t.popPending = .ok () u → withCleanup o cleanup body s = .ok v u)
      ∧ (cleanup t.popPending = .error (.err e2) u → withCleanup o cleanup body s = .error (.err e2) u))
    ∧ (t.primaryError = none ∨ t.primaryError = some e → body (s.pushPending o) = .error (.err e) t →
      e ≠ .transportFailure → ∀ t' : State, t' = { t.popPending with primaryError := some e } →
        (cleanup t' = .ok () u → withCleanup o cleanup body s = .error (.err e) u)
        ∧ (cleanup t' = .error (.err e2) u → e2 ≠ .transportFailure →
          withCleanup o cleanup body s = .error (.err e) u)
        ∧ (cleanup t' = .error (.err .transportFailure) u →
          withCleanup o cleanup body s = .error (.err .transportFailure) u))

/-! ## Tables -/

/-- R66, R75, R117: the two version tables, whose values the spec takes from general knowledge (log 10), and the
resolution: DMSTATUS is trusted unless it reports unknown. -/
def Obligations.VersionTables : Prop :=
  (∀ v : BitVec 4, decodeDtmVersion v = match v.toNat with | 0 => .v0_11 | 1 => .v0_13 | _ => .unknown)
  ∧ (∀ v : BitVec 4, decodeDmVersion v = match v.toNat with | 1 => .v0_11 | 2 => .v0_13 | _ => .unknown)
  ∧ (∀ dm dtm : DebugVersion, resolveVersion dm dtm = match dm with | .unknown => dtm | v => v)

/-- R179: the response code of each error. -/
def Obligations.ErrorCodes : Prop :=
  ∀ (v : DebugVersion) (st : BitVec 2) (k : TimeoutKind) (dc : BitVec 4) (pb : BitVec 5) (imp : Bool)
    (r : BitVec 16) (n : Nat) (ph : Phase),
    Error.code .transportFailure = 1 ∧ (Error.versionUnsupported v).code = 2
    ∧ Error.code .authenticationRequired = 3 ∧ (Error.dmiOperationFailed st).code = 4 ∧ (Error.timeout k).code = 5
    ∧ (Error.abstractCmdError .notSupported).code = 6 ∧ (Error.abstractCmdError .exception).code = 7
    ∧ (Error.abstractCmdError .haltResume).code = 8 ∧ (Error.abstractCmdError .bus).code = 9
    ∧ (Error.abstractCmdError .other).code = 10 ∧ (Error.invalidCapabilities dc pb imp).code = 11
    ∧ (Error.registerNotPresent r).code = 12 ∧ (Error.tooManyArgs n).code = 13
    ∧ Error.code .strategyUnavailable = 14 ∧ (Error.sessionNotReady ph).code = 15
    ∧ Error.code .noCurrentHart = 16 ∧ Error.code .invalidRequest = 17
end

