-- ==== Sys2Proof/Laws/Codec.lean ====
section
/-! SUPPORT. Fields of encoded words: what each extraction gives on each encoding. -/

namespace Sys2Proof

/-! ## Fields of a word put together from shifted parts -/

theorem field_at {n W k : Nat} (x : BitVec n) (h : k + n ≤ W) : (x.setWidth W <<< k).extractLsb' k n = x := by
  apply BitVec.eq_of_getLsbD_eq
  intro i hi
  simp only [BitVec.getLsbD_extractLsb', BitVec.getLsbD_shiftLeft, BitVec.getLsbD_setWidth]
  have h1 : k + i < W := by omega
  have h2 : ¬ k + i < k := by omega
  have h3 : k + i - k = i := by omega
  have h4 : i < W := by omega
  simp [hi, h1, h3, h4]

theorem field_below {n W k j m : Nat} (x : BitVec n) (h : j + m ≤ k) : (x.setWidth W <<< k).extractLsb' j m = 0 := by
  apply BitVec.eq_of_getLsbD_eq
  intro i hi
  simp only [BitVec.getLsbD_extractLsb', BitVec.getLsbD_shiftLeft]
  have h2 : j + i < k := by omega
  simp [h2]

theorem field_above {n W k j m : Nat} (x : BitVec n) (h : k + n ≤ j) : (x.setWidth W <<< k).extractLsb' j m = 0 := by
  apply BitVec.eq_of_getLsbD_eq
  intro i hi
  simp only [BitVec.getLsbD_extractLsb', BitVec.getLsbD_shiftLeft, BitVec.getLsbD_setWidth]
  have h2 : n ≤ j + i - k := by omega
  simp [BitVec.getLsbD_of_ge x _ h2]

theorem field_low {n W : Nat} (x : BitVec n) (h : n ≤ W) : (x.setWidth W).extractLsb' 0 n = x := by
  have := field_at (k := 0) (W := W) x (by omega)
  simpa using this

theorem field_low_above {n W j m : Nat} (x : BitVec n) (h : n ≤ j) : (x.setWidth W).extractLsb' j m = 0 := by
  have := field_above (k := 0) (W := W) (m := m) x (j := j) (by omega)
  simpa using this

theorem setWidth_setWidth_32 (w : Word) : (w.setWidth 97).setWidth 32 = w := by
  rw [BitVec.setWidth_setWidth_of_le _ (by omega), BitVec.setWidth_eq]

theorem setWidth_setWidth_8 (w : Byte) : (w.setWidth 97).setWidth 8 = w := by
  rw [BitVec.setWidth_setWidth_of_le _ (by omega), BitVec.setWidth_eq]

/-! ## DMI words -/

/-- The sum of the three fields (R72). -/
theorem dmiEncode_toNat (op : BitVec 2) (addr : Nat) (data : Word) {A : Nat} (hA : A ≤ 63) :
    (dmiEncode op addr data A).toNat = (addr % 2 ^ A) * 2 ^ 34 + data.toNat * 2 ^ 2 + op.toNat := by
  have ha : addr % 2 ^ A < 2 ^ 63 :=
    lt_of_lt_of_le (Nat.mod_lt _ (by positivity)) (Nat.pow_le_pow_right (by decide) hA)
  have hd : data.toNat < 2 ^ 32 := data.isLt
  have ho : op.toNat < 2 ^ 2 := op.isLt
  have e1 : (BitVec.ofNat 97 (addr % 2 ^ A) <<< 34).toNat = (addr % 2 ^ A) <<< 34 := by
    rw [BitVec.toNat_shiftLeft, BitVec.toNat_ofNat, Nat.mod_eq_of_lt (show addr % 2 ^ A < 2 ^ 97 by omega),
      Nat.shiftLeft_eq, Nat.mod_eq_of_lt (by omega)]
  have e2 : (data.setWidth 97 <<< 2).toNat = data.toNat <<< 2 := by
    rw [BitVec.toNat_shiftLeft, BitVec.toNat_setWidth, Nat.mod_eq_of_lt (show data.toNat < 2 ^ 97 by omega),
      Nat.shiftLeft_eq, Nat.mod_eq_of_lt (by omega)]
  have e3 : (op.setWidth 97).toNat = op.toNat := by
    rw [BitVec.toNat_setWidth, Nat.mod_eq_of_lt (by omega)]
  unfold dmiEncode
  rw [BitVec.toNat_or, BitVec.toNat_or, e1, e2, e3, Nat.or_assoc, ← Nat.shiftLeft_add_eq_or_of_lt ho,
    ← Nat.shiftLeft_add_eq_or_of_lt (by rw [Nat.shiftLeft_eq]; omega), Nat.shiftLeft_eq, Nat.shiftLeft_eq]
  omega

theorem dmiEncode_lt (op : BitVec 2) (addr : Nat) (data : Word) (A : Nat) :
    (dmiEncode op addr data A).toNat < 2 ^ dmiWidth A := by
  have hd : (2 : Nat) ^ 34 ≤ 2 ^ dmiWidth A := Nat.pow_le_pow_right (by decide) (by simp [dmiWidth])
  have hdata : data.toNat < 2 ^ 32 := data.isLt
  have hop : op.toNat < 2 ^ 2 := op.isLt
  unfold dmiEncode
  rw [BitVec.toNat_or, BitVec.toNat_or]
  refine Nat.or_lt_two_pow (Nat.or_lt_two_pow ?_ ?_) ?_
  · rw [BitVec.toNat_shiftLeft, BitVec.toNat_ofNat, Nat.shiftLeft_eq]
    refine lt_of_le_of_lt (Nat.mod_le _ _) ?_
    have h1 : addr % 2 ^ A % 2 ^ 97 ≤ addr % 2 ^ A := Nat.mod_le _ _
    have h2 : addr % 2 ^ A < 2 ^ A := Nat.mod_lt _ (by positivity)
    have h3 : (2 : Nat) ^ dmiWidth A = 2 ^ A * 2 ^ 34 := by rw [dmiWidth, Nat.add_comm, Nat.pow_add]
    rw [h3]
    exact Nat.mul_lt_mul_of_pos_right (lt_of_le_of_lt h1 h2) (by decide)
  · refine lt_of_lt_of_le ?_ hd
    rw [BitVec.toNat_shiftLeft, BitVec.toNat_setWidth, Nat.shiftLeft_eq]
    omega
  · refine lt_of_lt_of_le ?_ hd
    rw [BitVec.toNat_setWidth]
    omega

theorem dmiOp_eq (w : DmiWord) : (dmiOp w).toNat = w.toNat % 2 ^ 2 := by
  simp [dmiOp, BitVec.extractLsb'_toNat]

theorem dmiData_eq (w : DmiWord) : (dmiData w).toNat = w.toNat / 2 ^ 2 % 2 ^ 32 := by
  simp [dmiData, BitVec.extractLsb'_toNat, Nat.shiftRight_eq_div_pow]

theorem dmiOp_encode (op : BitVec 2) (addr : Nat) (data : Word) {A : Nat} (hA : A ≤ 63) :
    dmiOp (dmiEncode op addr data A) = op := by
  apply BitVec.eq_of_toNat_eq
  have ho : op.toNat < 2 ^ 2 := op.isLt
  rw [dmiOp_eq, dmiEncode_toNat op addr data hA]
  omega

theorem dmiData_encode (op : BitVec 2) (addr : Nat) (data : Word) {A : Nat} (hA : A ≤ 63) :
    dmiData (dmiEncode op addr data A) = data := by
  apply BitVec.eq_of_toNat_eq
  have ho : op.toNat < 2 ^ 2 := op.isLt
  have hd : data.toNat < 2 ^ 32 := data.isLt
  rw [dmiData_eq, dmiEncode_toNat op addr data hA]
  omega

theorem dmiAddr_encode (op : BitVec 2) (addr : Nat) (data : Word) {A : Nat} (hA : A ≤ 63) :
    dmiAddr (dmiEncode op addr data A) A = addr % 2 ^ A := by
  have ho : op.toNat < 2 ^ 2 := op.isLt
  have hd : data.toNat < 2 ^ 32 := data.isLt
  unfold dmiAddr
  rw [dmiEncode_toNat op addr data hA]
  have : (addr % 2 ^ A * 2 ^ 34 + data.toNat * 2 ^ 2 + op.toNat) / 2 ^ 34 = addr % 2 ^ A := by omega
  rw [this, Nat.mod_mod]

theorem ofBits_toBits (st : DmiStatus) : DmiStatus.ofBits st.toBits = st := by cases st <;> decide

theorem dmiOp_response (st : DmiStatus) (d : Word) : dmiOp (dmiResponse st d) = st.toBits := by
  unfold dmiOp dmiResponse
  rw [BitVec.extractLsb'_or, field_below d (by omega), field_low st.toBits (by omega)]
  simp

theorem dmiData_response (st : DmiStatus) (d : Word) : dmiData (dmiResponse st d) = d := by
  unfold dmiData dmiResponse
  rw [BitVec.extractLsb'_or, field_at d (by omega), field_low_above st.toBits (by omega)]
  simp

/-! ## ABSTRACT_CS words -/

theorem cmdErr_ofBits_toBits (e : CmdErr) : CmdErr.ofBits e.toBits = e := by cases e <;> decide

theorem acsCmderr_word (f : AcsFields) (e : CmdErr) : acsCmderr (acsWord f e) = e := by
  unfold acsCmderr acsWord
  rw [BitVec.extractLsb'_or, BitVec.extractLsb'_or, BitVec.extractLsb'_or, field_below f.progbufsize (by omega),
    field_below (BitVec.ofBool f.busy) (by omega), field_at e.toBits (by omega), field_low_above f.datacount (by omega)]
  simpa using cmdErr_ofBits_toBits e

theorem getLsbD_eq_extract {n : Nat} (w : BitVec n) (k : Nat) : w.getLsbD k = (w.extractLsb' k 1).getLsbD 0 := by simp

theorem acsFields_word (f : AcsFields) (e : CmdErr) : acsFields (acsWord f e) = f := by
  have h1 : (acsWord f e).extractLsb' 0 4 = f.datacount := by
    unfold acsWord
    rw [BitVec.extractLsb'_or, BitVec.extractLsb'_or, BitVec.extractLsb'_or, field_below f.progbufsize (by omega),
      field_below (BitVec.ofBool f.busy) (by omega), field_below e.toBits (by omega), field_low f.datacount (by omega)]
    simp
  have h2 : (acsWord f e).extractLsb' 24 5 = f.progbufsize := by
    unfold acsWord
    rw [BitVec.extractLsb'_or, BitVec.extractLsb'_or, BitVec.extractLsb'_or, field_at f.progbufsize (by omega),
      field_above (BitVec.ofBool f.busy) (by omega), field_above e.toBits (by omega),
      field_low_above f.datacount (by omega)]
    simp
  have h3 : (acsWord f e).getLsbD 12 = f.busy := by
    rw [getLsbD_eq_extract]
    unfold acsWord
    rw [BitVec.extractLsb'_or, BitVec.extractLsb'_or, BitVec.extractLsb'_or, field_below f.progbufsize (by omega),
      field_at (BitVec.ofBool f.busy) (by omega), field_above e.toBits (by omega),
      field_low_above f.datacount (by omega)]
    cases f.busy <;> simp
  unfold acsFields
  rw [h1, h2, h3]

/-! ## Command, DMCONTROL and program-buffer words -/

theorem arReadWord_eq (r : BitVec 16) : arReadWord r = 0x00220000 ||| r.setWidth 32 := rfl
theorem arWriteWord_eq (r : BitVec 16) : arWriteWord r = 0x00230000 ||| r.setWidth 32 := rfl
theorem arReadPostincWord_eq (r : BitVec 16) : arReadPostincWord r = 0x002A0000 ||| r.setWidth 32 := rfl
theorem arWritePostincWord_eq (r : BitVec 16) : arWritePostincWord r = 0x002B0000 ||| r.setWidth 32 := rfl

/-- The lower half of a command word whose other bits are `c`. -/
theorem command_regno (c : Word) (r : BitVec 16) (h : c.extractLsb' 0 16 = 0) :
    (c ||| r.setWidth 32).extractLsb' 0 16 = r := by
  rw [BitVec.extractLsb'_or, h, field_low r (by omega)]; simp

theorem command_form (c : Word) (r : BitVec 16) : (c ||| r.setWidth 32).extractLsb' 16 16 = c.extractLsb' 16 16 := by
  rw [BitVec.extractLsb'_or, field_low_above r (by omega)]; simp

theorem halves (w : Word) : w = w.extractLsb' 16 16 ++ w.extractLsb' 0 16 := by
  apply BitVec.eq_of_getLsbD_eq
  intro i hi
  rw [BitVec.getLsbD_append]
  simp only [BitVec.getLsbD_extractLsb']
  by_cases h : i < 16
  · simp [h]
  · simp only [h, decide_false, Bool.false_and]
    rw [show 16 + (i - 16) = i by omega]
    simp
    omega

/-- A word is known by its two halves. -/
theorem word_ext {w v : Word} (h1 : w.extractLsb' 16 16 = v.extractLsb' 16 16)
    (h2 : w.extractLsb' 0 16 = v.extractLsb' 0 16) : w = v := by
  rw [halves w, halves v, h1, h2]

theorem dmcontrolBase_and (p : Params) : p.dmcontrolBase &&& 0xFC00003F = p.dmcontrolBase := by
  apply BitVec.eq_of_getLsbD_eq
  intro i hi
  unfold Params.dmcontrolBase
  rw [BitVec.getLsbD_and, BitVec.getLsbD_append, BitVec.getLsbD_append]
  interval_cases i <;> simp

theorem hartselField_and (l : HartselLayout) (i : BitVec 20) : hartselField l i &&& 0xFC00003F = 0 := by
  apply BitVec.eq_of_getLsbD_eq
  intro k hk
  rw [BitVec.getLsbD_and]
  cases l <;>
  · unfold hartselField
    simp only
    rw [BitVec.getLsbD_or, BitVec.getLsbD_shiftLeft, BitVec.getLsbD_shiftLeft, BitVec.getLsbD_setWidth,
      BitVec.getLsbD_setWidth, BitVec.getLsbD_extractLsb', BitVec.getLsbD_extractLsb']
    interval_cases k <;> simp

theorem hartselDecode_field (l : HartselLayout) (i : BitVec 20) : hartselDecode l (hartselField l i) = i := by
  apply BitVec.eq_of_getLsbD_eq
  intro k hk
  cases l <;>
  · unfold hartselDecode hartselField
    simp only
    rw [BitVec.getLsbD_append]
    simp only [BitVec.getLsbD_extractLsb', BitVec.getLsbD_or, BitVec.getLsbD_shiftLeft, BitVec.getLsbD_setWidth]
    interval_cases k <;> simp

/-- Hart-select reads only the bits DMCONTROL_BASE leaves clear. -/
theorem hartselDecode_or (l : HartselLayout) (b w : Word) (h : b &&& 0xFC00003F = b) :
    hartselDecode l (b ||| w) = hartselDecode l w := by
  have hb : ∀ k, 6 ≤ k → k < 26 → b.getLsbD k = false := by
    intro k h1 h2
    rw [← h, BitVec.getLsbD_and]
    interval_cases k <;> simp
  have e : ∀ j, 6 ≤ j → j + 10 ≤ 26 → b.extractLsb' j 10 = 0 := by
    intro j h1 h2
    apply BitVec.eq_of_getLsbD_eq
    intro i hi
    rw [BitVec.getLsbD_extractLsb', hb (j + i) (by omega) (by omega)]
    simp
  cases l <;>
  · unfold hartselDecode
    simp only
    rw [BitVec.extractLsb'_or, BitVec.extractLsb'_or, e 6 (by omega) (by omega), e 16 (by omega) (by omega)]
    simp

theorem hartselDecode_dmcontrol (p : Params) (i : BitVec 20) :
    hartselDecode p.hartselLayout (dmcontrolWord p i) = i := by
  unfold dmcontrolWord
  rw [hartselDecode_or _ _ _ (dmcontrolBase_and p), hartselDecode_field]

theorem dmcontrolWord_and (p : Params) (i : BitVec 20) : dmcontrolWord p i &&& 0xFC00003F = p.dmcontrolBase := by
  unfold dmcontrolWord
  rw [BitVec.and_or_distrib_right, dmcontrolBase_and, hartselField_and]
  simp

theorem csrrs_low (csr : BitVec 12) : (csrrsX1Word csr).extractLsb' 0 20 = (0x020F3 : BitVec 20) := by
  unfold csrrsX1Word
  rw [BitVec.extractLsb'_or, field_below csr (by omega)]
  decide

theorem csrrs_high (csr : BitVec 12) : (csrrsX1Word csr).extractLsb' 20 12 = csr := by
  unfold csrrsX1Word
  rw [BitVec.extractLsb'_or, field_at csr (by omega)]
  have : BitVec.extractLsb' 20 12 (0x000020F3 : Word) = 0 := by decide
  rw [this]
  simp

/-! ## The decoder on the words of each format -/

theorem decodeWire_32 (p : Params) (A : Nat) (f : Format) (w : Word) (hf : f.width A = 32) :
    decodeWire p A { format := f, bits := w.setWidth 97 } = match f with
      | .dtmcsW => decodeDtmcsW w
      | .cmdAr => decodeCmdAr w
      | .acsRead => .ok (decodeAcsRead w)
      | .acsWrite => if w = cmderrClearWord then .ok .acsClear else .error .acsWriteValue
      | .autoexec => decodeAutoexec w
      | .dmcontrol => decodeDmcontrol p w
      | .rv32 => decodeRv32 w
      | .ir | .dmiReq | .dmiRsp => decodeWire p A { format := f, bits := w.setWidth 97 } := by
  have hw : ¬ 2 ^ f.width A ≤ (w.setWidth 97).toNat := by
    have := w.isLt
    rw [hf, BitVec.toNat_setWidth, Nat.mod_eq_of_lt (by omega)]
    omega
  cases f <;> simp only [] <;> first | rfl | (unfold decodeWire; rw [if_neg hw]; simp only [setWidth_setWidth_32])

theorem decodeWire_dmiReq (p : Params) {A : Nat} (op : BitVec 2) (addr : Nat) (data : Word) (hA : A ≤ 63)
    (ha : addr < 2 ^ A) :
    decodeWire p A { format := .dmiReq, bits := dmiEncode op addr data A } =
      if op = 0 then .ok (.dmiNop (BitVec.ofNat 63 addr) data)
      else if op = 1 then .ok (.dmiRead (BitVec.ofNat 63 addr) data)
      else if op = 2 then .ok (.dmiWrite (BitVec.ofNat 63 addr) data)
      else .error .dmiOpReserved := by
  have hw : ¬ 2 ^ dmiWidth A ≤ (dmiEncode op addr data A).toNat := by
    have := dmiEncode_lt op addr data A
    omega
  unfold decodeWire
  rw [if_neg (show ¬ 2 ^ Format.width A .dmiReq ≤ (dmiEncode op addr data A).toNat from hw)]
  simp only
  unfold decodeDmiReq
  rw [dmiOp_encode _ _ _ hA, dmiData_encode _ _ _ hA, dmiAddr_encode _ _ _ hA, Nat.mod_eq_of_lt ha]

theorem dmiResponse_lt (st : DmiStatus) (d : Word) : (dmiResponse st d).toNat < 2 ^ 34 := by
  have := d.isLt
  have := st.toBits.isLt
  unfold dmiResponse
  rw [BitVec.toNat_or]
  refine Nat.or_lt_two_pow ?_ ?_
  · rw [BitVec.toNat_shiftLeft, BitVec.toNat_setWidth, Nat.shiftLeft_eq]
    omega
  · rw [BitVec.toNat_setWidth]
    omega

theorem decodeWire_dmiRsp (p : Params) (A : Nat) (st : DmiStatus) (d : Word) :
    decodeWire p A { format := .dmiRsp, bits := dmiResponse st d } = .ok (match st with
      | .noError => .statusNoError d
      | .reserved => .statusReserved d
      | .opFailed => .statusOpFailed d
      | .opInterrupted => .statusOpInterrupted d) := by
  have hw : ¬ 2 ^ dmiWidth A ≤ (dmiResponse st d).toNat := by
    have := dmiResponse_lt st d
    have : (2 : Nat) ^ 34 ≤ 2 ^ dmiWidth A := Nat.pow_le_pow_right (by decide) (by simp [dmiWidth])
    omega
  unfold decodeWire
  rw [if_neg (show ¬ 2 ^ Format.width A .dmiRsp ≤ (dmiResponse st d).toNat from hw)]
  simp only
  unfold decodeDmiRsp
  cases st <;> simp only [dmiOp_response, dmiData_response, ofBits_toBits]

theorem decodeAcsRead_word (f : AcsFields) (e : CmdErr) : decodeAcsRead (acsWord f e) = match e with
    | .none => .cmderrNone f
    | .busy => .cmderrBusy f
    | .notSupported => .cmderrNotSupported f
    | .exception => .cmderrException f
    | .haltResume => .cmderrHaltResume f
    | .bus => .cmderrBus f
    | .reserved => .cmderrReserved f
    | .other => .cmderrOther f := by
  unfold decodeAcsRead
  cases e <;> simp only [acsCmderr_word, acsFields_word]

theorem operand_toNat {n : Nat} (x : BitVec n) : operand n x.toNat = .ok x := by
  unfold operand
  rw [if_pos x.isLt]
  simp

theorem wordOperands_toNat (ws : List Word) : wordOperands (ws.map BitVec.toNat) = .ok ws := by
  induction ws with
  | nil => rfl
  | cons w ws ih => simp [wordOperands, operand_toNat, ih]

end Sys2Proof
end

