-- ==== Sys2Proof/Laws/State.lean ====
section
/-! SUPPORT. What each named update of the state does to each field: one lemma per field, so that no proof unfolds a
record update. -/

namespace Sys2Proof.Machine

/-! ## What several lines write together -/

/-- Lines 7 and 8 of a DMI shift (40_dmi_transaction.md R97). -/
def State.recordSuccess (s : State) : State := s.recordWord.markValid

/-- Lines 1 and 2 of ATTACH (41_capability_negotiation.md R114). -/
def State.startAttach (s : State) (idcode : Word) : State := (s.wroteIdcode idcode).atPhase .probing

/-- Lines 2 to 5 of `SessionStart` (41_capability_negotiation.md R115). -/
def State.wroteDtmcs (s : State) (d : Word) : State :=
  (((s.wroteDtmVersion (dtmcsVersion d)).wroteAddressBits (dtmcsAbits d)).wroteIdleCycles (dtmcsIdle d)).clearValid

/-- Lines 6 and 7 of step (f) (41_capability_negotiation.md R123). -/
def State.wroteCapabilities (s : State) (f : AcsFields) : State :=
  (s.wroteDataCount f.datacount).wroteBufferSize f.progbufsize

/-- Lines 10 to 13 of ATTACH (41_capability_negotiation.md R114). -/
def State.attachFailed (s : State) (e : Error) : State :=
  (s.passed 114 [10, 11, 12, 13]).resetSession.diagnose (.attachFailed e.code)

/-- The state the body of a request starts in: the request is taken up, and the label stands at line 5 of `Serve`
(60_exceptions.md R185). -/
def State.serving (s : State) (req : Instr) : State := (s.takeUp req).moveTo ⟨185, 5⟩

namespace State

variable (s : State)


/-! ## `issued` -/

@[simp] theorem issued_phase (a : Action) : (s.issued a).phase = s.phase := rfl
@[simp] theorem issued_idcode (a : Action) : (s.issued a).idcode = s.idcode := rfl
@[simp] theorem issued_dtmVersion (a : Action) : (s.issued a).dtmVersion = s.dtmVersion := rfl
@[simp] theorem issued_debugVersion (a : Action) : (s.issued a).debugVersion = s.debugVersion := rfl
@[simp] theorem issued_idleCycles (a : Action) : (s.issued a).idleCycles = s.idleCycles := rfl
@[simp] theorem issued_addressBits (a : Action) : (s.issued a).addressBits = s.addressBits := rfl
@[simp] theorem issued_programBufferSize (a : Action) : (s.issued a).programBufferSize = s.programBufferSize := rfl
@[simp] theorem issued_impebreak (a : Action) : (s.issued a).impebreak = s.impebreak := rfl
@[simp] theorem issued_abstractDataCount (a : Action) : (s.issued a).abstractDataCount = s.abstractDataCount := rfl
@[simp] theorem issued_autoexecSupported (a : Action) : (s.issued a).autoexecSupported = s.autoexecSupported := rfl
@[simp] theorem issued_progbufCsrEnabled (a : Action) : (s.issued a).progbufCsrEnabled = s.progbufCsrEnabled := rfl
@[simp] theorem issued_lastDmiCommand (a : Action) : (s.issued a).lastDmiCommand = s.lastDmiCommand := rfl
@[simp] theorem issued_lastValid (a : Action) : (s.issued a).lastValid = s.lastValid := rfl
@[simp] theorem issued_irCurrent (a : Action) : (s.issued a).irCurrent = s.irCurrent := rfl
@[simp] theorem issued_hartsellen (a : Action) : (s.issued a).hartsellen = s.hartsellen := rfl
@[simp] theorem issued_harts (a : Action) : (s.issued a).harts = s.harts := rfl
@[simp] theorem issued_currentHart (a : Action) : (s.issued a).currentHart = s.currentHart := rfl
@[simp] theorem issued_req (a : Action) : (s.issued a).req = s.req := rfl
@[simp] theorem issued_label (a : Action) : (s.issued a).label = s.label := rfl
@[simp] theorem issued_dmiTries (a : Action) : (s.issued a).dmiTries = s.dmiTries := rfl
@[simp] theorem issued_polls (a : Action) : (s.issued a).polls = s.polls := rfl
@[simp] theorem issued_busyTries (a : Action) : (s.issued a).busyTries = s.busyTries := rfl
@[simp] theorem issued_batchIndex (a : Action) : (s.issued a).batchIndex = s.batchIndex := rfl
@[simp] theorem issued_discoveryIndex (a : Action) : (s.issued a).discoveryIndex = s.discoveryIndex := rfl
@[simp] theorem issued_dmiCmd (a : Action) : (s.issued a).dmiCmd = s.dmiCmd := rfl
@[simp] theorem issued_runCmd (a : Action) : (s.issued a).runCmd = s.runCmd := rfl
@[simp] theorem issued_pending (a : Action) : (s.issued a).pending = s.pending := rfl
@[simp] theorem issued_primaryError (a : Action) : (s.issued a).primaryError = s.primaryError := rfl
@[simp] theorem issued_params (a : Action) : (s.issued a).params = s.params := rfl
@[simp] theorem issued_hostQueue (a : Action) : (s.issued a).hostQueue = s.hostQueue := rfl
@[simp] theorem issued_wire (a : Action) : (s.issued a).wire = s.wire := rfl
@[simp] theorem issued_replies (a : Action) : (s.issued a).replies = s.replies.tail := rfl
@[simp] theorem issued_actionCount (a : Action) : (s.issued a).actionCount = s.actionCount + 1 := rfl
@[simp] theorem issued_moves (a : Action) : (s.issued a).moves = s.moves := rfl
@[simp] theorem issued_trace (a : Action) : (s.issued a).trace = s.trace ++ [(a, s.nextReply)] := rfl
@[simp] theorem issued_hostOut (a : Action) : (s.issued a).hostOut = s.hostOut := rfl
@[simp] theorem issued_result (a : Action) : (s.issued a).result = s.result := rfl

/-! ## `recordWord` -/

@[simp] theorem recordWord_phase : s.recordWord.phase = s.phase := rfl
@[simp] theorem recordWord_idcode : s.recordWord.idcode = s.idcode := rfl
@[simp] theorem recordWord_dtmVersion : s.recordWord.dtmVersion = s.dtmVersion := rfl
@[simp] theorem recordWord_debugVersion : s.recordWord.debugVersion = s.debugVersion := rfl
@[simp] theorem recordWord_idleCycles : s.recordWord.idleCycles = s.idleCycles := rfl
@[simp] theorem recordWord_addressBits : s.recordWord.addressBits = s.addressBits := rfl
@[simp] theorem recordWord_programBufferSize : s.recordWord.programBufferSize = s.programBufferSize := rfl
@[simp] theorem recordWord_impebreak : s.recordWord.impebreak = s.impebreak := rfl
@[simp] theorem recordWord_abstractDataCount : s.recordWord.abstractDataCount = s.abstractDataCount := rfl
@[simp] theorem recordWord_autoexecSupported : s.recordWord.autoexecSupported = s.autoexecSupported := rfl
@[simp] theorem recordWord_progbufCsrEnabled : s.recordWord.progbufCsrEnabled = s.progbufCsrEnabled := rfl
@[simp] theorem recordWord_lastDmiCommand : s.recordWord.lastDmiCommand = some s.dmiCmd := rfl
@[simp] theorem recordWord_lastValid : s.recordWord.lastValid = s.lastValid := rfl
@[simp] theorem recordWord_irCurrent : s.recordWord.irCurrent = s.irCurrent := rfl
@[simp] theorem recordWord_hartsellen : s.recordWord.hartsellen = s.hartsellen := rfl
@[simp] theorem recordWord_harts : s.recordWord.harts = s.harts := rfl
@[simp] theorem recordWord_currentHart : s.recordWord.currentHart = s.currentHart := rfl
@[simp] theorem recordWord_req : s.recordWord.req = s.req := rfl
@[simp] theorem recordWord_label : s.recordWord.label = s.label := rfl
@[simp] theorem recordWord_dmiTries : s.recordWord.dmiTries = s.dmiTries := rfl
@[simp] theorem recordWord_polls : s.recordWord.polls = s.polls := rfl
@[simp] theorem recordWord_busyTries : s.recordWord.busyTries = s.busyTries := rfl
@[simp] theorem recordWord_batchIndex : s.recordWord.batchIndex = s.batchIndex := rfl
@[simp] theorem recordWord_discoveryIndex : s.recordWord.discoveryIndex = s.discoveryIndex := rfl
@[simp] theorem recordWord_dmiCmd : s.recordWord.dmiCmd = s.dmiCmd := rfl
@[simp] theorem recordWord_runCmd : s.recordWord.runCmd = s.runCmd := rfl
@[simp] theorem recordWord_pending : s.recordWord.pending = s.pending := rfl
@[simp] theorem recordWord_primaryError : s.recordWord.primaryError = s.primaryError := rfl
@[simp] theorem recordWord_params : s.recordWord.params = s.params := rfl
@[simp] theorem recordWord_hostQueue : s.recordWord.hostQueue = s.hostQueue := rfl
@[simp] theorem recordWord_wire : s.recordWord.wire = s.wire := rfl
@[simp] theorem recordWord_replies : s.recordWord.replies = s.replies := rfl
@[simp] theorem recordWord_actionCount : s.recordWord.actionCount = s.actionCount := rfl
@[simp] theorem recordWord_moves : s.recordWord.moves = s.moves := rfl
@[simp] theorem recordWord_trace : s.recordWord.trace = s.trace := rfl
@[simp] theorem recordWord_hostOut : s.recordWord.hostOut = s.hostOut := rfl
@[simp] theorem recordWord_result : s.recordWord.result = s.result := rfl

/-! ## `markValid` -/

@[simp] theorem markValid_phase : s.markValid.phase = s.phase := rfl
@[simp] theorem markValid_idcode : s.markValid.idcode = s.idcode := rfl
@[simp] theorem markValid_dtmVersion : s.markValid.dtmVersion = s.dtmVersion := rfl
@[simp] theorem markValid_debugVersion : s.markValid.debugVersion = s.debugVersion := rfl
@[simp] theorem markValid_idleCycles : s.markValid.idleCycles = s.idleCycles := rfl
@[simp] theorem markValid_addressBits : s.markValid.addressBits = s.addressBits := rfl
@[simp] theorem markValid_programBufferSize : s.markValid.programBufferSize = s.programBufferSize := rfl
@[simp] theorem markValid_impebreak : s.markValid.impebreak = s.impebreak := rfl
@[simp] theorem markValid_abstractDataCount : s.markValid.abstractDataCount = s.abstractDataCount := rfl
@[simp] theorem markValid_autoexecSupported : s.markValid.autoexecSupported = s.autoexecSupported := rfl
@[simp] theorem markValid_progbufCsrEnabled : s.markValid.progbufCsrEnabled = s.progbufCsrEnabled := rfl
@[simp] theorem markValid_lastDmiCommand : s.markValid.lastDmiCommand = s.lastDmiCommand := rfl
@[simp] theorem markValid_lastValid : s.markValid.lastValid = true := rfl
@[simp] theorem markValid_irCurrent : s.markValid.irCurrent = s.irCurrent := rfl
@[simp] theorem markValid_hartsellen : s.markValid.hartsellen = s.hartsellen := rfl
@[simp] theorem markValid_harts : s.markValid.harts = s.harts := rfl
@[simp] theorem markValid_currentHart : s.markValid.currentHart = s.currentHart := rfl
@[simp] theorem markValid_req : s.markValid.req = s.req := rfl
@[simp] theorem markValid_label : s.markValid.label = s.label := rfl
@[simp] theorem markValid_dmiTries : s.markValid.dmiTries = s.dmiTries := rfl
@[simp] theorem markValid_polls : s.markValid.polls = s.polls := rfl
@[simp] theorem markValid_busyTries : s.markValid.busyTries = s.busyTries := rfl
@[simp] theorem markValid_batchIndex : s.markValid.batchIndex = s.batchIndex := rfl
@[simp] theorem markValid_discoveryIndex : s.markValid.discoveryIndex = s.discoveryIndex := rfl
@[simp] theorem markValid_dmiCmd : s.markValid.dmiCmd = s.dmiCmd := rfl
@[simp] theorem markValid_runCmd : s.markValid.runCmd = s.runCmd := rfl
@[simp] theorem markValid_pending : s.markValid.pending = s.pending := rfl
@[simp] theorem markValid_primaryError : s.markValid.primaryError = s.primaryError := rfl
@[simp] theorem markValid_params : s.markValid.params = s.params := rfl
@[simp] theorem markValid_hostQueue : s.markValid.hostQueue = s.hostQueue := rfl
@[simp] theorem markValid_wire : s.markValid.wire = s.wire := rfl
@[simp] theorem markValid_replies : s.markValid.replies = s.replies := rfl
@[simp] theorem markValid_actionCount : s.markValid.actionCount = s.actionCount := rfl
@[simp] theorem markValid_moves : s.markValid.moves = s.moves := rfl
@[simp] theorem markValid_trace : s.markValid.trace = s.trace := rfl
@[simp] theorem markValid_hostOut : s.markValid.hostOut = s.hostOut := rfl
@[simp] theorem markValid_result : s.markValid.result = s.result := rfl

/-! ## `recordSuccess` -/

@[simp] theorem recordSuccess_phase  : s.recordSuccess.phase = s.phase := rfl
@[simp] theorem recordSuccess_idcode  : s.recordSuccess.idcode = s.idcode := rfl
@[simp] theorem recordSuccess_dtmVersion  : s.recordSuccess.dtmVersion = s.dtmVersion := rfl
@[simp] theorem recordSuccess_debugVersion  : s.recordSuccess.debugVersion = s.debugVersion := rfl
@[simp] theorem recordSuccess_idleCycles  : s.recordSuccess.idleCycles = s.idleCycles := rfl
@[simp] theorem recordSuccess_addressBits  : s.recordSuccess.addressBits = s.addressBits := rfl
@[simp] theorem recordSuccess_programBufferSize  : s.recordSuccess.programBufferSize = s.programBufferSize := rfl
@[simp] theorem recordSuccess_impebreak  : s.recordSuccess.impebreak = s.impebreak := rfl
@[simp] theorem recordSuccess_abstractDataCount  : s.recordSuccess.abstractDataCount = s.abstractDataCount := rfl
@[simp] theorem recordSuccess_autoexecSupported  : s.recordSuccess.autoexecSupported = s.autoexecSupported := rfl
@[simp] theorem recordSuccess_progbufCsrEnabled  : s.recordSuccess.progbufCsrEnabled = s.progbufCsrEnabled := rfl
@[simp] theorem recordSuccess_lastDmiCommand : s.recordSuccess.lastDmiCommand = some s.dmiCmd := rfl
@[simp] theorem recordSuccess_lastValid  : s.recordSuccess.lastValid = true := rfl
@[simp] theorem recordSuccess_irCurrent  : s.recordSuccess.irCurrent = s.irCurrent := rfl
@[simp] theorem recordSuccess_hartsellen  : s.recordSuccess.hartsellen = s.hartsellen := rfl
@[simp] theorem recordSuccess_harts  : s.recordSuccess.harts = s.harts := rfl
@[simp] theorem recordSuccess_currentHart  : s.recordSuccess.currentHart = s.currentHart := rfl
@[simp] theorem recordSuccess_req  : s.recordSuccess.req = s.req := rfl
@[simp] theorem recordSuccess_label  : s.recordSuccess.label = s.label := rfl
@[simp] theorem recordSuccess_dmiTries  : s.recordSuccess.dmiTries = s.dmiTries := rfl
@[simp] theorem recordSuccess_polls  : s.recordSuccess.polls = s.polls := rfl
@[simp] theorem recordSuccess_busyTries  : s.recordSuccess.busyTries = s.busyTries := rfl
@[simp] theorem recordSuccess_batchIndex  : s.recordSuccess.batchIndex = s.batchIndex := rfl
@[simp] theorem recordSuccess_discoveryIndex  : s.recordSuccess.discoveryIndex = s.discoveryIndex := rfl
@[simp] theorem recordSuccess_dmiCmd  : s.recordSuccess.dmiCmd = s.dmiCmd := rfl
@[simp] theorem recordSuccess_runCmd  : s.recordSuccess.runCmd = s.runCmd := rfl
@[simp] theorem recordSuccess_pending  : s.recordSuccess.pending = s.pending := rfl
@[simp] theorem recordSuccess_primaryError  : s.recordSuccess.primaryError = s.primaryError := rfl
@[simp] theorem recordSuccess_params  : s.recordSuccess.params = s.params := rfl
@[simp] theorem recordSuccess_hostQueue  : s.recordSuccess.hostQueue = s.hostQueue := rfl
@[simp] theorem recordSuccess_wire : s.recordSuccess.wire = s.wire := rfl
@[simp] theorem recordSuccess_replies  : s.recordSuccess.replies = s.replies := rfl
@[simp] theorem recordSuccess_actionCount  : s.recordSuccess.actionCount = s.actionCount := rfl
@[simp] theorem recordSuccess_moves : s.recordSuccess.moves = s.moves := rfl
@[simp] theorem recordSuccess_trace  : s.recordSuccess.trace = s.trace := rfl
@[simp] theorem recordSuccess_hostOut  : s.recordSuccess.hostOut = s.hostOut := rfl
@[simp] theorem recordSuccess_result  : s.recordSuccess.result = s.result := rfl

/-! ## `diagnose` -/

@[simp] theorem diagnose_phase (d : Diag) : (s.diagnose d).phase = s.phase := rfl
@[simp] theorem diagnose_idcode (d : Diag) : (s.diagnose d).idcode = s.idcode := rfl
@[simp] theorem diagnose_dtmVersion (d : Diag) : (s.diagnose d).dtmVersion = s.dtmVersion := rfl
@[simp] theorem diagnose_debugVersion (d : Diag) : (s.diagnose d).debugVersion = s.debugVersion := rfl
@[simp] theorem diagnose_idleCycles (d : Diag) : (s.diagnose d).idleCycles = s.idleCycles := rfl
@[simp] theorem diagnose_addressBits (d : Diag) : (s.diagnose d).addressBits = s.addressBits := rfl
@[simp] theorem diagnose_programBufferSize (d : Diag) : (s.diagnose d).programBufferSize = s.programBufferSize := rfl
@[simp] theorem diagnose_impebreak (d : Diag) : (s.diagnose d).impebreak = s.impebreak := rfl
@[simp] theorem diagnose_abstractDataCount (d : Diag) : (s.diagnose d).abstractDataCount = s.abstractDataCount := rfl
@[simp] theorem diagnose_autoexecSupported (d : Diag) : (s.diagnose d).autoexecSupported = s.autoexecSupported := rfl
@[simp] theorem diagnose_progbufCsrEnabled (d : Diag) : (s.diagnose d).progbufCsrEnabled = s.progbufCsrEnabled := rfl
@[simp] theorem diagnose_lastDmiCommand (d : Diag) : (s.diagnose d).lastDmiCommand = s.lastDmiCommand := rfl
@[simp] theorem diagnose_lastValid (d : Diag) : (s.diagnose d).lastValid = s.lastValid := rfl
@[simp] theorem diagnose_irCurrent (d : Diag) : (s.diagnose d).irCurrent = s.irCurrent := rfl
@[simp] theorem diagnose_hartsellen (d : Diag) : (s.diagnose d).hartsellen = s.hartsellen := rfl
@[simp] theorem diagnose_harts (d : Diag) : (s.diagnose d).harts = s.harts := rfl
@[simp] theorem diagnose_currentHart (d : Diag) : (s.diagnose d).currentHart = s.currentHart := rfl
@[simp] theorem diagnose_req (d : Diag) : (s.diagnose d).req = s.req := rfl
@[simp] theorem diagnose_label (d : Diag) : (s.diagnose d).label = s.label := rfl
@[simp] theorem diagnose_dmiTries (d : Diag) : (s.diagnose d).dmiTries = s.dmiTries := rfl
@[simp] theorem diagnose_polls (d : Diag) : (s.diagnose d).polls = s.polls := rfl
@[simp] theorem diagnose_busyTries (d : Diag) : (s.diagnose d).busyTries = s.busyTries := rfl
@[simp] theorem diagnose_batchIndex (d : Diag) : (s.diagnose d).batchIndex = s.batchIndex := rfl
@[simp] theorem diagnose_discoveryIndex (d : Diag) : (s.diagnose d).discoveryIndex = s.discoveryIndex := rfl
@[simp] theorem diagnose_dmiCmd (d : Diag) : (s.diagnose d).dmiCmd = s.dmiCmd := rfl
@[simp] theorem diagnose_runCmd (d : Diag) : (s.diagnose d).runCmd = s.runCmd := rfl
@[simp] theorem diagnose_pending (d : Diag) : (s.diagnose d).pending = s.pending := rfl
@[simp] theorem diagnose_primaryError (d : Diag) : (s.diagnose d).primaryError = s.primaryError := rfl
@[simp] theorem diagnose_params (d : Diag) : (s.diagnose d).params = s.params := rfl
@[simp] theorem diagnose_hostQueue (d : Diag) : (s.diagnose d).hostQueue = s.hostQueue := rfl
@[simp] theorem diagnose_wire (d : Diag) : (s.diagnose d).wire = s.wire := rfl
@[simp] theorem diagnose_replies (d : Diag) : (s.diagnose d).replies = s.replies := rfl
@[simp] theorem diagnose_actionCount (d : Diag) : (s.diagnose d).actionCount = s.actionCount := rfl
@[simp] theorem diagnose_moves (d : Diag) : (s.diagnose d).moves = s.moves := rfl
@[simp] theorem diagnose_trace (d : Diag) : (s.diagnose d).trace = s.trace := rfl
@[simp] theorem diagnose_hostOut (d : Diag) : (s.diagnose d).hostOut = s.hostOut ++ [.diag d] := rfl
@[simp] theorem diagnose_result (d : Diag) : (s.diagnose d).result = s.result := rfl

/-! ## `selectIr` -/

@[simp] theorem selectIr_phase (c : IrSel) : (s.selectIr c).phase = s.phase := rfl
@[simp] theorem selectIr_idcode (c : IrSel) : (s.selectIr c).idcode = s.idcode := rfl
@[simp] theorem selectIr_dtmVersion (c : IrSel) : (s.selectIr c).dtmVersion = s.dtmVersion := rfl
@[simp] theorem selectIr_debugVersion (c : IrSel) : (s.selectIr c).debugVersion = s.debugVersion := rfl
@[simp] theorem selectIr_idleCycles (c : IrSel) : (s.selectIr c).idleCycles = s.idleCycles := rfl
@[simp] theorem selectIr_addressBits (c : IrSel) : (s.selectIr c).addressBits = s.addressBits := rfl
@[simp] theorem selectIr_programBufferSize (c : IrSel) : (s.selectIr c).programBufferSize = s.programBufferSize := rfl
@[simp] theorem selectIr_impebreak (c : IrSel) : (s.selectIr c).impebreak = s.impebreak := rfl
@[simp] theorem selectIr_abstractDataCount (c : IrSel) : (s.selectIr c).abstractDataCount = s.abstractDataCount := rfl
@[simp] theorem selectIr_autoexecSupported (c : IrSel) : (s.selectIr c).autoexecSupported = s.autoexecSupported := rfl
@[simp] theorem selectIr_progbufCsrEnabled (c : IrSel) : (s.selectIr c).progbufCsrEnabled = s.progbufCsrEnabled := rfl
@[simp] theorem selectIr_lastDmiCommand (c : IrSel) : (s.selectIr c).lastDmiCommand = s.lastDmiCommand := rfl
@[simp] theorem selectIr_lastValid (c : IrSel) : (s.selectIr c).lastValid = s.lastValid := rfl
@[simp] theorem selectIr_irCurrent (c : IrSel) : (s.selectIr c).irCurrent = c := rfl
@[simp] theorem selectIr_hartsellen (c : IrSel) : (s.selectIr c).hartsellen = s.hartsellen := rfl
@[simp] theorem selectIr_harts (c : IrSel) : (s.selectIr c).harts = s.harts := rfl
@[simp] theorem selectIr_currentHart (c : IrSel) : (s.selectIr c).currentHart = s.currentHart := rfl
@[simp] theorem selectIr_req (c : IrSel) : (s.selectIr c).req = s.req := rfl
@[simp] theorem selectIr_label (c : IrSel) : (s.selectIr c).label = s.label := rfl
@[simp] theorem selectIr_dmiTries (c : IrSel) : (s.selectIr c).dmiTries = s.dmiTries := rfl
@[simp] theorem selectIr_polls (c : IrSel) : (s.selectIr c).polls = s.polls := rfl
@[simp] theorem selectIr_busyTries (c : IrSel) : (s.selectIr c).busyTries = s.busyTries := rfl
@[simp] theorem selectIr_batchIndex (c : IrSel) : (s.selectIr c).batchIndex = s.batchIndex := rfl
@[simp] theorem selectIr_discoveryIndex (c : IrSel) : (s.selectIr c).discoveryIndex = s.discoveryIndex := rfl
@[simp] theorem selectIr_dmiCmd (c : IrSel) : (s.selectIr c).dmiCmd = s.dmiCmd := rfl
@[simp] theorem selectIr_runCmd (c : IrSel) : (s.selectIr c).runCmd = s.runCmd := rfl
@[simp] theorem selectIr_pending (c : IrSel) : (s.selectIr c).pending = s.pending := rfl
@[simp] theorem selectIr_primaryError (c : IrSel) : (s.selectIr c).primaryError = s.primaryError := rfl
@[simp] theorem selectIr_params (c : IrSel) : (s.selectIr c).params = s.params := rfl
@[simp] theorem selectIr_hostQueue (c : IrSel) : (s.selectIr c).hostQueue = s.hostQueue := rfl
@[simp] theorem selectIr_wire (c : IrSel) : (s.selectIr c).wire = s.wire := rfl
@[simp] theorem selectIr_replies (c : IrSel) : (s.selectIr c).replies = s.replies := rfl
@[simp] theorem selectIr_actionCount (c : IrSel) : (s.selectIr c).actionCount = s.actionCount := rfl
@[simp] theorem selectIr_moves (c : IrSel) : (s.selectIr c).moves = s.moves := rfl
@[simp] theorem selectIr_trace (c : IrSel) : (s.selectIr c).trace = s.trace := rfl
@[simp] theorem selectIr_hostOut (c : IrSel) : (s.selectIr c).hostOut = s.hostOut := rfl
@[simp] theorem selectIr_result (c : IrSel) : (s.selectIr c).result = s.result := rfl

/-! ## `takeUp` -/

@[simp] theorem takeUp_phase (i : Instr) : (s.takeUp i).phase = s.phase := rfl
@[simp] theorem takeUp_idcode (i : Instr) : (s.takeUp i).idcode = s.idcode := rfl
@[simp] theorem takeUp_dtmVersion (i : Instr) : (s.takeUp i).dtmVersion = s.dtmVersion := rfl
@[simp] theorem takeUp_debugVersion (i : Instr) : (s.takeUp i).debugVersion = s.debugVersion := rfl
@[simp] theorem takeUp_idleCycles (i : Instr) : (s.takeUp i).idleCycles = s.idleCycles := rfl
@[simp] theorem takeUp_addressBits (i : Instr) : (s.takeUp i).addressBits = s.addressBits := rfl
@[simp] theorem takeUp_programBufferSize (i : Instr) : (s.takeUp i).programBufferSize = s.programBufferSize := rfl
@[simp] theorem takeUp_impebreak (i : Instr) : (s.takeUp i).impebreak = s.impebreak := rfl
@[simp] theorem takeUp_abstractDataCount (i : Instr) : (s.takeUp i).abstractDataCount = s.abstractDataCount := rfl
@[simp] theorem takeUp_autoexecSupported (i : Instr) : (s.takeUp i).autoexecSupported = s.autoexecSupported := rfl
@[simp] theorem takeUp_progbufCsrEnabled (i : Instr) : (s.takeUp i).progbufCsrEnabled = s.progbufCsrEnabled := rfl
@[simp] theorem takeUp_lastDmiCommand (i : Instr) : (s.takeUp i).lastDmiCommand = s.lastDmiCommand := rfl
@[simp] theorem takeUp_lastValid (i : Instr) : (s.takeUp i).lastValid = s.lastValid := rfl
@[simp] theorem takeUp_irCurrent (i : Instr) : (s.takeUp i).irCurrent = s.irCurrent := rfl
@[simp] theorem takeUp_hartsellen (i : Instr) : (s.takeUp i).hartsellen = s.hartsellen := rfl
@[simp] theorem takeUp_harts (i : Instr) : (s.takeUp i).harts = s.harts := rfl
@[simp] theorem takeUp_currentHart (i : Instr) : (s.takeUp i).currentHart = s.currentHart := rfl
@[simp] theorem takeUp_req (i : Instr) : (s.takeUp i).req = some i := rfl
@[simp] theorem takeUp_label (i : Instr) : (s.takeUp i).label = s.label := rfl
@[simp] theorem takeUp_dmiTries (i : Instr) : (s.takeUp i).dmiTries = s.dmiTries := rfl
@[simp] theorem takeUp_polls (i : Instr) : (s.takeUp i).polls = s.polls := rfl
@[simp] theorem takeUp_busyTries (i : Instr) : (s.takeUp i).busyTries = s.busyTries := rfl
@[simp] theorem takeUp_batchIndex (i : Instr) : (s.takeUp i).batchIndex = s.batchIndex := rfl
@[simp] theorem takeUp_discoveryIndex (i : Instr) : (s.takeUp i).discoveryIndex = s.discoveryIndex := rfl
@[simp] theorem takeUp_dmiCmd (i : Instr) : (s.takeUp i).dmiCmd = s.dmiCmd := rfl
@[simp] theorem takeUp_runCmd (i : Instr) : (s.takeUp i).runCmd = s.runCmd := rfl
@[simp] theorem takeUp_pending (i : Instr) : (s.takeUp i).pending = s.pending := rfl
@[simp] theorem takeUp_primaryError (i : Instr) : (s.takeUp i).primaryError = s.primaryError := rfl
@[simp] theorem takeUp_params (i : Instr) : (s.takeUp i).params = s.params := rfl
@[simp] theorem takeUp_hostQueue (i : Instr) : (s.takeUp i).hostQueue = s.hostQueue := rfl
@[simp] theorem takeUp_wire (i : Instr) : (s.takeUp i).wire = s.wire := rfl
@[simp] theorem takeUp_replies (i : Instr) : (s.takeUp i).replies = s.replies := rfl
@[simp] theorem takeUp_actionCount (i : Instr) : (s.takeUp i).actionCount = s.actionCount := rfl
@[simp] theorem takeUp_moves (i : Instr) : (s.takeUp i).moves = s.moves ++ movesAt 185 [1, 2, 4] s.label := rfl
@[simp] theorem takeUp_trace (i : Instr) : (s.takeUp i).trace = s.trace := rfl
@[simp] theorem takeUp_hostOut (i : Instr) : (s.takeUp i).hostOut = s.hostOut := rfl
@[simp] theorem takeUp_result (i : Instr) : (s.takeUp i).result = s.result := rfl

/-! ## `countRecovery` -/

@[simp] theorem countRecovery_phase : (s.countRecovery).phase = s.phase := rfl
@[simp] theorem countRecovery_idcode : (s.countRecovery).idcode = s.idcode := rfl
@[simp] theorem countRecovery_dtmVersion : (s.countRecovery).dtmVersion = s.dtmVersion := rfl
@[simp] theorem countRecovery_debugVersion : (s.countRecovery).debugVersion = s.debugVersion := rfl
@[simp] theorem countRecovery_idleCycles : (s.countRecovery).idleCycles = s.idleCycles := rfl
@[simp] theorem countRecovery_addressBits : (s.countRecovery).addressBits = s.addressBits := rfl
@[simp] theorem countRecovery_programBufferSize : (s.countRecovery).programBufferSize = s.programBufferSize := rfl
@[simp] theorem countRecovery_impebreak : (s.countRecovery).impebreak = s.impebreak := rfl
@[simp] theorem countRecovery_abstractDataCount : (s.countRecovery).abstractDataCount = s.abstractDataCount := rfl
@[simp] theorem countRecovery_autoexecSupported : (s.countRecovery).autoexecSupported = s.autoexecSupported := rfl
@[simp] theorem countRecovery_progbufCsrEnabled : (s.countRecovery).progbufCsrEnabled = s.progbufCsrEnabled := rfl
@[simp] theorem countRecovery_lastDmiCommand : (s.countRecovery).lastDmiCommand = s.lastDmiCommand := rfl
@[simp] theorem countRecovery_lastValid : (s.countRecovery).lastValid = s.lastValid := rfl
@[simp] theorem countRecovery_irCurrent : (s.countRecovery).irCurrent = s.irCurrent := rfl
@[simp] theorem countRecovery_hartsellen : (s.countRecovery).hartsellen = s.hartsellen := rfl
@[simp] theorem countRecovery_harts : (s.countRecovery).harts = s.harts := rfl
@[simp] theorem countRecovery_currentHart : (s.countRecovery).currentHart = s.currentHart := rfl
@[simp] theorem countRecovery_req : (s.countRecovery).req = s.req := rfl
@[simp] theorem countRecovery_label : (s.countRecovery).label = s.label := rfl
@[simp] theorem countRecovery_dmiTries : (s.countRecovery).dmiTries = s.dmiTries + 1 := rfl
@[simp] theorem countRecovery_polls : (s.countRecovery).polls = s.polls := rfl
@[simp] theorem countRecovery_busyTries : (s.countRecovery).busyTries = s.busyTries := rfl
@[simp] theorem countRecovery_batchIndex : (s.countRecovery).batchIndex = s.batchIndex := rfl
@[simp] theorem countRecovery_discoveryIndex : (s.countRecovery).discoveryIndex = s.discoveryIndex := rfl
@[simp] theorem countRecovery_dmiCmd : (s.countRecovery).dmiCmd = s.dmiCmd := rfl
@[simp] theorem countRecovery_runCmd : (s.countRecovery).runCmd = s.runCmd := rfl
@[simp] theorem countRecovery_pending : (s.countRecovery).pending = s.pending := rfl
@[simp] theorem countRecovery_primaryError : (s.countRecovery).primaryError = s.primaryError := rfl
@[simp] theorem countRecovery_params : (s.countRecovery).params = s.params := rfl
@[simp] theorem countRecovery_hostQueue : (s.countRecovery).hostQueue = s.hostQueue := rfl
@[simp] theorem countRecovery_wire : s.countRecovery.wire = s.wire := rfl
@[simp] theorem countRecovery_replies : (s.countRecovery).replies = s.replies := rfl
@[simp] theorem countRecovery_actionCount : (s.countRecovery).actionCount = s.actionCount := rfl
@[simp] theorem countRecovery_moves : s.countRecovery.moves = s.moves := rfl
@[simp] theorem countRecovery_trace : (s.countRecovery).trace = s.trace := rfl
@[simp] theorem countRecovery_hostOut : (s.countRecovery).hostOut = s.hostOut := rfl
@[simp] theorem countRecovery_result : (s.countRecovery).result = s.result := rfl

/-! ## `beginShift` -/

@[simp] theorem beginShift_phase (w : DmiWord) : (s.beginShift w).phase = s.phase := rfl
@[simp] theorem beginShift_idcode (w : DmiWord) : (s.beginShift w).idcode = s.idcode := rfl
@[simp] theorem beginShift_dtmVersion (w : DmiWord) : (s.beginShift w).dtmVersion = s.dtmVersion := rfl
@[simp] theorem beginShift_debugVersion (w : DmiWord) : (s.beginShift w).debugVersion = s.debugVersion := rfl
@[simp] theorem beginShift_idleCycles (w : DmiWord) : (s.beginShift w).idleCycles = s.idleCycles := rfl
@[simp] theorem beginShift_addressBits (w : DmiWord) : (s.beginShift w).addressBits = s.addressBits := rfl
@[simp] theorem beginShift_programBufferSize (w : DmiWord) : (s.beginShift w).programBufferSize = s.programBufferSize := rfl
@[simp] theorem beginShift_impebreak (w : DmiWord) : (s.beginShift w).impebreak = s.impebreak := rfl
@[simp] theorem beginShift_abstractDataCount (w : DmiWord) : (s.beginShift w).abstractDataCount = s.abstractDataCount := rfl
@[simp] theorem beginShift_autoexecSupported (w : DmiWord) : (s.beginShift w).autoexecSupported = s.autoexecSupported := rfl
@[simp] theorem beginShift_progbufCsrEnabled (w : DmiWord) : (s.beginShift w).progbufCsrEnabled = s.progbufCsrEnabled := rfl
@[simp] theorem beginShift_lastDmiCommand (w : DmiWord) : (s.beginShift w).lastDmiCommand = s.lastDmiCommand := rfl
@[simp] theorem beginShift_lastValid (w : DmiWord) : (s.beginShift w).lastValid = s.lastValid := rfl
@[simp] theorem beginShift_irCurrent (w : DmiWord) : (s.beginShift w).irCurrent = s.irCurrent := rfl
@[simp] theorem beginShift_hartsellen (w : DmiWord) : (s.beginShift w).hartsellen = s.hartsellen := rfl
@[simp] theorem beginShift_harts (w : DmiWord) : (s.beginShift w).harts = s.harts := rfl
@[simp] theorem beginShift_currentHart (w : DmiWord) : (s.beginShift w).currentHart = s.currentHart := rfl
@[simp] theorem beginShift_req (w : DmiWord) : (s.beginShift w).req = s.req := rfl
@[simp] theorem beginShift_label (w : DmiWord) : (s.beginShift w).label = s.label := rfl
@[simp] theorem beginShift_dmiTries (w : DmiWord) : (s.beginShift w).dmiTries = 0 := rfl
@[simp] theorem beginShift_polls (w : DmiWord) : (s.beginShift w).polls = s.polls := rfl
@[simp] theorem beginShift_busyTries (w : DmiWord) : (s.beginShift w).busyTries = s.busyTries := rfl
@[simp] theorem beginShift_batchIndex (w : DmiWord) : (s.beginShift w).batchIndex = s.batchIndex := rfl
@[simp] theorem beginShift_discoveryIndex (w : DmiWord) : (s.beginShift w).discoveryIndex = s.discoveryIndex := rfl
@[simp] theorem beginShift_dmiCmd (w : DmiWord) : (s.beginShift w).dmiCmd = w := rfl
@[simp] theorem beginShift_runCmd (w : DmiWord) : (s.beginShift w).runCmd = s.runCmd := rfl
@[simp] theorem beginShift_pending (w : DmiWord) : (s.beginShift w).pending = s.pending := rfl
@[simp] theorem beginShift_primaryError (w : DmiWord) : (s.beginShift w).primaryError = s.primaryError := rfl
@[simp] theorem beginShift_params (w : DmiWord) : (s.beginShift w).params = s.params := rfl
@[simp] theorem beginShift_hostQueue (w : DmiWord) : (s.beginShift w).hostQueue = s.hostQueue := rfl
@[simp] theorem beginShift_wire (w : DmiWord) : (s.beginShift w).wire = s.wire := rfl
@[simp] theorem beginShift_replies (w : DmiWord) : (s.beginShift w).replies = s.replies := rfl
@[simp] theorem beginShift_actionCount (w : DmiWord) : (s.beginShift w).actionCount = s.actionCount := rfl
@[simp] theorem beginShift_moves (w : DmiWord) : (s.beginShift w).moves = s.moves := rfl
@[simp] theorem beginShift_trace (w : DmiWord) : (s.beginShift w).trace = s.trace := rfl
@[simp] theorem beginShift_hostOut (w : DmiWord) : (s.beginShift w).hostOut = s.hostOut := rfl
@[simp] theorem beginShift_result (w : DmiWord) : (s.beginShift w).result = s.result := rfl

/-! ## `countPoll` -/

@[simp] theorem countPoll_phase : (s.countPoll).phase = s.phase := rfl
@[simp] theorem countPoll_idcode : (s.countPoll).idcode = s.idcode := rfl
@[simp] theorem countPoll_dtmVersion : (s.countPoll).dtmVersion = s.dtmVersion := rfl
@[simp] theorem countPoll_debugVersion : (s.countPoll).debugVersion = s.debugVersion := rfl
@[simp] theorem countPoll_idleCycles : (s.countPoll).idleCycles = s.idleCycles := rfl
@[simp] theorem countPoll_addressBits : (s.countPoll).addressBits = s.addressBits := rfl
@[simp] theorem countPoll_programBufferSize : (s.countPoll).programBufferSize = s.programBufferSize := rfl
@[simp] theorem countPoll_impebreak : (s.countPoll).impebreak = s.impebreak := rfl
@[simp] theorem countPoll_abstractDataCount : (s.countPoll).abstractDataCount = s.abstractDataCount := rfl
@[simp] theorem countPoll_autoexecSupported : (s.countPoll).autoexecSupported = s.autoexecSupported := rfl
@[simp] theorem countPoll_progbufCsrEnabled : (s.countPoll).progbufCsrEnabled = s.progbufCsrEnabled := rfl
@[simp] theorem countPoll_lastDmiCommand : (s.countPoll).lastDmiCommand = s.lastDmiCommand := rfl
@[simp] theorem countPoll_lastValid : (s.countPoll).lastValid = s.lastValid := rfl
@[simp] theorem countPoll_irCurrent : (s.countPoll).irCurrent = s.irCurrent := rfl
@[simp] theorem countPoll_hartsellen : (s.countPoll).hartsellen = s.hartsellen := rfl
@[simp] theorem countPoll_harts : (s.countPoll).harts = s.harts := rfl
@[simp] theorem countPoll_currentHart : (s.countPoll).currentHart = s.currentHart := rfl
@[simp] theorem countPoll_req : (s.countPoll).req = s.req := rfl
@[simp] theorem countPoll_label : (s.countPoll).label = s.label := rfl
@[simp] theorem countPoll_dmiTries : (s.countPoll).dmiTries = s.dmiTries := rfl
@[simp] theorem countPoll_polls : (s.countPoll).polls = s.polls + 1 := rfl
@[simp] theorem countPoll_busyTries : (s.countPoll).busyTries = s.busyTries := rfl
@[simp] theorem countPoll_batchIndex : (s.countPoll).batchIndex = s.batchIndex := rfl
@[simp] theorem countPoll_discoveryIndex : (s.countPoll).discoveryIndex = s.discoveryIndex := rfl
@[simp] theorem countPoll_dmiCmd : (s.countPoll).dmiCmd = s.dmiCmd := rfl
@[simp] theorem countPoll_runCmd : (s.countPoll).runCmd = s.runCmd := rfl
@[simp] theorem countPoll_pending : (s.countPoll).pending = s.pending := rfl
@[simp] theorem countPoll_primaryError : (s.countPoll).primaryError = s.primaryError := rfl
@[simp] theorem countPoll_params : (s.countPoll).params = s.params := rfl
@[simp] theorem countPoll_hostQueue : (s.countPoll).hostQueue = s.hostQueue := rfl
@[simp] theorem countPoll_wire : s.countPoll.wire = s.wire := rfl
@[simp] theorem countPoll_replies : (s.countPoll).replies = s.replies := rfl
@[simp] theorem countPoll_actionCount : (s.countPoll).actionCount = s.actionCount := rfl
@[simp] theorem countPoll_moves : s.countPoll.moves = s.moves := rfl
@[simp] theorem countPoll_trace : (s.countPoll).trace = s.trace := rfl
@[simp] theorem countPoll_hostOut : (s.countPoll).hostOut = s.hostOut := rfl
@[simp] theorem countPoll_result : (s.countPoll).result = s.result := rfl

/-! ## `startPolls` -/

@[simp] theorem startPolls_phase : (s.startPolls).phase = s.phase := rfl
@[simp] theorem startPolls_idcode : (s.startPolls).idcode = s.idcode := rfl
@[simp] theorem startPolls_dtmVersion : (s.startPolls).dtmVersion = s.dtmVersion := rfl
@[simp] theorem startPolls_debugVersion : (s.startPolls).debugVersion = s.debugVersion := rfl
@[simp] theorem startPolls_idleCycles : (s.startPolls).idleCycles = s.idleCycles := rfl
@[simp] theorem startPolls_addressBits : (s.startPolls).addressBits = s.addressBits := rfl
@[simp] theorem startPolls_programBufferSize : (s.startPolls).programBufferSize = s.programBufferSize := rfl
@[simp] theorem startPolls_impebreak : (s.startPolls).impebreak = s.impebreak := rfl
@[simp] theorem startPolls_abstractDataCount : (s.startPolls).abstractDataCount = s.abstractDataCount := rfl
@[simp] theorem startPolls_autoexecSupported : (s.startPolls).autoexecSupported = s.autoexecSupported := rfl
@[simp] theorem startPolls_progbufCsrEnabled : (s.startPolls).progbufCsrEnabled = s.progbufCsrEnabled := rfl
@[simp] theorem startPolls_lastDmiCommand : (s.startPolls).lastDmiCommand = s.lastDmiCommand := rfl
@[simp] theorem startPolls_lastValid : (s.startPolls).lastValid = s.lastValid := rfl
@[simp] theorem startPolls_irCurrent : (s.startPolls).irCurrent = s.irCurrent := rfl
@[simp] theorem startPolls_hartsellen : (s.startPolls).hartsellen = s.hartsellen := rfl
@[simp] theorem startPolls_harts : (s.startPolls).harts = s.harts := rfl
@[simp] theorem startPolls_currentHart : (s.startPolls).currentHart = s.currentHart := rfl
@[simp] theorem startPolls_req : (s.startPolls).req = s.req := rfl
@[simp] theorem startPolls_label : (s.startPolls).label = s.label := rfl
@[simp] theorem startPolls_dmiTries : (s.startPolls).dmiTries = s.dmiTries := rfl
@[simp] theorem startPolls_polls : (s.startPolls).polls = 0 := rfl
@[simp] theorem startPolls_busyTries : (s.startPolls).busyTries = s.busyTries := rfl
@[simp] theorem startPolls_batchIndex : (s.startPolls).batchIndex = s.batchIndex := rfl
@[simp] theorem startPolls_discoveryIndex : (s.startPolls).discoveryIndex = s.discoveryIndex := rfl
@[simp] theorem startPolls_dmiCmd : (s.startPolls).dmiCmd = s.dmiCmd := rfl
@[simp] theorem startPolls_runCmd : (s.startPolls).runCmd = s.runCmd := rfl
@[simp] theorem startPolls_pending : (s.startPolls).pending = s.pending := rfl
@[simp] theorem startPolls_primaryError : (s.startPolls).primaryError = s.primaryError := rfl
@[simp] theorem startPolls_params : (s.startPolls).params = s.params := rfl
@[simp] theorem startPolls_hostQueue : (s.startPolls).hostQueue = s.hostQueue := rfl
@[simp] theorem startPolls_wire : s.startPolls.wire = s.wire := rfl
@[simp] theorem startPolls_replies : (s.startPolls).replies = s.replies := rfl
@[simp] theorem startPolls_actionCount : (s.startPolls).actionCount = s.actionCount := rfl
@[simp] theorem startPolls_moves : s.startPolls.moves = s.moves := rfl
@[simp] theorem startPolls_trace : (s.startPolls).trace = s.trace := rfl
@[simp] theorem startPolls_hostOut : (s.startPolls).hostOut = s.hostOut := rfl
@[simp] theorem startPolls_result : (s.startPolls).result = s.result := rfl

/-! ## `startRun` -/

@[simp] theorem startRun_phase (w : Word) : (s.startRun w).phase = s.phase := rfl
@[simp] theorem startRun_idcode (w : Word) : (s.startRun w).idcode = s.idcode := rfl
@[simp] theorem startRun_dtmVersion (w : Word) : (s.startRun w).dtmVersion = s.dtmVersion := rfl
@[simp] theorem startRun_debugVersion (w : Word) : (s.startRun w).debugVersion = s.debugVersion := rfl
@[simp] theorem startRun_idleCycles (w : Word) : (s.startRun w).idleCycles = s.idleCycles := rfl
@[simp] theorem startRun_addressBits (w : Word) : (s.startRun w).addressBits = s.addressBits := rfl
@[simp] theorem startRun_programBufferSize (w : Word) : (s.startRun w).programBufferSize = s.programBufferSize := rfl
@[simp] theorem startRun_impebreak (w : Word) : (s.startRun w).impebreak = s.impebreak := rfl
@[simp] theorem startRun_abstractDataCount (w : Word) : (s.startRun w).abstractDataCount = s.abstractDataCount := rfl
@[simp] theorem startRun_autoexecSupported (w : Word) : (s.startRun w).autoexecSupported = s.autoexecSupported := rfl
@[simp] theorem startRun_progbufCsrEnabled (w : Word) : (s.startRun w).progbufCsrEnabled = s.progbufCsrEnabled := rfl
@[simp] theorem startRun_lastDmiCommand (w : Word) : (s.startRun w).lastDmiCommand = s.lastDmiCommand := rfl
@[simp] theorem startRun_lastValid (w : Word) : (s.startRun w).lastValid = s.lastValid := rfl
@[simp] theorem startRun_irCurrent (w : Word) : (s.startRun w).irCurrent = s.irCurrent := rfl
@[simp] theorem startRun_hartsellen (w : Word) : (s.startRun w).hartsellen = s.hartsellen := rfl
@[simp] theorem startRun_harts (w : Word) : (s.startRun w).harts = s.harts := rfl
@[simp] theorem startRun_currentHart (w : Word) : (s.startRun w).currentHart = s.currentHart := rfl
@[simp] theorem startRun_req (w : Word) : (s.startRun w).req = s.req := rfl
@[simp] theorem startRun_label (w : Word) : (s.startRun w).label = s.label := rfl
@[simp] theorem startRun_dmiTries (w : Word) : (s.startRun w).dmiTries = s.dmiTries := rfl
@[simp] theorem startRun_polls (w : Word) : (s.startRun w).polls = s.polls := rfl
@[simp] theorem startRun_busyTries (w : Word) : (s.startRun w).busyTries = 0 := rfl
@[simp] theorem startRun_batchIndex (w : Word) : (s.startRun w).batchIndex = s.batchIndex := rfl
@[simp] theorem startRun_discoveryIndex (w : Word) : (s.startRun w).discoveryIndex = s.discoveryIndex := rfl
@[simp] theorem startRun_dmiCmd (w : Word) : (s.startRun w).dmiCmd = s.dmiCmd := rfl
@[simp] theorem startRun_runCmd (w : Word) : (s.startRun w).runCmd = w := rfl
@[simp] theorem startRun_pending (w : Word) : (s.startRun w).pending = s.pending := rfl
@[simp] theorem startRun_primaryError (w : Word) : (s.startRun w).primaryError = s.primaryError := rfl
@[simp] theorem startRun_params (w : Word) : (s.startRun w).params = s.params := rfl
@[simp] theorem startRun_hostQueue (w : Word) : (s.startRun w).hostQueue = s.hostQueue := rfl
@[simp] theorem startRun_wire (w : Word) : (s.startRun w).wire = s.wire := rfl
@[simp] theorem startRun_replies (w : Word) : (s.startRun w).replies = s.replies := rfl
@[simp] theorem startRun_actionCount (w : Word) : (s.startRun w).actionCount = s.actionCount := rfl
@[simp] theorem startRun_moves (w : Word) : (s.startRun w).moves = s.moves := rfl
@[simp] theorem startRun_trace (w : Word) : (s.startRun w).trace = s.trace := rfl
@[simp] theorem startRun_hostOut (w : Word) : (s.startRun w).hostOut = s.hostOut := rfl
@[simp] theorem startRun_result (w : Word) : (s.startRun w).result = s.result := rfl

/-! ## `countReissue` -/

@[simp] theorem countReissue_phase : (s.countReissue).phase = s.phase := rfl
@[simp] theorem countReissue_idcode : (s.countReissue).idcode = s.idcode := rfl
@[simp] theorem countReissue_dtmVersion : (s.countReissue).dtmVersion = s.dtmVersion := rfl
@[simp] theorem countReissue_debugVersion : (s.countReissue).debugVersion = s.debugVersion := rfl
@[simp] theorem countReissue_idleCycles : (s.countReissue).idleCycles = s.idleCycles := rfl
@[simp] theorem countReissue_addressBits : (s.countReissue).addressBits = s.addressBits := rfl
@[simp] theorem countReissue_programBufferSize : (s.countReissue).programBufferSize = s.programBufferSize := rfl
@[simp] theorem countReissue_impebreak : (s.countReissue).impebreak = s.impebreak := rfl
@[simp] theorem countReissue_abstractDataCount : (s.countReissue).abstractDataCount = s.abstractDataCount := rfl
@[simp] theorem countReissue_autoexecSupported : (s.countReissue).autoexecSupported = s.autoexecSupported := rfl
@[simp] theorem countReissue_progbufCsrEnabled : (s.countReissue).progbufCsrEnabled = s.progbufCsrEnabled := rfl
@[simp] theorem countReissue_lastDmiCommand : (s.countReissue).lastDmiCommand = s.lastDmiCommand := rfl
@[simp] theorem countReissue_lastValid : (s.countReissue).lastValid = s.lastValid := rfl
@[simp] theorem countReissue_irCurrent : (s.countReissue).irCurrent = s.irCurrent := rfl
@[simp] theorem countReissue_hartsellen : (s.countReissue).hartsellen = s.hartsellen := rfl
@[simp] theorem countReissue_harts : (s.countReissue).harts = s.harts := rfl
@[simp] theorem countReissue_currentHart : (s.countReissue).currentHart = s.currentHart := rfl
@[simp] theorem countReissue_req : (s.countReissue).req = s.req := rfl
@[simp] theorem countReissue_label : (s.countReissue).label = s.label := rfl
@[simp] theorem countReissue_dmiTries : (s.countReissue).dmiTries = s.dmiTries := rfl
@[simp] theorem countReissue_polls : (s.countReissue).polls = s.polls := rfl
@[simp] theorem countReissue_busyTries : (s.countReissue).busyTries = s.busyTries + 1 := rfl
@[simp] theorem countReissue_batchIndex : (s.countReissue).batchIndex = s.batchIndex := rfl
@[simp] theorem countReissue_discoveryIndex : (s.countReissue).discoveryIndex = s.discoveryIndex := rfl
@[simp] theorem countReissue_dmiCmd : (s.countReissue).dmiCmd = s.dmiCmd := rfl
@[simp] theorem countReissue_runCmd : (s.countReissue).runCmd = s.runCmd := rfl
@[simp] theorem countReissue_pending : (s.countReissue).pending = s.pending := rfl
@[simp] theorem countReissue_primaryError : (s.countReissue).primaryError = s.primaryError := rfl
@[simp] theorem countReissue_params : (s.countReissue).params = s.params := rfl
@[simp] theorem countReissue_hostQueue : (s.countReissue).hostQueue = s.hostQueue := rfl
@[simp] theorem countReissue_wire : s.countReissue.wire = s.wire := rfl
@[simp] theorem countReissue_replies : (s.countReissue).replies = s.replies := rfl
@[simp] theorem countReissue_actionCount : (s.countReissue).actionCount = s.actionCount := rfl
@[simp] theorem countReissue_moves : s.countReissue.moves = s.moves := rfl
@[simp] theorem countReissue_trace : (s.countReissue).trace = s.trace := rfl
@[simp] theorem countReissue_hostOut : (s.countReissue).hostOut = s.hostOut := rfl
@[simp] theorem countReissue_result : (s.countReissue).result = s.result := rfl

/-! ## `atRegister` -/

@[simp] theorem atRegister_phase (k : Nat) : (s.atRegister k).phase = s.phase := rfl
@[simp] theorem atRegister_idcode (k : Nat) : (s.atRegister k).idcode = s.idcode := rfl
@[simp] theorem atRegister_dtmVersion (k : Nat) : (s.atRegister k).dtmVersion = s.dtmVersion := rfl
@[simp] theorem atRegister_debugVersion (k : Nat) : (s.atRegister k).debugVersion = s.debugVersion := rfl
@[simp] theorem atRegister_idleCycles (k : Nat) : (s.atRegister k).idleCycles = s.idleCycles := rfl
@[simp] theorem atRegister_addressBits (k : Nat) : (s.atRegister k).addressBits = s.addressBits := rfl
@[simp] theorem atRegister_programBufferSize (k : Nat) : (s.atRegister k).programBufferSize = s.programBufferSize := rfl
@[simp] theorem atRegister_impebreak (k : Nat) : (s.atRegister k).impebreak = s.impebreak := rfl
@[simp] theorem atRegister_abstractDataCount (k : Nat) : (s.atRegister k).abstractDataCount = s.abstractDataCount := rfl
@[simp] theorem atRegister_autoexecSupported (k : Nat) : (s.atRegister k).autoexecSupported = s.autoexecSupported := rfl
@[simp] theorem atRegister_progbufCsrEnabled (k : Nat) : (s.atRegister k).progbufCsrEnabled = s.progbufCsrEnabled := rfl
@[simp] theorem atRegister_lastDmiCommand (k : Nat) : (s.atRegister k).lastDmiCommand = s.lastDmiCommand := rfl
@[simp] theorem atRegister_lastValid (k : Nat) : (s.atRegister k).lastValid = s.lastValid := rfl
@[simp] theorem atRegister_irCurrent (k : Nat) : (s.atRegister k).irCurrent = s.irCurrent := rfl
@[simp] theorem atRegister_hartsellen (k : Nat) : (s.atRegister k).hartsellen = s.hartsellen := rfl
@[simp] theorem atRegister_harts (k : Nat) : (s.atRegister k).harts = s.harts := rfl
@[simp] theorem atRegister_currentHart (k : Nat) : (s.atRegister k).currentHart = s.currentHart := rfl
@[simp] theorem atRegister_req (k : Nat) : (s.atRegister k).req = s.req := rfl
@[simp] theorem atRegister_label (k : Nat) : (s.atRegister k).label = s.label := rfl
@[simp] theorem atRegister_dmiTries (k : Nat) : (s.atRegister k).dmiTries = s.dmiTries := rfl
@[simp] theorem atRegister_polls (k : Nat) : (s.atRegister k).polls = s.polls := rfl
@[simp] theorem atRegister_busyTries (k : Nat) : (s.atRegister k).busyTries = s.busyTries := rfl
@[simp] theorem atRegister_batchIndex (k : Nat) : (s.atRegister k).batchIndex = k := rfl
@[simp] theorem atRegister_discoveryIndex (k : Nat) : (s.atRegister k).discoveryIndex = s.discoveryIndex := rfl
@[simp] theorem atRegister_dmiCmd (k : Nat) : (s.atRegister k).dmiCmd = s.dmiCmd := rfl
@[simp] theorem atRegister_runCmd (k : Nat) : (s.atRegister k).runCmd = s.runCmd := rfl
@[simp] theorem atRegister_pending (k : Nat) : (s.atRegister k).pending = s.pending := rfl
@[simp] theorem atRegister_primaryError (k : Nat) : (s.atRegister k).primaryError = s.primaryError := rfl
@[simp] theorem atRegister_params (k : Nat) : (s.atRegister k).params = s.params := rfl
@[simp] theorem atRegister_hostQueue (k : Nat) : (s.atRegister k).hostQueue = s.hostQueue := rfl
@[simp] theorem atRegister_wire (k : Nat) : (s.atRegister k).wire = s.wire := rfl
@[simp] theorem atRegister_replies (k : Nat) : (s.atRegister k).replies = s.replies := rfl
@[simp] theorem atRegister_actionCount (k : Nat) : (s.atRegister k).actionCount = s.actionCount := rfl
@[simp] theorem atRegister_moves (k : Nat) : (s.atRegister k).moves = s.moves := rfl
@[simp] theorem atRegister_trace (k : Nat) : (s.atRegister k).trace = s.trace := rfl
@[simp] theorem atRegister_hostOut (k : Nat) : (s.atRegister k).hostOut = s.hostOut := rfl
@[simp] theorem atRegister_result (k : Nat) : (s.atRegister k).result = s.result := rfl

/-! ## `wroteHartsellen` -/

@[simp] theorem wroteHartsellen_phase (n : BitVec 20) : (s.wroteHartsellen n).phase = s.phase := rfl
@[simp] theorem wroteHartsellen_idcode (n : BitVec 20) : (s.wroteHartsellen n).idcode = s.idcode := rfl
@[simp] theorem wroteHartsellen_dtmVersion (n : BitVec 20) : (s.wroteHartsellen n).dtmVersion = s.dtmVersion := rfl
@[simp] theorem wroteHartsellen_debugVersion (n : BitVec 20) : (s.wroteHartsellen n).debugVersion = s.debugVersion := rfl
@[simp] theorem wroteHartsellen_idleCycles (n : BitVec 20) : (s.wroteHartsellen n).idleCycles = s.idleCycles := rfl
@[simp] theorem wroteHartsellen_addressBits (n : BitVec 20) : (s.wroteHartsellen n).addressBits = s.addressBits := rfl
@[simp] theorem wroteHartsellen_programBufferSize (n : BitVec 20) : (s.wroteHartsellen n).programBufferSize = s.programBufferSize := rfl
@[simp] theorem wroteHartsellen_impebreak (n : BitVec 20) : (s.wroteHartsellen n).impebreak = s.impebreak := rfl
@[simp] theorem wroteHartsellen_abstractDataCount (n : BitVec 20) : (s.wroteHartsellen n).abstractDataCount = s.abstractDataCount := rfl
@[simp] theorem wroteHartsellen_autoexecSupported (n : BitVec 20) : (s.wroteHartsellen n).autoexecSupported = s.autoexecSupported := rfl
@[simp] theorem wroteHartsellen_progbufCsrEnabled (n : BitVec 20) : (s.wroteHartsellen n).progbufCsrEnabled = s.progbufCsrEnabled := rfl
@[simp] theorem wroteHartsellen_lastDmiCommand (n : BitVec 20) : (s.wroteHartsellen n).lastDmiCommand = s.lastDmiCommand := rfl
@[simp] theorem wroteHartsellen_lastValid (n : BitVec 20) : (s.wroteHartsellen n).lastValid = s.lastValid := rfl
@[simp] theorem wroteHartsellen_irCurrent (n : BitVec 20) : (s.wroteHartsellen n).irCurrent = s.irCurrent := rfl
@[simp] theorem wroteHartsellen_hartsellen (n : BitVec 20) : (s.wroteHartsellen n).hartsellen = some n := rfl
@[simp] theorem wroteHartsellen_harts (n : BitVec 20) : (s.wroteHartsellen n).harts = s.harts := rfl
@[simp] theorem wroteHartsellen_currentHart (n : BitVec 20) : (s.wroteHartsellen n).currentHart = s.currentHart := rfl
@[simp] theorem wroteHartsellen_req (n : BitVec 20) : (s.wroteHartsellen n).req = s.req := rfl
@[simp] theorem wroteHartsellen_label (n : BitVec 20) : (s.wroteHartsellen n).label = s.label := rfl
@[simp] theorem wroteHartsellen_dmiTries (n : BitVec 20) : (s.wroteHartsellen n).dmiTries = s.dmiTries := rfl
@[simp] theorem wroteHartsellen_polls (n : BitVec 20) : (s.wroteHartsellen n).polls = s.polls := rfl
@[simp] theorem wroteHartsellen_busyTries (n : BitVec 20) : (s.wroteHartsellen n).busyTries = s.busyTries := rfl
@[simp] theorem wroteHartsellen_batchIndex (n : BitVec 20) : (s.wroteHartsellen n).batchIndex = s.batchIndex := rfl
@[simp] theorem wroteHartsellen_discoveryIndex (n : BitVec 20) : (s.wroteHartsellen n).discoveryIndex = s.discoveryIndex := rfl
@[simp] theorem wroteHartsellen_dmiCmd (n : BitVec 20) : (s.wroteHartsellen n).dmiCmd = s.dmiCmd := rfl
@[simp] theorem wroteHartsellen_runCmd (n : BitVec 20) : (s.wroteHartsellen n).runCmd = s.runCmd := rfl
@[simp] theorem wroteHartsellen_pending (n : BitVec 20) : (s.wroteHartsellen n).pending = s.pending := rfl
@[simp] theorem wroteHartsellen_primaryError (n : BitVec 20) : (s.wroteHartsellen n).primaryError = s.primaryError := rfl
@[simp] theorem wroteHartsellen_params (n : BitVec 20) : (s.wroteHartsellen n).params = s.params := rfl
@[simp] theorem wroteHartsellen_hostQueue (n : BitVec 20) : (s.wroteHartsellen n).hostQueue = s.hostQueue := rfl
@[simp] theorem wroteHartsellen_wire (n : BitVec 20) : (s.wroteHartsellen n).wire = s.wire := rfl
@[simp] theorem wroteHartsellen_replies (n : BitVec 20) : (s.wroteHartsellen n).replies = s.replies := rfl
@[simp] theorem wroteHartsellen_actionCount (n : BitVec 20) : (s.wroteHartsellen n).actionCount = s.actionCount := rfl
@[simp] theorem wroteHartsellen_moves (n : BitVec 20) : (s.wroteHartsellen n).moves = s.moves := rfl
@[simp] theorem wroteHartsellen_trace (n : BitVec 20) : (s.wroteHartsellen n).trace = s.trace := rfl
@[simp] theorem wroteHartsellen_hostOut (n : BitVec 20) : (s.wroteHartsellen n).hostOut = s.hostOut := rfl
@[simp] theorem wroteHartsellen_result (n : BitVec 20) : (s.wroteHartsellen n).result = s.result := rfl

/-! ## `startScan` -/

@[simp] theorem startScan_phase : s.startScan.phase = s.phase := rfl
@[simp] theorem startScan_idcode : s.startScan.idcode = s.idcode := rfl
@[simp] theorem startScan_dtmVersion : s.startScan.dtmVersion = s.dtmVersion := rfl
@[simp] theorem startScan_debugVersion : s.startScan.debugVersion = s.debugVersion := rfl
@[simp] theorem startScan_idleCycles : s.startScan.idleCycles = s.idleCycles := rfl
@[simp] theorem startScan_addressBits : s.startScan.addressBits = s.addressBits := rfl
@[simp] theorem startScan_programBufferSize : s.startScan.programBufferSize = s.programBufferSize := rfl
@[simp] theorem startScan_impebreak : s.startScan.impebreak = s.impebreak := rfl
@[simp] theorem startScan_abstractDataCount : s.startScan.abstractDataCount = s.abstractDataCount := rfl
@[simp] theorem startScan_autoexecSupported : s.startScan.autoexecSupported = s.autoexecSupported := rfl
@[simp] theorem startScan_progbufCsrEnabled : s.startScan.progbufCsrEnabled = s.progbufCsrEnabled := rfl
@[simp] theorem startScan_lastDmiCommand : s.startScan.lastDmiCommand = s.lastDmiCommand := rfl
@[simp] theorem startScan_lastValid : s.startScan.lastValid = s.lastValid := rfl
@[simp] theorem startScan_irCurrent : s.startScan.irCurrent = s.irCurrent := rfl
@[simp] theorem startScan_hartsellen : s.startScan.hartsellen = s.hartsellen := rfl
@[simp] theorem startScan_harts : s.startScan.harts = [] := rfl
@[simp] theorem startScan_currentHart : s.startScan.currentHart = s.currentHart := rfl
@[simp] theorem startScan_req : s.startScan.req = s.req := rfl
@[simp] theorem startScan_label : s.startScan.label = s.label := rfl
@[simp] theorem startScan_dmiTries : s.startScan.dmiTries = s.dmiTries := rfl
@[simp] theorem startScan_polls : s.startScan.polls = s.polls := rfl
@[simp] theorem startScan_busyTries : s.startScan.busyTries = s.busyTries := rfl
@[simp] theorem startScan_batchIndex : s.startScan.batchIndex = s.batchIndex := rfl
@[simp] theorem startScan_discoveryIndex : s.startScan.discoveryIndex = 0 := rfl
@[simp] theorem startScan_dmiCmd : s.startScan.dmiCmd = s.dmiCmd := rfl
@[simp] theorem startScan_runCmd : s.startScan.runCmd = s.runCmd := rfl
@[simp] theorem startScan_pending : s.startScan.pending = s.pending := rfl
@[simp] theorem startScan_primaryError : s.startScan.primaryError = s.primaryError := rfl
@[simp] theorem startScan_params : s.startScan.params = s.params := rfl
@[simp] theorem startScan_hostQueue : s.startScan.hostQueue = s.hostQueue := rfl
@[simp] theorem startScan_wire : s.startScan.wire = s.wire := rfl
@[simp] theorem startScan_replies : s.startScan.replies = s.replies := rfl
@[simp] theorem startScan_actionCount : s.startScan.actionCount = s.actionCount := rfl
@[simp] theorem startScan_moves : s.startScan.moves = s.moves := rfl
@[simp] theorem startScan_trace : s.startScan.trace = s.trace := rfl
@[simp] theorem startScan_hostOut : s.startScan.hostOut = s.hostOut := rfl
@[simp] theorem startScan_result : s.startScan.result = s.result := rfl

/-! ## `nextCandidate` -/

@[simp] theorem nextCandidate_phase : s.nextCandidate.phase = s.phase := rfl
@[simp] theorem nextCandidate_idcode : s.nextCandidate.idcode = s.idcode := rfl
@[simp] theorem nextCandidate_dtmVersion : s.nextCandidate.dtmVersion = s.dtmVersion := rfl
@[simp] theorem nextCandidate_debugVersion : s.nextCandidate.debugVersion = s.debugVersion := rfl
@[simp] theorem nextCandidate_idleCycles : s.nextCandidate.idleCycles = s.idleCycles := rfl
@[simp] theorem nextCandidate_addressBits : s.nextCandidate.addressBits = s.addressBits := rfl
@[simp] theorem nextCandidate_programBufferSize : s.nextCandidate.programBufferSize = s.programBufferSize := rfl
@[simp] theorem nextCandidate_impebreak : s.nextCandidate.impebreak = s.impebreak := rfl
@[simp] theorem nextCandidate_abstractDataCount : s.nextCandidate.abstractDataCount = s.abstractDataCount := rfl
@[simp] theorem nextCandidate_autoexecSupported : s.nextCandidate.autoexecSupported = s.autoexecSupported := rfl
@[simp] theorem nextCandidate_progbufCsrEnabled : s.nextCandidate.progbufCsrEnabled = s.progbufCsrEnabled := rfl
@[simp] theorem nextCandidate_lastDmiCommand : s.nextCandidate.lastDmiCommand = s.lastDmiCommand := rfl
@[simp] theorem nextCandidate_lastValid : s.nextCandidate.lastValid = s.lastValid := rfl
@[simp] theorem nextCandidate_irCurrent : s.nextCandidate.irCurrent = s.irCurrent := rfl
@[simp] theorem nextCandidate_hartsellen : s.nextCandidate.hartsellen = s.hartsellen := rfl
@[simp] theorem nextCandidate_harts : s.nextCandidate.harts = s.harts := rfl
@[simp] theorem nextCandidate_currentHart : s.nextCandidate.currentHart = s.currentHart := rfl
@[simp] theorem nextCandidate_req : s.nextCandidate.req = s.req := rfl
@[simp] theorem nextCandidate_label : s.nextCandidate.label = s.label := rfl
@[simp] theorem nextCandidate_dmiTries : s.nextCandidate.dmiTries = s.dmiTries := rfl
@[simp] theorem nextCandidate_polls : s.nextCandidate.polls = s.polls := rfl
@[simp] theorem nextCandidate_busyTries : s.nextCandidate.busyTries = s.busyTries := rfl
@[simp] theorem nextCandidate_batchIndex : s.nextCandidate.batchIndex = s.batchIndex := rfl
@[simp] theorem nextCandidate_discoveryIndex : s.nextCandidate.discoveryIndex = s.discoveryIndex + 1 := rfl
@[simp] theorem nextCandidate_dmiCmd : s.nextCandidate.dmiCmd = s.dmiCmd := rfl
@[simp] theorem nextCandidate_runCmd : s.nextCandidate.runCmd = s.runCmd := rfl
@[simp] theorem nextCandidate_pending : s.nextCandidate.pending = s.pending := rfl
@[simp] theorem nextCandidate_primaryError : s.nextCandidate.primaryError = s.primaryError := rfl
@[simp] theorem nextCandidate_params : s.nextCandidate.params = s.params := rfl
@[simp] theorem nextCandidate_hostQueue : s.nextCandidate.hostQueue = s.hostQueue := rfl
@[simp] theorem nextCandidate_wire : s.nextCandidate.wire = s.wire := rfl
@[simp] theorem nextCandidate_replies : s.nextCandidate.replies = s.replies := rfl
@[simp] theorem nextCandidate_actionCount : s.nextCandidate.actionCount = s.actionCount := rfl
@[simp] theorem nextCandidate_moves : s.nextCandidate.moves = s.moves := rfl
@[simp] theorem nextCandidate_trace : s.nextCandidate.trace = s.trace := rfl
@[simp] theorem nextCandidate_hostOut : s.nextCandidate.hostOut = s.hostOut := rfl
@[simp] theorem nextCandidate_result : s.nextCandidate.result = s.result := rfl

/-! ## `addHart` -/

@[simp] theorem addHart_phase (i : Nat) : (s.addHart i).phase = s.phase := rfl
@[simp] theorem addHart_idcode (i : Nat) : (s.addHart i).idcode = s.idcode := rfl
@[simp] theorem addHart_dtmVersion (i : Nat) : (s.addHart i).dtmVersion = s.dtmVersion := rfl
@[simp] theorem addHart_debugVersion (i : Nat) : (s.addHart i).debugVersion = s.debugVersion := rfl
@[simp] theorem addHart_idleCycles (i : Nat) : (s.addHart i).idleCycles = s.idleCycles := rfl
@[simp] theorem addHart_addressBits (i : Nat) : (s.addHart i).addressBits = s.addressBits := rfl
@[simp] theorem addHart_programBufferSize (i : Nat) : (s.addHart i).programBufferSize = s.programBufferSize := rfl
@[simp] theorem addHart_impebreak (i : Nat) : (s.addHart i).impebreak = s.impebreak := rfl
@[simp] theorem addHart_abstractDataCount (i : Nat) : (s.addHart i).abstractDataCount = s.abstractDataCount := rfl
@[simp] theorem addHart_autoexecSupported (i : Nat) : (s.addHart i).autoexecSupported = s.autoexecSupported := rfl
@[simp] theorem addHart_progbufCsrEnabled (i : Nat) : (s.addHart i).progbufCsrEnabled = s.progbufCsrEnabled := rfl
@[simp] theorem addHart_lastDmiCommand (i : Nat) : (s.addHart i).lastDmiCommand = s.lastDmiCommand := rfl
@[simp] theorem addHart_lastValid (i : Nat) : (s.addHart i).lastValid = s.lastValid := rfl
@[simp] theorem addHart_irCurrent (i : Nat) : (s.addHart i).irCurrent = s.irCurrent := rfl
@[simp] theorem addHart_hartsellen (i : Nat) : (s.addHart i).hartsellen = s.hartsellen := rfl
@[simp] theorem addHart_harts (i : Nat) : (s.addHart i).harts = s.harts ++ [newHart i] := rfl
@[simp] theorem addHart_currentHart (i : Nat) : (s.addHart i).currentHart = s.currentHart := rfl
@[simp] theorem addHart_req (i : Nat) : (s.addHart i).req = s.req := rfl
@[simp] theorem addHart_label (i : Nat) : (s.addHart i).label = s.label := rfl
@[simp] theorem addHart_dmiTries (i : Nat) : (s.addHart i).dmiTries = s.dmiTries := rfl
@[simp] theorem addHart_polls (i : Nat) : (s.addHart i).polls = s.polls := rfl
@[simp] theorem addHart_busyTries (i : Nat) : (s.addHart i).busyTries = s.busyTries := rfl
@[simp] theorem addHart_batchIndex (i : Nat) : (s.addHart i).batchIndex = s.batchIndex := rfl
@[simp] theorem addHart_discoveryIndex (i : Nat) : (s.addHart i).discoveryIndex = s.discoveryIndex := rfl
@[simp] theorem addHart_dmiCmd (i : Nat) : (s.addHart i).dmiCmd = s.dmiCmd := rfl
@[simp] theorem addHart_runCmd (i : Nat) : (s.addHart i).runCmd = s.runCmd := rfl
@[simp] theorem addHart_pending (i : Nat) : (s.addHart i).pending = s.pending := rfl
@[simp] theorem addHart_primaryError (i : Nat) : (s.addHart i).primaryError = s.primaryError := rfl
@[simp] theorem addHart_params (i : Nat) : (s.addHart i).params = s.params := rfl
@[simp] theorem addHart_hostQueue (i : Nat) : (s.addHart i).hostQueue = s.hostQueue := rfl
@[simp] theorem addHart_wire (i : Nat) : (s.addHart i).wire = s.wire := rfl
@[simp] theorem addHart_replies (i : Nat) : (s.addHart i).replies = s.replies := rfl
@[simp] theorem addHart_actionCount (i : Nat) : (s.addHart i).actionCount = s.actionCount := rfl
@[simp] theorem addHart_moves (i : Nat) : (s.addHart i).moves = s.moves := rfl
@[simp] theorem addHart_trace (i : Nat) : (s.addHart i).trace = s.trace := rfl
@[simp] theorem addHart_hostOut (i : Nat) : (s.addHart i).hostOut = s.hostOut := rfl
@[simp] theorem addHart_result (i : Nat) : (s.addHart i).result = s.result := rfl

/-! ## `makeCurrent` -/

@[simp] theorem makeCurrent_phase (h : Nat) : (s.makeCurrent h).phase = s.phase := rfl
@[simp] theorem makeCurrent_idcode (h : Nat) : (s.makeCurrent h).idcode = s.idcode := rfl
@[simp] theorem makeCurrent_dtmVersion (h : Nat) : (s.makeCurrent h).dtmVersion = s.dtmVersion := rfl
@[simp] theorem makeCurrent_debugVersion (h : Nat) : (s.makeCurrent h).debugVersion = s.debugVersion := rfl
@[simp] theorem makeCurrent_idleCycles (h : Nat) : (s.makeCurrent h).idleCycles = s.idleCycles := rfl
@[simp] theorem makeCurrent_addressBits (h : Nat) : (s.makeCurrent h).addressBits = s.addressBits := rfl
@[simp] theorem makeCurrent_programBufferSize (h : Nat) : (s.makeCurrent h).programBufferSize = s.programBufferSize := rfl
@[simp] theorem makeCurrent_impebreak (h : Nat) : (s.makeCurrent h).impebreak = s.impebreak := rfl
@[simp] theorem makeCurrent_abstractDataCount (h : Nat) : (s.makeCurrent h).abstractDataCount = s.abstractDataCount := rfl
@[simp] theorem makeCurrent_autoexecSupported (h : Nat) : (s.makeCurrent h).autoexecSupported = s.autoexecSupported := rfl
@[simp] theorem makeCurrent_progbufCsrEnabled (h : Nat) : (s.makeCurrent h).progbufCsrEnabled = s.progbufCsrEnabled := rfl
@[simp] theorem makeCurrent_lastDmiCommand (h : Nat) : (s.makeCurrent h).lastDmiCommand = s.lastDmiCommand := rfl
@[simp] theorem makeCurrent_lastValid (h : Nat) : (s.makeCurrent h).lastValid = s.lastValid := rfl
@[simp] theorem makeCurrent_irCurrent (h : Nat) : (s.makeCurrent h).irCurrent = s.irCurrent := rfl
@[simp] theorem makeCurrent_hartsellen (h : Nat) : (s.makeCurrent h).hartsellen = s.hartsellen := rfl
@[simp] theorem makeCurrent_harts (h : Nat) : (s.makeCurrent h).harts = s.harts := rfl
@[simp] theorem makeCurrent_currentHart (h : Nat) : (s.makeCurrent h).currentHart = some h := rfl
@[simp] theorem makeCurrent_req (h : Nat) : (s.makeCurrent h).req = s.req := rfl
@[simp] theorem makeCurrent_label (h : Nat) : (s.makeCurrent h).label = s.label := rfl
@[simp] theorem makeCurrent_dmiTries (h : Nat) : (s.makeCurrent h).dmiTries = s.dmiTries := rfl
@[simp] theorem makeCurrent_polls (h : Nat) : (s.makeCurrent h).polls = s.polls := rfl
@[simp] theorem makeCurrent_busyTries (h : Nat) : (s.makeCurrent h).busyTries = s.busyTries := rfl
@[simp] theorem makeCurrent_batchIndex (h : Nat) : (s.makeCurrent h).batchIndex = s.batchIndex := rfl
@[simp] theorem makeCurrent_discoveryIndex (h : Nat) : (s.makeCurrent h).discoveryIndex = s.discoveryIndex := rfl
@[simp] theorem makeCurrent_dmiCmd (h : Nat) : (s.makeCurrent h).dmiCmd = s.dmiCmd := rfl
@[simp] theorem makeCurrent_runCmd (h : Nat) : (s.makeCurrent h).runCmd = s.runCmd := rfl
@[simp] theorem makeCurrent_pending (h : Nat) : (s.makeCurrent h).pending = s.pending := rfl
@[simp] theorem makeCurrent_primaryError (h : Nat) : (s.makeCurrent h).primaryError = s.primaryError := rfl
@[simp] theorem makeCurrent_params (h : Nat) : (s.makeCurrent h).params = s.params := rfl
@[simp] theorem makeCurrent_hostQueue (h : Nat) : (s.makeCurrent h).hostQueue = s.hostQueue := rfl
@[simp] theorem makeCurrent_wire (h : Nat) : (s.makeCurrent h).wire = s.wire := rfl
@[simp] theorem makeCurrent_replies (h : Nat) : (s.makeCurrent h).replies = s.replies := rfl
@[simp] theorem makeCurrent_actionCount (h : Nat) : (s.makeCurrent h).actionCount = s.actionCount := rfl
@[simp] theorem makeCurrent_moves (h : Nat) : (s.makeCurrent h).moves = s.moves := rfl
@[simp] theorem makeCurrent_trace (h : Nat) : (s.makeCurrent h).trace = s.trace := rfl
@[simp] theorem makeCurrent_hostOut (h : Nat) : (s.makeCurrent h).hostOut = s.hostOut := rfl
@[simp] theorem makeCurrent_result (h : Nat) : (s.makeCurrent h).result = s.result := rfl

/-! ## `wroteDtmVersion` -/

@[simp] theorem wroteDtmVersion_phase (v : DebugVersion) : (s.wroteDtmVersion v).phase = s.phase := rfl
@[simp] theorem wroteDtmVersion_idcode (v : DebugVersion) : (s.wroteDtmVersion v).idcode = s.idcode := rfl
@[simp] theorem wroteDtmVersion_dtmVersion (v : DebugVersion) : (s.wroteDtmVersion v).dtmVersion = some v := rfl
@[simp] theorem wroteDtmVersion_debugVersion (v : DebugVersion) : (s.wroteDtmVersion v).debugVersion = s.debugVersion := rfl
@[simp] theorem wroteDtmVersion_idleCycles (v : DebugVersion) : (s.wroteDtmVersion v).idleCycles = s.idleCycles := rfl
@[simp] theorem wroteDtmVersion_addressBits (v : DebugVersion) : (s.wroteDtmVersion v).addressBits = s.addressBits := rfl
@[simp] theorem wroteDtmVersion_programBufferSize (v : DebugVersion) : (s.wroteDtmVersion v).programBufferSize = s.programBufferSize := rfl
@[simp] theorem wroteDtmVersion_impebreak (v : DebugVersion) : (s.wroteDtmVersion v).impebreak = s.impebreak := rfl
@[simp] theorem wroteDtmVersion_abstractDataCount (v : DebugVersion) : (s.wroteDtmVersion v).abstractDataCount = s.abstractDataCount := rfl
@[simp] theorem wroteDtmVersion_autoexecSupported (v : DebugVersion) : (s.wroteDtmVersion v).autoexecSupported = s.autoexecSupported := rfl
@[simp] theorem wroteDtmVersion_progbufCsrEnabled (v : DebugVersion) : (s.wroteDtmVersion v).progbufCsrEnabled = s.progbufCsrEnabled := rfl
@[simp] theorem wroteDtmVersion_lastDmiCommand (v : DebugVersion) : (s.wroteDtmVersion v).lastDmiCommand = s.lastDmiCommand := rfl
@[simp] theorem wroteDtmVersion_lastValid (v : DebugVersion) : (s.wroteDtmVersion v).lastValid = s.lastValid := rfl
@[simp] theorem wroteDtmVersion_irCurrent (v : DebugVersion) : (s.wroteDtmVersion v).irCurrent = s.irCurrent := rfl
@[simp] theorem wroteDtmVersion_hartsellen (v : DebugVersion) : (s.wroteDtmVersion v).hartsellen = s.hartsellen := rfl
@[simp] theorem wroteDtmVersion_harts (v : DebugVersion) : (s.wroteDtmVersion v).harts = s.harts := rfl
@[simp] theorem wroteDtmVersion_currentHart (v : DebugVersion) : (s.wroteDtmVersion v).currentHart = s.currentHart := rfl
@[simp] theorem wroteDtmVersion_req (v : DebugVersion) : (s.wroteDtmVersion v).req = s.req := rfl
@[simp] theorem wroteDtmVersion_label (v : DebugVersion) : (s.wroteDtmVersion v).label = s.label := rfl
@[simp] theorem wroteDtmVersion_dmiTries (v : DebugVersion) : (s.wroteDtmVersion v).dmiTries = s.dmiTries := rfl
@[simp] theorem wroteDtmVersion_polls (v : DebugVersion) : (s.wroteDtmVersion v).polls = s.polls := rfl
@[simp] theorem wroteDtmVersion_busyTries (v : DebugVersion) : (s.wroteDtmVersion v).busyTries = s.busyTries := rfl
@[simp] theorem wroteDtmVersion_batchIndex (v : DebugVersion) : (s.wroteDtmVersion v).batchIndex = s.batchIndex := rfl
@[simp] theorem wroteDtmVersion_discoveryIndex (v : DebugVersion) : (s.wroteDtmVersion v).discoveryIndex = s.discoveryIndex := rfl
@[simp] theorem wroteDtmVersion_dmiCmd (v : DebugVersion) : (s.wroteDtmVersion v).dmiCmd = s.dmiCmd := rfl
@[simp] theorem wroteDtmVersion_runCmd (v : DebugVersion) : (s.wroteDtmVersion v).runCmd = s.runCmd := rfl
@[simp] theorem wroteDtmVersion_pending (v : DebugVersion) : (s.wroteDtmVersion v).pending = s.pending := rfl
@[simp] theorem wroteDtmVersion_primaryError (v : DebugVersion) : (s.wroteDtmVersion v).primaryError = s.primaryError := rfl
@[simp] theorem wroteDtmVersion_params (v : DebugVersion) : (s.wroteDtmVersion v).params = s.params := rfl
@[simp] theorem wroteDtmVersion_hostQueue (v : DebugVersion) : (s.wroteDtmVersion v).hostQueue = s.hostQueue := rfl
@[simp] theorem wroteDtmVersion_wire (v : DebugVersion) : (s.wroteDtmVersion v).wire = s.wire := rfl
@[simp] theorem wroteDtmVersion_replies (v : DebugVersion) : (s.wroteDtmVersion v).replies = s.replies := rfl
@[simp] theorem wroteDtmVersion_actionCount (v : DebugVersion) : (s.wroteDtmVersion v).actionCount = s.actionCount := rfl
@[simp] theorem wroteDtmVersion_moves (v : DebugVersion) : (s.wroteDtmVersion v).moves = s.moves := rfl
@[simp] theorem wroteDtmVersion_trace (v : DebugVersion) : (s.wroteDtmVersion v).trace = s.trace := rfl
@[simp] theorem wroteDtmVersion_hostOut (v : DebugVersion) : (s.wroteDtmVersion v).hostOut = s.hostOut := rfl
@[simp] theorem wroteDtmVersion_result (v : DebugVersion) : (s.wroteDtmVersion v).result = s.result := rfl

/-! ## `wroteAddressBits` -/

@[simp] theorem wroteAddressBits_phase (a : BitVec 6) : (s.wroteAddressBits a).phase = s.phase := rfl
@[simp] theorem wroteAddressBits_idcode (a : BitVec 6) : (s.wroteAddressBits a).idcode = s.idcode := rfl
@[simp] theorem wroteAddressBits_dtmVersion (a : BitVec 6) : (s.wroteAddressBits a).dtmVersion = s.dtmVersion := rfl
@[simp] theorem wroteAddressBits_debugVersion (a : BitVec 6) : (s.wroteAddressBits a).debugVersion = s.debugVersion := rfl
@[simp] theorem wroteAddressBits_idleCycles (a : BitVec 6) : (s.wroteAddressBits a).idleCycles = s.idleCycles := rfl
@[simp] theorem wroteAddressBits_addressBits (a : BitVec 6) : (s.wroteAddressBits a).addressBits = some a := rfl
@[simp] theorem wroteAddressBits_programBufferSize (a : BitVec 6) : (s.wroteAddressBits a).programBufferSize = s.programBufferSize := rfl
@[simp] theorem wroteAddressBits_impebreak (a : BitVec 6) : (s.wroteAddressBits a).impebreak = s.impebreak := rfl
@[simp] theorem wroteAddressBits_abstractDataCount (a : BitVec 6) : (s.wroteAddressBits a).abstractDataCount = s.abstractDataCount := rfl
@[simp] theorem wroteAddressBits_autoexecSupported (a : BitVec 6) : (s.wroteAddressBits a).autoexecSupported = s.autoexecSupported := rfl
@[simp] theorem wroteAddressBits_progbufCsrEnabled (a : BitVec 6) : (s.wroteAddressBits a).progbufCsrEnabled = s.progbufCsrEnabled := rfl
@[simp] theorem wroteAddressBits_lastDmiCommand (a : BitVec 6) : (s.wroteAddressBits a).lastDmiCommand = s.lastDmiCommand := rfl
@[simp] theorem wroteAddressBits_lastValid (a : BitVec 6) : (s.wroteAddressBits a).lastValid = s.lastValid := rfl
@[simp] theorem wroteAddressBits_irCurrent (a : BitVec 6) : (s.wroteAddressBits a).irCurrent = s.irCurrent := rfl
@[simp] theorem wroteAddressBits_hartsellen (a : BitVec 6) : (s.wroteAddressBits a).hartsellen = s.hartsellen := rfl
@[simp] theorem wroteAddressBits_harts (a : BitVec 6) : (s.wroteAddressBits a).harts = s.harts := rfl
@[simp] theorem wroteAddressBits_currentHart (a : BitVec 6) : (s.wroteAddressBits a).currentHart = s.currentHart := rfl
@[simp] theorem wroteAddressBits_req (a : BitVec 6) : (s.wroteAddressBits a).req = s.req := rfl
@[simp] theorem wroteAddressBits_label (a : BitVec 6) : (s.wroteAddressBits a).label = s.label := rfl
@[simp] theorem wroteAddressBits_dmiTries (a : BitVec 6) : (s.wroteAddressBits a).dmiTries = s.dmiTries := rfl
@[simp] theorem wroteAddressBits_polls (a : BitVec 6) : (s.wroteAddressBits a).polls = s.polls := rfl
@[simp] theorem wroteAddressBits_busyTries (a : BitVec 6) : (s.wroteAddressBits a).busyTries = s.busyTries := rfl
@[simp] theorem wroteAddressBits_batchIndex (a : BitVec 6) : (s.wroteAddressBits a).batchIndex = s.batchIndex := rfl
@[simp] theorem wroteAddressBits_discoveryIndex (a : BitVec 6) : (s.wroteAddressBits a).discoveryIndex = s.discoveryIndex := rfl
@[simp] theorem wroteAddressBits_dmiCmd (a : BitVec 6) : (s.wroteAddressBits a).dmiCmd = s.dmiCmd := rfl
@[simp] theorem wroteAddressBits_runCmd (a : BitVec 6) : (s.wroteAddressBits a).runCmd = s.runCmd := rfl
@[simp] theorem wroteAddressBits_pending (a : BitVec 6) : (s.wroteAddressBits a).pending = s.pending := rfl
@[simp] theorem wroteAddressBits_primaryError (a : BitVec 6) : (s.wroteAddressBits a).primaryError = s.primaryError := rfl
@[simp] theorem wroteAddressBits_params (a : BitVec 6) : (s.wroteAddressBits a).params = s.params := rfl
@[simp] theorem wroteAddressBits_hostQueue (a : BitVec 6) : (s.wroteAddressBits a).hostQueue = s.hostQueue := rfl
@[simp] theorem wroteAddressBits_wire (a : BitVec 6) : (s.wroteAddressBits a).wire = s.wire := rfl
@[simp] theorem wroteAddressBits_replies (a : BitVec 6) : (s.wroteAddressBits a).replies = s.replies := rfl
@[simp] theorem wroteAddressBits_actionCount (a : BitVec 6) : (s.wroteAddressBits a).actionCount = s.actionCount := rfl
@[simp] theorem wroteAddressBits_moves (a : BitVec 6) : (s.wroteAddressBits a).moves = s.moves := rfl
@[simp] theorem wroteAddressBits_trace (a : BitVec 6) : (s.wroteAddressBits a).trace = s.trace := rfl
@[simp] theorem wroteAddressBits_hostOut (a : BitVec 6) : (s.wroteAddressBits a).hostOut = s.hostOut := rfl
@[simp] theorem wroteAddressBits_result (a : BitVec 6) : (s.wroteAddressBits a).result = s.result := rfl

/-! ## `wroteIdleCycles` -/

@[simp] theorem wroteIdleCycles_phase (i : BitVec 3) : (s.wroteIdleCycles i).phase = s.phase := rfl
@[simp] theorem wroteIdleCycles_idcode (i : BitVec 3) : (s.wroteIdleCycles i).idcode = s.idcode := rfl
@[simp] theorem wroteIdleCycles_dtmVersion (i : BitVec 3) : (s.wroteIdleCycles i).dtmVersion = s.dtmVersion := rfl
@[simp] theorem wroteIdleCycles_debugVersion (i : BitVec 3) : (s.wroteIdleCycles i).debugVersion = s.debugVersion := rfl
@[simp] theorem wroteIdleCycles_idleCycles (i : BitVec 3) : (s.wroteIdleCycles i).idleCycles = some i := rfl
@[simp] theorem wroteIdleCycles_addressBits (i : BitVec 3) : (s.wroteIdleCycles i).addressBits = s.addressBits := rfl
@[simp] theorem wroteIdleCycles_programBufferSize (i : BitVec 3) : (s.wroteIdleCycles i).programBufferSize = s.programBufferSize := rfl
@[simp] theorem wroteIdleCycles_impebreak (i : BitVec 3) : (s.wroteIdleCycles i).impebreak = s.impebreak := rfl
@[simp] theorem wroteIdleCycles_abstractDataCount (i : BitVec 3) : (s.wroteIdleCycles i).abstractDataCount = s.abstractDataCount := rfl
@[simp] theorem wroteIdleCycles_autoexecSupported (i : BitVec 3) : (s.wroteIdleCycles i).autoexecSupported = s.autoexecSupported := rfl
@[simp] theorem wroteIdleCycles_progbufCsrEnabled (i : BitVec 3) : (s.wroteIdleCycles i).progbufCsrEnabled = s.progbufCsrEnabled := rfl
@[simp] theorem wroteIdleCycles_lastDmiCommand (i : BitVec 3) : (s.wroteIdleCycles i).lastDmiCommand = s.lastDmiCommand := rfl
@[simp] theorem wroteIdleCycles_lastValid (i : BitVec 3) : (s.wroteIdleCycles i).lastValid = s.lastValid := rfl
@[simp] theorem wroteIdleCycles_irCurrent (i : BitVec 3) : (s.wroteIdleCycles i).irCurrent = s.irCurrent := rfl
@[simp] theorem wroteIdleCycles_hartsellen (i : BitVec 3) : (s.wroteIdleCycles i).hartsellen = s.hartsellen := rfl
@[simp] theorem wroteIdleCycles_harts (i : BitVec 3) : (s.wroteIdleCycles i).harts = s.harts := rfl
@[simp] theorem wroteIdleCycles_currentHart (i : BitVec 3) : (s.wroteIdleCycles i).currentHart = s.currentHart := rfl
@[simp] theorem wroteIdleCycles_req (i : BitVec 3) : (s.wroteIdleCycles i).req = s.req := rfl
@[simp] theorem wroteIdleCycles_label (i : BitVec 3) : (s.wroteIdleCycles i).label = s.label := rfl
@[simp] theorem wroteIdleCycles_dmiTries (i : BitVec 3) : (s.wroteIdleCycles i).dmiTries = s.dmiTries := rfl
@[simp] theorem wroteIdleCycles_polls (i : BitVec 3) : (s.wroteIdleCycles i).polls = s.polls := rfl
@[simp] theorem wroteIdleCycles_busyTries (i : BitVec 3) : (s.wroteIdleCycles i).busyTries = s.busyTries := rfl
@[simp] theorem wroteIdleCycles_batchIndex (i : BitVec 3) : (s.wroteIdleCycles i).batchIndex = s.batchIndex := rfl
@[simp] theorem wroteIdleCycles_discoveryIndex (i : BitVec 3) : (s.wroteIdleCycles i).discoveryIndex = s.discoveryIndex := rfl
@[simp] theorem wroteIdleCycles_dmiCmd (i : BitVec 3) : (s.wroteIdleCycles i).dmiCmd = s.dmiCmd := rfl
@[simp] theorem wroteIdleCycles_runCmd (i : BitVec 3) : (s.wroteIdleCycles i).runCmd = s.runCmd := rfl
@[simp] theorem wroteIdleCycles_pending (i : BitVec 3) : (s.wroteIdleCycles i).pending = s.pending := rfl
@[simp] theorem wroteIdleCycles_primaryError (i : BitVec 3) : (s.wroteIdleCycles i).primaryError = s.primaryError := rfl
@[simp] theorem wroteIdleCycles_params (i : BitVec 3) : (s.wroteIdleCycles i).params = s.params := rfl
@[simp] theorem wroteIdleCycles_hostQueue (i : BitVec 3) : (s.wroteIdleCycles i).hostQueue = s.hostQueue := rfl
@[simp] theorem wroteIdleCycles_wire (i : BitVec 3) : (s.wroteIdleCycles i).wire = s.wire := rfl
@[simp] theorem wroteIdleCycles_replies (i : BitVec 3) : (s.wroteIdleCycles i).replies = s.replies := rfl
@[simp] theorem wroteIdleCycles_actionCount (i : BitVec 3) : (s.wroteIdleCycles i).actionCount = s.actionCount := rfl
@[simp] theorem wroteIdleCycles_moves (i : BitVec 3) : (s.wroteIdleCycles i).moves = s.moves := rfl
@[simp] theorem wroteIdleCycles_trace (i : BitVec 3) : (s.wroteIdleCycles i).trace = s.trace := rfl
@[simp] theorem wroteIdleCycles_hostOut (i : BitVec 3) : (s.wroteIdleCycles i).hostOut = s.hostOut := rfl
@[simp] theorem wroteIdleCycles_result (i : BitVec 3) : (s.wroteIdleCycles i).result = s.result := rfl

/-! ## `clearValid` -/

@[simp] theorem clearValid_phase : s.clearValid.phase = s.phase := rfl
@[simp] theorem clearValid_idcode : s.clearValid.idcode = s.idcode := rfl
@[simp] theorem clearValid_dtmVersion : s.clearValid.dtmVersion = s.dtmVersion := rfl
@[simp] theorem clearValid_debugVersion : s.clearValid.debugVersion = s.debugVersion := rfl
@[simp] theorem clearValid_idleCycles : s.clearValid.idleCycles = s.idleCycles := rfl
@[simp] theorem clearValid_addressBits : s.clearValid.addressBits = s.addressBits := rfl
@[simp] theorem clearValid_programBufferSize : s.clearValid.programBufferSize = s.programBufferSize := rfl
@[simp] theorem clearValid_impebreak : s.clearValid.impebreak = s.impebreak := rfl
@[simp] theorem clearValid_abstractDataCount : s.clearValid.abstractDataCount = s.abstractDataCount := rfl
@[simp] theorem clearValid_autoexecSupported : s.clearValid.autoexecSupported = s.autoexecSupported := rfl
@[simp] theorem clearValid_progbufCsrEnabled : s.clearValid.progbufCsrEnabled = s.progbufCsrEnabled := rfl
@[simp] theorem clearValid_lastDmiCommand : s.clearValid.lastDmiCommand = s.lastDmiCommand := rfl
@[simp] theorem clearValid_lastValid : s.clearValid.lastValid = false := rfl
@[simp] theorem clearValid_irCurrent : s.clearValid.irCurrent = s.irCurrent := rfl
@[simp] theorem clearValid_hartsellen : s.clearValid.hartsellen = s.hartsellen := rfl
@[simp] theorem clearValid_harts : s.clearValid.harts = s.harts := rfl
@[simp] theorem clearValid_currentHart : s.clearValid.currentHart = s.currentHart := rfl
@[simp] theorem clearValid_req : s.clearValid.req = s.req := rfl
@[simp] theorem clearValid_label : s.clearValid.label = s.label := rfl
@[simp] theorem clearValid_dmiTries : s.clearValid.dmiTries = s.dmiTries := rfl
@[simp] theorem clearValid_polls : s.clearValid.polls = s.polls := rfl
@[simp] theorem clearValid_busyTries : s.clearValid.busyTries = s.busyTries := rfl
@[simp] theorem clearValid_batchIndex : s.clearValid.batchIndex = s.batchIndex := rfl
@[simp] theorem clearValid_discoveryIndex : s.clearValid.discoveryIndex = s.discoveryIndex := rfl
@[simp] theorem clearValid_dmiCmd : s.clearValid.dmiCmd = s.dmiCmd := rfl
@[simp] theorem clearValid_runCmd : s.clearValid.runCmd = s.runCmd := rfl
@[simp] theorem clearValid_pending : s.clearValid.pending = s.pending := rfl
@[simp] theorem clearValid_primaryError : s.clearValid.primaryError = s.primaryError := rfl
@[simp] theorem clearValid_params : s.clearValid.params = s.params := rfl
@[simp] theorem clearValid_hostQueue : s.clearValid.hostQueue = s.hostQueue := rfl
@[simp] theorem clearValid_wire : s.clearValid.wire = s.wire := rfl
@[simp] theorem clearValid_replies : s.clearValid.replies = s.replies := rfl
@[simp] theorem clearValid_actionCount : s.clearValid.actionCount = s.actionCount := rfl
@[simp] theorem clearValid_moves : s.clearValid.moves = s.moves := rfl
@[simp] theorem clearValid_trace : s.clearValid.trace = s.trace := rfl
@[simp] theorem clearValid_hostOut : s.clearValid.hostOut = s.hostOut := rfl
@[simp] theorem clearValid_result : s.clearValid.result = s.result := rfl

/-! ## `wroteDtmcs` -/

@[simp] theorem wroteDtmcs_phase (d : Word) : (s.wroteDtmcs d).phase = s.phase := rfl
@[simp] theorem wroteDtmcs_idcode (d : Word) : (s.wroteDtmcs d).idcode = s.idcode := rfl
@[simp] theorem wroteDtmcs_dtmVersion (d : Word) : (s.wroteDtmcs d).dtmVersion = some (dtmcsVersion d) := rfl
@[simp] theorem wroteDtmcs_debugVersion (d : Word) : (s.wroteDtmcs d).debugVersion = s.debugVersion := rfl
@[simp] theorem wroteDtmcs_idleCycles (d : Word) : (s.wroteDtmcs d).idleCycles = some (dtmcsIdle d) := rfl
@[simp] theorem wroteDtmcs_addressBits (d : Word) : (s.wroteDtmcs d).addressBits = some (dtmcsAbits d) := rfl
@[simp] theorem wroteDtmcs_programBufferSize (d : Word) : (s.wroteDtmcs d).programBufferSize = s.programBufferSize := rfl
@[simp] theorem wroteDtmcs_impebreak (d : Word) : (s.wroteDtmcs d).impebreak = s.impebreak := rfl
@[simp] theorem wroteDtmcs_abstractDataCount (d : Word) : (s.wroteDtmcs d).abstractDataCount = s.abstractDataCount := rfl
@[simp] theorem wroteDtmcs_autoexecSupported (d : Word) : (s.wroteDtmcs d).autoexecSupported = s.autoexecSupported := rfl
@[simp] theorem wroteDtmcs_progbufCsrEnabled (d : Word) : (s.wroteDtmcs d).progbufCsrEnabled = s.progbufCsrEnabled := rfl
@[simp] theorem wroteDtmcs_lastDmiCommand (d : Word) : (s.wroteDtmcs d).lastDmiCommand = s.lastDmiCommand := rfl
@[simp] theorem wroteDtmcs_lastValid (d : Word) : (s.wroteDtmcs d).lastValid = false := rfl
@[simp] theorem wroteDtmcs_irCurrent (d : Word) : (s.wroteDtmcs d).irCurrent = s.irCurrent := rfl
@[simp] theorem wroteDtmcs_hartsellen (d : Word) : (s.wroteDtmcs d).hartsellen = s.hartsellen := rfl
@[simp] theorem wroteDtmcs_harts (d : Word) : (s.wroteDtmcs d).harts = s.harts := rfl
@[simp] theorem wroteDtmcs_currentHart (d : Word) : (s.wroteDtmcs d).currentHart = s.currentHart := rfl
@[simp] theorem wroteDtmcs_req (d : Word) : (s.wroteDtmcs d).req = s.req := rfl
@[simp] theorem wroteDtmcs_label (d : Word) : (s.wroteDtmcs d).label = s.label := rfl
@[simp] theorem wroteDtmcs_dmiTries (d : Word) : (s.wroteDtmcs d).dmiTries = s.dmiTries := rfl
@[simp] theorem wroteDtmcs_polls (d : Word) : (s.wroteDtmcs d).polls = s.polls := rfl
@[simp] theorem wroteDtmcs_busyTries (d : Word) : (s.wroteDtmcs d).busyTries = s.busyTries := rfl
@[simp] theorem wroteDtmcs_batchIndex (d : Word) : (s.wroteDtmcs d).batchIndex = s.batchIndex := rfl
@[simp] theorem wroteDtmcs_discoveryIndex (d : Word) : (s.wroteDtmcs d).discoveryIndex = s.discoveryIndex := rfl
@[simp] theorem wroteDtmcs_dmiCmd (d : Word) : (s.wroteDtmcs d).dmiCmd = s.dmiCmd := rfl
@[simp] theorem wroteDtmcs_runCmd (d : Word) : (s.wroteDtmcs d).runCmd = s.runCmd := rfl
@[simp] theorem wroteDtmcs_pending (d : Word) : (s.wroteDtmcs d).pending = s.pending := rfl
@[simp] theorem wroteDtmcs_primaryError (d : Word) : (s.wroteDtmcs d).primaryError = s.primaryError := rfl
@[simp] theorem wroteDtmcs_params (d : Word) : (s.wroteDtmcs d).params = s.params := rfl
@[simp] theorem wroteDtmcs_hostQueue (d : Word) : (s.wroteDtmcs d).hostQueue = s.hostQueue := rfl
@[simp] theorem wroteDtmcs_wire (d : Word) : (s.wroteDtmcs d).wire = s.wire := rfl
@[simp] theorem wroteDtmcs_replies (d : Word) : (s.wroteDtmcs d).replies = s.replies := rfl
@[simp] theorem wroteDtmcs_actionCount (d : Word) : (s.wroteDtmcs d).actionCount = s.actionCount := rfl
@[simp] theorem wroteDtmcs_moves (d : Word) : (s.wroteDtmcs d).moves = s.moves := rfl
@[simp] theorem wroteDtmcs_trace (d : Word) : (s.wroteDtmcs d).trace = s.trace := rfl
@[simp] theorem wroteDtmcs_hostOut (d : Word) : (s.wroteDtmcs d).hostOut = s.hostOut := rfl
@[simp] theorem wroteDtmcs_result (d : Word) : (s.wroteDtmcs d).result = s.result := rfl

/-! ## `wroteVersion` -/

@[simp] theorem wroteVersion_phase (v : DebugVersion) : (s.wroteVersion v).phase = s.phase := rfl
@[simp] theorem wroteVersion_idcode (v : DebugVersion) : (s.wroteVersion v).idcode = s.idcode := rfl
@[simp] theorem wroteVersion_dtmVersion (v : DebugVersion) : (s.wroteVersion v).dtmVersion = s.dtmVersion := rfl
@[simp] theorem wroteVersion_debugVersion (v : DebugVersion) : (s.wroteVersion v).debugVersion = some v := rfl
@[simp] theorem wroteVersion_idleCycles (v : DebugVersion) : (s.wroteVersion v).idleCycles = s.idleCycles := rfl
@[simp] theorem wroteVersion_addressBits (v : DebugVersion) : (s.wroteVersion v).addressBits = s.addressBits := rfl
@[simp] theorem wroteVersion_programBufferSize (v : DebugVersion) : (s.wroteVersion v).programBufferSize = s.programBufferSize := rfl
@[simp] theorem wroteVersion_impebreak (v : DebugVersion) : (s.wroteVersion v).impebreak = s.impebreak := rfl
@[simp] theorem wroteVersion_abstractDataCount (v : DebugVersion) : (s.wroteVersion v).abstractDataCount = s.abstractDataCount := rfl
@[simp] theorem wroteVersion_autoexecSupported (v : DebugVersion) : (s.wroteVersion v).autoexecSupported = s.autoexecSupported := rfl
@[simp] theorem wroteVersion_progbufCsrEnabled (v : DebugVersion) : (s.wroteVersion v).progbufCsrEnabled = s.progbufCsrEnabled := rfl
@[simp] theorem wroteVersion_lastDmiCommand (v : DebugVersion) : (s.wroteVersion v).lastDmiCommand = s.lastDmiCommand := rfl
@[simp] theorem wroteVersion_lastValid (v : DebugVersion) : (s.wroteVersion v).lastValid = s.lastValid := rfl
@[simp] theorem wroteVersion_irCurrent (v : DebugVersion) : (s.wroteVersion v).irCurrent = s.irCurrent := rfl
@[simp] theorem wroteVersion_hartsellen (v : DebugVersion) : (s.wroteVersion v).hartsellen = s.hartsellen := rfl
@[simp] theorem wroteVersion_harts (v : DebugVersion) : (s.wroteVersion v).harts = s.harts := rfl
@[simp] theorem wroteVersion_currentHart (v : DebugVersion) : (s.wroteVersion v).currentHart = s.currentHart := rfl
@[simp] theorem wroteVersion_req (v : DebugVersion) : (s.wroteVersion v).req = s.req := rfl
@[simp] theorem wroteVersion_label (v : DebugVersion) : (s.wroteVersion v).label = s.label := rfl
@[simp] theorem wroteVersion_dmiTries (v : DebugVersion) : (s.wroteVersion v).dmiTries = s.dmiTries := rfl
@[simp] theorem wroteVersion_polls (v : DebugVersion) : (s.wroteVersion v).polls = s.polls := rfl
@[simp] theorem wroteVersion_busyTries (v : DebugVersion) : (s.wroteVersion v).busyTries = s.busyTries := rfl
@[simp] theorem wroteVersion_batchIndex (v : DebugVersion) : (s.wroteVersion v).batchIndex = s.batchIndex := rfl
@[simp] theorem wroteVersion_discoveryIndex (v : DebugVersion) : (s.wroteVersion v).discoveryIndex = s.discoveryIndex := rfl
@[simp] theorem wroteVersion_dmiCmd (v : DebugVersion) : (s.wroteVersion v).dmiCmd = s.dmiCmd := rfl
@[simp] theorem wroteVersion_runCmd (v : DebugVersion) : (s.wroteVersion v).runCmd = s.runCmd := rfl
@[simp] theorem wroteVersion_pending (v : DebugVersion) : (s.wroteVersion v).pending = s.pending := rfl
@[simp] theorem wroteVersion_primaryError (v : DebugVersion) : (s.wroteVersion v).primaryError = s.primaryError := rfl
@[simp] theorem wroteVersion_params (v : DebugVersion) : (s.wroteVersion v).params = s.params := rfl
@[simp] theorem wroteVersion_hostQueue (v : DebugVersion) : (s.wroteVersion v).hostQueue = s.hostQueue := rfl
@[simp] theorem wroteVersion_wire (v : DebugVersion) : (s.wroteVersion v).wire = s.wire := rfl
@[simp] theorem wroteVersion_replies (v : DebugVersion) : (s.wroteVersion v).replies = s.replies := rfl
@[simp] theorem wroteVersion_actionCount (v : DebugVersion) : (s.wroteVersion v).actionCount = s.actionCount := rfl
@[simp] theorem wroteVersion_moves (v : DebugVersion) : (s.wroteVersion v).moves = s.moves := rfl
@[simp] theorem wroteVersion_trace (v : DebugVersion) : (s.wroteVersion v).trace = s.trace := rfl
@[simp] theorem wroteVersion_hostOut (v : DebugVersion) : (s.wroteVersion v).hostOut = s.hostOut := rfl
@[simp] theorem wroteVersion_result (v : DebugVersion) : (s.wroteVersion v).result = s.result := rfl

/-! ## `wroteImpebreak` -/

@[simp] theorem wroteImpebreak_phase (b : Bool) : (s.wroteImpebreak b).phase = s.phase := rfl
@[simp] theorem wroteImpebreak_idcode (b : Bool) : (s.wroteImpebreak b).idcode = s.idcode := rfl
@[simp] theorem wroteImpebreak_dtmVersion (b : Bool) : (s.wroteImpebreak b).dtmVersion = s.dtmVersion := rfl
@[simp] theorem wroteImpebreak_debugVersion (b : Bool) : (s.wroteImpebreak b).debugVersion = s.debugVersion := rfl
@[simp] theorem wroteImpebreak_idleCycles (b : Bool) : (s.wroteImpebreak b).idleCycles = s.idleCycles := rfl
@[simp] theorem wroteImpebreak_addressBits (b : Bool) : (s.wroteImpebreak b).addressBits = s.addressBits := rfl
@[simp] theorem wroteImpebreak_programBufferSize (b : Bool) : (s.wroteImpebreak b).programBufferSize = s.programBufferSize := rfl
@[simp] theorem wroteImpebreak_impebreak (b : Bool) : (s.wroteImpebreak b).impebreak = some b := rfl
@[simp] theorem wroteImpebreak_abstractDataCount (b : Bool) : (s.wroteImpebreak b).abstractDataCount = s.abstractDataCount := rfl
@[simp] theorem wroteImpebreak_autoexecSupported (b : Bool) : (s.wroteImpebreak b).autoexecSupported = s.autoexecSupported := rfl
@[simp] theorem wroteImpebreak_progbufCsrEnabled (b : Bool) : (s.wroteImpebreak b).progbufCsrEnabled = s.progbufCsrEnabled := rfl
@[simp] theorem wroteImpebreak_lastDmiCommand (b : Bool) : (s.wroteImpebreak b).lastDmiCommand = s.lastDmiCommand := rfl
@[simp] theorem wroteImpebreak_lastValid (b : Bool) : (s.wroteImpebreak b).lastValid = s.lastValid := rfl
@[simp] theorem wroteImpebreak_irCurrent (b : Bool) : (s.wroteImpebreak b).irCurrent = s.irCurrent := rfl
@[simp] theorem wroteImpebreak_hartsellen (b : Bool) : (s.wroteImpebreak b).hartsellen = s.hartsellen := rfl
@[simp] theorem wroteImpebreak_harts (b : Bool) : (s.wroteImpebreak b).harts = s.harts := rfl
@[simp] theorem wroteImpebreak_currentHart (b : Bool) : (s.wroteImpebreak b).currentHart = s.currentHart := rfl
@[simp] theorem wroteImpebreak_req (b : Bool) : (s.wroteImpebreak b).req = s.req := rfl
@[simp] theorem wroteImpebreak_label (b : Bool) : (s.wroteImpebreak b).label = s.label := rfl
@[simp] theorem wroteImpebreak_dmiTries (b : Bool) : (s.wroteImpebreak b).dmiTries = s.dmiTries := rfl
@[simp] theorem wroteImpebreak_polls (b : Bool) : (s.wroteImpebreak b).polls = s.polls := rfl
@[simp] theorem wroteImpebreak_busyTries (b : Bool) : (s.wroteImpebreak b).busyTries = s.busyTries := rfl
@[simp] theorem wroteImpebreak_batchIndex (b : Bool) : (s.wroteImpebreak b).batchIndex = s.batchIndex := rfl
@[simp] theorem wroteImpebreak_discoveryIndex (b : Bool) : (s.wroteImpebreak b).discoveryIndex = s.discoveryIndex := rfl
@[simp] theorem wroteImpebreak_dmiCmd (b : Bool) : (s.wroteImpebreak b).dmiCmd = s.dmiCmd := rfl
@[simp] theorem wroteImpebreak_runCmd (b : Bool) : (s.wroteImpebreak b).runCmd = s.runCmd := rfl
@[simp] theorem wroteImpebreak_pending (b : Bool) : (s.wroteImpebreak b).pending = s.pending := rfl
@[simp] theorem wroteImpebreak_primaryError (b : Bool) : (s.wroteImpebreak b).primaryError = s.primaryError := rfl
@[simp] theorem wroteImpebreak_params (b : Bool) : (s.wroteImpebreak b).params = s.params := rfl
@[simp] theorem wroteImpebreak_hostQueue (b : Bool) : (s.wroteImpebreak b).hostQueue = s.hostQueue := rfl
@[simp] theorem wroteImpebreak_wire (b : Bool) : (s.wroteImpebreak b).wire = s.wire := rfl
@[simp] theorem wroteImpebreak_replies (b : Bool) : (s.wroteImpebreak b).replies = s.replies := rfl
@[simp] theorem wroteImpebreak_actionCount (b : Bool) : (s.wroteImpebreak b).actionCount = s.actionCount := rfl
@[simp] theorem wroteImpebreak_moves (b : Bool) : (s.wroteImpebreak b).moves = s.moves := rfl
@[simp] theorem wroteImpebreak_trace (b : Bool) : (s.wroteImpebreak b).trace = s.trace := rfl
@[simp] theorem wroteImpebreak_hostOut (b : Bool) : (s.wroteImpebreak b).hostOut = s.hostOut := rfl
@[simp] theorem wroteImpebreak_result (b : Bool) : (s.wroteImpebreak b).result = s.result := rfl

/-! ## `wroteDataCount` -/

@[simp] theorem wroteDataCount_phase (n : BitVec 4) : (s.wroteDataCount n).phase = s.phase := rfl
@[simp] theorem wroteDataCount_idcode (n : BitVec 4) : (s.wroteDataCount n).idcode = s.idcode := rfl
@[simp] theorem wroteDataCount_dtmVersion (n : BitVec 4) : (s.wroteDataCount n).dtmVersion = s.dtmVersion := rfl
@[simp] theorem wroteDataCount_debugVersion (n : BitVec 4) : (s.wroteDataCount n).debugVersion = s.debugVersion := rfl
@[simp] theorem wroteDataCount_idleCycles (n : BitVec 4) : (s.wroteDataCount n).idleCycles = s.idleCycles := rfl
@[simp] theorem wroteDataCount_addressBits (n : BitVec 4) : (s.wroteDataCount n).addressBits = s.addressBits := rfl
@[simp] theorem wroteDataCount_programBufferSize (n : BitVec 4) : (s.wroteDataCount n).programBufferSize = s.programBufferSize := rfl
@[simp] theorem wroteDataCount_impebreak (n : BitVec 4) : (s.wroteDataCount n).impebreak = s.impebreak := rfl
@[simp] theorem wroteDataCount_abstractDataCount (n : BitVec 4) : (s.wroteDataCount n).abstractDataCount = some n := rfl
@[simp] theorem wroteDataCount_autoexecSupported (n : BitVec 4) : (s.wroteDataCount n).autoexecSupported = s.autoexecSupported := rfl
@[simp] theorem wroteDataCount_progbufCsrEnabled (n : BitVec 4) : (s.wroteDataCount n).progbufCsrEnabled = s.progbufCsrEnabled := rfl
@[simp] theorem wroteDataCount_lastDmiCommand (n : BitVec 4) : (s.wroteDataCount n).lastDmiCommand = s.lastDmiCommand := rfl
@[simp] theorem wroteDataCount_lastValid (n : BitVec 4) : (s.wroteDataCount n).lastValid = s.lastValid := rfl
@[simp] theorem wroteDataCount_irCurrent (n : BitVec 4) : (s.wroteDataCount n).irCurrent = s.irCurrent := rfl
@[simp] theorem wroteDataCount_hartsellen (n : BitVec 4) : (s.wroteDataCount n).hartsellen = s.hartsellen := rfl
@[simp] theorem wroteDataCount_harts (n : BitVec 4) : (s.wroteDataCount n).harts = s.harts := rfl
@[simp] theorem wroteDataCount_currentHart (n : BitVec 4) : (s.wroteDataCount n).currentHart = s.currentHart := rfl
@[simp] theorem wroteDataCount_req (n : BitVec 4) : (s.wroteDataCount n).req = s.req := rfl
@[simp] theorem wroteDataCount_label (n : BitVec 4) : (s.wroteDataCount n).label = s.label := rfl
@[simp] theorem wroteDataCount_dmiTries (n : BitVec 4) : (s.wroteDataCount n).dmiTries = s.dmiTries := rfl
@[simp] theorem wroteDataCount_polls (n : BitVec 4) : (s.wroteDataCount n).polls = s.polls := rfl
@[simp] theorem wroteDataCount_busyTries (n : BitVec 4) : (s.wroteDataCount n).busyTries = s.busyTries := rfl
@[simp] theorem wroteDataCount_batchIndex (n : BitVec 4) : (s.wroteDataCount n).batchIndex = s.batchIndex := rfl
@[simp] theorem wroteDataCount_discoveryIndex (n : BitVec 4) : (s.wroteDataCount n).discoveryIndex = s.discoveryIndex := rfl
@[simp] theorem wroteDataCount_dmiCmd (n : BitVec 4) : (s.wroteDataCount n).dmiCmd = s.dmiCmd := rfl
@[simp] theorem wroteDataCount_runCmd (n : BitVec 4) : (s.wroteDataCount n).runCmd = s.runCmd := rfl
@[simp] theorem wroteDataCount_pending (n : BitVec 4) : (s.wroteDataCount n).pending = s.pending := rfl
@[simp] theorem wroteDataCount_primaryError (n : BitVec 4) : (s.wroteDataCount n).primaryError = s.primaryError := rfl
@[simp] theorem wroteDataCount_params (n : BitVec 4) : (s.wroteDataCount n).params = s.params := rfl
@[simp] theorem wroteDataCount_hostQueue (n : BitVec 4) : (s.wroteDataCount n).hostQueue = s.hostQueue := rfl
@[simp] theorem wroteDataCount_wire (n : BitVec 4) : (s.wroteDataCount n).wire = s.wire := rfl
@[simp] theorem wroteDataCount_replies (n : BitVec 4) : (s.wroteDataCount n).replies = s.replies := rfl
@[simp] theorem wroteDataCount_actionCount (n : BitVec 4) : (s.wroteDataCount n).actionCount = s.actionCount := rfl
@[simp] theorem wroteDataCount_moves (n : BitVec 4) : (s.wroteDataCount n).moves = s.moves := rfl
@[simp] theorem wroteDataCount_trace (n : BitVec 4) : (s.wroteDataCount n).trace = s.trace := rfl
@[simp] theorem wroteDataCount_hostOut (n : BitVec 4) : (s.wroteDataCount n).hostOut = s.hostOut := rfl
@[simp] theorem wroteDataCount_result (n : BitVec 4) : (s.wroteDataCount n).result = s.result := rfl

/-! ## `wroteBufferSize` -/

@[simp] theorem wroteBufferSize_phase (n : BitVec 5) : (s.wroteBufferSize n).phase = s.phase := rfl
@[simp] theorem wroteBufferSize_idcode (n : BitVec 5) : (s.wroteBufferSize n).idcode = s.idcode := rfl
@[simp] theorem wroteBufferSize_dtmVersion (n : BitVec 5) : (s.wroteBufferSize n).dtmVersion = s.dtmVersion := rfl
@[simp] theorem wroteBufferSize_debugVersion (n : BitVec 5) : (s.wroteBufferSize n).debugVersion = s.debugVersion := rfl
@[simp] theorem wroteBufferSize_idleCycles (n : BitVec 5) : (s.wroteBufferSize n).idleCycles = s.idleCycles := rfl
@[simp] theorem wroteBufferSize_addressBits (n : BitVec 5) : (s.wroteBufferSize n).addressBits = s.addressBits := rfl
@[simp] theorem wroteBufferSize_programBufferSize (n : BitVec 5) : (s.wroteBufferSize n).programBufferSize = some n := rfl
@[simp] theorem wroteBufferSize_impebreak (n : BitVec 5) : (s.wroteBufferSize n).impebreak = s.impebreak := rfl
@[simp] theorem wroteBufferSize_abstractDataCount (n : BitVec 5) : (s.wroteBufferSize n).abstractDataCount = s.abstractDataCount := rfl
@[simp] theorem wroteBufferSize_autoexecSupported (n : BitVec 5) : (s.wroteBufferSize n).autoexecSupported = s.autoexecSupported := rfl
@[simp] theorem wroteBufferSize_progbufCsrEnabled (n : BitVec 5) : (s.wroteBufferSize n).progbufCsrEnabled = s.progbufCsrEnabled := rfl
@[simp] theorem wroteBufferSize_lastDmiCommand (n : BitVec 5) : (s.wroteBufferSize n).lastDmiCommand = s.lastDmiCommand := rfl
@[simp] theorem wroteBufferSize_lastValid (n : BitVec 5) : (s.wroteBufferSize n).lastValid = s.lastValid := rfl
@[simp] theorem wroteBufferSize_irCurrent (n : BitVec 5) : (s.wroteBufferSize n).irCurrent = s.irCurrent := rfl
@[simp] theorem wroteBufferSize_hartsellen (n : BitVec 5) : (s.wroteBufferSize n).hartsellen = s.hartsellen := rfl
@[simp] theorem wroteBufferSize_harts (n : BitVec 5) : (s.wroteBufferSize n).harts = s.harts := rfl
@[simp] theorem wroteBufferSize_currentHart (n : BitVec 5) : (s.wroteBufferSize n).currentHart = s.currentHart := rfl
@[simp] theorem wroteBufferSize_req (n : BitVec 5) : (s.wroteBufferSize n).req = s.req := rfl
@[simp] theorem wroteBufferSize_label (n : BitVec 5) : (s.wroteBufferSize n).label = s.label := rfl
@[simp] theorem wroteBufferSize_dmiTries (n : BitVec 5) : (s.wroteBufferSize n).dmiTries = s.dmiTries := rfl
@[simp] theorem wroteBufferSize_polls (n : BitVec 5) : (s.wroteBufferSize n).polls = s.polls := rfl
@[simp] theorem wroteBufferSize_busyTries (n : BitVec 5) : (s.wroteBufferSize n).busyTries = s.busyTries := rfl
@[simp] theorem wroteBufferSize_batchIndex (n : BitVec 5) : (s.wroteBufferSize n).batchIndex = s.batchIndex := rfl
@[simp] theorem wroteBufferSize_discoveryIndex (n : BitVec 5) : (s.wroteBufferSize n).discoveryIndex = s.discoveryIndex := rfl
@[simp] theorem wroteBufferSize_dmiCmd (n : BitVec 5) : (s.wroteBufferSize n).dmiCmd = s.dmiCmd := rfl
@[simp] theorem wroteBufferSize_runCmd (n : BitVec 5) : (s.wroteBufferSize n).runCmd = s.runCmd := rfl
@[simp] theorem wroteBufferSize_pending (n : BitVec 5) : (s.wroteBufferSize n).pending = s.pending := rfl
@[simp] theorem wroteBufferSize_primaryError (n : BitVec 5) : (s.wroteBufferSize n).primaryError = s.primaryError := rfl
@[simp] theorem wroteBufferSize_params (n : BitVec 5) : (s.wroteBufferSize n).params = s.params := rfl
@[simp] theorem wroteBufferSize_hostQueue (n : BitVec 5) : (s.wroteBufferSize n).hostQueue = s.hostQueue := rfl
@[simp] theorem wroteBufferSize_wire (n : BitVec 5) : (s.wroteBufferSize n).wire = s.wire := rfl
@[simp] theorem wroteBufferSize_replies (n : BitVec 5) : (s.wroteBufferSize n).replies = s.replies := rfl
@[simp] theorem wroteBufferSize_actionCount (n : BitVec 5) : (s.wroteBufferSize n).actionCount = s.actionCount := rfl
@[simp] theorem wroteBufferSize_moves (n : BitVec 5) : (s.wroteBufferSize n).moves = s.moves := rfl
@[simp] theorem wroteBufferSize_trace (n : BitVec 5) : (s.wroteBufferSize n).trace = s.trace := rfl
@[simp] theorem wroteBufferSize_hostOut (n : BitVec 5) : (s.wroteBufferSize n).hostOut = s.hostOut := rfl
@[simp] theorem wroteBufferSize_result (n : BitVec 5) : (s.wroteBufferSize n).result = s.result := rfl

/-! ## `wroteCapabilities` -/

@[simp] theorem wroteCapabilities_phase (f : AcsFields) : (s.wroteCapabilities f).phase = s.phase := rfl
@[simp] theorem wroteCapabilities_idcode (f : AcsFields) : (s.wroteCapabilities f).idcode = s.idcode := rfl
@[simp] theorem wroteCapabilities_dtmVersion (f : AcsFields) : (s.wroteCapabilities f).dtmVersion = s.dtmVersion := rfl
@[simp] theorem wroteCapabilities_debugVersion (f : AcsFields) : (s.wroteCapabilities f).debugVersion = s.debugVersion := rfl
@[simp] theorem wroteCapabilities_idleCycles (f : AcsFields) : (s.wroteCapabilities f).idleCycles = s.idleCycles := rfl
@[simp] theorem wroteCapabilities_addressBits (f : AcsFields) : (s.wroteCapabilities f).addressBits = s.addressBits := rfl
@[simp] theorem wroteCapabilities_programBufferSize (f : AcsFields) : (s.wroteCapabilities f).programBufferSize = some f.progbufsize := rfl
@[simp] theorem wroteCapabilities_impebreak (f : AcsFields) : (s.wroteCapabilities f).impebreak = s.impebreak := rfl
@[simp] theorem wroteCapabilities_abstractDataCount (f : AcsFields) : (s.wroteCapabilities f).abstractDataCount = some f.datacount := rfl
@[simp] theorem wroteCapabilities_autoexecSupported (f : AcsFields) : (s.wroteCapabilities f).autoexecSupported = s.autoexecSupported := rfl
@[simp] theorem wroteCapabilities_progbufCsrEnabled (f : AcsFields) : (s.wroteCapabilities f).progbufCsrEnabled = s.progbufCsrEnabled := rfl
@[simp] theorem wroteCapabilities_lastDmiCommand (f : AcsFields) : (s.wroteCapabilities f).lastDmiCommand = s.lastDmiCommand := rfl
@[simp] theorem wroteCapabilities_lastValid (f : AcsFields) : (s.wroteCapabilities f).lastValid = s.lastValid := rfl
@[simp] theorem wroteCapabilities_irCurrent (f : AcsFields) : (s.wroteCapabilities f).irCurrent = s.irCurrent := rfl
@[simp] theorem wroteCapabilities_hartsellen (f : AcsFields) : (s.wroteCapabilities f).hartsellen = s.hartsellen := rfl
@[simp] theorem wroteCapabilities_harts (f : AcsFields) : (s.wroteCapabilities f).harts = s.harts := rfl
@[simp] theorem wroteCapabilities_currentHart (f : AcsFields) : (s.wroteCapabilities f).currentHart = s.currentHart := rfl
@[simp] theorem wroteCapabilities_req (f : AcsFields) : (s.wroteCapabilities f).req = s.req := rfl
@[simp] theorem wroteCapabilities_label (f : AcsFields) : (s.wroteCapabilities f).label = s.label := rfl
@[simp] theorem wroteCapabilities_dmiTries (f : AcsFields) : (s.wroteCapabilities f).dmiTries = s.dmiTries := rfl
@[simp] theorem wroteCapabilities_polls (f : AcsFields) : (s.wroteCapabilities f).polls = s.polls := rfl
@[simp] theorem wroteCapabilities_busyTries (f : AcsFields) : (s.wroteCapabilities f).busyTries = s.busyTries := rfl
@[simp] theorem wroteCapabilities_batchIndex (f : AcsFields) : (s.wroteCapabilities f).batchIndex = s.batchIndex := rfl
@[simp] theorem wroteCapabilities_discoveryIndex (f : AcsFields) : (s.wroteCapabilities f).discoveryIndex = s.discoveryIndex := rfl
@[simp] theorem wroteCapabilities_dmiCmd (f : AcsFields) : (s.wroteCapabilities f).dmiCmd = s.dmiCmd := rfl
@[simp] theorem wroteCapabilities_runCmd (f : AcsFields) : (s.wroteCapabilities f).runCmd = s.runCmd := rfl
@[simp] theorem wroteCapabilities_pending (f : AcsFields) : (s.wroteCapabilities f).pending = s.pending := rfl
@[simp] theorem wroteCapabilities_primaryError (f : AcsFields) : (s.wroteCapabilities f).primaryError = s.primaryError := rfl
@[simp] theorem wroteCapabilities_params (f : AcsFields) : (s.wroteCapabilities f).params = s.params := rfl
@[simp] theorem wroteCapabilities_hostQueue (f : AcsFields) : (s.wroteCapabilities f).hostQueue = s.hostQueue := rfl
@[simp] theorem wroteCapabilities_wire (f : AcsFields) : (s.wroteCapabilities f).wire = s.wire := rfl
@[simp] theorem wroteCapabilities_replies (f : AcsFields) : (s.wroteCapabilities f).replies = s.replies := rfl
@[simp] theorem wroteCapabilities_actionCount (f : AcsFields) : (s.wroteCapabilities f).actionCount = s.actionCount := rfl
@[simp] theorem wroteCapabilities_moves (f : AcsFields) : (s.wroteCapabilities f).moves = s.moves := rfl
@[simp] theorem wroteCapabilities_trace (f : AcsFields) : (s.wroteCapabilities f).trace = s.trace := rfl
@[simp] theorem wroteCapabilities_hostOut (f : AcsFields) : (s.wroteCapabilities f).hostOut = s.hostOut := rfl
@[simp] theorem wroteCapabilities_result (f : AcsFields) : (s.wroteCapabilities f).result = s.result := rfl

/-! ## `wroteCsrPath` -/

@[simp] theorem wroteCsrPath_phase (b : Bool) : (s.wroteCsrPath b).phase = s.phase := rfl
@[simp] theorem wroteCsrPath_idcode (b : Bool) : (s.wroteCsrPath b).idcode = s.idcode := rfl
@[simp] theorem wroteCsrPath_dtmVersion (b : Bool) : (s.wroteCsrPath b).dtmVersion = s.dtmVersion := rfl
@[simp] theorem wroteCsrPath_debugVersion (b : Bool) : (s.wroteCsrPath b).debugVersion = s.debugVersion := rfl
@[simp] theorem wroteCsrPath_idleCycles (b : Bool) : (s.wroteCsrPath b).idleCycles = s.idleCycles := rfl
@[simp] theorem wroteCsrPath_addressBits (b : Bool) : (s.wroteCsrPath b).addressBits = s.addressBits := rfl
@[simp] theorem wroteCsrPath_programBufferSize (b : Bool) : (s.wroteCsrPath b).programBufferSize = s.programBufferSize := rfl
@[simp] theorem wroteCsrPath_impebreak (b : Bool) : (s.wroteCsrPath b).impebreak = s.impebreak := rfl
@[simp] theorem wroteCsrPath_abstractDataCount (b : Bool) : (s.wroteCsrPath b).abstractDataCount = s.abstractDataCount := rfl
@[simp] theorem wroteCsrPath_autoexecSupported (b : Bool) : (s.wroteCsrPath b).autoexecSupported = s.autoexecSupported := rfl
@[simp] theorem wroteCsrPath_progbufCsrEnabled (b : Bool) : (s.wroteCsrPath b).progbufCsrEnabled = some b := rfl
@[simp] theorem wroteCsrPath_lastDmiCommand (b : Bool) : (s.wroteCsrPath b).lastDmiCommand = s.lastDmiCommand := rfl
@[simp] theorem wroteCsrPath_lastValid (b : Bool) : (s.wroteCsrPath b).lastValid = s.lastValid := rfl
@[simp] theorem wroteCsrPath_irCurrent (b : Bool) : (s.wroteCsrPath b).irCurrent = s.irCurrent := rfl
@[simp] theorem wroteCsrPath_hartsellen (b : Bool) : (s.wroteCsrPath b).hartsellen = s.hartsellen := rfl
@[simp] theorem wroteCsrPath_harts (b : Bool) : (s.wroteCsrPath b).harts = s.harts := rfl
@[simp] theorem wroteCsrPath_currentHart (b : Bool) : (s.wroteCsrPath b).currentHart = s.currentHart := rfl
@[simp] theorem wroteCsrPath_req (b : Bool) : (s.wroteCsrPath b).req = s.req := rfl
@[simp] theorem wroteCsrPath_label (b : Bool) : (s.wroteCsrPath b).label = s.label := rfl
@[simp] theorem wroteCsrPath_dmiTries (b : Bool) : (s.wroteCsrPath b).dmiTries = s.dmiTries := rfl
@[simp] theorem wroteCsrPath_polls (b : Bool) : (s.wroteCsrPath b).polls = s.polls := rfl
@[simp] theorem wroteCsrPath_busyTries (b : Bool) : (s.wroteCsrPath b).busyTries = s.busyTries := rfl
@[simp] theorem wroteCsrPath_batchIndex (b : Bool) : (s.wroteCsrPath b).batchIndex = s.batchIndex := rfl
@[simp] theorem wroteCsrPath_discoveryIndex (b : Bool) : (s.wroteCsrPath b).discoveryIndex = s.discoveryIndex := rfl
@[simp] theorem wroteCsrPath_dmiCmd (b : Bool) : (s.wroteCsrPath b).dmiCmd = s.dmiCmd := rfl
@[simp] theorem wroteCsrPath_runCmd (b : Bool) : (s.wroteCsrPath b).runCmd = s.runCmd := rfl
@[simp] theorem wroteCsrPath_pending (b : Bool) : (s.wroteCsrPath b).pending = s.pending := rfl
@[simp] theorem wroteCsrPath_primaryError (b : Bool) : (s.wroteCsrPath b).primaryError = s.primaryError := rfl
@[simp] theorem wroteCsrPath_params (b : Bool) : (s.wroteCsrPath b).params = s.params := rfl
@[simp] theorem wroteCsrPath_hostQueue (b : Bool) : (s.wroteCsrPath b).hostQueue = s.hostQueue := rfl
@[simp] theorem wroteCsrPath_wire (b : Bool) : (s.wroteCsrPath b).wire = s.wire := rfl
@[simp] theorem wroteCsrPath_replies (b : Bool) : (s.wroteCsrPath b).replies = s.replies := rfl
@[simp] theorem wroteCsrPath_actionCount (b : Bool) : (s.wroteCsrPath b).actionCount = s.actionCount := rfl
@[simp] theorem wroteCsrPath_moves (b : Bool) : (s.wroteCsrPath b).moves = s.moves := rfl
@[simp] theorem wroteCsrPath_trace (b : Bool) : (s.wroteCsrPath b).trace = s.trace := rfl
@[simp] theorem wroteCsrPath_hostOut (b : Bool) : (s.wroteCsrPath b).hostOut = s.hostOut := rfl
@[simp] theorem wroteCsrPath_result (b : Bool) : (s.wroteCsrPath b).result = s.result := rfl

/-! ## `wroteAutoexec` -/

@[simp] theorem wroteAutoexec_phase (b : Bool) : (s.wroteAutoexec b).phase = s.phase := rfl
@[simp] theorem wroteAutoexec_idcode (b : Bool) : (s.wroteAutoexec b).idcode = s.idcode := rfl
@[simp] theorem wroteAutoexec_dtmVersion (b : Bool) : (s.wroteAutoexec b).dtmVersion = s.dtmVersion := rfl
@[simp] theorem wroteAutoexec_debugVersion (b : Bool) : (s.wroteAutoexec b).debugVersion = s.debugVersion := rfl
@[simp] theorem wroteAutoexec_idleCycles (b : Bool) : (s.wroteAutoexec b).idleCycles = s.idleCycles := rfl
@[simp] theorem wroteAutoexec_addressBits (b : Bool) : (s.wroteAutoexec b).addressBits = s.addressBits := rfl
@[simp] theorem wroteAutoexec_programBufferSize (b : Bool) : (s.wroteAutoexec b).programBufferSize = s.programBufferSize := rfl
@[simp] theorem wroteAutoexec_impebreak (b : Bool) : (s.wroteAutoexec b).impebreak = s.impebreak := rfl
@[simp] theorem wroteAutoexec_abstractDataCount (b : Bool) : (s.wroteAutoexec b).abstractDataCount = s.abstractDataCount := rfl
@[simp] theorem wroteAutoexec_autoexecSupported (b : Bool) : (s.wroteAutoexec b).autoexecSupported = some b := rfl
@[simp] theorem wroteAutoexec_progbufCsrEnabled (b : Bool) : (s.wroteAutoexec b).progbufCsrEnabled = s.progbufCsrEnabled := rfl
@[simp] theorem wroteAutoexec_lastDmiCommand (b : Bool) : (s.wroteAutoexec b).lastDmiCommand = s.lastDmiCommand := rfl
@[simp] theorem wroteAutoexec_lastValid (b : Bool) : (s.wroteAutoexec b).lastValid = s.lastValid := rfl
@[simp] theorem wroteAutoexec_irCurrent (b : Bool) : (s.wroteAutoexec b).irCurrent = s.irCurrent := rfl
@[simp] theorem wroteAutoexec_hartsellen (b : Bool) : (s.wroteAutoexec b).hartsellen = s.hartsellen := rfl
@[simp] theorem wroteAutoexec_harts (b : Bool) : (s.wroteAutoexec b).harts = s.harts := rfl
@[simp] theorem wroteAutoexec_currentHart (b : Bool) : (s.wroteAutoexec b).currentHart = s.currentHart := rfl
@[simp] theorem wroteAutoexec_req (b : Bool) : (s.wroteAutoexec b).req = s.req := rfl
@[simp] theorem wroteAutoexec_label (b : Bool) : (s.wroteAutoexec b).label = s.label := rfl
@[simp] theorem wroteAutoexec_dmiTries (b : Bool) : (s.wroteAutoexec b).dmiTries = s.dmiTries := rfl
@[simp] theorem wroteAutoexec_polls (b : Bool) : (s.wroteAutoexec b).polls = s.polls := rfl
@[simp] theorem wroteAutoexec_busyTries (b : Bool) : (s.wroteAutoexec b).busyTries = s.busyTries := rfl
@[simp] theorem wroteAutoexec_batchIndex (b : Bool) : (s.wroteAutoexec b).batchIndex = s.batchIndex := rfl
@[simp] theorem wroteAutoexec_discoveryIndex (b : Bool) : (s.wroteAutoexec b).discoveryIndex = s.discoveryIndex := rfl
@[simp] theorem wroteAutoexec_dmiCmd (b : Bool) : (s.wroteAutoexec b).dmiCmd = s.dmiCmd := rfl
@[simp] theorem wroteAutoexec_runCmd (b : Bool) : (s.wroteAutoexec b).runCmd = s.runCmd := rfl
@[simp] theorem wroteAutoexec_pending (b : Bool) : (s.wroteAutoexec b).pending = s.pending := rfl
@[simp] theorem wroteAutoexec_primaryError (b : Bool) : (s.wroteAutoexec b).primaryError = s.primaryError := rfl
@[simp] theorem wroteAutoexec_params (b : Bool) : (s.wroteAutoexec b).params = s.params := rfl
@[simp] theorem wroteAutoexec_hostQueue (b : Bool) : (s.wroteAutoexec b).hostQueue = s.hostQueue := rfl
@[simp] theorem wroteAutoexec_wire (b : Bool) : (s.wroteAutoexec b).wire = s.wire := rfl
@[simp] theorem wroteAutoexec_replies (b : Bool) : (s.wroteAutoexec b).replies = s.replies := rfl
@[simp] theorem wroteAutoexec_actionCount (b : Bool) : (s.wroteAutoexec b).actionCount = s.actionCount := rfl
@[simp] theorem wroteAutoexec_moves (b : Bool) : (s.wroteAutoexec b).moves = s.moves := rfl
@[simp] theorem wroteAutoexec_trace (b : Bool) : (s.wroteAutoexec b).trace = s.trace := rfl
@[simp] theorem wroteAutoexec_hostOut (b : Bool) : (s.wroteAutoexec b).hostOut = s.hostOut := rfl
@[simp] theorem wroteAutoexec_result (b : Bool) : (s.wroteAutoexec b).result = s.result := rfl

/-! ## `atPhase` -/

@[simp] theorem atPhase_phase (p : Phase) : (s.atPhase p).phase = p := rfl
@[simp] theorem atPhase_idcode (p : Phase) : (s.atPhase p).idcode = s.idcode := rfl
@[simp] theorem atPhase_dtmVersion (p : Phase) : (s.atPhase p).dtmVersion = s.dtmVersion := rfl
@[simp] theorem atPhase_debugVersion (p : Phase) : (s.atPhase p).debugVersion = s.debugVersion := rfl
@[simp] theorem atPhase_idleCycles (p : Phase) : (s.atPhase p).idleCycles = s.idleCycles := rfl
@[simp] theorem atPhase_addressBits (p : Phase) : (s.atPhase p).addressBits = s.addressBits := rfl
@[simp] theorem atPhase_programBufferSize (p : Phase) : (s.atPhase p).programBufferSize = s.programBufferSize := rfl
@[simp] theorem atPhase_impebreak (p : Phase) : (s.atPhase p).impebreak = s.impebreak := rfl
@[simp] theorem atPhase_abstractDataCount (p : Phase) : (s.atPhase p).abstractDataCount = s.abstractDataCount := rfl
@[simp] theorem atPhase_autoexecSupported (p : Phase) : (s.atPhase p).autoexecSupported = s.autoexecSupported := rfl
@[simp] theorem atPhase_progbufCsrEnabled (p : Phase) : (s.atPhase p).progbufCsrEnabled = s.progbufCsrEnabled := rfl
@[simp] theorem atPhase_lastDmiCommand (p : Phase) : (s.atPhase p).lastDmiCommand = s.lastDmiCommand := rfl
@[simp] theorem atPhase_lastValid (p : Phase) : (s.atPhase p).lastValid = s.lastValid := rfl
@[simp] theorem atPhase_irCurrent (p : Phase) : (s.atPhase p).irCurrent = s.irCurrent := rfl
@[simp] theorem atPhase_hartsellen (p : Phase) : (s.atPhase p).hartsellen = s.hartsellen := rfl
@[simp] theorem atPhase_harts (p : Phase) : (s.atPhase p).harts = s.harts := rfl
@[simp] theorem atPhase_currentHart (p : Phase) : (s.atPhase p).currentHart = s.currentHart := rfl
@[simp] theorem atPhase_req (p : Phase) : (s.atPhase p).req = s.req := rfl
@[simp] theorem atPhase_label (p : Phase) : (s.atPhase p).label = s.label := rfl
@[simp] theorem atPhase_dmiTries (p : Phase) : (s.atPhase p).dmiTries = s.dmiTries := rfl
@[simp] theorem atPhase_polls (p : Phase) : (s.atPhase p).polls = s.polls := rfl
@[simp] theorem atPhase_busyTries (p : Phase) : (s.atPhase p).busyTries = s.busyTries := rfl
@[simp] theorem atPhase_batchIndex (p : Phase) : (s.atPhase p).batchIndex = s.batchIndex := rfl
@[simp] theorem atPhase_discoveryIndex (p : Phase) : (s.atPhase p).discoveryIndex = s.discoveryIndex := rfl
@[simp] theorem atPhase_dmiCmd (p : Phase) : (s.atPhase p).dmiCmd = s.dmiCmd := rfl
@[simp] theorem atPhase_runCmd (p : Phase) : (s.atPhase p).runCmd = s.runCmd := rfl
@[simp] theorem atPhase_pending (p : Phase) : (s.atPhase p).pending = s.pending := rfl
@[simp] theorem atPhase_primaryError (p : Phase) : (s.atPhase p).primaryError = s.primaryError := rfl
@[simp] theorem atPhase_params (p : Phase) : (s.atPhase p).params = s.params := rfl
@[simp] theorem atPhase_hostQueue (p : Phase) : (s.atPhase p).hostQueue = s.hostQueue := rfl
@[simp] theorem atPhase_wire (p : Phase) : (s.atPhase p).wire = s.wire := rfl
@[simp] theorem atPhase_replies (p : Phase) : (s.atPhase p).replies = s.replies := rfl
@[simp] theorem atPhase_actionCount (p : Phase) : (s.atPhase p).actionCount = s.actionCount := rfl
@[simp] theorem atPhase_moves (p : Phase) : (s.atPhase p).moves = s.moves := rfl
@[simp] theorem atPhase_trace (p : Phase) : (s.atPhase p).trace = s.trace := rfl
@[simp] theorem atPhase_hostOut (p : Phase) : (s.atPhase p).hostOut = s.hostOut := rfl
@[simp] theorem atPhase_result (p : Phase) : (s.atPhase p).result = s.result := rfl

/-! ## `wroteIdcode` -/

@[simp] theorem wroteIdcode_phase (w : Word) : (s.wroteIdcode w).phase = s.phase := rfl
@[simp] theorem wroteIdcode_idcode (w : Word) : (s.wroteIdcode w).idcode = some w := rfl
@[simp] theorem wroteIdcode_dtmVersion (w : Word) : (s.wroteIdcode w).dtmVersion = s.dtmVersion := rfl
@[simp] theorem wroteIdcode_debugVersion (w : Word) : (s.wroteIdcode w).debugVersion = s.debugVersion := rfl
@[simp] theorem wroteIdcode_idleCycles (w : Word) : (s.wroteIdcode w).idleCycles = s.idleCycles := rfl
@[simp] theorem wroteIdcode_addressBits (w : Word) : (s.wroteIdcode w).addressBits = s.addressBits := rfl
@[simp] theorem wroteIdcode_programBufferSize (w : Word) : (s.wroteIdcode w).programBufferSize = s.programBufferSize := rfl
@[simp] theorem wroteIdcode_impebreak (w : Word) : (s.wroteIdcode w).impebreak = s.impebreak := rfl
@[simp] theorem wroteIdcode_abstractDataCount (w : Word) : (s.wroteIdcode w).abstractDataCount = s.abstractDataCount := rfl
@[simp] theorem wroteIdcode_autoexecSupported (w : Word) : (s.wroteIdcode w).autoexecSupported = s.autoexecSupported := rfl
@[simp] theorem wroteIdcode_progbufCsrEnabled (w : Word) : (s.wroteIdcode w).progbufCsrEnabled = s.progbufCsrEnabled := rfl
@[simp] theorem wroteIdcode_lastDmiCommand (w : Word) : (s.wroteIdcode w).lastDmiCommand = s.lastDmiCommand := rfl
@[simp] theorem wroteIdcode_lastValid (w : Word) : (s.wroteIdcode w).lastValid = s.lastValid := rfl
@[simp] theorem wroteIdcode_irCurrent (w : Word) : (s.wroteIdcode w).irCurrent = s.irCurrent := rfl
@[simp] theorem wroteIdcode_hartsellen (w : Word) : (s.wroteIdcode w).hartsellen = s.hartsellen := rfl
@[simp] theorem wroteIdcode_harts (w : Word) : (s.wroteIdcode w).harts = s.harts := rfl
@[simp] theorem wroteIdcode_currentHart (w : Word) : (s.wroteIdcode w).currentHart = s.currentHart := rfl
@[simp] theorem wroteIdcode_req (w : Word) : (s.wroteIdcode w).req = s.req := rfl
@[simp] theorem wroteIdcode_label (w : Word) : (s.wroteIdcode w).label = s.label := rfl
@[simp] theorem wroteIdcode_dmiTries (w : Word) : (s.wroteIdcode w).dmiTries = s.dmiTries := rfl
@[simp] theorem wroteIdcode_polls (w : Word) : (s.wroteIdcode w).polls = s.polls := rfl
@[simp] theorem wroteIdcode_busyTries (w : Word) : (s.wroteIdcode w).busyTries = s.busyTries := rfl
@[simp] theorem wroteIdcode_batchIndex (w : Word) : (s.wroteIdcode w).batchIndex = s.batchIndex := rfl
@[simp] theorem wroteIdcode_discoveryIndex (w : Word) : (s.wroteIdcode w).discoveryIndex = s.discoveryIndex := rfl
@[simp] theorem wroteIdcode_dmiCmd (w : Word) : (s.wroteIdcode w).dmiCmd = s.dmiCmd := rfl
@[simp] theorem wroteIdcode_runCmd (w : Word) : (s.wroteIdcode w).runCmd = s.runCmd := rfl
@[simp] theorem wroteIdcode_pending (w : Word) : (s.wroteIdcode w).pending = s.pending := rfl
@[simp] theorem wroteIdcode_primaryError (w : Word) : (s.wroteIdcode w).primaryError = s.primaryError := rfl
@[simp] theorem wroteIdcode_params (w : Word) : (s.wroteIdcode w).params = s.params := rfl
@[simp] theorem wroteIdcode_hostQueue (w : Word) : (s.wroteIdcode w).hostQueue = s.hostQueue := rfl
@[simp] theorem wroteIdcode_wire (w : Word) : (s.wroteIdcode w).wire = s.wire := rfl
@[simp] theorem wroteIdcode_replies (w : Word) : (s.wroteIdcode w).replies = s.replies := rfl
@[simp] theorem wroteIdcode_actionCount (w : Word) : (s.wroteIdcode w).actionCount = s.actionCount := rfl
@[simp] theorem wroteIdcode_moves (w : Word) : (s.wroteIdcode w).moves = s.moves := rfl
@[simp] theorem wroteIdcode_trace (w : Word) : (s.wroteIdcode w).trace = s.trace := rfl
@[simp] theorem wroteIdcode_hostOut (w : Word) : (s.wroteIdcode w).hostOut = s.hostOut := rfl
@[simp] theorem wroteIdcode_result (w : Word) : (s.wroteIdcode w).result = s.result := rfl

/-! ## `startAttach` -/

@[simp] theorem startAttach_phase (w : Word) : (s.startAttach w).phase = .probing := rfl
@[simp] theorem startAttach_idcode (w : Word) : (s.startAttach w).idcode = some w := rfl
@[simp] theorem startAttach_dtmVersion (w : Word) : (s.startAttach w).dtmVersion = s.dtmVersion := rfl
@[simp] theorem startAttach_debugVersion (w : Word) : (s.startAttach w).debugVersion = s.debugVersion := rfl
@[simp] theorem startAttach_idleCycles (w : Word) : (s.startAttach w).idleCycles = s.idleCycles := rfl
@[simp] theorem startAttach_addressBits (w : Word) : (s.startAttach w).addressBits = s.addressBits := rfl
@[simp] theorem startAttach_programBufferSize (w : Word) : (s.startAttach w).programBufferSize = s.programBufferSize := rfl
@[simp] theorem startAttach_impebreak (w : Word) : (s.startAttach w).impebreak = s.impebreak := rfl
@[simp] theorem startAttach_abstractDataCount (w : Word) : (s.startAttach w).abstractDataCount = s.abstractDataCount := rfl
@[simp] theorem startAttach_autoexecSupported (w : Word) : (s.startAttach w).autoexecSupported = s.autoexecSupported := rfl
@[simp] theorem startAttach_progbufCsrEnabled (w : Word) : (s.startAttach w).progbufCsrEnabled = s.progbufCsrEnabled := rfl
@[simp] theorem startAttach_lastDmiCommand (w : Word) : (s.startAttach w).lastDmiCommand = s.lastDmiCommand := rfl
@[simp] theorem startAttach_lastValid (w : Word) : (s.startAttach w).lastValid = s.lastValid := rfl
@[simp] theorem startAttach_irCurrent (w : Word) : (s.startAttach w).irCurrent = s.irCurrent := rfl
@[simp] theorem startAttach_hartsellen (w : Word) : (s.startAttach w).hartsellen = s.hartsellen := rfl
@[simp] theorem startAttach_harts (w : Word) : (s.startAttach w).harts = s.harts := rfl
@[simp] theorem startAttach_currentHart (w : Word) : (s.startAttach w).currentHart = s.currentHart := rfl
@[simp] theorem startAttach_req (w : Word) : (s.startAttach w).req = s.req := rfl
@[simp] theorem startAttach_label (w : Word) : (s.startAttach w).label = s.label := rfl
@[simp] theorem startAttach_dmiTries (w : Word) : (s.startAttach w).dmiTries = s.dmiTries := rfl
@[simp] theorem startAttach_polls (w : Word) : (s.startAttach w).polls = s.polls := rfl
@[simp] theorem startAttach_busyTries (w : Word) : (s.startAttach w).busyTries = s.busyTries := rfl
@[simp] theorem startAttach_batchIndex (w : Word) : (s.startAttach w).batchIndex = s.batchIndex := rfl
@[simp] theorem startAttach_discoveryIndex (w : Word) : (s.startAttach w).discoveryIndex = s.discoveryIndex := rfl
@[simp] theorem startAttach_dmiCmd (w : Word) : (s.startAttach w).dmiCmd = s.dmiCmd := rfl
@[simp] theorem startAttach_runCmd (w : Word) : (s.startAttach w).runCmd = s.runCmd := rfl
@[simp] theorem startAttach_pending (w : Word) : (s.startAttach w).pending = s.pending := rfl
@[simp] theorem startAttach_primaryError (w : Word) : (s.startAttach w).primaryError = s.primaryError := rfl
@[simp] theorem startAttach_params (w : Word) : (s.startAttach w).params = s.params := rfl
@[simp] theorem startAttach_hostQueue (w : Word) : (s.startAttach w).hostQueue = s.hostQueue := rfl
@[simp] theorem startAttach_wire (w : Word) : (s.startAttach w).wire = s.wire := rfl
@[simp] theorem startAttach_replies (w : Word) : (s.startAttach w).replies = s.replies := rfl
@[simp] theorem startAttach_actionCount (w : Word) : (s.startAttach w).actionCount = s.actionCount := rfl
@[simp] theorem startAttach_moves (w : Word) : (s.startAttach w).moves = s.moves := rfl
@[simp] theorem startAttach_trace (w : Word) : (s.startAttach w).trace = s.trace := rfl
@[simp] theorem startAttach_hostOut (w : Word) : (s.startAttach w).hostOut = s.hostOut := rfl
@[simp] theorem startAttach_result (w : Word) : (s.startAttach w).result = s.result := rfl

/-! ## `pushPending` -/

@[simp] theorem pushPending_phase (o : Pending) : (s.pushPending o).phase = s.phase := rfl
@[simp] theorem pushPending_idcode (o : Pending) : (s.pushPending o).idcode = s.idcode := rfl
@[simp] theorem pushPending_dtmVersion (o : Pending) : (s.pushPending o).dtmVersion = s.dtmVersion := rfl
@[simp] theorem pushPending_debugVersion (o : Pending) : (s.pushPending o).debugVersion = s.debugVersion := rfl
@[simp] theorem pushPending_idleCycles (o : Pending) : (s.pushPending o).idleCycles = s.idleCycles := rfl
@[simp] theorem pushPending_addressBits (o : Pending) : (s.pushPending o).addressBits = s.addressBits := rfl
@[simp] theorem pushPending_programBufferSize (o : Pending) : (s.pushPending o).programBufferSize = s.programBufferSize := rfl
@[simp] theorem pushPending_impebreak (o : Pending) : (s.pushPending o).impebreak = s.impebreak := rfl
@[simp] theorem pushPending_abstractDataCount (o : Pending) : (s.pushPending o).abstractDataCount = s.abstractDataCount := rfl
@[simp] theorem pushPending_autoexecSupported (o : Pending) : (s.pushPending o).autoexecSupported = s.autoexecSupported := rfl
@[simp] theorem pushPending_progbufCsrEnabled (o : Pending) : (s.pushPending o).progbufCsrEnabled = s.progbufCsrEnabled := rfl
@[simp] theorem pushPending_lastDmiCommand (o : Pending) : (s.pushPending o).lastDmiCommand = s.lastDmiCommand := rfl
@[simp] theorem pushPending_lastValid (o : Pending) : (s.pushPending o).lastValid = s.lastValid := rfl
@[simp] theorem pushPending_irCurrent (o : Pending) : (s.pushPending o).irCurrent = s.irCurrent := rfl
@[simp] theorem pushPending_hartsellen (o : Pending) : (s.pushPending o).hartsellen = s.hartsellen := rfl
@[simp] theorem pushPending_harts (o : Pending) : (s.pushPending o).harts = s.harts := rfl
@[simp] theorem pushPending_currentHart (o : Pending) : (s.pushPending o).currentHart = s.currentHart := rfl
@[simp] theorem pushPending_req (o : Pending) : (s.pushPending o).req = s.req := rfl
@[simp] theorem pushPending_label (o : Pending) : (s.pushPending o).label = s.label := rfl
@[simp] theorem pushPending_dmiTries (o : Pending) : (s.pushPending o).dmiTries = s.dmiTries := rfl
@[simp] theorem pushPending_polls (o : Pending) : (s.pushPending o).polls = s.polls := rfl
@[simp] theorem pushPending_busyTries (o : Pending) : (s.pushPending o).busyTries = s.busyTries := rfl
@[simp] theorem pushPending_batchIndex (o : Pending) : (s.pushPending o).batchIndex = s.batchIndex := rfl
@[simp] theorem pushPending_discoveryIndex (o : Pending) : (s.pushPending o).discoveryIndex = s.discoveryIndex := rfl
@[simp] theorem pushPending_dmiCmd (o : Pending) : (s.pushPending o).dmiCmd = s.dmiCmd := rfl
@[simp] theorem pushPending_runCmd (o : Pending) : (s.pushPending o).runCmd = s.runCmd := rfl
@[simp] theorem pushPending_pending (o : Pending) : (s.pushPending o).pending = o :: s.pending := rfl
@[simp] theorem pushPending_primaryError (o : Pending) : (s.pushPending o).primaryError = s.primaryError := rfl
@[simp] theorem pushPending_params (o : Pending) : (s.pushPending o).params = s.params := rfl
@[simp] theorem pushPending_hostQueue (o : Pending) : (s.pushPending o).hostQueue = s.hostQueue := rfl
@[simp] theorem pushPending_wire (o : Pending) : (s.pushPending o).wire = s.wire := rfl
@[simp] theorem pushPending_replies (o : Pending) : (s.pushPending o).replies = s.replies := rfl
@[simp] theorem pushPending_actionCount (o : Pending) : (s.pushPending o).actionCount = s.actionCount := rfl
@[simp] theorem pushPending_moves (o : Pending) : (s.pushPending o).moves = s.moves := rfl
@[simp] theorem pushPending_trace (o : Pending) : (s.pushPending o).trace = s.trace := rfl
@[simp] theorem pushPending_hostOut (o : Pending) : (s.pushPending o).hostOut = s.hostOut := rfl
@[simp] theorem pushPending_result (o : Pending) : (s.pushPending o).result = s.result := rfl

/-! ## `popPending` -/

@[simp] theorem popPending_phase : (s.popPending).phase = s.phase := rfl
@[simp] theorem popPending_idcode : (s.popPending).idcode = s.idcode := rfl
@[simp] theorem popPending_dtmVersion : (s.popPending).dtmVersion = s.dtmVersion := rfl
@[simp] theorem popPending_debugVersion : (s.popPending).debugVersion = s.debugVersion := rfl
@[simp] theorem popPending_idleCycles : (s.popPending).idleCycles = s.idleCycles := rfl
@[simp] theorem popPending_addressBits : (s.popPending).addressBits = s.addressBits := rfl
@[simp] theorem popPending_programBufferSize : (s.popPending).programBufferSize = s.programBufferSize := rfl
@[simp] theorem popPending_impebreak : (s.popPending).impebreak = s.impebreak := rfl
@[simp] theorem popPending_abstractDataCount : (s.popPending).abstractDataCount = s.abstractDataCount := rfl
@[simp] theorem popPending_autoexecSupported : (s.popPending).autoexecSupported = s.autoexecSupported := rfl
@[simp] theorem popPending_progbufCsrEnabled : (s.popPending).progbufCsrEnabled = s.progbufCsrEnabled := rfl
@[simp] theorem popPending_lastDmiCommand : (s.popPending).lastDmiCommand = s.lastDmiCommand := rfl
@[simp] theorem popPending_lastValid : (s.popPending).lastValid = s.lastValid := rfl
@[simp] theorem popPending_irCurrent : (s.popPending).irCurrent = s.irCurrent := rfl
@[simp] theorem popPending_hartsellen : (s.popPending).hartsellen = s.hartsellen := rfl
@[simp] theorem popPending_harts : (s.popPending).harts = s.harts := rfl
@[simp] theorem popPending_currentHart : (s.popPending).currentHart = s.currentHart := rfl
@[simp] theorem popPending_req : (s.popPending).req = s.req := rfl
@[simp] theorem popPending_label : (s.popPending).label = s.label := rfl
@[simp] theorem popPending_dmiTries : (s.popPending).dmiTries = s.dmiTries := rfl
@[simp] theorem popPending_polls : (s.popPending).polls = s.polls := rfl
@[simp] theorem popPending_busyTries : (s.popPending).busyTries = s.busyTries := rfl
@[simp] theorem popPending_batchIndex : (s.popPending).batchIndex = s.batchIndex := rfl
@[simp] theorem popPending_discoveryIndex : (s.popPending).discoveryIndex = s.discoveryIndex := rfl
@[simp] theorem popPending_dmiCmd : (s.popPending).dmiCmd = s.dmiCmd := rfl
@[simp] theorem popPending_runCmd : (s.popPending).runCmd = s.runCmd := rfl
@[simp] theorem popPending_pending : (s.popPending).pending = s.pending.tail := rfl
@[simp] theorem popPending_primaryError : (s.popPending).primaryError = s.primaryError := rfl
@[simp] theorem popPending_params : (s.popPending).params = s.params := rfl
@[simp] theorem popPending_hostQueue : (s.popPending).hostQueue = s.hostQueue := rfl
@[simp] theorem popPending_wire : s.popPending.wire = s.wire := rfl
@[simp] theorem popPending_replies : (s.popPending).replies = s.replies := rfl
@[simp] theorem popPending_actionCount : (s.popPending).actionCount = s.actionCount := rfl
@[simp] theorem popPending_moves : s.popPending.moves = s.moves := rfl
@[simp] theorem popPending_trace : (s.popPending).trace = s.trace := rfl
@[simp] theorem popPending_hostOut : (s.popPending).hostOut = s.hostOut := rfl
@[simp] theorem popPending_result : (s.popPending).result = s.result := rfl

/-! ## `holdPrimary` -/

@[simp] theorem holdPrimary_phase (e : Error) : (s.holdPrimary e).phase = s.phase := rfl
@[simp] theorem holdPrimary_idcode (e : Error) : (s.holdPrimary e).idcode = s.idcode := rfl
@[simp] theorem holdPrimary_dtmVersion (e : Error) : (s.holdPrimary e).dtmVersion = s.dtmVersion := rfl
@[simp] theorem holdPrimary_debugVersion (e : Error) : (s.holdPrimary e).debugVersion = s.debugVersion := rfl
@[simp] theorem holdPrimary_idleCycles (e : Error) : (s.holdPrimary e).idleCycles = s.idleCycles := rfl
@[simp] theorem holdPrimary_addressBits (e : Error) : (s.holdPrimary e).addressBits = s.addressBits := rfl
@[simp] theorem holdPrimary_programBufferSize (e : Error) : (s.holdPrimary e).programBufferSize = s.programBufferSize := rfl
@[simp] theorem holdPrimary_impebreak (e : Error) : (s.holdPrimary e).impebreak = s.impebreak := rfl
@[simp] theorem holdPrimary_abstractDataCount (e : Error) : (s.holdPrimary e).abstractDataCount = s.abstractDataCount := rfl
@[simp] theorem holdPrimary_autoexecSupported (e : Error) : (s.holdPrimary e).autoexecSupported = s.autoexecSupported := rfl
@[simp] theorem holdPrimary_progbufCsrEnabled (e : Error) : (s.holdPrimary e).progbufCsrEnabled = s.progbufCsrEnabled := rfl
@[simp] theorem holdPrimary_lastDmiCommand (e : Error) : (s.holdPrimary e).lastDmiCommand = s.lastDmiCommand := rfl
@[simp] theorem holdPrimary_lastValid (e : Error) : (s.holdPrimary e).lastValid = s.lastValid := rfl
@[simp] theorem holdPrimary_irCurrent (e : Error) : (s.holdPrimary e).irCurrent = s.irCurrent := rfl
@[simp] theorem holdPrimary_hartsellen (e : Error) : (s.holdPrimary e).hartsellen = s.hartsellen := rfl
@[simp] theorem holdPrimary_harts (e : Error) : (s.holdPrimary e).harts = s.harts := rfl
@[simp] theorem holdPrimary_currentHart (e : Error) : (s.holdPrimary e).currentHart = s.currentHart := rfl
@[simp] theorem holdPrimary_req (e : Error) : (s.holdPrimary e).req = s.req := rfl
@[simp] theorem holdPrimary_label (e : Error) : (s.holdPrimary e).label = s.label := rfl
@[simp] theorem holdPrimary_dmiTries (e : Error) : (s.holdPrimary e).dmiTries = s.dmiTries := rfl
@[simp] theorem holdPrimary_polls (e : Error) : (s.holdPrimary e).polls = s.polls := rfl
@[simp] theorem holdPrimary_busyTries (e : Error) : (s.holdPrimary e).busyTries = s.busyTries := rfl
@[simp] theorem holdPrimary_batchIndex (e : Error) : (s.holdPrimary e).batchIndex = s.batchIndex := rfl
@[simp] theorem holdPrimary_discoveryIndex (e : Error) : (s.holdPrimary e).discoveryIndex = s.discoveryIndex := rfl
@[simp] theorem holdPrimary_dmiCmd (e : Error) : (s.holdPrimary e).dmiCmd = s.dmiCmd := rfl
@[simp] theorem holdPrimary_runCmd (e : Error) : (s.holdPrimary e).runCmd = s.runCmd := rfl
@[simp] theorem holdPrimary_pending (e : Error) : (s.holdPrimary e).pending = s.pending := rfl
@[simp] theorem holdPrimary_primaryError (e : Error) : (s.holdPrimary e).primaryError = some (s.primaryError.getD e) := rfl
@[simp] theorem holdPrimary_params (e : Error) : (s.holdPrimary e).params = s.params := rfl
@[simp] theorem holdPrimary_hostQueue (e : Error) : (s.holdPrimary e).hostQueue = s.hostQueue := rfl
@[simp] theorem holdPrimary_wire (e : Error) : (s.holdPrimary e).wire = s.wire := rfl
@[simp] theorem holdPrimary_replies (e : Error) : (s.holdPrimary e).replies = s.replies := rfl
@[simp] theorem holdPrimary_actionCount (e : Error) : (s.holdPrimary e).actionCount = s.actionCount := rfl
@[simp] theorem holdPrimary_moves (e : Error) : (s.holdPrimary e).moves = s.moves := rfl
@[simp] theorem holdPrimary_trace (e : Error) : (s.holdPrimary e).trace = s.trace := rfl
@[simp] theorem holdPrimary_hostOut (e : Error) : (s.holdPrimary e).hostOut = s.hostOut := rfl
@[simp] theorem holdPrimary_result (e : Error) : (s.holdPrimary e).result = s.result := rfl

/-! ## `respond` -/

@[simp] theorem respond_phase (r : Response) : (s.respond r).phase = s.phase := rfl
@[simp] theorem respond_idcode (r : Response) : (s.respond r).idcode = s.idcode := rfl
@[simp] theorem respond_dtmVersion (r : Response) : (s.respond r).dtmVersion = s.dtmVersion := rfl
@[simp] theorem respond_debugVersion (r : Response) : (s.respond r).debugVersion = s.debugVersion := rfl
@[simp] theorem respond_idleCycles (r : Response) : (s.respond r).idleCycles = s.idleCycles := rfl
@[simp] theorem respond_addressBits (r : Response) : (s.respond r).addressBits = s.addressBits := rfl
@[simp] theorem respond_programBufferSize (r : Response) : (s.respond r).programBufferSize = s.programBufferSize := rfl
@[simp] theorem respond_impebreak (r : Response) : (s.respond r).impebreak = s.impebreak := rfl
@[simp] theorem respond_abstractDataCount (r : Response) : (s.respond r).abstractDataCount = s.abstractDataCount := rfl
@[simp] theorem respond_autoexecSupported (r : Response) : (s.respond r).autoexecSupported = s.autoexecSupported := rfl
@[simp] theorem respond_progbufCsrEnabled (r : Response) : (s.respond r).progbufCsrEnabled = s.progbufCsrEnabled := rfl
@[simp] theorem respond_lastDmiCommand (r : Response) : (s.respond r).lastDmiCommand = s.lastDmiCommand := rfl
@[simp] theorem respond_lastValid (r : Response) : (s.respond r).lastValid = s.lastValid := rfl
@[simp] theorem respond_irCurrent (r : Response) : (s.respond r).irCurrent = s.irCurrent := rfl
@[simp] theorem respond_hartsellen (r : Response) : (s.respond r).hartsellen = s.hartsellen := rfl
@[simp] theorem respond_harts (r : Response) : (s.respond r).harts = s.harts := rfl
@[simp] theorem respond_currentHart (r : Response) : (s.respond r).currentHart = s.currentHart := rfl
@[simp] theorem respond_req (r : Response) : (s.respond r).req = s.req := rfl
@[simp] theorem respond_label (r : Response) : (s.respond r).label = s.label := rfl
@[simp] theorem respond_dmiTries (r : Response) : (s.respond r).dmiTries = s.dmiTries := rfl
@[simp] theorem respond_polls (r : Response) : (s.respond r).polls = s.polls := rfl
@[simp] theorem respond_busyTries (r : Response) : (s.respond r).busyTries = s.busyTries := rfl
@[simp] theorem respond_batchIndex (r : Response) : (s.respond r).batchIndex = s.batchIndex := rfl
@[simp] theorem respond_discoveryIndex (r : Response) : (s.respond r).discoveryIndex = s.discoveryIndex := rfl
@[simp] theorem respond_dmiCmd (r : Response) : (s.respond r).dmiCmd = s.dmiCmd := rfl
@[simp] theorem respond_runCmd (r : Response) : (s.respond r).runCmd = s.runCmd := rfl
@[simp] theorem respond_pending (r : Response) : (s.respond r).pending = s.pending := rfl
@[simp] theorem respond_primaryError (r : Response) : (s.respond r).primaryError = s.primaryError := rfl
@[simp] theorem respond_params (r : Response) : (s.respond r).params = s.params := rfl
@[simp] theorem respond_hostQueue (r : Response) : (s.respond r).hostQueue = s.hostQueue := rfl
@[simp] theorem respond_wire (r : Response) : (s.respond r).wire = s.wire := rfl
@[simp] theorem respond_replies (r : Response) : (s.respond r).replies = s.replies := rfl
@[simp] theorem respond_actionCount (r : Response) : (s.respond r).actionCount = s.actionCount := rfl
@[simp] theorem respond_moves (r : Response) : (s.respond r).moves = s.moves := rfl
@[simp] theorem respond_trace (r : Response) : (s.respond r).trace = s.trace := rfl
@[simp] theorem respond_hostOut (r : Response) : (s.respond r).hostOut = s.hostOut ++ [.response r] := rfl
@[simp] theorem respond_result (r : Response) : (s.respond r).result = s.result := rfl

/-! ## `finish` -/

@[simp] theorem finish_phase (r : Response) : (s.finish r).phase = s.phase := rfl
@[simp] theorem finish_idcode (r : Response) : (s.finish r).idcode = s.idcode := rfl
@[simp] theorem finish_dtmVersion (r : Response) : (s.finish r).dtmVersion = s.dtmVersion := rfl
@[simp] theorem finish_debugVersion (r : Response) : (s.finish r).debugVersion = s.debugVersion := rfl
@[simp] theorem finish_idleCycles (r : Response) : (s.finish r).idleCycles = s.idleCycles := rfl
@[simp] theorem finish_addressBits (r : Response) : (s.finish r).addressBits = s.addressBits := rfl
@[simp] theorem finish_programBufferSize (r : Response) : (s.finish r).programBufferSize = s.programBufferSize := rfl
@[simp] theorem finish_impebreak (r : Response) : (s.finish r).impebreak = s.impebreak := rfl
@[simp] theorem finish_abstractDataCount (r : Response) : (s.finish r).abstractDataCount = s.abstractDataCount := rfl
@[simp] theorem finish_autoexecSupported (r : Response) : (s.finish r).autoexecSupported = s.autoexecSupported := rfl
@[simp] theorem finish_progbufCsrEnabled (r : Response) : (s.finish r).progbufCsrEnabled = s.progbufCsrEnabled := rfl
@[simp] theorem finish_lastDmiCommand (r : Response) : (s.finish r).lastDmiCommand = s.lastDmiCommand := rfl
@[simp] theorem finish_lastValid (r : Response) : (s.finish r).lastValid = s.lastValid := rfl
@[simp] theorem finish_irCurrent (r : Response) : (s.finish r).irCurrent = s.irCurrent := rfl
@[simp] theorem finish_hartsellen (r : Response) : (s.finish r).hartsellen = s.hartsellen := rfl
@[simp] theorem finish_harts (r : Response) : (s.finish r).harts = s.harts := rfl
@[simp] theorem finish_currentHart (r : Response) : (s.finish r).currentHart = s.currentHart := rfl
@[simp] theorem finish_req (r : Response) : (s.finish r).req = none := rfl
@[simp] theorem finish_label (r : Response) : (s.finish r).label = [] := rfl
@[simp] theorem finish_dmiTries (r : Response) : (s.finish r).dmiTries = s.dmiTries := rfl
@[simp] theorem finish_polls (r : Response) : (s.finish r).polls = s.polls := rfl
@[simp] theorem finish_busyTries (r : Response) : (s.finish r).busyTries = s.busyTries := rfl
@[simp] theorem finish_batchIndex (r : Response) : (s.finish r).batchIndex = s.batchIndex := rfl
@[simp] theorem finish_discoveryIndex (r : Response) : (s.finish r).discoveryIndex = s.discoveryIndex := rfl
@[simp] theorem finish_dmiCmd (r : Response) : (s.finish r).dmiCmd = s.dmiCmd := rfl
@[simp] theorem finish_runCmd (r : Response) : (s.finish r).runCmd = s.runCmd := rfl
@[simp] theorem finish_pending (r : Response) : (s.finish r).pending = [] := rfl
@[simp] theorem finish_primaryError (r : Response) : (s.finish r).primaryError = none := rfl
@[simp] theorem finish_params (r : Response) : (s.finish r).params = s.params := rfl
@[simp] theorem finish_hostQueue (r : Response) : (s.finish r).hostQueue = s.hostQueue := rfl
@[simp] theorem finish_wire (r : Response) : (s.finish r).wire = s.wire := rfl
@[simp] theorem finish_replies (r : Response) : (s.finish r).replies = s.replies := rfl
@[simp] theorem finish_actionCount (r : Response) : (s.finish r).actionCount = s.actionCount := rfl
@[simp] theorem finish_moves (r : Response) : (s.finish r).moves = s.moves := rfl
@[simp] theorem finish_trace (r : Response) : (s.finish r).trace = s.trace := rfl
@[simp] theorem finish_hostOut (r : Response) : (s.finish r).hostOut = s.hostOut := rfl
@[simp] theorem finish_result (r : Response) : (s.finish r).result = some r := rfl

/-! ## `backUp` -/

@[simp] theorem backUp_phase (h : Nat) (b : List Word) : (s.backUp h b).phase = s.phase := rfl
@[simp] theorem backUp_idcode (h : Nat) (b : List Word) : (s.backUp h b).idcode = s.idcode := rfl
@[simp] theorem backUp_dtmVersion (h : Nat) (b : List Word) : (s.backUp h b).dtmVersion = s.dtmVersion := rfl
@[simp] theorem backUp_debugVersion (h : Nat) (b : List Word) : (s.backUp h b).debugVersion = s.debugVersion := rfl
@[simp] theorem backUp_idleCycles (h : Nat) (b : List Word) : (s.backUp h b).idleCycles = s.idleCycles := rfl
@[simp] theorem backUp_addressBits (h : Nat) (b : List Word) : (s.backUp h b).addressBits = s.addressBits := rfl
@[simp] theorem backUp_programBufferSize (h : Nat) (b : List Word) : (s.backUp h b).programBufferSize = s.programBufferSize := rfl
@[simp] theorem backUp_impebreak (h : Nat) (b : List Word) : (s.backUp h b).impebreak = s.impebreak := rfl
@[simp] theorem backUp_abstractDataCount (h : Nat) (b : List Word) : (s.backUp h b).abstractDataCount = s.abstractDataCount := rfl
@[simp] theorem backUp_autoexecSupported (h : Nat) (b : List Word) : (s.backUp h b).autoexecSupported = s.autoexecSupported := rfl
@[simp] theorem backUp_progbufCsrEnabled (h : Nat) (b : List Word) : (s.backUp h b).progbufCsrEnabled = s.progbufCsrEnabled := rfl
@[simp] theorem backUp_lastDmiCommand (h : Nat) (b : List Word) : (s.backUp h b).lastDmiCommand = s.lastDmiCommand := rfl
@[simp] theorem backUp_lastValid (h : Nat) (b : List Word) : (s.backUp h b).lastValid = s.lastValid := rfl
@[simp] theorem backUp_irCurrent (h : Nat) (b : List Word) : (s.backUp h b).irCurrent = s.irCurrent := rfl
@[simp] theorem backUp_hartsellen (h : Nat) (b : List Word) : (s.backUp h b).hartsellen = s.hartsellen := rfl
@[simp] theorem backUp_harts (h : Nat) (b : List Word) : (s.backUp h b).harts = s.harts.modify h (·.backUp b) := rfl
@[simp] theorem backUp_currentHart (h : Nat) (b : List Word) : (s.backUp h b).currentHart = s.currentHart := rfl
@[simp] theorem backUp_req (h : Nat) (b : List Word) : (s.backUp h b).req = s.req := rfl
@[simp] theorem backUp_label (h : Nat) (b : List Word) : (s.backUp h b).label = s.label := rfl
@[simp] theorem backUp_dmiTries (h : Nat) (b : List Word) : (s.backUp h b).dmiTries = s.dmiTries := rfl
@[simp] theorem backUp_polls (h : Nat) (b : List Word) : (s.backUp h b).polls = s.polls := rfl
@[simp] theorem backUp_busyTries (h : Nat) (b : List Word) : (s.backUp h b).busyTries = s.busyTries := rfl
@[simp] theorem backUp_batchIndex (h : Nat) (b : List Word) : (s.backUp h b).batchIndex = s.batchIndex := rfl
@[simp] theorem backUp_discoveryIndex (h : Nat) (b : List Word) : (s.backUp h b).discoveryIndex = s.discoveryIndex := rfl
@[simp] theorem backUp_dmiCmd (h : Nat) (b : List Word) : (s.backUp h b).dmiCmd = s.dmiCmd := rfl
@[simp] theorem backUp_runCmd (h : Nat) (b : List Word) : (s.backUp h b).runCmd = s.runCmd := rfl
@[simp] theorem backUp_pending (h : Nat) (b : List Word) : (s.backUp h b).pending = s.pending := rfl
@[simp] theorem backUp_primaryError (h : Nat) (b : List Word) : (s.backUp h b).primaryError = s.primaryError := rfl
@[simp] theorem backUp_params (h : Nat) (b : List Word) : (s.backUp h b).params = s.params := rfl
@[simp] theorem backUp_hostQueue (h : Nat) (b : List Word) : (s.backUp h b).hostQueue = s.hostQueue := rfl
@[simp] theorem backUp_wire (h : Nat) (b : List Word) : (s.backUp h b).wire = s.wire := rfl
@[simp] theorem backUp_replies (h : Nat) (b : List Word) : (s.backUp h b).replies = s.replies := rfl
@[simp] theorem backUp_actionCount (h : Nat) (b : List Word) : (s.backUp h b).actionCount = s.actionCount := rfl
@[simp] theorem backUp_moves (h : Nat) (b : List Word) : (s.backUp h b).moves = s.moves := rfl
@[simp] theorem backUp_trace (h : Nat) (b : List Word) : (s.backUp h b).trace = s.trace := rfl
@[simp] theorem backUp_hostOut (h : Nat) (b : List Word) : (s.backUp h b).hostOut = s.hostOut := rfl
@[simp] theorem backUp_result (h : Nat) (b : List Word) : (s.backUp h b).result = s.result := rfl

/-! ## `takeWord` -/

@[simp] theorem takeWord_phase : (s.takeWord).phase = s.phase := rfl
@[simp] theorem takeWord_idcode : (s.takeWord).idcode = s.idcode := rfl
@[simp] theorem takeWord_dtmVersion : (s.takeWord).dtmVersion = s.dtmVersion := rfl
@[simp] theorem takeWord_debugVersion : (s.takeWord).debugVersion = s.debugVersion := rfl
@[simp] theorem takeWord_idleCycles : (s.takeWord).idleCycles = s.idleCycles := rfl
@[simp] theorem takeWord_addressBits : (s.takeWord).addressBits = s.addressBits := rfl
@[simp] theorem takeWord_programBufferSize : (s.takeWord).programBufferSize = s.programBufferSize := rfl
@[simp] theorem takeWord_impebreak : (s.takeWord).impebreak = s.impebreak := rfl
@[simp] theorem takeWord_abstractDataCount : (s.takeWord).abstractDataCount = s.abstractDataCount := rfl
@[simp] theorem takeWord_autoexecSupported : (s.takeWord).autoexecSupported = s.autoexecSupported := rfl
@[simp] theorem takeWord_progbufCsrEnabled : (s.takeWord).progbufCsrEnabled = s.progbufCsrEnabled := rfl
@[simp] theorem takeWord_lastDmiCommand : (s.takeWord).lastDmiCommand = s.lastDmiCommand := rfl
@[simp] theorem takeWord_lastValid : (s.takeWord).lastValid = s.lastValid := rfl
@[simp] theorem takeWord_irCurrent : (s.takeWord).irCurrent = s.irCurrent := rfl
@[simp] theorem takeWord_hartsellen : (s.takeWord).hartsellen = s.hartsellen := rfl
@[simp] theorem takeWord_harts : (s.takeWord).harts = s.harts := rfl
@[simp] theorem takeWord_currentHart : (s.takeWord).currentHart = s.currentHart := rfl
@[simp] theorem takeWord_req : (s.takeWord).req = s.req := rfl
@[simp] theorem takeWord_label : s.takeWord.label = s.label := rfl
@[simp] theorem takeWord_dmiTries : (s.takeWord).dmiTries = s.dmiTries := rfl
@[simp] theorem takeWord_polls : (s.takeWord).polls = s.polls := rfl
@[simp] theorem takeWord_busyTries : (s.takeWord).busyTries = s.busyTries := rfl
@[simp] theorem takeWord_batchIndex : (s.takeWord).batchIndex = s.batchIndex := rfl
@[simp] theorem takeWord_discoveryIndex : (s.takeWord).discoveryIndex = s.discoveryIndex := rfl
@[simp] theorem takeWord_dmiCmd : (s.takeWord).dmiCmd = s.dmiCmd := rfl
@[simp] theorem takeWord_runCmd : (s.takeWord).runCmd = s.runCmd := rfl
@[simp] theorem takeWord_pending : (s.takeWord).pending = s.pending := rfl
@[simp] theorem takeWord_primaryError : (s.takeWord).primaryError = s.primaryError := rfl
@[simp] theorem takeWord_params : (s.takeWord).params = s.params := rfl
@[simp] theorem takeWord_hostQueue : (s.takeWord).hostQueue = s.hostQueue := rfl
@[simp] theorem takeWord_wire : s.takeWord.wire = none := rfl
@[simp] theorem takeWord_replies : (s.takeWord).replies = s.replies := rfl
@[simp] theorem takeWord_actionCount : (s.takeWord).actionCount = s.actionCount := rfl
@[simp] theorem takeWord_moves : s.takeWord.moves = s.moves := rfl
@[simp] theorem takeWord_trace : (s.takeWord).trace = s.trace := rfl
@[simp] theorem takeWord_hostOut : (s.takeWord).hostOut = s.hostOut := rfl
@[simp] theorem takeWord_result : (s.takeWord).result = s.result := rfl

/-! ## `takeRequest` -/

@[simp] theorem takeRequest_phase : (s.takeRequest).phase = s.phase := rfl
@[simp] theorem takeRequest_idcode : (s.takeRequest).idcode = s.idcode := rfl
@[simp] theorem takeRequest_dtmVersion : (s.takeRequest).dtmVersion = s.dtmVersion := rfl
@[simp] theorem takeRequest_debugVersion : (s.takeRequest).debugVersion = s.debugVersion := rfl
@[simp] theorem takeRequest_idleCycles : (s.takeRequest).idleCycles = s.idleCycles := rfl
@[simp] theorem takeRequest_addressBits : (s.takeRequest).addressBits = s.addressBits := rfl
@[simp] theorem takeRequest_programBufferSize : (s.takeRequest).programBufferSize = s.programBufferSize := rfl
@[simp] theorem takeRequest_impebreak : (s.takeRequest).impebreak = s.impebreak := rfl
@[simp] theorem takeRequest_abstractDataCount : (s.takeRequest).abstractDataCount = s.abstractDataCount := rfl
@[simp] theorem takeRequest_autoexecSupported : (s.takeRequest).autoexecSupported = s.autoexecSupported := rfl
@[simp] theorem takeRequest_progbufCsrEnabled : (s.takeRequest).progbufCsrEnabled = s.progbufCsrEnabled := rfl
@[simp] theorem takeRequest_lastDmiCommand : (s.takeRequest).lastDmiCommand = s.lastDmiCommand := rfl
@[simp] theorem takeRequest_lastValid : (s.takeRequest).lastValid = s.lastValid := rfl
@[simp] theorem takeRequest_irCurrent : (s.takeRequest).irCurrent = s.irCurrent := rfl
@[simp] theorem takeRequest_hartsellen : (s.takeRequest).hartsellen = s.hartsellen := rfl
@[simp] theorem takeRequest_harts : (s.takeRequest).harts = s.harts := rfl
@[simp] theorem takeRequest_currentHart : (s.takeRequest).currentHart = s.currentHart := rfl
@[simp] theorem takeRequest_req : (s.takeRequest).req = s.req := rfl
@[simp] theorem takeRequest_label : (s.takeRequest).label = s.label := rfl
@[simp] theorem takeRequest_dmiTries : (s.takeRequest).dmiTries = s.dmiTries := rfl
@[simp] theorem takeRequest_polls : (s.takeRequest).polls = s.polls := rfl
@[simp] theorem takeRequest_busyTries : (s.takeRequest).busyTries = s.busyTries := rfl
@[simp] theorem takeRequest_batchIndex : (s.takeRequest).batchIndex = s.batchIndex := rfl
@[simp] theorem takeRequest_discoveryIndex : (s.takeRequest).discoveryIndex = s.discoveryIndex := rfl
@[simp] theorem takeRequest_dmiCmd : (s.takeRequest).dmiCmd = s.dmiCmd := rfl
@[simp] theorem takeRequest_runCmd : (s.takeRequest).runCmd = s.runCmd := rfl
@[simp] theorem takeRequest_pending : (s.takeRequest).pending = s.pending := rfl
@[simp] theorem takeRequest_primaryError : (s.takeRequest).primaryError = s.primaryError := rfl
@[simp] theorem takeRequest_params : (s.takeRequest).params = s.params := rfl
@[simp] theorem takeRequest_hostQueue : (s.takeRequest).hostQueue = s.hostQueue.tail := rfl
@[simp] theorem takeRequest_wire : s.takeRequest.wire = s.wire := rfl
@[simp] theorem takeRequest_replies : (s.takeRequest).replies = s.replies := rfl
@[simp] theorem takeRequest_actionCount : (s.takeRequest).actionCount = s.actionCount := rfl
@[simp] theorem takeRequest_moves : s.takeRequest.moves = s.moves := rfl
@[simp] theorem takeRequest_trace : (s.takeRequest).trace = s.trace := rfl
@[simp] theorem takeRequest_hostOut : (s.takeRequest).hostOut = s.hostOut := rfl
@[simp] theorem takeRequest_result : (s.takeRequest).result = s.result := rfl

/-! ## `resetSession` -/

@[simp] theorem resetSession_phase : (s.resetSession).phase = .detached := rfl
@[simp] theorem resetSession_idcode : (s.resetSession).idcode = none := rfl
@[simp] theorem resetSession_dtmVersion : (s.resetSession).dtmVersion = none := rfl
@[simp] theorem resetSession_debugVersion : (s.resetSession).debugVersion = none := rfl
@[simp] theorem resetSession_idleCycles : (s.resetSession).idleCycles = none := rfl
@[simp] theorem resetSession_addressBits : (s.resetSession).addressBits = none := rfl
@[simp] theorem resetSession_programBufferSize : (s.resetSession).programBufferSize = none := rfl
@[simp] theorem resetSession_impebreak : (s.resetSession).impebreak = none := rfl
@[simp] theorem resetSession_abstractDataCount : (s.resetSession).abstractDataCount = none := rfl
@[simp] theorem resetSession_autoexecSupported : (s.resetSession).autoexecSupported = none := rfl
@[simp] theorem resetSession_progbufCsrEnabled : (s.resetSession).progbufCsrEnabled = none := rfl
@[simp] theorem resetSession_lastDmiCommand : (s.resetSession).lastDmiCommand = none := rfl
@[simp] theorem resetSession_lastValid : (s.resetSession).lastValid = false := rfl
@[simp] theorem resetSession_irCurrent : (s.resetSession).irCurrent = .none := rfl
@[simp] theorem resetSession_hartsellen : (s.resetSession).hartsellen = none := rfl
@[simp] theorem resetSession_harts : (s.resetSession).harts = [] := rfl
@[simp] theorem resetSession_currentHart : (s.resetSession).currentHart = none := rfl
@[simp] theorem resetSession_req : (s.resetSession).req = s.req := rfl
@[simp] theorem resetSession_label : (s.resetSession).label = s.label := rfl
@[simp] theorem resetSession_dmiTries : (s.resetSession).dmiTries = s.dmiTries := rfl
@[simp] theorem resetSession_polls : (s.resetSession).polls = s.polls := rfl
@[simp] theorem resetSession_busyTries : (s.resetSession).busyTries = s.busyTries := rfl
@[simp] theorem resetSession_batchIndex : (s.resetSession).batchIndex = s.batchIndex := rfl
@[simp] theorem resetSession_discoveryIndex : (s.resetSession).discoveryIndex = s.discoveryIndex := rfl
@[simp] theorem resetSession_dmiCmd : (s.resetSession).dmiCmd = s.dmiCmd := rfl
@[simp] theorem resetSession_runCmd : (s.resetSession).runCmd = s.runCmd := rfl
@[simp] theorem resetSession_pending : (s.resetSession).pending = s.pending := rfl
@[simp] theorem resetSession_primaryError : (s.resetSession).primaryError = s.primaryError := rfl
@[simp] theorem resetSession_params : (s.resetSession).params = s.params := rfl
@[simp] theorem resetSession_hostQueue : (s.resetSession).hostQueue = s.hostQueue := rfl
@[simp] theorem resetSession_wire : s.resetSession.wire = s.wire := rfl
@[simp] theorem resetSession_replies : (s.resetSession).replies = s.replies := rfl
@[simp] theorem resetSession_actionCount : (s.resetSession).actionCount = s.actionCount := rfl
@[simp] theorem resetSession_moves : s.resetSession.moves = s.moves := rfl
@[simp] theorem resetSession_trace : (s.resetSession).trace = s.trace := rfl
@[simp] theorem resetSession_hostOut : (s.resetSession).hostOut = s.hostOut := rfl
@[simp] theorem resetSession_result : (s.resetSession).result = s.result := rfl

/-! ## `attachFailed` -/

@[simp] theorem attachFailed_phase (e : Error) : (s.attachFailed e).phase = .detached := rfl
@[simp] theorem attachFailed_idcode (e : Error) : (s.attachFailed e).idcode = none := rfl
@[simp] theorem attachFailed_dtmVersion (e : Error) : (s.attachFailed e).dtmVersion = none := rfl
@[simp] theorem attachFailed_debugVersion (e : Error) : (s.attachFailed e).debugVersion = none := rfl
@[simp] theorem attachFailed_idleCycles (e : Error) : (s.attachFailed e).idleCycles = none := rfl
@[simp] theorem attachFailed_addressBits (e : Error) : (s.attachFailed e).addressBits = none := rfl
@[simp] theorem attachFailed_programBufferSize (e : Error) : (s.attachFailed e).programBufferSize = none := rfl
@[simp] theorem attachFailed_impebreak (e : Error) : (s.attachFailed e).impebreak = none := rfl
@[simp] theorem attachFailed_abstractDataCount (e : Error) : (s.attachFailed e).abstractDataCount = none := rfl
@[simp] theorem attachFailed_autoexecSupported (e : Error) : (s.attachFailed e).autoexecSupported = none := rfl
@[simp] theorem attachFailed_progbufCsrEnabled (e : Error) : (s.attachFailed e).progbufCsrEnabled = none := rfl
@[simp] theorem attachFailed_lastDmiCommand (e : Error) : (s.attachFailed e).lastDmiCommand = none := rfl
@[simp] theorem attachFailed_lastValid (e : Error) : (s.attachFailed e).lastValid = false := rfl
@[simp] theorem attachFailed_irCurrent (e : Error) : (s.attachFailed e).irCurrent = .none := rfl
@[simp] theorem attachFailed_hartsellen (e : Error) : (s.attachFailed e).hartsellen = none := rfl
@[simp] theorem attachFailed_harts (e : Error) : (s.attachFailed e).harts = [] := rfl
@[simp] theorem attachFailed_currentHart (e : Error) : (s.attachFailed e).currentHart = none := rfl
@[simp] theorem attachFailed_req (e : Error) : (s.attachFailed e).req = s.req := rfl
@[simp] theorem attachFailed_label (e : Error) : (s.attachFailed e).label = s.label := rfl
@[simp] theorem attachFailed_dmiTries (e : Error) : (s.attachFailed e).dmiTries = s.dmiTries := rfl
@[simp] theorem attachFailed_polls (e : Error) : (s.attachFailed e).polls = s.polls := rfl
@[simp] theorem attachFailed_busyTries (e : Error) : (s.attachFailed e).busyTries = s.busyTries := rfl
@[simp] theorem attachFailed_batchIndex (e : Error) : (s.attachFailed e).batchIndex = s.batchIndex := rfl
@[simp] theorem attachFailed_discoveryIndex (e : Error) : (s.attachFailed e).discoveryIndex = s.discoveryIndex := rfl
@[simp] theorem attachFailed_dmiCmd (e : Error) : (s.attachFailed e).dmiCmd = s.dmiCmd := rfl
@[simp] theorem attachFailed_runCmd (e : Error) : (s.attachFailed e).runCmd = s.runCmd := rfl
@[simp] theorem attachFailed_pending (e : Error) : (s.attachFailed e).pending = s.pending := rfl
@[simp] theorem attachFailed_primaryError (e : Error) : (s.attachFailed e).primaryError = s.primaryError := rfl
@[simp] theorem attachFailed_params (e : Error) : (s.attachFailed e).params = s.params := rfl
@[simp] theorem attachFailed_hostQueue (e : Error) : (s.attachFailed e).hostQueue = s.hostQueue := rfl
@[simp] theorem attachFailed_wire (e : Error) : (s.attachFailed e).wire = s.wire := rfl
@[simp] theorem attachFailed_replies (e : Error) : (s.attachFailed e).replies = s.replies := rfl
@[simp] theorem attachFailed_actionCount (e : Error) : (s.attachFailed e).actionCount = s.actionCount := rfl
@[simp] theorem attachFailed_moves (e : Error) : (s.attachFailed e).moves = s.moves ++ movesAt 114 [10, 11, 12, 13] s.label := rfl
@[simp] theorem attachFailed_trace (e : Error) : (s.attachFailed e).trace = s.trace := rfl
@[simp] theorem attachFailed_hostOut (e : Error) : (s.attachFailed e).hostOut = s.hostOut ++ [.diag (.attachFailed e.code)] := rfl
@[simp] theorem attachFailed_result (e : Error) : (s.attachFailed e).result = s.result := rfl

/-! ## `moveTo` -/

@[simp] theorem moveTo_phase (l : Line) : (s.moveTo l).phase = s.phase := rfl
@[simp] theorem moveTo_idcode (l : Line) : (s.moveTo l).idcode = s.idcode := rfl
@[simp] theorem moveTo_dtmVersion (l : Line) : (s.moveTo l).dtmVersion = s.dtmVersion := rfl
@[simp] theorem moveTo_debugVersion (l : Line) : (s.moveTo l).debugVersion = s.debugVersion := rfl
@[simp] theorem moveTo_idleCycles (l : Line) : (s.moveTo l).idleCycles = s.idleCycles := rfl
@[simp] theorem moveTo_addressBits (l : Line) : (s.moveTo l).addressBits = s.addressBits := rfl
@[simp] theorem moveTo_programBufferSize (l : Line) : (s.moveTo l).programBufferSize = s.programBufferSize := rfl
@[simp] theorem moveTo_impebreak (l : Line) : (s.moveTo l).impebreak = s.impebreak := rfl
@[simp] theorem moveTo_abstractDataCount (l : Line) : (s.moveTo l).abstractDataCount = s.abstractDataCount := rfl
@[simp] theorem moveTo_autoexecSupported (l : Line) : (s.moveTo l).autoexecSupported = s.autoexecSupported := rfl
@[simp] theorem moveTo_progbufCsrEnabled (l : Line) : (s.moveTo l).progbufCsrEnabled = s.progbufCsrEnabled := rfl
@[simp] theorem moveTo_lastDmiCommand (l : Line) : (s.moveTo l).lastDmiCommand = s.lastDmiCommand := rfl
@[simp] theorem moveTo_lastValid (l : Line) : (s.moveTo l).lastValid = s.lastValid := rfl
@[simp] theorem moveTo_irCurrent (l : Line) : (s.moveTo l).irCurrent = s.irCurrent := rfl
@[simp] theorem moveTo_hartsellen (l : Line) : (s.moveTo l).hartsellen = s.hartsellen := rfl
@[simp] theorem moveTo_harts (l : Line) : (s.moveTo l).harts = s.harts := rfl
@[simp] theorem moveTo_currentHart (l : Line) : (s.moveTo l).currentHart = s.currentHart := rfl
@[simp] theorem moveTo_req (l : Line) : (s.moveTo l).req = s.req := rfl
@[simp] theorem moveTo_label (l : Line) : (s.moveTo l).label = l :: s.label := rfl
@[simp] theorem moveTo_dmiTries (l : Line) : (s.moveTo l).dmiTries = s.dmiTries := rfl
@[simp] theorem moveTo_polls (l : Line) : (s.moveTo l).polls = s.polls := rfl
@[simp] theorem moveTo_busyTries (l : Line) : (s.moveTo l).busyTries = s.busyTries := rfl
@[simp] theorem moveTo_batchIndex (l : Line) : (s.moveTo l).batchIndex = s.batchIndex := rfl
@[simp] theorem moveTo_discoveryIndex (l : Line) : (s.moveTo l).discoveryIndex = s.discoveryIndex := rfl
@[simp] theorem moveTo_dmiCmd (l : Line) : (s.moveTo l).dmiCmd = s.dmiCmd := rfl
@[simp] theorem moveTo_runCmd (l : Line) : (s.moveTo l).runCmd = s.runCmd := rfl
@[simp] theorem moveTo_pending (l : Line) : (s.moveTo l).pending = s.pending := rfl
@[simp] theorem moveTo_primaryError (l : Line) : (s.moveTo l).primaryError = s.primaryError := rfl
@[simp] theorem moveTo_params (l : Line) : (s.moveTo l).params = s.params := rfl
@[simp] theorem moveTo_hostQueue (l : Line) : (s.moveTo l).hostQueue = s.hostQueue := rfl
@[simp] theorem moveTo_wire (l : Line) : (s.moveTo l).wire = s.wire := rfl
@[simp] theorem moveTo_replies (l : Line) : (s.moveTo l).replies = s.replies := rfl
@[simp] theorem moveTo_actionCount (l : Line) : (s.moveTo l).actionCount = s.actionCount := rfl
@[simp] theorem moveTo_moves (l : Line) : (s.moveTo l).moves = s.moves ++ [l :: s.label] := rfl
@[simp] theorem moveTo_trace (l : Line) : (s.moveTo l).trace = s.trace := rfl
@[simp] theorem moveTo_hostOut (l : Line) : (s.moveTo l).hostOut = s.hostOut := rfl
@[simp] theorem moveTo_result (l : Line) : (s.moveTo l).result = s.result := rfl

/-! ## `backTo` -/

@[simp] theorem backTo_phase (ls : List Line) : (s.backTo ls).phase = s.phase := rfl
@[simp] theorem backTo_idcode (ls : List Line) : (s.backTo ls).idcode = s.idcode := rfl
@[simp] theorem backTo_dtmVersion (ls : List Line) : (s.backTo ls).dtmVersion = s.dtmVersion := rfl
@[simp] theorem backTo_debugVersion (ls : List Line) : (s.backTo ls).debugVersion = s.debugVersion := rfl
@[simp] theorem backTo_idleCycles (ls : List Line) : (s.backTo ls).idleCycles = s.idleCycles := rfl
@[simp] theorem backTo_addressBits (ls : List Line) : (s.backTo ls).addressBits = s.addressBits := rfl
@[simp] theorem backTo_programBufferSize (ls : List Line) : (s.backTo ls).programBufferSize = s.programBufferSize := rfl
@[simp] theorem backTo_impebreak (ls : List Line) : (s.backTo ls).impebreak = s.impebreak := rfl
@[simp] theorem backTo_abstractDataCount (ls : List Line) : (s.backTo ls).abstractDataCount = s.abstractDataCount := rfl
@[simp] theorem backTo_autoexecSupported (ls : List Line) : (s.backTo ls).autoexecSupported = s.autoexecSupported := rfl
@[simp] theorem backTo_progbufCsrEnabled (ls : List Line) : (s.backTo ls).progbufCsrEnabled = s.progbufCsrEnabled := rfl
@[simp] theorem backTo_lastDmiCommand (ls : List Line) : (s.backTo ls).lastDmiCommand = s.lastDmiCommand := rfl
@[simp] theorem backTo_lastValid (ls : List Line) : (s.backTo ls).lastValid = s.lastValid := rfl
@[simp] theorem backTo_irCurrent (ls : List Line) : (s.backTo ls).irCurrent = s.irCurrent := rfl
@[simp] theorem backTo_hartsellen (ls : List Line) : (s.backTo ls).hartsellen = s.hartsellen := rfl
@[simp] theorem backTo_harts (ls : List Line) : (s.backTo ls).harts = s.harts := rfl
@[simp] theorem backTo_currentHart (ls : List Line) : (s.backTo ls).currentHart = s.currentHart := rfl
@[simp] theorem backTo_req (ls : List Line) : (s.backTo ls).req = s.req := rfl
@[simp] theorem backTo_label (ls : List Line) : (s.backTo ls).label = ls := rfl
@[simp] theorem backTo_dmiTries (ls : List Line) : (s.backTo ls).dmiTries = s.dmiTries := rfl
@[simp] theorem backTo_polls (ls : List Line) : (s.backTo ls).polls = s.polls := rfl
@[simp] theorem backTo_busyTries (ls : List Line) : (s.backTo ls).busyTries = s.busyTries := rfl
@[simp] theorem backTo_batchIndex (ls : List Line) : (s.backTo ls).batchIndex = s.batchIndex := rfl
@[simp] theorem backTo_discoveryIndex (ls : List Line) : (s.backTo ls).discoveryIndex = s.discoveryIndex := rfl
@[simp] theorem backTo_dmiCmd (ls : List Line) : (s.backTo ls).dmiCmd = s.dmiCmd := rfl
@[simp] theorem backTo_runCmd (ls : List Line) : (s.backTo ls).runCmd = s.runCmd := rfl
@[simp] theorem backTo_pending (ls : List Line) : (s.backTo ls).pending = s.pending := rfl
@[simp] theorem backTo_primaryError (ls : List Line) : (s.backTo ls).primaryError = s.primaryError := rfl
@[simp] theorem backTo_params (ls : List Line) : (s.backTo ls).params = s.params := rfl
@[simp] theorem backTo_hostQueue (ls : List Line) : (s.backTo ls).hostQueue = s.hostQueue := rfl
@[simp] theorem backTo_wire (ls : List Line) : (s.backTo ls).wire = s.wire := rfl
@[simp] theorem backTo_replies (ls : List Line) : (s.backTo ls).replies = s.replies := rfl
@[simp] theorem backTo_actionCount (ls : List Line) : (s.backTo ls).actionCount = s.actionCount := rfl
@[simp] theorem backTo_moves (ls : List Line) : (s.backTo ls).moves = s.moves := rfl
@[simp] theorem backTo_trace (ls : List Line) : (s.backTo ls).trace = s.trace := rfl
@[simp] theorem backTo_hostOut (ls : List Line) : (s.backTo ls).hostOut = s.hostOut := rfl
@[simp] theorem backTo_result (ls : List Line) : (s.backTo ls).result = s.result := rfl

/-! ## `passed` -/

@[simp] theorem passed_phase (r : Nat) (ns : List Nat) : (s.passed r ns).phase = s.phase := rfl
@[simp] theorem passed_idcode (r : Nat) (ns : List Nat) : (s.passed r ns).idcode = s.idcode := rfl
@[simp] theorem passed_dtmVersion (r : Nat) (ns : List Nat) : (s.passed r ns).dtmVersion = s.dtmVersion := rfl
@[simp] theorem passed_debugVersion (r : Nat) (ns : List Nat) : (s.passed r ns).debugVersion = s.debugVersion := rfl
@[simp] theorem passed_idleCycles (r : Nat) (ns : List Nat) : (s.passed r ns).idleCycles = s.idleCycles := rfl
@[simp] theorem passed_addressBits (r : Nat) (ns : List Nat) : (s.passed r ns).addressBits = s.addressBits := rfl
@[simp] theorem passed_programBufferSize (r : Nat) (ns : List Nat) : (s.passed r ns).programBufferSize = s.programBufferSize := rfl
@[simp] theorem passed_impebreak (r : Nat) (ns : List Nat) : (s.passed r ns).impebreak = s.impebreak := rfl
@[simp] theorem passed_abstractDataCount (r : Nat) (ns : List Nat) : (s.passed r ns).abstractDataCount = s.abstractDataCount := rfl
@[simp] theorem passed_autoexecSupported (r : Nat) (ns : List Nat) : (s.passed r ns).autoexecSupported = s.autoexecSupported := rfl
@[simp] theorem passed_progbufCsrEnabled (r : Nat) (ns : List Nat) : (s.passed r ns).progbufCsrEnabled = s.progbufCsrEnabled := rfl
@[simp] theorem passed_lastDmiCommand (r : Nat) (ns : List Nat) : (s.passed r ns).lastDmiCommand = s.lastDmiCommand := rfl
@[simp] theorem passed_lastValid (r : Nat) (ns : List Nat) : (s.passed r ns).lastValid = s.lastValid := rfl
@[simp] theorem passed_irCurrent (r : Nat) (ns : List Nat) : (s.passed r ns).irCurrent = s.irCurrent := rfl
@[simp] theorem passed_hartsellen (r : Nat) (ns : List Nat) : (s.passed r ns).hartsellen = s.hartsellen := rfl
@[simp] theorem passed_harts (r : Nat) (ns : List Nat) : (s.passed r ns).harts = s.harts := rfl
@[simp] theorem passed_currentHart (r : Nat) (ns : List Nat) : (s.passed r ns).currentHart = s.currentHart := rfl
@[simp] theorem passed_req (r : Nat) (ns : List Nat) : (s.passed r ns).req = s.req := rfl
@[simp] theorem passed_label (r : Nat) (ns : List Nat) : (s.passed r ns).label = s.label := rfl
@[simp] theorem passed_dmiTries (r : Nat) (ns : List Nat) : (s.passed r ns).dmiTries = s.dmiTries := rfl
@[simp] theorem passed_polls (r : Nat) (ns : List Nat) : (s.passed r ns).polls = s.polls := rfl
@[simp] theorem passed_busyTries (r : Nat) (ns : List Nat) : (s.passed r ns).busyTries = s.busyTries := rfl
@[simp] theorem passed_batchIndex (r : Nat) (ns : List Nat) : (s.passed r ns).batchIndex = s.batchIndex := rfl
@[simp] theorem passed_discoveryIndex (r : Nat) (ns : List Nat) : (s.passed r ns).discoveryIndex = s.discoveryIndex := rfl
@[simp] theorem passed_dmiCmd (r : Nat) (ns : List Nat) : (s.passed r ns).dmiCmd = s.dmiCmd := rfl
@[simp] theorem passed_runCmd (r : Nat) (ns : List Nat) : (s.passed r ns).runCmd = s.runCmd := rfl
@[simp] theorem passed_pending (r : Nat) (ns : List Nat) : (s.passed r ns).pending = s.pending := rfl
@[simp] theorem passed_primaryError (r : Nat) (ns : List Nat) : (s.passed r ns).primaryError = s.primaryError := rfl
@[simp] theorem passed_params (r : Nat) (ns : List Nat) : (s.passed r ns).params = s.params := rfl
@[simp] theorem passed_hostQueue (r : Nat) (ns : List Nat) : (s.passed r ns).hostQueue = s.hostQueue := rfl
@[simp] theorem passed_wire (r : Nat) (ns : List Nat) : (s.passed r ns).wire = s.wire := rfl
@[simp] theorem passed_replies (r : Nat) (ns : List Nat) : (s.passed r ns).replies = s.replies := rfl
@[simp] theorem passed_actionCount (r : Nat) (ns : List Nat) : (s.passed r ns).actionCount = s.actionCount := rfl
@[simp] theorem passed_moves (r : Nat) (ns : List Nat) : (s.passed r ns).moves = s.moves ++ movesAt r ns s.label := rfl
@[simp] theorem passed_trace (r : Nat) (ns : List Nat) : (s.passed r ns).trace = s.trace := rfl
@[simp] theorem passed_hostOut (r : Nat) (ns : List Nat) : (s.passed r ns).hostOut = s.hostOut := rfl
@[simp] theorem passed_result (r : Nat) (ns : List Nat) : (s.passed r ns).result = s.result := rfl

/-! ## `answer` -/

@[simp] theorem answer_phase (r : Response) : (s.answer r).phase = s.phase := rfl
@[simp] theorem answer_idcode (r : Response) : (s.answer r).idcode = s.idcode := rfl
@[simp] theorem answer_dtmVersion (r : Response) : (s.answer r).dtmVersion = s.dtmVersion := rfl
@[simp] theorem answer_debugVersion (r : Response) : (s.answer r).debugVersion = s.debugVersion := rfl
@[simp] theorem answer_idleCycles (r : Response) : (s.answer r).idleCycles = s.idleCycles := rfl
@[simp] theorem answer_addressBits (r : Response) : (s.answer r).addressBits = s.addressBits := rfl
@[simp] theorem answer_programBufferSize (r : Response) : (s.answer r).programBufferSize = s.programBufferSize := rfl
@[simp] theorem answer_impebreak (r : Response) : (s.answer r).impebreak = s.impebreak := rfl
@[simp] theorem answer_abstractDataCount (r : Response) : (s.answer r).abstractDataCount = s.abstractDataCount := rfl
@[simp] theorem answer_autoexecSupported (r : Response) : (s.answer r).autoexecSupported = s.autoexecSupported := rfl
@[simp] theorem answer_progbufCsrEnabled (r : Response) : (s.answer r).progbufCsrEnabled = s.progbufCsrEnabled := rfl
@[simp] theorem answer_lastDmiCommand (r : Response) : (s.answer r).lastDmiCommand = s.lastDmiCommand := rfl
@[simp] theorem answer_lastValid (r : Response) : (s.answer r).lastValid = s.lastValid := rfl
@[simp] theorem answer_irCurrent (r : Response) : (s.answer r).irCurrent = s.irCurrent := rfl
@[simp] theorem answer_hartsellen (r : Response) : (s.answer r).hartsellen = s.hartsellen := rfl
@[simp] theorem answer_harts (r : Response) : (s.answer r).harts = s.harts := rfl
@[simp] theorem answer_currentHart (r : Response) : (s.answer r).currentHart = s.currentHart := rfl
@[simp] theorem answer_req (r : Response) : (s.answer r).req = none := rfl
@[simp] theorem answer_label (r : Response) : (s.answer r).label = [] := rfl
@[simp] theorem answer_dmiTries (r : Response) : (s.answer r).dmiTries = s.dmiTries := rfl
@[simp] theorem answer_polls (r : Response) : (s.answer r).polls = s.polls := rfl
@[simp] theorem answer_busyTries (r : Response) : (s.answer r).busyTries = s.busyTries := rfl
@[simp] theorem answer_batchIndex (r : Response) : (s.answer r).batchIndex = s.batchIndex := rfl
@[simp] theorem answer_discoveryIndex (r : Response) : (s.answer r).discoveryIndex = s.discoveryIndex := rfl
@[simp] theorem answer_dmiCmd (r : Response) : (s.answer r).dmiCmd = s.dmiCmd := rfl
@[simp] theorem answer_runCmd (r : Response) : (s.answer r).runCmd = s.runCmd := rfl
@[simp] theorem answer_pending (r : Response) : (s.answer r).pending = [] := rfl
@[simp] theorem answer_primaryError (r : Response) : (s.answer r).primaryError = none := rfl
@[simp] theorem answer_params (r : Response) : (s.answer r).params = s.params := rfl
@[simp] theorem answer_hostQueue (r : Response) : (s.answer r).hostQueue = s.hostQueue := rfl
@[simp] theorem answer_wire (r : Response) : (s.answer r).wire = s.wire := rfl
@[simp] theorem answer_replies (r : Response) : (s.answer r).replies = s.replies := rfl
@[simp] theorem answer_actionCount (r : Response) : (s.answer r).actionCount = s.actionCount := rfl
@[simp] theorem answer_moves (r : Response) : (s.answer r).moves = s.moves ++ movesAt 185 (endLines r) s.label := rfl
@[simp] theorem answer_trace (r : Response) : (s.answer r).trace = s.trace := rfl
@[simp] theorem answer_hostOut (r : Response) : (s.answer r).hostOut = s.hostOut ++ [.response r] := rfl
@[simp] theorem answer_result (r : Response) : (s.answer r).result = some r := rfl

/-! ## `serving` -/

@[simp] theorem serving_phase (i : Instr) : (s.serving i).phase = s.phase := rfl
@[simp] theorem serving_idcode (i : Instr) : (s.serving i).idcode = s.idcode := rfl
@[simp] theorem serving_dtmVersion (i : Instr) : (s.serving i).dtmVersion = s.dtmVersion := rfl
@[simp] theorem serving_debugVersion (i : Instr) : (s.serving i).debugVersion = s.debugVersion := rfl
@[simp] theorem serving_idleCycles (i : Instr) : (s.serving i).idleCycles = s.idleCycles := rfl
@[simp] theorem serving_addressBits (i : Instr) : (s.serving i).addressBits = s.addressBits := rfl
@[simp] theorem serving_programBufferSize (i : Instr) : (s.serving i).programBufferSize = s.programBufferSize := rfl
@[simp] theorem serving_impebreak (i : Instr) : (s.serving i).impebreak = s.impebreak := rfl
@[simp] theorem serving_abstractDataCount (i : Instr) : (s.serving i).abstractDataCount = s.abstractDataCount := rfl
@[simp] theorem serving_autoexecSupported (i : Instr) : (s.serving i).autoexecSupported = s.autoexecSupported := rfl
@[simp] theorem serving_progbufCsrEnabled (i : Instr) : (s.serving i).progbufCsrEnabled = s.progbufCsrEnabled := rfl
@[simp] theorem serving_lastDmiCommand (i : Instr) : (s.serving i).lastDmiCommand = s.lastDmiCommand := rfl
@[simp] theorem serving_lastValid (i : Instr) : (s.serving i).lastValid = s.lastValid := rfl
@[simp] theorem serving_irCurrent (i : Instr) : (s.serving i).irCurrent = s.irCurrent := rfl
@[simp] theorem serving_hartsellen (i : Instr) : (s.serving i).hartsellen = s.hartsellen := rfl
@[simp] theorem serving_harts (i : Instr) : (s.serving i).harts = s.harts := rfl
@[simp] theorem serving_currentHart (i : Instr) : (s.serving i).currentHart = s.currentHart := rfl
@[simp] theorem serving_req (i : Instr) : (s.serving i).req = some i := rfl
@[simp] theorem serving_label (i : Instr) : (s.serving i).label = ⟨185, 5⟩ :: s.label := rfl
@[simp] theorem serving_dmiTries (i : Instr) : (s.serving i).dmiTries = s.dmiTries := rfl
@[simp] theorem serving_polls (i : Instr) : (s.serving i).polls = s.polls := rfl
@[simp] theorem serving_busyTries (i : Instr) : (s.serving i).busyTries = s.busyTries := rfl
@[simp] theorem serving_batchIndex (i : Instr) : (s.serving i).batchIndex = s.batchIndex := rfl
@[simp] theorem serving_discoveryIndex (i : Instr) : (s.serving i).discoveryIndex = s.discoveryIndex := rfl
@[simp] theorem serving_dmiCmd (i : Instr) : (s.serving i).dmiCmd = s.dmiCmd := rfl
@[simp] theorem serving_runCmd (i : Instr) : (s.serving i).runCmd = s.runCmd := rfl
@[simp] theorem serving_pending (i : Instr) : (s.serving i).pending = s.pending := rfl
@[simp] theorem serving_primaryError (i : Instr) : (s.serving i).primaryError = s.primaryError := rfl
@[simp] theorem serving_params (i : Instr) : (s.serving i).params = s.params := rfl
@[simp] theorem serving_hostQueue (i : Instr) : (s.serving i).hostQueue = s.hostQueue := rfl
@[simp] theorem serving_wire (i : Instr) : (s.serving i).wire = s.wire := rfl
@[simp] theorem serving_replies (i : Instr) : (s.serving i).replies = s.replies := rfl
@[simp] theorem serving_actionCount (i : Instr) : (s.serving i).actionCount = s.actionCount := rfl
@[simp] theorem serving_moves (i : Instr) : (s.serving i).moves = s.moves ++ movesAt 185 [1, 2, 4] s.label ++ [⟨185, 5⟩ :: s.label] := rfl
@[simp] theorem serving_trace (i : Instr) : (s.serving i).trace = s.trace := rfl
@[simp] theorem serving_hostOut (i : Instr) : (s.serving i).hostOut = s.hostOut := rfl
@[simp] theorem serving_result (i : Instr) : (s.serving i).result = s.result := rfl

end State

end Sys2Proof.Machine
end

