-- ==== Sys2Proof/Laws/Run.lean ====
section
/-! SUPPORT. How operations run: the equations of sequencing, and relations that a run keeps whichever way it
ends. -/

namespace Sys2Proof.Machine

variable {α β : Type}

/-! ## Equations -/

@[simp] theorem pure_run (a : α) (s : State) : (pure a : Op α) s = .ok a s := rfl

theorem bind_run (x : Op α) (f : α → Op β) (s : State) :
    (x >>= f) s = match x s with
      | .ok a t => f a t
      | .error e t => .error e t := by
  cases h : x s <;> simp only [bind, EStateM.bind, h]

theorem bind_ok {x : Op α} {s t : State} {a : α} (f : α → Op β) (h : x s = .ok a t) : (x >>= f) s = f a t := by
  rw [bind_run, h]

theorem bind_error {x : Op α} {s t : State} {e : Stop} (f : α → Op β) (h : x s = .error e t) :
    (x >>= f) s = .error e t := by
  rw [bind_run, h]

@[simp] theorem update_run (f : State → State) (s : State) : update f s = .ok () (f s) := rfl

@[simp] theorem look_run (f : State → α) (s : State) : look f s = .ok (f s) s := rfl

@[simp] theorem raise_run (e : Error) (s : State) : (raise e : Op α) s = .error (.err e) s := rfl

@[simp] theorem require_true (e : Error) : require true e = pure () := rfl

@[simp] theorem require_false (e : Error) : require false e = raise e := rfl

@[simp] theorem update_bind (f : State → State) (g : Unit → Op β) (s : State) :
    (update f >>= g) s = g () (f s) := rfl

@[simp] theorem look_bind (f : State → α) (g : α → Op β) (s : State) : (look f >>= g) s = g (f s) s := rfl

@[simp] theorem pass_run (r : Nat) (ns : List Nat) (s : State) : pass r ns s = .ok () (s.passed r ns) := rfl

@[simp] theorem pass_bind (r : Nat) (ns : List Nat) (g : Unit → Op β) (s : State) :
    (pass r ns >>= g) s = g () (s.passed r ns) := rfl

@[simp] theorem pure_bind_run (a : α) (g : α → Op β) (s : State) : ((pure a : Op α) >>= g) s = g a s := rfl

@[simp] theorem raise_bind (e : Error) (g : α → Op β) (s : State) :
    ((raise e : Op α) >>= g) s = .error (.err e) s := rfl

theorem readReg_some {r : SessionReg} {f : State → Option α} {s : State} {a : α} (h : f s = some a) :
    readReg r f s = .ok a s := by simp [readReg, h]

theorem readReg_none {r : SessionReg} {f : State → Option α} {s : State} (h : f s = none) :
    readReg r f s = .error (.fault (.unwrittenRead r)) s := by simp [readReg, h]

theorem addressWidth_some {s : State} {a : BitVec 6} (h : s.addressBits = some a) : addressWidth s = .ok a.toNat s := by
  unfold addressWidth
  rw [bind_ok _ (readReg_some h)]
  rfl

theorem addressWidth_none {s : State} (h : s.addressBits = none) :
    addressWidth s = .error (.fault (.unwrittenRead .addressBits)) s := by
  unfold addressWidth
  rw [bind_error _ (readReg_none h)]

/-- A line runs its statement with the label moved to it, and the label returns. -/
theorem line_ok {x : Op α} {s t : State} {a : α} {r n : Nat} (h : x (s.moveTo ⟨r, n⟩) = .ok a t) :
    line r n x s = .ok a (t.backTo s.label) := by simp [line, h]

theorem line_error {x : Op α} {s t : State} {e : Stop} {r n : Nat} (h : x (s.moveTo ⟨r, n⟩) = .error e t) :
    line r n x s = .error e (t.backTo s.label) := by simp [line, h]

@[simp] theorem line_update_run (r n : Nat) (f : State → State) (s : State) :
    line r n (update f) s = .ok () ((f (s.moveTo ⟨r, n⟩)).backTo s.label) := rfl

theorem passed_nil (s : State) (r : Nat) : s.passed r [] = s := by simp [State.passed, movesAt]

/-- The lines passed are lines with no statement, one after the other. -/
theorem passed_cons (s : State) (r n : Nat) (ns : List Nat) :
    s.passed r (n :: ns) = ((s.moveTo ⟨r, n⟩).backTo s.label).passed r ns := by
  simp [State.passed, State.moveTo, State.backTo, movesAt]

theorem passed_passed (s : State) (r : Nat) (ms ns : List Nat) :
    (s.passed r ms).passed r ns = s.passed r (ms ++ ns) := by simp [State.passed, movesAt]

theorem pass_cons (r n : Nat) (ns : List Nat) : pass r (n :: ns) = (line r n (pure ()) >>= fun _ => pass r ns) := by
  funext s
  rw [pass_run, passed_cons]
  rfl

/-- A line whose statement changes nothing is passed. -/
theorem line_pass {x : Op α} {s : State} {a : α} {r n : Nat} (h : x (s.moveTo ⟨r, n⟩) = .ok a (s.moveTo ⟨r, n⟩)) :
    line r n x s = .ok a (s.passed r [n]) := by
  rw [line_ok h, passed_cons, passed_nil]

/-- A line that tests a condition: the line is passed, or the error raised. -/
theorem line_require (b : Bool) (e : Error) (r n : Nat) (f : Unit → Op β) (s : State) :
    (line r n (require b e) >>= f) s = if b then f () (s.passed r [n]) else .error (.err e) (s.passed r [n]) := by
  cases b with
  | true => rw [bind_ok _ (line_pass (x := require true e) (a := ()) rfl), if_pos rfl]
  | false =>
    rw [bind_error _ (line_error (x := require false e) (e := .err e) (t := s.moveTo ⟨r, n⟩) rfl),
      if_neg Bool.false_ne_true, passed_cons, passed_nil]

/-! Lines that write one after the other, as the lines passed and then all their writes. -/

theorem recordShift_eq (r : DmiWord) :
    recordShift r = (do pass 95 [7, 8, 9]; update State.recordSuccess; pure (dmiData r)) := by
  funext s
  refine congrArg (EStateM.Result.ok (dmiData r)) ?_
  simp [State.passed, State.moveTo, State.backTo, movesAt, State.recordSuccess, State.recordWord, State.markValid]

theorem writeDtmcs_eq (d : Word) : writeDtmcs d = (do pass 115 [2, 3, 4, 5]; update (State.wroteDtmcs · d)) := by
  funext s
  simp [writeDtmcs, State.passed, State.moveTo, State.backTo, movesAt, bind_run, State.wroteDtmcs,
    State.wroteDtmVersion, State.wroteAddressBits, State.wroteIdleCycles, State.clearValid]

theorem writeCapabilities_eq (f : AcsFields) :
    writeCapabilities f = (do pass 123 [6, 7]; update (State.wroteCapabilities · f)) := by
  funext s
  simp [writeCapabilities, State.passed, State.moveTo, State.backTo, movesAt, bind_run, State.wroteCapabilities,
    State.wroteDataCount, State.wroteBufferSize]

theorem beginAttach_eq (w : Word) : beginAttach w = (do pass 114 [1, 2]; update (State.startAttach · w)) := by
  funext s
  simp [beginAttach, setPhase, State.passed, State.moveTo, State.backTo, movesAt, bind_run, State.startAttach,
    State.wroteIdcode, State.atPhase]

theorem attachFailure_eq (e : Error) : attachFailure e = update (State.attachFailed · e) := by
  funext s
  simp [attachFailure, emitDiag, State.passed, State.moveTo, State.backTo, movesAt, bind_run, State.attachFailed,
    State.resetSession, State.diagnose]

theorem line_ok_inv {x : Op α} {s t : State} {a : α} {r n : Nat} (h : line r n x s = .ok a t) :
    ∃ u, x (s.moveTo ⟨r, n⟩) = .ok a u ∧ t = u.backTo s.label := by
  cases hx : x (s.moveTo ⟨r, n⟩) with
  | ok b u => rw [line_ok hx] at h; cases h; exact ⟨u, rfl, rfl⟩
  | error e u => rw [line_error hx] at h; cases h

/-! ## What an operation does to the state -/

/-- How an operation that started in `s` ended: by `R` with a result or an error, by `F` with a transport failure, by `Z`
with a fault. -/
def Ends (R F : State → State → Prop) (Z : State → Prop) (s : State) : EStateM.Result Stop State α → Prop
  | .ok _ t => R s t
  | .error (.err e) t => if e = .transportFailure then F s t else R s t
  | .error (.fault _) _ => Z s

/-- Every run of the operation ends so. -/
def Keeps (R F : State → State → Prop) (Z : State → Prop) (x : Op α) : Prop := ∀ s, Ends R F Z s (x s)

/-- Relations that compose along a run. -/
structure Runs (R F : State → State → Prop) (Z : State → Prop) : Prop where
  refl : ∀ s, R s s
  trans : ∀ {a b c}, R a b → R b c → R a c
  fails : ∀ {a b c}, R a b → F b c → F a c
  stops : ∀ {a b}, R a b → Z b → Z a

variable {R F : State → State → Prop} {Z : State → Prop}

theorem Keeps.ok {x : Op α} {s t : State} {a : α} (h : Keeps R F Z x) (e : x s = .ok a t) : R s t := by
  have := h s; rwa [e] at this

theorem Keeps.error {x : Op α} {s t : State} {e' : Error} (h : Keeps R F Z x) (e : x s = .error (.err e') t)
    (he : e' ≠ .transportFailure) : R s t := by
  have := h s; rw [e] at this; simpa [Ends, he] using this

theorem Keeps.failed {x : Op α} {s t : State} (h : Keeps R F Z x) (e : x s = .error (.err .transportFailure) t) :
    F s t := by
  have := h s; rw [e] at this; simpa [Ends] using this

theorem Keeps.stopped {x : Op α} {s t : State} {f : Fault} (h : Keeps R F Z x) (e : x s = .error (.fault f) t) :
    Z s := by
  have := h s; rwa [e] at this

/-- A relation that holds however the run ends. -/
theorem Keeps.same {x : Op α} {s t : State} {e' : Error} (h : Keeps R R Z x) (e : x s = .error (.err e') t) : R s t := by
  have := h s; rw [e] at this; simpa [Ends] using this

theorem keeps_pure (hR : Runs R F Z) (a : α) : Keeps R F Z (pure a : Op α) := fun s => hR.refl s

theorem keeps_look (hR : Runs R F Z) (f : State → α) : Keeps R F Z (look f) := fun s => hR.refl s

theorem keeps_raise (hR : Runs R F Z) {e : Error} (he : e ≠ .transportFailure) : Keeps R F Z (raise e : Op α) := by
  intro s
  simpa [Ends, he] using hR.refl s

theorem keeps_update {f : State → State} (h : ∀ s, R s (f s)) : Keeps R F Z (update f) := h

theorem keeps_require (hR : Runs R F Z) (b : Bool) {e : Error} (he : e ≠ .transportFailure) :
    Keeps R F Z (require b e) := by
  cases b
  · exact keeps_raise hR he
  · exact keeps_pure hR ()

theorem keeps_readReg (hR : Runs R F Z) {r : SessionReg} {f : State → Option α} (h : ∀ s, f s = none → Z s) :
    Keeps R F Z (readReg r f) := by
  intro s
  cases hs : f s with
  | some a => rw [readReg_some hs]; exact hR.refl s
  | none => rw [readReg_none hs]; exact h s hs

theorem Ends.after (hR : Runs R F Z) {s t : State} (h : R s t) : ∀ {r : EStateM.Result Stop State α},
    Ends R F Z t r → Ends R F Z s r
  | .ok _ _, h2 => hR.trans h h2
  | .error (.err e) u, h2 => by
    by_cases he : e = .transportFailure
    · simp only [Ends, he, if_true] at h2 ⊢; exact hR.fails h h2
    · simp only [Ends, he, if_false] at h2 ⊢; exact hR.trans h h2
  | .error (.fault _) _, h2 => hR.stops h h2

/-- How a sequence ends, from how its first part ended and what follows it. -/
theorem Ends.bind {x : Op α} {f : α → Op β} {s u : State} (hx : Ends R F Z s (x u))
    (hf : ∀ a t, x u = .ok a t → R s t → Ends R F Z s (f a t)) : Ends R F Z s ((x >>= f) u) := by
  cases h : x u with
  | ok a t =>
    rw [h] at hx
    rw [bind_ok f h]
    exact hf a t h hx
  | error e t =>
    rw [h] at hx
    rw [bind_error f h]
    cases e <;> exact hx

theorem keeps_bind (hR : Runs R F Z) {x : Op α} {f : α → Op β} (hx : Keeps R F Z x) (hf : ∀ a, Keeps R F Z (f a)) :
    Keeps R F Z (x >>= f) := fun s => (hx s).bind fun a t _ h => (hf a t).after hR h

/-- Reading the state, then an operation that keeps the relations for every value read. -/
theorem keeps_looking (hR : Runs R F Z) {f : State → α} {g : α → Op β} (hg : ∀ a, Keeps R F Z (g a)) :
    Keeps R F Z (look f >>= g) := keeps_bind hR (keeps_look hR f) hg

theorem keeps_ite {c : Prop} [Decidable c] {x y : Op α} (hx : Keeps R F Z x) (hy : Keeps R F Z y) :
    Keeps R F Z (if c then x else y) := by
  split
  · exact hx
  · exact hy

/-- A line keeps what its statement and the two moves of the label keep. -/
theorem keeps_line (hR : Runs R F Z) {r n : Nat} {x : Op α} (hmove : ∀ (s : State) (l : Line), R s (s.moveTo l))
    (hback : ∀ (s : State) (ls : List Line), R s (s.backTo ls))
    (hfail : ∀ {s t : State} (ls : List Line), F s t → F s (t.backTo ls)) (hx : Keeps R F Z x) :
    Keeps R F Z (line r n x) := by
  intro s
  have h := (hx (s.moveTo ⟨r, n⟩)).after hR (hmove s _)
  cases hs : x (s.moveTo ⟨r, n⟩) with
  | ok a t => rw [hs] at h; rw [line_ok hs]; exact hR.trans h (hback t _)
  | error e t =>
    rw [hs] at h
    rw [line_error hs]
    cases e with
    | fault f => exact h
    | err e =>
      by_cases he : e = .transportFailure
      · simp only [Ends, he, if_true] at h ⊢; exact hfail _ h
      · simp only [Ends, he, if_false] at h ⊢; exact hR.trans h (hback t _)

/-- Lines passed keep what the two moves of the label keep. -/
theorem keeps_pass (hR : Runs R F Z) (r : Nat) (ns : List Nat) (hmove : ∀ (s : State) (l : Line), R s (s.moveTo l))
    (hback : ∀ (s : State) (ls : List Line), R s (s.backTo ls)) : Keeps R F Z (pass r ns) := by
  refine keeps_update fun s => ?_
  induction ns generalizing s with
  | nil => rw [passed_nil]; exact hR.refl s
  | cons n ns ih => rw [passed_cons]; exact hR.trans (hR.trans (hmove s _) (hback _ _)) (ih _)

/-- A map of the errors keeps what the operation keeps, where it keeps TransportFailure apart. -/
theorem keeps_mapError {f : Error → Error} {x : Op α} (hf : ∀ e, f e = .transportFailure ↔ e = .transportFailure)
    (hx : Keeps R F Z x) : Keeps R F Z (mapError f x) := by
  intro s
  have h := hx s
  unfold mapError
  cases hs : x s with
  | ok a t => rw [hs] at h; exact h
  | error e t =>
    rw [hs] at h
    cases e with
    | fault f => exact h
    | err e => simp only [Ends, hf] at h ⊢; exact h

/-- A cleanup keeps what its body, its own steps and the two changes of the sequencer keep. -/
theorem keeps_withCleanup (hR : Runs R F Z) {o : Pending} {c : Op Unit} {x : Op α}
    (hpush : ∀ s : State, R s (s.pushPending o)) (hpop : ∀ s : State, R s s.popPending)
    (hhold : ∀ (s : State) (e : Error), R s (s.holdPrimary e)) (hc : Keeps R F Z c) (hx : Keeps R F Z x) :
    Keeps R F Z (withCleanup o c x) := by
  intro s
  have h0 := (hx (s.pushPending o)).after hR (hpush s)
  unfold withCleanup
  cases h : x (s.pushPending o) with
  | ok a t =>
    rw [h] at h0
    have h2 := (hc t.popPending).after hR (hR.trans h0 (hpop t))
    cases h3 : c t.popPending with
    | ok b u => rw [h3] at h2; simpa [h3, Ends] using h2
    | error e u => rw [h3] at h2; cases e <;> simpa [h3, Ends] using h2
  | error e t =>
    rw [h] at h0
    cases e with
    | fault f => exact h0
    | err e =>
      by_cases he : e = .transportFailure
      · simpa [he, Ends] using h0
      · simp only [Ends, he, if_false] at h0 ⊢
        have h2 := (hc (t.popPending.holdPrimary e)).after hR
          (hR.trans (hR.trans h0 (hpop t)) (hhold t.popPending e))
        cases h3 : c (t.popPending.holdPrimary e) with
        | ok b u => rw [h3] at h2; simpa [Ends, he] using h2
        | error e2 u =>
          rw [h3] at h2
          cases e2 with
          | fault f => exact h2
          | err e2 => by_cases he2 : e2 = .transportFailure <;> simpa [Ends, he, he2] using h2

/-! ## What an operation can return -/

/-- Every result of the operation has the property. -/
def Returns (P : α → Prop) (x : Op α) : Prop := ∀ s a t, x s = .ok a t → P a

theorem returns_pure {P : α → Prop} {a : α} (h : P a) : Returns P (pure a : Op α) := by
  intro s b t hb
  simp only [pure_run, EStateM.Result.ok.injEq] at hb
  exact hb.1 ▸ h

theorem returns_raise {P : α → Prop} (e : Error) : Returns P (raise e : Op α) := by
  intro s b t hb
  simp at hb

theorem returns_line {P : α → Prop} {r n : Nat} {x : Op α} (h : Returns P x) : Returns P (line r n x) := by
  intro s a t hs
  obtain ⟨u, hu, -⟩ := line_ok_inv hs
  exact h _ _ _ hu

theorem bind_ok_inv {x : Op α} {f : α → Op β} {s u : State} {b : β} (h : (x >>= f) s = .ok b u) :
    ∃ a t, x s = .ok a t ∧ f a t = .ok b u := by
  rw [bind_run] at h
  cases hx : x s with
  | ok a t => exact ⟨a, t, rfl, by simpa [hx] using h⟩
  | error e t => simp [hx] at h

theorem returns_bind {P : α → Prop} {Q : β → Prop} {x : Op α} {f : α → Op β} (hx : Returns P x)
    (hf : ∀ a, P a → Returns Q (f a)) : Returns Q (x >>= f) := by
  intro s b u h
  obtain ⟨a, t, h1, h2⟩ := bind_ok_inv h
  exact hf a (hx s a t h1) t b u h2

theorem returns_any (x : Op α) : Returns (fun _ => True) x := fun _ _ _ _ => trivial

theorem returns_withCleanup {P : α → Prop} {o : Pending} {c : Op Unit} {x : Op α} (hx : Returns P x) :
    Returns P (withCleanup o c x) := by
  intro s a u h
  unfold withCleanup at h
  cases hb : x (s.pushPending o) with
  | ok b t =>
    simp only [hb] at h
    cases hc : c t.popPending <;> simp [hc] at h
    exact h.1 ▸ hx _ _ _ hb
  | error e t =>
    simp only [hb] at h
    cases e with
    | fault f => simp at h
    | err e =>
      simp only at h
      split at h
      · simp at h
      · cases hc : c (t.popPending.holdPrimary e) with
        | ok b u => simp [hc] at h
        | error e2 u => cases e2 <;> simp [hc] at h

end Sys2Proof.Machine
end

