-- ==== Sys2Proof/Laws/Frame.lean ====
section
/-! SUPPORT. Everything the operations below ATTACH and SELECT_HART can do, said once: a relation that holds across a
transport action, a selection, a recorded success and a change of the sequencer's own fields holds across every one
of them. -/

namespace Sys2Proof.Machine

/-- A DMI word for each address width that has that width. -/
def FitsAll (cmd : Nat → DmiWord) : Prop := ∀ A, (cmd A).toNat < 2 ^ dmiWidth A

theorem fits_encode (op : BitVec 2) (addr : Nat) (data : Word) : FitsAll (dmiEncode op addr data) :=
  fun A => dmiEncode_lt op addr data A

/-! ## The layers of operations

Each structure names the changes of the state that its layer makes, and the registers it reads; relations that hold
across them, `R` where no action failed, `E` where the last one did and `Z` where a read found no value, hold across
every operation of the layer. -/

/-- Selections, DTMCS shifts and resets. -/
structure TxFrame (R E : State → State → Prop) (Z : State → Prop) : Prop extends Runs R E Z where
  moved : ∀ (s : State) (l : Line), R s (s.moveTo l)
  back : ∀ (s : State) (ls : List Line), R s (s.backTo ls)
  backFailed : ∀ {s t : State} (ls : List Line), E s t → E s (t.backTo ls)
  issued : ∀ (s : State) (a : Action) (b : Buffer), s.emits a → s.nextReply = .done b → R s (s.issued a)
  failed : ∀ (s : State) (a : Action), s.emits a → s.nextReply = .failed → E s (s.issued a)
  ir : ∀ (s : State) (c : IrSel), c ≠ .none → R s (s.selectIr c)

/-- The DMI transaction layer. -/
structure DmiFrame (R E : State → State → Prop) (Z : State → Prop) : Prop extends TxFrame R E Z where
  noWidth : ∀ s : State, s.addressBits = none → Z s
  noIdle : ∀ s : State, s.idleCycles = none → Z s
  noReplay : ∀ s : State, s.lastValid = true → s.lastDmiCommand = none → Z s
  success : ∀ s : State, R s s.recordSuccess
  begun : ∀ (s : State) (w : DmiWord), s.fits w → R s (s.beginShift w)
  recovery : ∀ s : State, R s s.countRecovery

/-- Cleanups. -/
structure CleanupFrame (R E : State → State → Prop) (Z : State → Prop) : Prop extends DmiFrame R E Z where
  pushed : ∀ (s : State) (o : Pending), R s (s.pushPending o)
  popped : ∀ s : State, R s s.popPending
  held : ∀ (s : State) (e : Error), R s (s.holdPrimary e)

/-- The abstract command engine. -/
structure RunFrame (R E : State → State → Prop) (Z : State → Prop) : Prop extends DmiFrame R E Z where
  polled : ∀ s : State, R s s.countPoll
  polls : ∀ s : State, R s s.startPolls
  started : ∀ (s : State) (w : Word), R s (s.startRun w)
  reissued : ∀ s : State, R s s.countReissue

/-- The register access layer, with its cleanups. -/
structure WireFrame (R E : State → State → Prop) (Z : State → Prop) : Prop extends RunFrame R E Z, CleanupFrame R E Z where
  register : ∀ (s : State) (k : Nat), R s (s.atRegister k)
  noAutoexec : ∀ s : State, s.autoexecSupported = none → Z s

variable {R E : State → State → Prop} {Z : State → Prop} {α : Type}

namespace TxFrame

variable (F : TxFrame R E Z)
include F

theorem line {r n : Nat} {x : Op α} (h : Keeps R E Z x) : Keeps R E Z (line r n x) :=
  keeps_line F.toRuns F.moved F.back F.backFailed h

theorem update {r n : Nat} {f : State → State} (h : ∀ s, R s (f s)) : Keeps R E Z (Machine.line r n (update f)) :=
  F.line (keeps_update h)

theorem raise {r n : Nat} {e : Error} (h : e ≠ .transportFailure) :
    Keeps R E Z (Machine.line r n (raise e : Op α)) := F.line (keeps_raise F.toRuns h)

theorem pass (r : Nat) (ns : List Nat) : Keeps R E Z (pass r ns) := keeps_pass F.toRuns r ns F.moved F.back

theorem passed (s : State) (r : Nat) (ns : List Nat) : R s (s.passed r ns) := F.pass r ns s

/-- Lines passed, then an operation that keeps the relations. -/
theorem passThen {r : Nat} {ns : List Nat} {y : Unit → Op α} (h : Keeps R E Z (y ())) :
    Keeps R E Z (Machine.pass r ns >>= y) := keeps_bind F.toRuns (F.pass r ns) fun _ => h

/-- Lines passed and a change. -/
theorem passUpdate {r : Nat} {ns : List Nat} {f : State → State} (h : ∀ s, R s (f s)) :
    Keeps R E Z (do Machine.pass r ns; Machine.update f) := F.passThen (keeps_update h)

theorem act {s : State} {a : Action} (ha : s.emits a) : Ends R E Z s (act a s) := by
  unfold Machine.act
  cases h : s.nextReply with
  | done b => exact F.issued s a b ha h
  | failed => simpa [Ends] using F.failed s a ha h

theorem actThen {s : State} {a : Action} {f : Buffer → Op α} (ha : s.emits a) (hf : ∀ b, Keeps R E Z (f b)) :
    Ends R E Z s ((Machine.act a >>= f) s) := (F.act ha).bind fun b t _ h => (hf b t).after F.toRuns h

theorem txIr {c : Byte} {sel : IrSel} (h : c = irCodeDtmcs ∨ c = irCodeDmi) (hs : sel ≠ .none) :
    Keeps R E Z (txIr c sel) := fun _ => F.actThen h fun _ => keeps_update fun s => F.ir s sel hs

theorem selectDtmcs : Keeps R E Z selectDtmcs := F.txIr (.inl rfl) (by decide)

theorem selectDmi : Keeps R E Z selectDmi := F.txIr (.inr rfl) (by decide)

theorem txShift (out : DmiWord) : Keeps R E Z (txShift 32 out) :=
  fun _ => F.actThen (.inl rfl) fun _ => keeps_pure F.toRuns _

theorem softReset : Keeps R E Z softReset :=
  keeps_bind F.toRuns (F.line F.selectDtmcs) fun _ =>
    keeps_bind F.toRuns (F.line (F.txShift _)) fun _ => keeps_pure F.toRuns _

theorem hardReset : Keeps R E Z hardReset :=
  keeps_bind F.toRuns (F.line F.selectDtmcs) fun _ =>
    keeps_bind F.toRuns (F.line (F.txShift _)) fun _ => keeps_pure F.toRuns _

theorem readDtmcs : Keeps R E Z readDtmcs :=
  keeps_bind F.toRuns (F.line F.selectDtmcs) fun _ =>
    keeps_bind F.toRuns (F.line (F.txShift _)) fun _ => keeps_pure F.toRuns _

theorem ensureDmi : Keeps R E Z ensureDmi := by
  refine F.line fun s => ?_
  by_cases h : s.irCurrent = .dmi
  · simpa [h, Ends] using F.refl s
  · simpa [h] using F.selectDmi s

end TxFrame

namespace DmiFrame

variable (F : DmiFrame R E Z)
include F

theorem shiftDmi (w : DmiWord) : Keeps R E Z (shiftDmi w) := by
  intro s
  unfold Machine.shiftDmi
  cases h : s.addressBits with
  | none => rw [bind_error _ (addressWidth_none h)]; exact F.noWidth s h
  | some a =>
    rw [bind_ok _ (addressWidth_some h)]
    exact F.toTxFrame.actThen (.inr ⟨a, h, rfl⟩) fun _ => keeps_pure F.toRuns _

theorem replayWord : Keeps R E Z replayWord := by
  intro s
  unfold Machine.replayWord
  rw [look_bind]
  cases hv : s.lastValid with
  | false => exact F.refl s
  | true =>
    cases h : s.lastDmiCommand with
    | none => rw [if_pos rfl, readReg_none h]; exact F.noReplay s hv h
    | some w => rw [if_pos rfl, readReg_some h]; exact F.refl s

theorem replay : Keeps R E Z replay :=
  keeps_bind F.toRuns F.replayWord fun _ => keeps_bind F.toRuns (F.shiftDmi _) fun _ => keeps_pure F.toRuns _

theorem recoveryIdle : Keeps R E Z recoveryIdle := by
  intro s
  unfold Machine.recoveryIdle
  cases h : s.idleCycles with
  | none => rw [bind_error _ (readReg_none h)]; exact F.noIdle s h
  | some i =>
    rw [bind_ok _ (readReg_some h)]
    split
    · next hi => exact F.toTxFrame.actThen ⟨i, h, hi, rfl⟩ fun _ => keeps_pure F.toRuns _
    · exact F.refl s

theorem recover : Keeps R E Z recover :=
  keeps_bind F.toRuns (F.toTxFrame.update F.recovery) fun _ =>
  keeps_bind F.toRuns (F.toTxFrame.line F.toTxFrame.softReset) fun _ =>
  keeps_bind F.toRuns (F.toTxFrame.line F.toTxFrame.selectDmi) fun _ =>
  keeps_bind F.toRuns (F.toTxFrame.line F.replay) fun _ =>
  keeps_bind F.toRuns (F.toTxFrame.line F.recoveryIdle) fun _ => F.toTxFrame.pass _ _

theorem shiftCmd : Keeps R E Z shiftCmd :=
  F.toTxFrame.passThen (F.toTxFrame.line (keeps_looking F.toRuns fun _ => F.shiftDmi _))

theorem recordShift (r : DmiWord) : Keeps R E Z (recordShift r) := by
  rw [recordShift_eq]
  exact F.toTxFrame.passThen (keeps_bind F.toRuns (keeps_update F.success) fun _ => keeps_pure F.toRuns _)

theorem onStatus {again : Op Word} (h : Keeps R E Z again) (r : DmiWord) : Keeps R E Z (onStatus again r) := by
  have hs : ∀ st, Keeps R E Z (statusFailed st) := fun st => F.toTxFrame.passThen
    (keeps_bind F.toRuns (F.toTxFrame.line F.toTxFrame.softReset) fun _ => F.toTxFrame.raise Error.noConfusion)
  unfold Machine.onStatus
  split
  · exact F.recordShift r
  · exact hs 1
  · exact hs 2
  · exact h

theorem classifyWith {again : Op Word} (h : Keeps R E Z again) (r : DmiWord) : Keeps R E Z (classifyWith again r) :=
  F.toTxFrame.passThen (F.onStatus h r)

theorem dmiRetry (left : Nat) : Keeps R E Z (dmiRetry left) := by
  induction left with
  | zero =>
    exact F.toTxFrame.passThen
      (keeps_bind F.toRuns (F.toTxFrame.line F.toTxFrame.softReset) fun _ => F.toTxFrame.raise Error.noConfusion)
  | succ n ih =>
    exact F.toTxFrame.passThen
      (keeps_bind F.toRuns F.recover fun _ => keeps_bind F.toRuns F.shiftCmd fun r => F.classifyWith ih r)

theorem dmiClassify (left : Nat) (r : DmiWord) : Keeps R E Z (dmiClassify left r) :=
  F.classifyWith (F.dmiRetry left) r

theorem beginShift {cmd : Nat → DmiWord} (hc : FitsAll cmd) : Keeps R E Z (beginShift cmd) := by
  intro s
  unfold Machine.beginShift
  cases h : s.addressBits with
  | none => rw [bind_error _ (addressWidth_none h)]; exact F.noWidth s h
  | some a => rw [bind_ok _ (addressWidth_some h)]; exact F.begun s _ ⟨a, h, hc _⟩

theorem dmiShift {cmd : Nat → DmiWord} (hc : FitsAll cmd) : Keeps R E Z (dmiShift cmd) :=
  keeps_bind F.toRuns (F.toTxFrame.line (F.beginShift hc)) fun _ =>
  keeps_bind F.toRuns (F.toTxFrame.line F.toTxFrame.ensureDmi) fun _ =>
  keeps_looking F.toRuns fun _ => keeps_bind F.toRuns F.shiftCmd fun _ => F.dmiClassify _ _

theorem dmiRead (address : Nat) : Keeps R E Z (dmiRead address) :=
  keeps_bind F.toRuns (F.toTxFrame.line (F.dmiShift (fits_encode _ _ _))) fun _ =>
  keeps_bind F.toRuns (F.toTxFrame.line (F.dmiShift (fits_encode _ _ _))) fun _ =>
    F.toTxFrame.passThen (keeps_pure F.toRuns _)

theorem dmiWrite (address : Nat) (word : Word) : Keeps R E Z (dmiWrite address word) :=
  keeps_bind F.toRuns (F.toTxFrame.line (F.dmiShift (fits_encode _ _ _))) fun _ => keeps_pure F.toRuns _

theorem writeHartsel (index : BitVec 20) : Keeps R E Z (writeHartsel index) :=
  keeps_looking F.toRuns fun _ => F.dmiWrite _ _

end DmiFrame

namespace RunFrame

variable (F : RunFrame R E Z)
include F

theorem pollOnce : Keeps R E Z pollOnce := F.toTxFrame.passThen <|
  keeps_bind F.toRuns (F.toTxFrame.line (F.toDmiFrame.dmiRead _)) fun _ =>
  keeps_bind F.toRuns (F.toTxFrame.update F.polled) fun _ => keeps_pure F.toRuns _

theorem pollWith {again : Op Word} (h : Keeps R E Z again) (acs : Word) : Keeps R E Z (pollWith again acs) :=
  F.toTxFrame.passThen (keeps_ite h (keeps_pure F.toRuns _))

theorem pollAgain (left : Nat) : Keeps R E Z (pollAgain left) := by
  induction left with
  | zero => exact F.toTxFrame.raise Error.noConfusion
  | succ n ih => exact F.toTxFrame.passThen (keeps_bind F.toRuns F.pollOnce fun a => F.pollWith ih a)

theorem waitIdle : Keeps R E Z waitIdle :=
  keeps_bind F.toRuns (F.toTxFrame.update F.polls) fun _ =>
  keeps_bind F.toRuns F.pollOnce fun _ => keeps_looking F.toRuns fun _ => F.pollWith (F.pollAgain _) _

theorem clearCmderr : Keeps R E Z clearCmderr := F.toDmiFrame.dmiWrite _ _

theorem issue (cmd : Word) : Keeps R E Z (issue cmd) := F.toTxFrame.passThen <|
  keeps_bind F.toRuns (F.toTxFrame.line (F.toDmiFrame.dmiWrite _ _)) fun _ => F.toTxFrame.line F.waitIdle

theorem runWith {again : Op Unit} (h : Keeps R E Z again) (acs : Word) : Keeps R E Z (runWith again acs) := by
  refine F.toTxFrame.passThen ?_
  split
  · exact keeps_pure F.toRuns _
  · exact keeps_bind F.toRuns (F.toTxFrame.line F.clearCmderr) fun _ =>
      F.toTxFrame.passThen (F.toTxFrame.raise Error.noConfusion)
  · exact keeps_bind F.toRuns (F.toTxFrame.line F.clearCmderr) fun _ => F.toTxFrame.passThen h

theorem runAgain (cmd : Word) (left : Nat) : Keeps R E Z (runAgain cmd left) := by
  induction left with
  | zero => exact F.toTxFrame.raise Error.noConfusion
  | succ n ih =>
    exact F.toTxFrame.passThen (keeps_bind F.toRuns (F.toTxFrame.update F.reissued) fun _ => F.toTxFrame.passThen
      (keeps_bind F.toRuns (F.issue cmd) fun a => F.runWith ih a))

theorem run (cmd : Word) : Keeps R E Z (run cmd) :=
  keeps_bind F.toRuns (F.toTxFrame.update fun s => F.started s cmd) fun _ =>
  keeps_bind F.toRuns (F.issue cmd) fun _ => keeps_looking F.toRuns fun _ => F.runWith (F.runAgain _ _) _

theorem runReg (cmd : Word) (r : BitVec 16) : Keeps R E Z (runReg cmd r) := by
  refine F.toTxFrame.line (keeps_mapError (fun e => ?_) (F.run cmd))
  unfold regError
  split
  · next h => simp [h]
  · exact Iff.rfl

end RunFrame

namespace WireFrame

variable (F : WireFrame R E Z)
include F

theorem readOne (r : BitVec 16) : Keeps R E Z (readOne r) :=
  keeps_bind F.toRuns (F.toTxFrame.line (F.toRunFrame.runReg _ _)) fun _ =>
    F.toTxFrame.line (F.toDmiFrame.dmiRead _)

theorem writeOne (r : BitVec 16) (v : Word) : Keeps R E Z (writeOne r v) :=
  keeps_bind F.toRuns (F.toTxFrame.line (F.toDmiFrame.dmiWrite _ _)) fun _ =>
    F.toTxFrame.line (F.toRunFrame.runReg _ _)

theorem setBatchIndex (k : Nat) : Keeps R E Z (setBatchIndex k) :=
  keeps_update fun s => F.register s k

theorem surfacePoll (r : BitVec 16) (c : CmdClass) : Keeps R E Z (surfacePoll r c) := by
  cases c with
  | ok => exact F.toTxFrame.raise Error.noConfusion
  | busy => exact F.toTxFrame.raise Error.noConfusion
  | fail kind =>
    exact keeps_ite (F.toTxFrame.passThen (F.toTxFrame.raise Error.noConfusion))
      (F.toTxFrame.passThen (F.toTxFrame.raise Error.noConfusion))

theorem continuePoll (r : BitVec 16) (trailing : Bool) : Keeps R E Z (continuePoll r trailing) :=
  keeps_bind F.toRuns (F.toTxFrame.line F.toRunFrame.waitIdle) fun _ => F.toTxFrame.passThen <|
    keeps_ite (keeps_pure F.toRuns _) <|
    keeps_bind F.toRuns (F.toTxFrame.line F.toRunFrame.clearCmderr) fun _ => F.toTxFrame.passThen <|
    keeps_ite (keeps_pure F.toRuns _) (F.surfacePoll r _)

theorem initRead (base : BitVec 16) (count : Nat) : Keeps R E Z (initRead base count) :=
  keeps_bind F.toRuns (F.setBatchIndex 0) fun _ =>
  keeps_bind F.toRuns (F.toTxFrame.line (F.toRunFrame.runReg _ _)) fun _ =>
  keeps_bind F.toRuns (F.toTxFrame.line (F.toDmiFrame.dmiWrite _ _)) fun _ =>
  keeps_bind F.toRuns (F.toTxFrame.line (F.toDmiFrame.dmiRead _)) fun _ =>
  keeps_bind F.toRuns (F.toTxFrame.line (F.continuePoll _ _)) fun _ => F.toTxFrame.passThen (keeps_pure F.toRuns _)

theorem continueRead (base : BitVec 16) (count k : Nat) : Keeps R E Z (continueRead base count k) :=
  keeps_bind F.toRuns (F.setBatchIndex k) fun _ =>
  keeps_bind F.toRuns (F.toTxFrame.line (F.toDmiFrame.dmiRead _)) fun _ =>
  keeps_bind F.toRuns (F.toTxFrame.line (F.continuePoll _ _)) fun _ => F.toTxFrame.passThen (keeps_pure F.toRuns _)

theorem continueReads (base : BitVec 16) (count n k : Nat) : Keeps R E Z (continueReads base count n k) := by
  induction n generalizing k with
  | zero => exact keeps_pure F.toRuns _
  | succ n ih =>
    exact keeps_bind F.toRuns (F.toTxFrame.line (F.continueRead base count k)) fun _ =>
      keeps_bind F.toRuns (ih (k + 1)) fun _ => keeps_pure F.toRuns _

theorem initWrite (base : BitVec 16) (v : Word) : Keeps R E Z (initWrite base v) :=
  keeps_bind F.toRuns (F.setBatchIndex 0) fun _ =>
  keeps_bind F.toRuns (F.toTxFrame.line (F.toDmiFrame.dmiWrite _ _)) fun _ =>
  keeps_bind F.toRuns (F.toTxFrame.line (F.toRunFrame.runReg _ _)) fun _ =>
    F.toTxFrame.line (F.toDmiFrame.dmiWrite _ _)

theorem continueWrite (base : BitVec 16) (k : Nat) (v : Word) : Keeps R E Z (continueWrite base k v) :=
  keeps_bind F.toRuns (F.setBatchIndex k) fun _ =>
  keeps_bind F.toRuns (F.toTxFrame.line (F.toDmiFrame.dmiWrite _ _)) fun _ =>
    F.toTxFrame.line (F.continuePoll _ _)

theorem continueWrites (base : BitVec 16) (vs : List Word) (k : Nat) : Keeps R E Z (continueWrites base vs k) := by
  induction vs generalizing k with
  | nil => exact keeps_pure F.toRuns _
  | cons v vs ih =>
    exact keeps_bind F.toRuns (F.toTxFrame.line (F.continueWrite base k v)) fun _ => ih (k + 1)

theorem readNone (base : BitVec 16) (n k : Nat) : Keeps R E Z (readNone base n k) := by
  induction n generalizing k with
  | zero => exact keeps_pure F.toRuns _
  | succ n ih =>
    exact keeps_bind F.toRuns
      (F.toTxFrame.line (keeps_bind F.toRuns (F.setBatchIndex k) fun _ => F.readOne _)) fun _ =>
      keeps_bind F.toRuns (ih (k + 1)) fun _ => keeps_pure F.toRuns _

theorem writeNone (base : BitVec 16) (vs : List Word) (k : Nat) : Keeps R E Z (writeNone base vs k) := by
  induction vs generalizing k with
  | nil => exact keeps_pure F.toRuns _
  | cons v vs ih =>
    exact keeps_bind F.toRuns
      (F.toTxFrame.line (keeps_bind F.toRuns (F.setBatchIndex k) fun _ => F.writeOne _ _)) fun _ => ih (k + 1)

end WireFrame

theorem CleanupFrame.withCleanup (F : CleanupFrame R E Z) {o : Pending} {c : Op Unit} {x : Op α} (hc : Keeps R E Z c)
    (hx : Keeps R E Z x) : Keeps R E Z (withCleanup o c x) :=
  keeps_withCleanup F.toRuns (fun s => F.pushed s o) F.popped F.held hc hx

namespace WireFrame

variable (F : WireFrame R E Z)
include F

theorem readBatch (base : BitVec 16) (count : Nat) : Keeps R E Z (readBatch base count) := F.toTxFrame.passThen <|
  keeps_bind F.toRuns (F.toCleanupFrame.withCleanup (F.toTxFrame.passThen (F.toTxFrame.line (F.toDmiFrame.dmiWrite _ _)))
    (keeps_bind F.toRuns (F.toTxFrame.line (F.initRead base count)) fun _ =>
      keeps_bind F.toRuns (F.continueReads base count _ _) fun _ => keeps_pure F.toRuns _)) fun _ =>
  F.toTxFrame.passThen (keeps_pure F.toRuns _)

theorem writeBatch (base : BitVec 16) (v : Word) (vs : List Word) : Keeps R E Z (writeBatch base v vs) :=
  F.toTxFrame.passThen <|
    F.toCleanupFrame.withCleanup (F.toTxFrame.passThen (F.toTxFrame.line (F.toDmiFrame.dmiWrite _ _))) <|
      keeps_bind F.toRuns (F.toTxFrame.line (F.initWrite base v)) fun _ => F.continueWrites base vs 1

theorem readEach (base : BitVec 16) (count : Nat) : Keeps R E Z (readEach base count) :=
  keeps_bind F.toRuns (F.readNone base count 0) fun _ => F.toTxFrame.passThen (keeps_pure F.toRuns _)

theorem writeEach (base : BitVec 16) (vals : List Word) : Keeps R E Z (writeEach base vals) :=
  keeps_bind F.toRuns (F.writeNone base vals 0) fun _ => F.toTxFrame.pass _ _

theorem usesAutoexec (count : Nat) : Keeps R E Z (usesAutoexec count) :=
  keeps_ite (keeps_pure F.toRuns _) (keeps_readReg F.toRuns F.noAutoexec)

theorem readRegisters (base : BitVec 16) (count : Nat) : Keeps R E Z (readRegisters base count) :=
  keeps_bind F.toRuns (F.toTxFrame.line (keeps_require F.toRuns _ Error.noConfusion)) fun _ =>
  keeps_ite (keeps_pure F.toRuns _) <|
    keeps_bind F.toRuns (F.toTxFrame.line (F.usesAutoexec count)) fun _ =>
      keeps_ite (F.readBatch base count) (F.readEach base count)

theorem writeRegisters (base : BitVec 16) (vals : List Word) : Keeps R E Z (writeRegisters base vals) := by
  refine keeps_bind F.toRuns (F.toTxFrame.line (keeps_require F.toRuns _ Error.noConfusion)) fun _ => ?_
  cases vals with
  | nil => exact keeps_pure F.toRuns _
  | cons v vs =>
    exact keeps_bind F.toRuns (F.toTxFrame.line (F.usesAutoexec _)) fun _ =>
      keeps_ite (F.writeBatch base v vs) (F.writeEach base (v :: vs))

theorem execBody (inp : List Word) (m : Nat) : Keeps R E Z (execBody inp m) :=
  keeps_bind F.toRuns (F.toTxFrame.line (keeps_ite (keeps_pure F.toRuns _) (F.writeRegisters _ _))) fun _ =>
  keeps_bind F.toRuns (F.toTxFrame.line (F.toRunFrame.run _)) fun _ =>
    F.toTxFrame.line (keeps_ite (keeps_pure F.toRuns _) (F.readRegisters _ _))

end WireFrame

/-! ## The number of values read -/

theorem continueReads_length (base : BitVec 16) (count n k : Nat) :
    Returns (fun vs => vs.length = n) (continueReads base count n k) := by
  induction n generalizing k with
  | zero => exact returns_pure rfl
  | succ n ih =>
    exact returns_bind (returns_any _) fun v _ =>
      returns_bind (ih (k + 1)) fun vs hv => returns_pure (by simp [hv])

theorem readNone_length (base : BitVec 16) (n k : Nat) :
    Returns (fun vs => vs.length = n) (readNone base n k) := by
  induction n generalizing k with
  | zero => exact returns_pure rfl
  | succ n ih =>
    exact returns_bind (returns_any _) fun v _ =>
      returns_bind (ih (k + 1)) fun vs hv => returns_pure (by simp [hv])

/-- `read_registers` answers as many values as were asked for (R154). -/
theorem readRegisters_length (base : BitVec 16) (count : Nat) :
    Returns (fun vs => vs.length = count) (readRegisters base count) := by
  refine returns_bind (returns_any _) fun _ _ => ?_
  split
  · next h => exact returns_pure (by simp [h])
  · next h =>
    refine returns_bind (returns_any _) fun b _ => ?_
    cases b with
    | false =>
      exact returns_bind (readNone_length base count 0) fun _ ho => returns_bind (returns_any _) fun _ _ => returns_pure ho
    | true =>
      refine returns_bind (returns_any _) fun _ _ => returns_bind (P := fun vs => vs.length = count)
        (returns_withCleanup (returns_bind (returns_any _) fun v _ =>
          returns_bind (continueReads_length base count _ _) fun vs hv => returns_pure ?_)) fun _ ho =>
        returns_bind (returns_any _) fun _ _ => returns_pure ho
      simp only [List.length_cons, hv]
      omega

/-! ## Attach -/

/-- Negotiation and discovery after the DTMCS read, but for the diagnostic of step (d). -/
structure SessionFrame (R E : State → State → Prop) (Z : State → Prop) : Prop extends CleanupFrame R E Z where
  version : ∀ (s : State) (v : DebugVersion), R s (s.wroteVersion v)
  impebreak : ∀ (s : State) (b : Bool), R s (s.wroteImpebreak b)
  capabilities : ∀ (s : State) (f : AcsFields), R s (s.wroteCapabilities f)
  csrPath : ∀ (s : State) (b : Bool), R s (s.wroteCsrPath b)
  autoexec : ∀ (s : State) (b : Bool), R s (s.wroteAutoexec b)
  phase : ∀ (s : State) (p : Phase), R s (s.atPhase p)
  hartsellen : ∀ (s : State) (n : BitVec 20), R s (s.wroteHartsellen n)
  cleared : ∀ s : State, R s s.startScan
  candidate : ∀ s : State, R s s.nextCandidate
  added : ∀ (s : State) (i : Nat), R s (s.addHart i)
  current : ∀ (s : State) (h : Nat), R s (s.makeCurrent h)

/-- With the diagnostic (R121). -/
structure AttachFrame (R E : State → State → Prop) (Z : State → Prop) : Prop extends SessionFrame R E Z where
  diagnosed : ∀ (s : State) (d : Diag), R s (s.diagnose d)

namespace SessionFrame

variable (F : SessionFrame R E Z)
include F

theorem negotiateVersion (dtm : DebugVersion) : Keeps R E Z (negotiateVersion dtm) :=
  keeps_bind F.toRuns (F.toTxFrame.line (F.toDmiFrame.dmiRead _)) fun _ => F.toTxFrame.passThen <|
  keeps_bind F.toRuns (F.toTxFrame.update fun s => F.version s _) fun _ =>
  keeps_bind F.toRuns (F.toTxFrame.line (keeps_require F.toRuns _ Error.noConfusion)) fun _ => keeps_pure F.toRuns _

theorem checkCapabilities (f : AcsFields) (b : Bool) : Keeps R E Z (checkCapabilities f b) :=
  F.toTxFrame.passThen (keeps_ite (keeps_pure F.toRuns _) (F.toTxFrame.raise Error.noConfusion))

theorem writeCapabilities (f : AcsFields) : Keeps R E Z (writeCapabilities f) := by
  rw [writeCapabilities_eq]
  exact F.toTxFrame.passUpdate fun s => F.capabilities s f

theorem negotiateCapabilities (st : Word) : Keeps R E Z (negotiateCapabilities st) :=
  keeps_bind F.toRuns (F.toTxFrame.update fun s => F.impebreak s _) fun _ =>
  keeps_bind F.toRuns (F.toTxFrame.line (F.toDmiFrame.dmiRead _)) fun _ =>
  keeps_bind F.toRuns (F.checkCapabilities _ _) fun _ =>
  keeps_bind F.toRuns (F.writeCapabilities _) fun _ =>
    F.toTxFrame.update fun s => F.csrPath s _

theorem autoexecProbe : Keeps R E Z autoexecProbe := F.toTxFrame.passThen <|
  keeps_bind F.toRuns (F.toCleanupFrame.withCleanup (F.toTxFrame.passThen (F.toTxFrame.line (F.toDmiFrame.dmiWrite _ _)))
    (keeps_bind F.toRuns (F.toTxFrame.line (F.toDmiFrame.dmiWrite _ _)) fun _ =>
      F.toTxFrame.line (F.toDmiFrame.dmiRead _))) fun _ => F.toTxFrame.update fun s => F.autoexec s _

theorem probeWidth : Keeps R E Z probeWidth :=
  keeps_bind F.toRuns (F.toTxFrame.line (F.toDmiFrame.writeHartsel _)) fun _ =>
  keeps_bind F.toRuns (F.toTxFrame.line (F.toDmiFrame.dmiRead _)) fun _ =>
  keeps_looking F.toRuns fun _ =>
  keeps_bind F.toRuns (F.toTxFrame.update fun s => F.hartsellen s _) fun _ => keeps_pure F.toRuns _

theorem scanHarts (n : BitVec 20) (left i : Nat) : Keeps R E Z (scanHarts n left i) := by
  induction left generalizing i with
  | zero => exact F.toTxFrame.pass _ _
  | succ left ih =>
    refine F.toTxFrame.passThen (keeps_ite ?_ (keeps_pure F.toRuns _))
    exact keeps_bind F.toRuns (F.toTxFrame.line (F.toDmiFrame.writeHartsel _)) fun _ =>
      keeps_bind F.toRuns (F.toTxFrame.line (F.toDmiFrame.dmiRead _)) fun _ => F.toTxFrame.passThen <|
      keeps_ite (keeps_pure F.toRuns _)
        (keeps_bind F.toRuns (F.toTxFrame.update fun s => F.added s i) fun _ => F.toTxFrame.passThen <|
          keeps_bind F.toRuns (F.toTxFrame.update F.candidate) fun _ => ih (i + 1))

theorem discoverHarts : Keeps R E Z discoverHarts :=
  keeps_bind F.toRuns F.probeWidth fun n =>
  keeps_bind F.toRuns (F.toTxFrame.update F.cleared) fun _ =>
  keeps_looking F.toRuns fun _ =>
  keeps_bind F.toRuns (F.scanHarts n _ _) fun _ =>
  keeps_bind F.toRuns (F.toTxFrame.update fun s => F.current s 0) fun _ =>
  F.toTxFrame.passThen (keeps_look F.toRuns _)

end SessionFrame

/-- The steps of ATTACH once the session has started (R114). -/
def attachRest (dtm : DebugVersion) : Op Nat := do
  line 114 5 (negotiate dtm)
  line 114 6 (setPhase .discovering)
  let n ← line 114 7 discoverHarts
  line 114 8 (setPhase .ready)
  pass 114 [9]
  pure n

theorem attachSteps_eq :
    attachSteps = (pass 114 [3] >>= fun _ => line 114 4 sessionStart >>= attachRest) := rfl

namespace AttachFrame

variable (F : AttachFrame R E Z)
include F

theorem negotiateNextdm : Keeps R E Z negotiateNextdm :=
  keeps_bind F.toRuns (F.toTxFrame.line (F.toDmiFrame.dmiRead _)) fun _ =>
    F.toTxFrame.line (keeps_ite (keeps_pure F.toRuns _) (keeps_update fun s => F.diagnosed s _))

theorem negotiate (dtm : DebugVersion) : Keeps R E Z (negotiate dtm) :=
  keeps_bind F.toRuns (F.toTxFrame.line F.toTxFrame.hardReset) fun _ =>
  keeps_bind F.toRuns (F.toSessionFrame.negotiateVersion dtm) fun st =>
  keeps_bind F.toRuns (F.toTxFrame.line (keeps_require F.toRuns _ Error.noConfusion)) fun _ =>
  keeps_bind F.toRuns F.negotiateNextdm fun _ =>
  keeps_bind F.toRuns (F.toSessionFrame.negotiateCapabilities st) fun _ => F.toSessionFrame.autoexecProbe

theorem attachRest (dtm : DebugVersion) : Keeps R E Z (attachRest dtm) :=
  keeps_bind F.toRuns (F.toTxFrame.line (F.negotiate _)) fun _ =>
  keeps_bind F.toRuns (F.toTxFrame.update fun s => F.phase s _) fun _ =>
  keeps_bind F.toRuns (F.toTxFrame.line F.toSessionFrame.discoverHarts) fun _ =>
  keeps_bind F.toRuns (F.toTxFrame.update fun s => F.phase s _) fun _ =>
  F.toTxFrame.passThen (keeps_pure F.toRuns _)

theorem sessionStart (hd : ∀ (s : State) (d : Word), R s (s.wroteDtmcs d)) : Keeps R E Z sessionStart :=
  keeps_bind F.toRuns (F.toTxFrame.line F.toTxFrame.readDtmcs) fun d =>
    keeps_bind F.toRuns (by rw [writeDtmcs_eq]; exact F.toTxFrame.passUpdate fun s => hd s d) fun _ =>
    keeps_pure F.toRuns _

/-- ATTACH inside its `try-all` (R114), whatever the DTMCS read gives. -/
theorem attachSteps (hd : ∀ (s : State) (d : Word), R s (s.wroteDtmcs d)) : Keeps R E Z attachSteps :=
  F.toTxFrame.passThen (keeps_bind F.toRuns (F.toTxFrame.line (F.sessionStart hd)) F.attachRest)

end AttachFrame

end Sys2Proof.Machine
end

