-- ==== Sys2Proof/Laws/Quiet.lean ====
section
/-! SUPPORT. What an operation does where the environment answers every DMI shift with NO_ERROR: the words it shifts,
in order, what it gives, and what it leaves of the rest of the state. One lemma for each operation, composed by
`Serves.bind`. -/

namespace Sys2Proof.Machine

variable {α β : Type}

/-- The state without the fields that shifting words and counting them change. -/
def State.core (s : State) : State :=
  { s with
    lastDmiCommand := none, lastValid := false, irCurrent := .none, req := none, label := [], dmiTries := 0, polls := 0
    busyTries := 0, batchIndex := 0, dmiCmd := 0, runCmd := 0, pending := [], primaryError := none
    replies := [], actionCount := 0, moves := [], trace := [], result := none }

@[simp] theorem core_params (s : State) : s.core.params = s.params := rfl
@[simp] theorem core_addressBits (s : State) : s.core.addressBits = s.addressBits := rfl
@[simp] theorem moveTo_core (s : State) (l : Line) : (s.moveTo l).core = s.core := rfl
@[simp] theorem passed_core (s : State) (r : Nat) (ns : List Nat) : (s.passed r ns).core = s.core := rfl
@[simp] theorem backTo_core (s : State) (ls : List Line) : (s.backTo ls).core = s.core := rfl
@[simp] theorem beginShift_core (s : State) (w : DmiWord) : (s.beginShift w).core = s.core := rfl

/-- How an operation ended. -/
def Gives (r : EStateM.Result Stop State α) (out : Except Error α) (t : State) : Prop :=
  match out with
  | .ok a => r = .ok a t
  | .error e => r = .error (.err e) t

/-- The selection the words `ws` need: none where there is no word. -/
def Selecting (s : State) (ws : List DmiWord) (pre : List Reply) : Prop :=
  if ws = [] then pre = [] else Selected s pre

/-- The words `ws` were shifted, each answered NO_ERROR; with no word nothing changed. -/
structure After (A : Nat) (s t : State) (ws : List DmiWord) (pre rs rest : List Reply) : Prop where
  trace : t.trace = s.trace ++ selectLines pre ++ List.zipWith (dmiLine A) ws rs
  replies : t.replies = rest
  last : t.lastDmiCommand = ws.getLast?.or s.lastDmiCommand
  valid : t.lastValid = (s.lastValid || !ws.isEmpty)
  ir : t.irCurrent = if ws = [] then s.irCurrent else .dmi

/-- With parameters `p` and the address width of `lk`, the operation shifts the words `ws`, answered with the data `ds`,
ends with `out`, and changes the rest of the state by `g`. -/
structure Serves (lk : Link) (p : Params) (x : Op α) (ws : List DmiWord) (ds : List Word) (out : Except Error α)
    (g : State → State) : Prop where
  len : ws.length = ds.length
  params : ∀ c, (g c).params = c.params
  width : ∀ c, (g c).addressBits = c.addressBits
  run : ∀ (s : State) (pre rs rest : List Reply), s.params = p → s.addressBits = some lk.abits → Selecting s ws pre →
    s.replies = pre ++ rs ++ rest → Quiet lk.A rs ds →
    ∃ t, Gives (x s) out t ∧ After lk.A s t ws pre rs rest ∧ t.core = g s.core

variable {lk : Link} {p : Params}

/-- A change of the sequencer's own fields goes unnoticed. -/
theorem serves_update {f g : State → State} (hp : ∀ c, (g c).params = c.params)
    (hw : ∀ c, (g c).addressBits = c.addressBits)
    (hc : ∀ s, (f s).core = g s.core) (ht : ∀ s, (f s).trace = s.trace) (hr : ∀ s, (f s).replies = s.replies)
    (hl : ∀ s, (f s).lastDmiCommand = s.lastDmiCommand) (hv : ∀ s, (f s).lastValid = s.lastValid)
    (hi : ∀ s, (f s).irCurrent = s.irCurrent) :
    Serves lk p (update f) [] [] (.ok ()) g where
  len := rfl
  params := hp
  width := hw
  run := by
    intro s pre rs rest _ _ hs hrep hq
    cases hq
    simp only [Selecting, if_true] at hs
    subst hs
    exact ⟨f s, rfl, ⟨by simp [ht, selectLines], by simpa [hr] using hrep, by simp [hl], by simp [hv], by simp [hi]⟩,
      hc s⟩

theorem serves_pure (a : α) : Serves lk p (pure a : Op α) [] [] (.ok a) id where
  len := rfl
  params _ := rfl
  width _ := rfl
  run := by
    intro s pre rs rest _ _ hs hrep hq
    cases hq
    simp only [Selecting, if_true] at hs
    subst hs
    exact ⟨s, rfl, ⟨by simp [selectLines], by simpa using hrep, by simp, by simp, by simp⟩, rfl⟩

theorem serves_raise (e : Error) : Serves lk p (raise e : Op α) [] [] (.error e) id where
  len := rfl
  params _ := rfl
  width _ := rfl
  run := by
    intro s pre rs rest _ _ hs hrep hq
    cases hq
    simp only [Selecting, if_true] at hs
    subst hs
    exact ⟨s, rfl, ⟨by simp [selectLines], by simpa using hrep, by simp, by simp, by simp⟩, rfl⟩

/-- A change of the session, the hart table or what the host is told. -/
theorem serves_change (f : State → State) (hp : ∀ c, (f c).params = c.params := by intro _; rfl)
    (hw : ∀ c, (f c).addressBits = c.addressBits := by intro _; rfl)
    (hc : ∀ s, (f s).core = f s.core := by intro _; rfl) (ht : ∀ s, (f s).trace = s.trace := by intro _; rfl)
    (hr : ∀ s, (f s).replies = s.replies := by intro _; rfl)
    (hl : ∀ s, (f s).lastDmiCommand = s.lastDmiCommand := by intro _; rfl)
    (hv : ∀ s, (f s).lastValid = s.lastValid := by intro _; rfl)
    (hi : ∀ s, (f s).irCurrent = s.irCurrent := by intro _; rfl) : Serves lk p (update f) [] [] (.ok ()) f :=
  serves_update hp hw hc ht hr hl hv hi

/-- A line serves what its statement serves: the label is no concern of the wire. -/
theorem Serves.line {x : Op α} {ws : List DmiWord} {ds : List Word} {out : Except Error α} {g : State → State}
    (h : Serves lk p x ws ds out g) (r n : Nat) : Serves lk p (Machine.line r n x) ws ds out g where
  len := h.len
  params := h.params
  width := h.width
  run := by
    intro s pre rs rest hp hw hs hrep hq
    obtain ⟨t, e, A, c⟩ := h.run (s.moveTo ⟨r, n⟩) pre rs rest hp hw hs hrep hq
    refine ⟨t.backTo s.label, ?_, ⟨A.trace, A.replies, A.last, A.valid, A.ir⟩, c⟩
    cases out with
    | ok a => exact line_ok e
    | error e' => exact line_error e

/-- The parameters read. -/
theorem serves_params (f : Params → Op α) {ws : List DmiWord} {ds : List Word} {out : Except Error α}
    {g : State → State} (h : Serves lk p (f p) ws ds out g) : Serves lk p (look State.params >>= f) ws ds out g where
  len := h.len
  params := h.params
  width := h.width
  run := by
    intro s pre rs rest hp
    rw [look_bind, hp]
    exact h.run s pre rs rest hp

theorem quiet_append {A : Nat} {rs : List Reply} {ds es : List Word} (h : Quiet A rs (ds ++ es)) :
    ∃ rs1 rs2, Quiet A rs1 ds ∧ Quiet A rs2 es ∧ rs = rs1 ++ rs2 := by
  induction ds generalizing rs with
  | nil => exact ⟨[], rs, .nil, h, rfl⟩
  | cons d ds ih =>
    cases h with
    | cons h1 h2 =>
      obtain ⟨r1, r2, a, b, rfl⟩ := ih h2
      exact ⟨_ :: r1, r2, .cons h1 a, b, rfl⟩

/-- Words shifted one after the other. -/
theorem After.trans {A : Nat} {s t u : State} {ws vs : List DmiWord} {pre rs qs mid rest : List Reply}
    (h : After A s t ws pre rs mid) (hw : ws ≠ []) (hl : rs.length = ws.length) (g : After A t u vs [] qs rest) :
    After A s u (ws ++ vs) pre (rs ++ qs) rest := by
  have hir : t.irCurrent = .dmi := by simpa [hw] using h.ir
  refine ⟨?_, g.replies, ?_, ?_, ?_⟩
  · rw [List.zipWith_append hl.symm]
    simpa [h.trace, selectLines] using g.trace
  · rw [g.last, h.last, List.getLast?_append, Option.or_assoc]
  · rw [g.valid, h.valid]
    have : ws.isEmpty = false := by simpa using hw
    simp [this, hw]
  · rw [g.ir, hir]
    simp [hw]

/-- One operation after the other. -/
theorem Serves.andThen {x : Op α} {f : α → Op β} {ws vs : List DmiWord} {ds es : List Word} {a : α}
    {out : Except Error β} {g h : State → State} (hx : Serves lk p x ws ds (.ok a) g)
    (hf : Serves lk p (f a) vs es out h) : Serves lk p (x >>= f) (ws ++ vs) (ds ++ es) out (h ∘ g) where
  len := by simp [hx.len, hf.len]
  params c := by simp [hf.params, hx.params]
  width c := by simp [hf.width, hx.width]
  run := by
    intro s pre rs rest hp hw0 hs hrep hq
    obtain ⟨rs1, rs2, h1, h2, rfl⟩ : ∃ rs1 rs2, Quiet lk.A rs1 ds ∧ Quiet lk.A rs2 es ∧ rs = rs1 ++ rs2 := by
      exact quiet_append hq
    have hl1 : rs1.length = ws.length := by rw [hx.len]; exact h1.length_eq
    by_cases hw : ws = []
    · subst hw
      have hd : ds = [] := List.length_eq_zero_iff.mp (by simpa using hx.len.symm)
      subst hd
      cases h1
      obtain ⟨t, e1, A1, c1⟩ := hx.run s [] [] (pre ++ rs2 ++ rest) hp hw0 (by simp [Selecting]) (by simpa using hrep) .nil
      have hir : t.irCurrent = s.irCurrent := by simpa using A1.ir
      have htp : t.params = p := by
        have := congrArg State.params c1
        rw [hx.params] at this
        exact this.trans hp
      have htw : t.addressBits = some lk.abits := by
        have := congrArg State.addressBits c1
        rw [hx.width] at this
        exact this.trans hw0
      obtain ⟨u, e2, A2, c2⟩ := hf.run t pre rs2 rest htp htw (by simpa [Selecting, Selected, hir] using hs) A1.replies h2
      refine ⟨u, ?_, ⟨?_, A2.replies, ?_, ?_, ?_⟩, by rw [c2, c1]; rfl⟩
      · simp only [Gives] at e1
        rwa [bind_ok f e1]
      · simpa [A1.trace, selectLines] using A2.trace
      · simpa [A1.last] using A2.last
      · simpa [A1.valid] using A2.valid
      · simpa [hir] using A2.ir
    · have hs1 : Selecting s ws pre := by simpa [Selecting, hw] using hs
      obtain ⟨t, e1, A1, c1⟩ := hx.run s pre rs1 (rs2 ++ rest) hp hw0 hs1 (by simpa using hrep) h1
      have hir : t.irCurrent = .dmi := by simpa [hw] using A1.ir
      have htp : t.params = p := by
        have := congrArg State.params c1
        rw [hx.params] at this
        exact this.trans hp
      have htw : t.addressBits = some lk.abits := by
        have := congrArg State.addressBits c1
        rw [hx.width] at this
        exact this.trans hw0
      obtain ⟨u, e2, A2, c2⟩ := hf.run t [] rs2 rest htp htw (by simp [Selecting, Selected, hir]) (by simpa using A1.replies) h2
      refine ⟨u, ?_, A1.trans hw hl1 A2, by rw [c2, c1]; rfl⟩
      simp only [Gives] at e1
      rwa [bind_ok f e1]

/-- One operation after the other, where neither changes the rest of the state. -/
theorem Serves.bind {x : Op α} {f : α → Op β} {ws vs us : List DmiWord} {ds es cs : List Word} {a : α}
    {out : Except Error β} (hx : Serves lk p x ws ds (.ok a) id)
    (hf : Serves lk p (f a) vs es out id) (hus : us = ws ++ vs := by first | rfl | simp)
    (hcs : cs = ds ++ es := by first | rfl | simp) : Serves lk p (x >>= f) us cs out id := by
  subst hus hcs
  exact hx.andThen hf

/-- An operation that raises ends what comes after it. -/
theorem Serves.bind_error {x : Op α} (f : α → Op β) {ws : List DmiWord} {ds : List Word} {e : Error}
    {g : State → State} (hx : Serves lk p x ws ds (.error e) g) : Serves lk p (x >>= f) ws ds (.error e) g where
  len := hx.len
  params := hx.params
  width := hx.width
  run := by
    intro s pre rs rest hp hw hs hrep hq
    obtain ⟨t, e1, A1, c1⟩ := hx.run s pre rs rest hp hw hs hrep hq
    exact ⟨t, Machine.bind_error f e1, A1, c1⟩

/-- A result made from the result. -/
theorem Serves.thenPure {x : Op α} {ws : List DmiWord} {ds : List Word} {a : α} (hx : Serves lk p x ws ds (.ok a) id)
    (f : α → β) : Serves lk p (do let a ← x; pure (f a)) ws ds (.ok (f a)) id :=
  hx.bind (f := fun a => pure (f a)) (serves_pure (f a)) (List.append_nil _).symm (List.append_nil _).symm

/-! ## One DMI shift -/

theorem act_done {s : State} {b : Buffer} {rest : List Reply} (a : Action) (h : s.replies = .done b :: rest) :
    act a s = .ok b (s.issued a) := by
  simp [act, State.nextReply, h]

theorem act_failed {s : State} {rest : List Reply} (a : Action) (h : s.replies = .failed :: rest) :
    act a s = .error (.err .transportFailure) (s.issued a) := by
  simp [act, State.nextReply, h]

/-- The value captured where the shift completes (R50). -/
def Reply.value (n : Nat) : Reply → DmiWord
  | .done b => unpackBytes n b.toList
  | .failed => 0

/-- A shift that completes. -/
theorem txShift_completes {s : State} {r : Reply} {rest : List Reply} (n : Nat) (w : DmiWord)
    (h : s.replies = r :: rest) (hr : r.completes) :
    txShift n w s = .ok (r.value n) (s.issued (.shiftDr (packBytes n w) n)) := by
  cases r with
  | done b =>
    unfold txShift
    rw [bind_ok _ (act_done _ h)]
    rfl
  | failed => exact hr.elim

theorem Reply.answers.completes {A : Nat} {st : DmiStatus} {d : Word} {r : Reply} (h : r.answers A st d) :
    r.completes := by
  cases r
  · trivial
  · exact h.elim

theorem Reply.answers.value {A : Nat} {st : DmiStatus} {d : Word} {r : Reply} (h : r.answers A st d) :
    dmiOp (r.value (dmiWidth A)) = st.toBits ∧ dmiData (r.value (dmiWidth A)) = d := by
  cases r
  · exact h
  · exact h.elim

theorem nextReply_cons {s : State} {r : Reply} {rest : List Reply} (h : s.replies = r :: rest) : s.nextReply = r := by
  cases r <;> simp [State.nextReply, h]

theorem issued_trace_eq {s : State} {r : Reply} {rest : List Reply} (a : Action) (h : s.replies = r :: rest) :
    (s.issued a).trace = s.trace ++ [(a, r)] := by
  simp [nextReply_cons h]

/-- NO_ERROR records the shift's word and returns the data (R97). -/
theorem onStatus_noError (again : Op Word) (r : DmiWord) (s : State) (h : dmiOp r = DmiStatus.noError.toBits) :
    onStatus again r s = .ok (dmiData r) (s.passed 95 [7, 8, 9]).recordSuccess := by
  unfold onStatus
  rw [h, ofBits_toBits]
  simp only [recordShift_eq]
  rfl

/-- The classification of a capture starts at the two lines that read its status (R95). -/
theorem dmiClassify_run (left : Nat) (r : DmiWord) (s : State) :
    dmiClassify left r s = onStatus (dmiRetry left) r (s.passed 95 [5, 6]) := rfl

/-- The shift's word goes out and the capture comes back (R95). -/
theorem shiftCmd_completes {s : State} {r : Reply} {rest : List Reply} (hw : s.addressBits = some lk.abits)
    (h : s.replies = r :: rest) (hr : r.completes) :
    ∃ t, shiftCmd s = .ok (r.value (dmiWidth lk.A)) t ∧ t.trace = s.trace ++ [dmiLine lk.A s.dmiCmd r]
      ∧ t.replies = rest ∧ t.irCurrent = s.irCurrent ∧ t.dmiCmd = s.dmiCmd ∧ t.lastDmiCommand = s.lastDmiCommand
      ∧ t.lastValid = s.lastValid ∧ t.label = s.label ∧ t.moves = s.moves ++ movesAt 95 [3, 4] s.label
      ∧ t.core = s.core := by
  obtain ⟨u, hu⟩ : ∃ u, u = (s.passed 95 [3]).moveTo ⟨95, 4⟩ := ⟨_, rfl⟩
  have hw' : u.addressBits = some lk.abits := by rw [hu]; exact hw
  have hr' : u.replies = r :: rest := by rw [hu]; exact h
  have e := txShift_completes (s := u) (dmiWidth lk.A) s.dmiCmd hr' hr
  refine ⟨(u.issued (.shiftDr (packBytes (dmiWidth lk.A) s.dmiCmd) (dmiWidth lk.A))).backTo s.label, ?_, ?_, ?_, ?_, ?_,
    ?_, ?_, ?_, ?_, ?_⟩
  · unfold shiftCmd
    rw [pass_bind]
    refine line_ok (show (look State.dmiCmd >>= shiftDmi) _ = _ from ?_)
    rw [look_bind, ← hu, show u.dmiCmd = s.dmiCmd by rw [hu]; rfl]
    unfold shiftDmi
    rw [bind_ok _ (addressWidth_some hw')]
    exact e
  · rw [State.backTo_trace, issued_trace_eq _ hr', hu]
    rfl
  · simp [hr']
  all_goals rw [hu]
  all_goals simp [movesAt, State.core]

/-- EnsureIR, where the selection completes (R102). -/
theorem ensureDmi_selected {s : State} {pre rest : List Reply} (hs : Selected s pre) (hr : s.replies = pre ++ rest) :
    ∃ t, ensureDmi s = .ok () t ∧ t.trace = s.trace ++ selectLines pre ∧ t.replies = rest ∧ t.irCurrent = .dmi
      ∧ t.lastDmiCommand = s.lastDmiCommand ∧ t.lastValid = s.lastValid ∧ t.core = s.core ∧ t.dmiCmd = s.dmiCmd
      ∧ t.label = s.label ∧ t.moves = s.moves ++ movesAt 102 [1] s.label := by
  by_cases h : s.irCurrent = .dmi
  · have := hs.1 h
    subst this
    refine ⟨(s.moveTo ⟨102, 1⟩).backTo s.label, line_ok ?_, by simp [selectLines], by simpa using hr, h, rfl, rfl, rfl, rfl,
      rfl, rfl⟩
    simp [h]
  · obtain ⟨b, rfl⟩ := hs.2 h
    have hrep : (s.moveTo ⟨102, 1⟩).replies = .done b :: rest := by simpa using hr
    refine ⟨(((s.moveTo ⟨102, 1⟩).issued (.writeIr irCodeDmi)).selectIr .dmi).backTo s.label, line_ok ?_, ?_, ?_, ?_, ?_,
      ?_, ?_, ?_, ?_, ?_⟩
    · simp only [State.moveTo_irCurrent, h, if_false, selectDmi, txIr]
      rw [bind_ok _ (act_done _ hrep)]
      rfl
    · rw [State.backTo_trace, State.selectIr_trace, issued_trace_eq _ hrep]
      rfl
    · simpa using congrArg List.tail hrep
    all_goals simp [movesAt, State.core]

/-- The start of a DMI shift: its word takes the session's width (R95). -/
theorem beginShift_run {s : State} (cmd : Nat → DmiWord) (hw : s.addressBits = some lk.abits) :
    line 95 1 (beginShift cmd) s = .ok () (((s.moveTo ⟨95, 1⟩).beginShift (cmd lk.A)).backTo s.label) := by
  refine line_ok ?_
  unfold beginShift
  rw [bind_ok _ (addressWidth_some (s := s.moveTo ⟨95, 1⟩) hw)]
  rfl

/-- A DMI shift up to its first SHIFT (R95, R102): the word is in force, and the selection is made if one is needed. -/
theorem dmiShift_begun {s : State} (cmd : Nat → DmiWord) {pre rest : List Reply} (hw : s.addressBits = some lk.abits)
    (hs : Selected s pre) (h : s.replies = pre ++ rest) :
    ∃ t, dmiShift cmd s = (shiftCmd >>= dmiClassify s.params.dmiRetryMax) t
      ∧ t.trace = s.trace ++ selectLines pre ∧ t.replies = rest ∧ t.irCurrent = .dmi
      ∧ t.dmiCmd = cmd lk.A ∧ t.lastDmiCommand = s.lastDmiCommand ∧ t.lastValid = s.lastValid ∧ t.label = s.label
      ∧ t.moves = s.moves ++ (movesAt 95 [1, 2] s.label ++ movesAt 102 [1] (⟨95, 2⟩ :: s.label))
      ∧ t.core = s.core := by
  obtain ⟨s1, hs1⟩ : ∃ s1, s1 = ((s.moveTo ⟨95, 1⟩).beginShift (cmd lk.A)).backTo s.label := ⟨_, rfl⟩
  have hm : s1.moves = s.moves ++ [⟨95, 1⟩ :: s.label] := by rw [hs1]; rfl
  have hi : s1.irCurrent = s.irCurrent := by rw [hs1]; rfl
  have hl : s1.label = s.label := by rw [hs1]; rfl
  have hc : s1.core = s.core := by rw [hs1]; simp
  obtain ⟨t, e1, ht, htr, hti, htl, htv, htc, htd, -, htm⟩ := ensureDmi_selected (s := s1.moveTo ⟨95, 2⟩)
    (rest := rest) (by simpa [Selected, hi] using hs) (by rw [hs1]; exact h)
  rw [moveTo_core, hc] at htc
  have hp : (t.backTo s1.label).params = s.params := by rw [State.backTo_params, ← core_params, htc, core_params]
  refine ⟨t.backTo s1.label, ?_, ?_, htr, hti, ?_, ?_, ?_, hl, ?_, htc⟩
  · unfold dmiShift
    rw [bind_ok _ (beginShift_run cmd hw), ← hs1, bind_ok _ (line_ok e1), look_bind, hp]
  · rw [State.backTo_trace, ht, hs1]
    rfl
  · rw [State.backTo_dmiCmd, htd, hs1]
    rfl
  · rw [State.backTo_lastDmiCommand, htl, hs1]
    rfl
  · rw [State.backTo_lastValid, htv, hs1]
    rfl
  · rw [State.backTo_moves, htm, State.moveTo_moves, State.moveTo_label, hm, hl]
    simp [movesAt]

/-- A DMI shift up to what its first capture leads to. -/
theorem dmiShift_first {s : State} (cmd : Nat → DmiWord) {pre rest : List Reply} {r : Reply} (hr : r.completes)
    (hw : s.addressBits = some lk.abits) (hs : Selected s pre) (h : s.replies = pre ++ r :: rest) :
    ∃ t, dmiShift cmd s = onStatus (dmiRetry s.params.dmiRetryMax) (r.value (dmiWidth lk.A)) t
      ∧ t.trace = s.trace ++ selectLines pre ++ [dmiLine lk.A (cmd lk.A) r] ∧ t.replies = rest ∧ t.irCurrent = .dmi
      ∧ t.dmiCmd = cmd lk.A ∧ t.lastDmiCommand = s.lastDmiCommand ∧ t.lastValid = s.lastValid ∧ t.label = s.label
      ∧ t.moves = s.moves ++ shiftMoves s.label ∧ t.core = s.core := by
  obtain ⟨t, e, ht, htr, hti, htd, htl, htv, hla, hmo, htc⟩ := dmiShift_begun cmd hw hs h
  have hwt : t.addressBits = some lk.abits := by rw [← core_addressBits, htc, core_addressBits, hw]
  obtain ⟨u, e2, hu, hur, hui, hud, hul, huv, hla', hmo', huc⟩ := shiftCmd_completes hwt htr hr
  refine ⟨u.passed 95 [5, 6], ?_, ?_, hur, hui.trans hti, hud.trans htd, hul.trans htl, huv.trans htv, hla'.trans hla,
    ?_, huc.trans htc⟩
  · rw [e, bind_ok _ e2, dmiClassify_run]
  · rw [State.passed_trace, hu, ht, htd]
  · rw [State.passed_moves, hmo', hla', hmo, hla]
    simp [movesAt, shiftMoves]

/-- One shift answered NO_ERROR (R91, R95, R97, R102). -/
theorem serves_dmiShift (cmd : Nat → DmiWord) (d : Word) :
    Serves lk p (dmiShift cmd) [cmd lk.A] [d] (.ok d) id where
  len := rfl
  params _ := rfl
  width _ := rfl
  run := by
    intro s pre rs rest hp hw hs hrep hq
    obtain ⟨r, rfl, hr⟩ : ∃ r, rs = [r] ∧ r.answers lk.A .noError d := by
      cases hq with
      | cons h1 h2 => cases h2; exact ⟨_, rfl, h1⟩
    have hsel : Selected s pre := by simpa [Selecting] using hs
    obtain ⟨t, e1, ht, htr, hti, htd, -, -, -, -, htc⟩ := dmiShift_first cmd hr.completes hw hsel
      (rest := rest) (by simpa using hrep)
    refine ⟨(t.passed 95 [7, 8, 9]).recordSuccess, ?_, ⟨?_, htr, ?_, ?_, ?_⟩, htc⟩
    · rw [Gives, e1, onStatus_noError _ _ _ hr.value.1, hr.value.2]
    · exact ht
    · simp [htd]
    · simp
    · simp [hti]

/-- A change of the sequencer's own fields. -/
theorem serves_own (f : State → State) (hc : ∀ s, (f s).core = s.core := by intro _; rfl)
    (ht : ∀ s, (f s).trace = s.trace := by intro _; rfl) (hr : ∀ s, (f s).replies = s.replies := by intro _; rfl)
    (hl : ∀ s, (f s).lastDmiCommand = s.lastDmiCommand := by intro _; rfl)
    (hv : ∀ s, (f s).lastValid = s.lastValid := by intro _; rfl)
    (hi : ∀ s, (f s).irCurrent = s.irCurrent := by intro _; rfl) : Serves lk p (update f) [] [] (.ok ()) id :=
  serves_update (g := id) (fun _ => rfl) (fun _ => rfl) hc ht hr hl hv hi

/-- An operation that shifts nothing and changes nothing, then the rest. -/
theorem Serves.after {x : Op α} {a : α} {y : α → Op β} {ws : List DmiWord} {ds : List Word} {out : Except Error β}
    {g : State → State} (hy : Serves lk p (y a) ws ds out g) (hx : Serves lk p x [] [] (.ok a) id) :
    Serves lk p (x >>= y) ws ds out g := hx.andThen hy

theorem serves_pass (r : Nat) (ns : List Nat) : Serves lk p (pass r ns) [] [] (.ok ()) id := serves_own _

/-- Lines passed, then the rest. -/
theorem Serves.afterPass {r : Nat} {ns : List Nat} {y : Unit → Op β} {ws : List DmiWord} {ds : List Word}
    {out : Except Error β} {g : State → State} (hy : Serves lk p (y ()) ws ds out g) :
    Serves lk p (pass r ns >>= y) ws ds out g := hy.after (serves_pass r ns)

/-- Lines passed and a result made from the result, where there is one. -/
theorem Serves.thenReturn {x : Op α} {ws : List DmiWord} {ds : List Word} {out : Except Error α} {g : State → State}
    (hx : Serves lk p x ws ds out g) (r : Nat) (ns : List Nat) (f : α → β) :
    Serves lk p (do let a ← x; pass r ns; pure (f a)) ws ds (out.map f) g := by
  cases out with
  | error e => exact hx.bind_error _
  | ok a =>
    have h := hx.andThen (f := fun a => do pass r ns; pure (f a)) (Serves.afterPass (serves_pure (f a)))
    rw [List.append_nil, List.append_nil] at h
    exact h

/-! ## Reads, writes, polls -/

/-- R103. -/
theorem serves_dmiRead (a : Nat) (d v : Word) :
    Serves lk p (dmiRead a) (readWords lk.A a) [d, v] (.ok v) id :=
  ((serves_dmiShift (dmiEncode 1 a 0) d).line _ _).bind
    (((serves_dmiShift (dmiEncode 0 0 0) v).line _ _).bind (serves_pure v).afterPass)

/-- R104. -/
theorem serves_dmiWrite (a : Nat) (v d : Word) :
    Serves lk p (dmiWrite a v) (writeWords lk.A a v) [d] (.ok ()) id :=
  ((serves_dmiShift (dmiEncode 2 a v) d).line _ _).bind (serves_pure ())

/-- One line that changes the sequencer's own fields. -/
theorem Serves.afterOwn {f : State → State} {r n : Nat} {y : Unit → Op β} {ws : List DmiWord} {ds : List Word}
    {out : Except Error β} {g : State → State} (hy : Serves lk p (y ()) ws ds out g)
    (hf : Serves lk p (update f) [] [] (.ok ()) id := by exact serves_own _) :
    Serves lk p (Machine.line r n (update f) >>= y) ws ds out g := hy.after (hf.line r n)

theorem serves_pollOnce (d v : Word) :
    Serves lk p pollOnce (readWords lk.A addrAbstractCs) [d, v] (.ok v) id :=
  (((serves_dmiRead addrAbstractCs d v).line _ _).bind (serves_pure v).afterOwn).afterPass

/-- A captured ABSTRACT_CS word classified for the run in force, with its counters read (R134, R135, log 22). -/
theorem classifyAcs_run (acs : AcsFields) (e : CmdErr) (s : State) :
    classifyAcs acs e s = runWord (do
      let w ← line 134 4 (pollWith (pollAgain s.pollsLeft) (acsWord acs e))
      runWith (runAgain s.runCmd s.reissuesLeft) w
      pure .unit) s := by
  unfold classifyAcs runWord
  rw [look_bind, look_bind, look_bind]

/-- A polled word with busy 0 ends the poll, and one with busy 1 goes on (R135). -/
theorem serves_pollWith_idle (again : Op Word) {v : Word} (h : acsBusy v = false) :
    Serves lk p (pollWith again v) [] [] (.ok v) id := by
  refine Serves.afterPass ?_
  rw [h]
  exact serves_pure v

theorem serves_pollWith_busy {again : Op Word} {v : Word} (h : acsBusy v = true) {ws : List DmiWord} {ds : List Word}
    {out : Except Error Word} (hend : Serves lk p again ws ds out id) :
    Serves lk p (pollWith again v) ws ds out id := by
  refine Serves.afterPass ?_
  rw [h]
  exact hend

/-- A read that saw busy, then the rest of the poll. -/
theorem serves_pollBusy {b : Word × Word} (hb : acsBusy b.2 = true) {again : Op Word} {ws : List DmiWord}
    {ds : List Word} {out : Except Error Word} (h : Serves lk p again ws ds out id) :
    Serves lk p (pollOnce >>= pollWith again) (readWords lk.A addrAbstractCs ++ ws) ([b.1, b.2] ++ ds) out id :=
  (serves_pollOnce b.1 b.2).bind (serves_pollWith_busy hb h) rfl rfl

/-- A read that saw busy 0 ends the poll. -/
theorem serves_pollIdle (again : Op Word) (d : Word) {v : Word} (hv : acsBusy v = false) :
    Serves lk p (pollOnce >>= pollWith again) (readWords lk.A addrAbstractCs) [d, v] (.ok v) id :=
  (serves_pollOnce d v).bind (serves_pollWith_idle again hv) (List.append_nil _).symm

theorem serves_pollAgain_succ {left : Nat} {ws : List DmiWord} {ds : List Word} {out : Except Error Word}
    (h : Serves lk p (pollOnce >>= pollWith (pollAgain left)) ws ds out id) :
    Serves lk p (pollAgain (left + 1)) ws ds out id := Serves.afterPass h

/-- The reads after one that saw busy, of a poll that ends. -/
theorem serves_pollAgain (busy : List (Word × Word)) (d v : Word) (hb : ∀ b ∈ busy, acsBusy b.2 = true)
    (hv : acsBusy v = false) (left : Nat) (hl : busy.length ≤ left) :
    Serves lk p (pollAgain (left + 1))
      ((List.replicate (busy.length + 1) (readWords lk.A addrAbstractCs)).flatten)
      (busy.flatMap (fun b => [b.1, b.2]) ++ [d, v]) (.ok v) id := by
  induction busy generalizing left with
  | nil => exact serves_pollAgain_succ (by simpa using serves_pollIdle (lk := lk) (p := p) (pollAgain left) d hv)
  | cons b busy ih =>
    obtain ⟨left, rfl⟩ : ∃ n, left = n + 1 := ⟨left - 1, by simp at hl; omega⟩
    have h := serves_pollBusy (hb b List.mem_cons_self)
      (ih (fun x hx => hb x (List.mem_cons_of_mem _ hx)) left (by simpa using hl))
    exact serves_pollAgain_succ (by simpa [List.replicate_succ] using h)

/-- R135: the reads left all see busy. -/
theorem serves_pollAgain_exhausted (busy : List (Word × Word)) (hb : ∀ b ∈ busy, acsBusy b.2 = true) :
    Serves lk p (pollAgain busy.length)
      ((List.replicate busy.length (readWords lk.A addrAbstractCs)).flatten)
      (busy.flatMap fun b => [b.1, b.2]) (.error (.timeout .poll)) id := by
  induction busy with
  | nil => exact (serves_raise _).line _ _
  | cons b busy ih =>
    have h := serves_pollBusy (hb b List.mem_cons_self) (ih fun x hx => hb x (List.mem_cons_of_mem _ hx))
    exact serves_pollAgain_succ (by simpa [List.replicate_succ] using h)

/-- A poll whose first read sees busy. -/
theorem serves_waitIdle_busy {b : Word × Word} (hb : acsBusy b.2 = true) {ws : List DmiWord} {ds : List Word}
    {out : Except Error Word} (h : Serves lk p (pollAgain (p.pollMax - 1)) ws ds out id) :
    Serves lk p waitIdle (readWords lk.A addrAbstractCs ++ ws) ([b.1, b.2] ++ ds) out id :=
  Serves.afterOwn ((serves_pollOnce b.1 b.2).bind (serves_params _ (serves_pollWith_busy hb h)) rfl rfl)

/-- R135: a poll that ends within POLL_MAX reads. -/
theorem serves_waitIdle {q : Poll} (h : q.Ends p) :
    Serves lk p waitIdle (q.words lk.A) q.data (.ok q.acs) id := by
  obtain ⟨hb, hn, ha⟩ := h
  obtain ⟨busy, d, v⟩ := q
  cases busy with
  | nil =>
    exact Serves.afterOwn ((serves_pollOnce d v).bind (serves_params _ (serves_pollWith_idle _ ha))
      (List.append_nil _).symm)
  | cons b busy =>
    have h := serves_pollAgain (lk := lk) (p := p) busy d v (fun x hx => hb x (List.mem_cons_of_mem _ hx)) ha
      (p.pollMax - 2) (by simp at hn; omega)
    rw [show p.pollMax - 2 + 1 = p.pollMax - 1 by simp at hn; omega] at h
    simpa [Poll.words, Poll.data, List.replicate_succ] using serves_waitIdle_busy (hb b List.mem_cons_self) h

theorem serves_waitIdle_exhausted {busy : List (Word × Word)} (hb : ∀ b ∈ busy, acsBusy b.2 = true)
    (hn : busy.length = p.pollMax) :
    Serves lk p waitIdle ((List.replicate busy.length (readWords lk.A addrAbstractCs)).flatten)
      (busy.flatMap fun b => [b.1, b.2]) (.error (.timeout .poll)) id := by
  cases busy with
  | nil => simp [Params.pollMax] at hn
  | cons b busy =>
    have h := serves_pollAgain_exhausted (lk := lk) (p := p) busy fun x hx => hb x (List.mem_cons_of_mem _ hx)
    have e : busy.length = p.pollMax - 1 := by simp at hn; omega
    have h2 := serves_waitIdle_busy (p := p) (hb b List.mem_cons_self) (by rwa [← e])
    simpa [List.replicate_succ] using h2

/-! ## Commands -/

theorem serves_clearCmderr (d : Word) :
    Serves lk p clearCmderr (writeWords lk.A addrAbstractCs cmderrClearWord) [d] (.ok ()) id :=
  serves_dmiWrite _ _ _

/-- What a run does once its attempt polled `acs`, with the words of the attempts still to come. -/
theorem serves_runWith_ok (again : Op Unit) {acs : Word} (h : acsCmderr acs = .none) :
    Serves lk p (runWith again acs) [] [] (.ok ()) id := by
  refine Serves.afterPass ?_
  simp only [h, classify]
  exact serves_pure ()

theorem serves_runWith_fail (again : Op Unit) {acs : Word} {kind : AbstractKind} (d : Word)
    (h : classify (acsCmderr acs) = .fail kind) :
    Serves lk p (runWith again acs) (writeWords lk.A addrAbstractCs cmderrClearWord) [d]
      (.error (.abstractCmdError kind)) id := by
  refine Serves.afterPass ?_
  simp only [h]
  exact ((serves_clearCmderr d).line _ _).bind ((serves_raise _).line _ _).afterPass

theorem serves_runWith_busy {again : Op Unit} {acs : Word} (d : Word) (h : acsCmderr acs = .busy) {ws : List DmiWord}
    {ds : List Word} {out : Except Error Unit} (hend : Serves lk p again ws ds out id) :
    Serves lk p (runWith again acs) (writeWords lk.A addrAbstractCs cmderrClearWord ++ ws) ([d] ++ ds) out id := by
  refine Serves.afterPass ?_
  simp only [h, classify]
  exact ((serves_clearCmderr d).line _ _).bind hend.afterPass rfl rfl

theorem serves_runAgain_spent (cmd : Word) : Serves lk p (runAgain cmd 0) [] [] (.error (.timeout .busyRetry)) id :=
  (serves_raise _).line _ _

/-- A command issued and polled. -/
theorem serves_issue {q : Attempt} (cmd : Word) (h : q.poll.Ends p) :
    Serves lk p (issue cmd) (q.words lk.A cmd) q.data (.ok q.poll.acs) id :=
  (((serves_dmiWrite addrAbstractCmd cmd q.issue).line _ _).bind ((serves_waitIdle h).line _ _)).afterPass

/-- The attempts still to come after one that was rejected as busy. -/
theorem serves_runAgain_rejected (cmd : Word) {out : Except Error Unit} (qs : List (Attempt × Word))
    (hq : Rejected p qs) (last : Attempt) (hl : last.poll.Ends p) (left : Nat) {ws : List DmiWord} {ds : List Word}
    (hend : Serves lk p (runWith (runAgain cmd left) last.poll.acs) ws ds out id) :
    Serves lk p (runAgain cmd (left + qs.length + 1))
      (rejectedWords lk.A cmd qs ++ (last.words lk.A cmd ++ ws)) (rejectedData qs ++ (last.data ++ ds)) out id := by
  induction qs with
  | nil => exact Serves.afterPass (Serves.afterOwn (Serves.afterPass ((serves_issue cmd hl).bind hend rfl rfl)))
  | cons q qs ih =>
    have h2 := ih fun x hx => hq x (List.mem_cons_of_mem _ hx)
    have e : left + (q :: qs).length + 1 = (left + qs.length + 1) + 1 := by simp; omega
    rw [e]
    refine Serves.afterPass (Serves.afterOwn (Serves.afterPass ((serves_issue cmd (hq q List.mem_cons_self).1).bind
      (serves_runWith_busy q.2 (hq q List.mem_cons_self).2 h2) ?_ ?_)))
    · simp [rejectedWords]
    · simp [rejectedData]

/-- A run that gets to its last attempt (R134). -/
theorem serves_run {out : Except Error Unit} (cmd : Word) (qs : List (Attempt × Word)) (hq : Rejected p qs)
    (hn : qs.length ≤ p.busyRetryMax) (last : Attempt) (hl : last.poll.Ends p) {ws : List DmiWord} {ds : List Word}
    (hend : Serves lk p (runWith (runAgain cmd (p.busyRetryMax - qs.length)) last.poll.acs) ws ds out id) :
    Serves lk p (run cmd) (rejectedWords lk.A cmd qs ++ (last.words lk.A cmd ++ ws))
      (rejectedData qs ++ (last.data ++ ds)) out id := by
  refine Serves.afterOwn ?_
  cases qs with
  | nil => exact (serves_issue cmd hl).bind (serves_params _ hend) rfl rfl
  | cons q qs =>
    have h2 := serves_runAgain_rejected cmd qs (fun x hx => hq x (List.mem_cons_of_mem _ hx)) last hl _ hend
    have e : p.busyRetryMax - (q :: qs).length + qs.length + 1 = p.busyRetryMax := by
      simp at hn ⊢; omega
    rw [e] at h2
    refine (serves_issue cmd (hq q List.mem_cons_self).1).bind
      (serves_params _ (serves_runWith_busy q.2 (hq q List.mem_cons_self).2 h2)) ?_ ?_
    · simp [rejectedWords]
    · simp [rejectedData]

/-- A run that succeeds. -/
theorem serves_run_ok (cmd : Word) {c : Command} (h : c.Ends p .none) :
    Serves lk p (run cmd) (c.words lk.A cmd) c.data (.ok ()) id := by
  have := serves_run (lk := lk) cmd c.rejected h.1 h.2.1 c.last h.2.2.1 (serves_runWith_ok _ h.2.2.2)
  simpa [Command.words, Command.data] using this

/-- A run that ends with a code that is surfaced (R139). -/
theorem serves_run_fail (cmd : Word) {c : Command} {e : CmdErr} {kind : AbstractKind} (h : c.Ends p e)
    (hk : classify e = .fail kind) (d : Word) :
    Serves lk p (run cmd) (c.words lk.A cmd ++ writeWords lk.A addrAbstractCs cmderrClearWord) (c.data ++ [d])
      (.error (.abstractCmdError kind)) id := by
  have := serves_run (lk := lk) cmd c.rejected h.1 h.2.1 c.last h.2.2.1
    (serves_runWith_fail _ d (by rw [h.2.2.2]; exact hk))
  simpa [Command.words, Command.data] using this

/-- A run that is rejected as busy BUSY_RETRY_MAX + 1 times (R138). -/
theorem serves_run_spent (cmd : Word) {qs : List (Attempt × Word)} (hq : Rejected p qs)
    (hn : qs.length = p.busyRetryMax + 1) :
    Serves lk p (run cmd) (rejectedWords lk.A cmd qs) (rejectedData qs) (.error (.timeout .busyRetry)) id := by
  obtain ⟨qs, q, rfl⟩ : ∃ l x, qs = l ++ [x] :=
    ⟨qs.dropLast, qs.getLast (by rintro rfl; simp at hn), (List.dropLast_append_getLast _).symm⟩
  have hm : q ∈ qs ++ [q] := by simp
  have hlen : qs.length = p.busyRetryMax := by simpa using hn
  have hend := serves_runWith_busy q.2 (hq q hm).2 (serves_runAgain_spent (lk := lk) (p := p) cmd)
  rw [show (0 : Nat) = p.busyRetryMax - qs.length by omega] at hend
  have := serves_run cmd qs (fun x hx => hq x (by simp [hx])) (by omega) q.1 (hq q hm).1 hend
  simpa [rejectedWords, rejectedData] using this

/-- The error of an outcome under a map. -/
def mapOut (f : Error → Error) : Except Error α → Except Error α
  | .ok a => .ok a
  | .error e => .error (f e)

theorem Serves.mapError {x : Op α} {ws : List DmiWord} {ds : List Word} {out : Except Error α} {g : State → State}
    (f : Error → Error) (h : Serves lk p x ws ds out g) : Serves lk p (Machine.mapError f x) ws ds (mapOut f out) g where
  len := h.len
  params := h.params
  width := h.width
  run := by
    intro s pre rs rest hp hw hs hrep hq
    obtain ⟨t, e1, A1, c1⟩ := h.run s pre rs rest hp hw hs hrep hq
    refine ⟨t, ?_, A1, c1⟩
    unfold Machine.mapError
    cases out <;> simp only [Gives, mapOut] at e1 ⊢ <;> rw [e1]

theorem Serves.runReg {cmd : Word} {ws : List DmiWord} {ds : List Word} {out : Except Error Unit} {g : State → State}
    (r : BitVec 16) (h : Serves lk p (Machine.run cmd) ws ds out g) :
    Serves lk p (Machine.runReg cmd r) ws ds (mapOut (regError r) out) g := (h.mapError _).line _ _

/-! ## Register accesses -/

theorem serves_readOne (r : BitVec 16) {q : OneRead} (h : q.command.Ends p .none) :
    Serves lk p (readOne r) (q.words lk.A r) q.data (.ok q.value) id :=
  (((serves_run_ok _ h).runReg r).line _ _).bind ((serves_dmiRead _ _ _).line _ _)

theorem serves_writeOne (r : BitVec 16) (v : Word) {q : OneWrite} (h : q.command.Ends p .none) :
    Serves lk p (writeOne r v) (q.words lk.A r v) q.data (.ok ()) id :=
  ((serves_dmiWrite _ _ q.put).line _ _).bind (((serves_run_ok _ h).runReg r).line _ _)

theorem serves_setBatchIndex (k : Nat) : Serves lk p (setBatchIndex k) [] [] (.ok ()) id := serves_own _

theorem serves_readNone (base : BitVec 16) (qs : List OneRead) (h : ∀ q ∈ qs, q.command.Ends p .none) (k : Nat) :
    Serves lk p (readNone base qs.length k) (noneReadWords lk.A base qs k) (qs.flatMap OneRead.data)
      (.ok (qs.map OneRead.value)) id := by
  induction qs generalizing k with
  | nil => exact serves_pure []
  | cons q qs ih =>
    refine (Serves.line (Serves.after (y := fun _ => readOne (regnoAt base k)) (serves_readOne _ (h q List.mem_cons_self))
      (serves_setBatchIndex k)) _ _).bind
      ((ih (fun x hx => h x (List.mem_cons_of_mem _ hx)) (k + 1)).bind (serves_pure _) rfl rfl) ?_ ?_
    · simp [noneReadWords]
    · simp

theorem serves_writeNone (base : BitVec 16) (qs : List (Word × OneWrite)) (h : ∀ q ∈ qs, q.2.command.Ends p .none)
    (k : Nat) :
    Serves lk p (writeNone base (qs.map Prod.fst) k) (noneWriteWords lk.A base qs k) (qs.flatMap fun q => q.2.data)
      (.ok ()) id := by
  induction qs generalizing k with
  | nil => exact serves_pure ()
  | cons q qs ih =>
    exact (Serves.line (Serves.after (y := fun _ => writeOne (regnoAt base k) q.1)
      (serves_writeOne _ _ (h q List.mem_cons_self)) (serves_setBatchIndex k)) _ _).bind
      (ih (fun x hx => h x (List.mem_cons_of_mem _ hx)) (k + 1))

theorem classify_ne_ok {e : CmdErr} (h : e ≠ .none) : classify e ≠ .ok := by
  cases e <;> simp_all [classify]

/-- The poll after a data0 access (R151, R152): its clear, if any, answers with the data `cs`. -/
theorem serves_continuePoll (r : BitVec 16) (trailing : Bool) {q : Poll} (h : q.Ends p) {cs : List Word}
    (hc : cs.length = (clearWords lk.A (acsCmderr q.acs)).length) (ht : trailing = true ∨ acsCmderr q.acs = .none) :
    Serves lk p (continuePoll r trailing) (q.words lk.A ++ clearWords lk.A (acsCmderr q.acs)) (q.data ++ cs)
      (.ok ()) id := by
  refine ((serves_waitIdle h).line _ _).bind (Serves.afterPass ?_) rfl rfl
  by_cases hn : acsCmderr q.acs = .none
  · simp only [hn, clearWords, if_true, List.length_nil, List.length_eq_zero_iff] at hc ⊢
    subst hc
    exact serves_pure ()
  · have htr : trailing = true := by simpa [hn] using ht
    subst htr
    simp only [clearWords, hn, if_false] at hc ⊢
    obtain ⟨d, rfl⟩ : ∃ d, cs = [d] := by
      match cs, hc with
      | [d], _ => exact ⟨d, rfl⟩
    simp only [classify_ne_ok hn, if_false, if_true]
    exact ((serves_clearCmderr d).line _ _).bind (serves_pure ()).afterPass

/-- The error of the nonzero code of a poll after a data0 access, for register `r` (R151, R153). -/
def continueError (r : BitVec 16) : CmdClass → Error
  | .ok | .busy => .timeout .busyRetry
  | .fail kind => regError r (.abstractCmdError kind)

theorem serves_surfacePoll (r : BitVec 16) (c : CmdClass) :
    Serves lk p (surfacePoll r c) [] [] (.error (continueError r c)) id := by
  cases c with
  | ok => exact (serves_raise _).line _ _
  | busy => exact (serves_raise _).line _ _
  | fail kind => cases kind <;> exact ((serves_raise _).line _ _).afterPass

/-- The poll that finds a code it surfaces (R151). -/
theorem serves_continuePoll_fail (r : BitVec 16) {q : Poll} (h : q.Ends p) (d : Word) (hn : acsCmderr q.acs ≠ .none) :
    Serves lk p (continuePoll r false) (q.words lk.A ++ writeWords lk.A addrAbstractCs cmderrClearWord) (q.data ++ [d])
      (.error (continueError r (classify (acsCmderr q.acs)))) id := by
  refine ((serves_waitIdle h).line _ _).bind (Serves.afterPass ?_) rfl rfl
  simp only [classify_ne_ok hn, if_false, Bool.false_eq_true]
  exact ((serves_clearCmderr d).line _ _).bind (serves_surfacePoll _ _).afterPass

/-! ## Batches -/

/-- One Continue read whose poll finds no code, or is the trailing one (R147). -/
theorem serves_continueRead (base : BitVec 16) (count k : Nat) {q : BatchStep} (h : q.poll.Ends p) {cs : List Word}
    (hc : cs.length = (clearWords lk.A (acsCmderr q.poll.acs)).length)
    (ht : decide (k = count - 1) = true ∨ acsCmderr q.poll.acs = .none) :
    Serves lk p (continueRead base count k)
      (readWords lk.A addrData0 ++ (q.poll.words lk.A ++ clearWords lk.A (acsCmderr q.poll.acs)))
      ([q.stale, q.value] ++ (q.poll.data ++ cs)) (.ok q.value) id :=
  Serves.after (((serves_dmiRead addrData0 q.stale q.value).line _ _).bind
    (((serves_continuePoll _ _ h hc ht).line _ _).bind (Serves.afterPass (serves_pure _)) (List.append_nil _).symm
      (List.append_nil _).symm) rfl rfl) (serves_setBatchIndex k)

theorem serves_continueReads (base : BitVec 16) (count : Nat) (qs : List BatchStep) (k : Nat)
    (hk : k + qs.length = count) (he : ∀ q ∈ qs, q.poll.Ends p)
    (hn : ∀ q ∈ qs.dropLast, acsCmderr q.poll.acs = .none) {cs : List Word}
    (hc : cs.length = (qs.getLast?.elim [] fun q => clearWords lk.A (acsCmderr q.poll.acs)).length) :
    Serves lk p (continueReads base count qs.length k)
      (batchReadWords lk.A qs ++ qs.getLast?.elim [] fun q => clearWords lk.A (acsCmderr q.poll.acs))
      (batchReadData qs ++ cs) (.ok (qs.map BatchStep.value)) id := by
  induction qs generalizing k with
  | nil =>
    have : cs = [] := by simpa using hc
    subst this
    exact serves_pure []
  | cons q qs ih =>
    cases qs with
    | nil =>
      have hlast : decide (k = count - 1) = true := by simp at hk ⊢; omega
      have hstep := serves_continueRead (lk := lk) base count k (he q List.mem_cons_self) (by simpa using hc) (.inl hlast)
      refine (hstep.line _ _).bind ((serves_pure (lk := lk) (p := p) ([] : List Word)).bind (serves_pure _) rfl rfl) ?_ ?_
      · simp [batchReadWords]
      · simp [batchReadData]
    | cons q2 qs =>
      have h0 : acsCmderr q.poll.acs = .none := hn q (by simp)
      have hstep := serves_continueRead (lk := lk) (cs := []) base count k (he q List.mem_cons_self)
        (by simp [h0, clearWords]) (.inr h0)
      refine (hstep.line _ _).bind ((ih (k + 1) (by simp at hk ⊢; omega) (fun x hx => he x (List.mem_cons_of_mem _ hx))
        (fun x hx => hn x (by simp at hx ⊢; exact .inr hx)) (by simpa using hc)).bind (serves_pure _) rfl rfl) ?_ ?_
      · simp [batchReadWords, h0, clearWords]
      · simp [batchReadData]

/-- The Continue-mode reads from register `k` on, where the poll after `bad`, which is not the last, finds a code. -/
theorem serves_continueReads_fail (base : BitVec 16) (count : Nat) (qs : List BatchStep) (bad : BatchStep) (d : Word)
    (k n : Nat) (hn : qs.length < n) (hk : k + n = count) (hl : k + qs.length + 1 < count)
    (hq : ∀ q ∈ qs, q.poll.Ends p ∧ acsCmderr q.poll.acs = .none) (hb : bad.poll.Ends p)
    (he : acsCmderr bad.poll.acs ≠ .none) :
    Serves lk p (continueReads base count n k)
      (batchReadWords lk.A (qs ++ [bad]) ++ writeWords lk.A addrAbstractCs cmderrClearWord)
      (batchReadData (qs ++ [bad]) ++ [d])
      (.error (continueError (regnoAt base (k + qs.length + 1)) (classify (acsCmderr bad.poll.acs)))) id := by
  induction qs generalizing k n with
  | nil =>
    obtain ⟨n, rfl⟩ : ∃ m, n = m + 1 := ⟨n - 1, by omega⟩
    have hlast : decide (k = count - 1) = false := by simp at hl ⊢; omega
    have hpoll := serves_continuePoll_fail (lk := lk) (regnoAt base (k + 1)) hb d he
    rw [← hlast] at hpoll
    have hstep : Serves lk p (continueRead base count k)
        (readWords lk.A addrData0 ++ (bad.poll.words lk.A ++ writeWords lk.A addrAbstractCs cmderrClearWord))
        ([bad.stale, bad.value] ++ (bad.poll.data ++ [d])) (.error _) id :=
      Serves.after (((serves_dmiRead addrData0 bad.stale bad.value).line _ _).bind ((hpoll.line _ _).bind_error _) rfl
        rfl) (serves_setBatchIndex k)
    have h : Serves lk p (continueReads base count (n + 1) k) _ _ (.error _) id := (hstep.line _ _).bind_error _
    simpa [batchReadWords, batchReadData] using h
  | cons q qs ih =>
    obtain ⟨n, rfl⟩ : ∃ m, n = m + 1 := ⟨n - 1, by simp at hn; omega⟩
    obtain ⟨h1, h0⟩ := hq q List.mem_cons_self
    have hstep := serves_continueRead (lk := lk) (cs := []) base count k h1 (by simp [h0, clearWords]) (.inr h0)
    have h2 := ih (k + 1) n (by simp at hn; omega) (by omega) (by simp at hl; omega)
      (fun x hx => hq x (List.mem_cons_of_mem _ hx))
    rw [show k + 1 + qs.length + 1 = k + (q :: qs).length + 1 by simp; omega] at h2
    refine (hstep.line _ _).bind (h2.bind_error _) ?_ ?_
    · simp [batchReadWords, h0, clearWords]
    · simp [batchReadData]

/-- One Continue write whose poll finds no code (R149). -/
theorem serves_continueWrite (base : BitVec 16) (k : Nat) {q : Word × Word × Poll} (h : q.2.2.Ends p)
    (h0 : acsCmderr q.2.2.acs = .none) :
    Serves lk p (continueWrite base k q.1) (writeWords lk.A addrData0 q.1 ++ q.2.2.words lk.A) (q.2.1 :: q.2.2.data)
      (.ok ()) id := by
  refine Serves.after (((serves_dmiWrite addrData0 q.1 q.2.1).line _ _).bind
    ((serves_continuePoll (cs := []) _ _ h (by simp [h0, clearWords]) (.inr h0)).line _ _) ?_ ?_)
    (serves_setBatchIndex k)
  · simp [h0, clearWords]
  · simp

theorem serves_continueWrites (base : BitVec 16) (qs : List (Word × Word × Poll)) (k : Nat)
    (he : ∀ q ∈ qs, q.2.2.Ends p ∧ acsCmderr q.2.2.acs = .none) :
    Serves lk p (continueWrites base (qs.map Prod.fst) k) (batchWriteWords lk.A qs) (batchWriteData qs) (.ok ()) id := by
  induction qs generalizing k with
  | nil => exact serves_pure ()
  | cons q qs ih =>
    obtain ⟨h1, h2⟩ := he q List.mem_cons_self
    exact ((serves_continueWrite base k h1 h2).line _ _).bind (ih (k + 1) fun x hx => he x (List.mem_cons_of_mem _ hx))

/-- The Continue-mode writes from register `k` on, where the poll after `bad` finds a code (R149, R151). -/
theorem serves_continueWrites_fail (base : BitVec 16) (qs : List (Word × Word × Poll)) (bad : Word × Word × Poll)
    (more : List Word) (d : Word) (k : Nat) (hq : ∀ q ∈ qs, q.2.2.Ends p ∧ acsCmderr q.2.2.acs = .none)
    (hb : bad.2.2.Ends p) (he : acsCmderr bad.2.2.acs ≠ .none) :
    Serves lk p (continueWrites base (qs.map Prod.fst ++ bad.1 :: more) k)
      (batchWriteWords lk.A (qs ++ [bad]) ++ writeWords lk.A addrAbstractCs cmderrClearWord)
      (batchWriteData (qs ++ [bad]) ++ [d])
      (.error (continueError (regnoAt base (k + qs.length)) (classify (acsCmderr bad.2.2.acs)))) id := by
  induction qs generalizing k with
  | nil =>
    have hstep : Serves lk p (continueWrite base k bad.1)
        (writeWords lk.A addrData0 bad.1 ++ (bad.2.2.words lk.A ++ writeWords lk.A addrAbstractCs cmderrClearWord))
        ([bad.2.1] ++ (bad.2.2.data ++ [d])) (.error _) id :=
      Serves.after (((serves_dmiWrite addrData0 bad.1 bad.2.1).line _ _).bind
        ((serves_continuePoll_fail (regnoAt base k) hb d he).line _ _) rfl rfl) (serves_setBatchIndex k)
    have h : Serves lk p (continueWrites base (bad.1 :: more) k) _ _ (.error _) id := (hstep.line _ _).bind_error _
    simpa [batchWriteWords, batchWriteData] using h
  | cons q qs ih =>
    obtain ⟨h1, h0⟩ := hq q List.mem_cons_self
    have h2 := ih (k + 1) fun x hx => hq x (List.mem_cons_of_mem _ hx)
    rw [show k + 1 + qs.length = k + (q :: qs).length by simp; omega] at h2
    refine ((serves_continueWrite base k h1 h0).line _ _).bind h2 ?_ ?_
    · simp [batchWriteWords]
    · simp [batchWriteData]

/-! ## Cleanups -/

/-- The body ends without an error, then the cleanup runs (R187). -/
theorem Serves.withCleanup_ok {o : Pending} {c : Op Unit} {x : Op α} {ws vs us : List DmiWord} {ds es cs : List Word}
    {a : α} (hx : Serves lk p x ws ds (.ok a) id) (hc : Serves lk p c vs es (.ok ()) id)
    (hus : us = ws ++ vs := by first | rfl | simp) (hcs : cs = ds ++ es := by first | rfl | simp) :
    Serves lk p (withCleanup o c x) us cs (.ok a) id := by
  have h : Serves lk p (do update (State.pushPending · o); let a ← x; update State.popPending; c; pure a) us cs (.ok a)
      id := Serves.after (hx.bind (Serves.after (hc.bind (serves_pure a) (List.append_nil _).symm (List.append_nil _).symm)
      (serves_own _)) hus hcs) (serves_own _)
  refine ⟨h.len, h.params, h.width, fun s pre rs rest hp hw hs hr hq => ?_⟩
  obtain ⟨t, e, A, e2⟩ := h.run s pre rs rest hp hw hs hr hq
  refine ⟨t, ?_, A, e2⟩
  simp only [Gives, update_bind] at e ⊢
  obtain ⟨b, u, h1, h2⟩ := bind_ok_inv e
  rw [update_bind] at h2
  obtain ⟨b2, v, h3, h4⟩ := bind_ok_inv h2
  simp only [pure_run, EStateM.Result.ok.injEq] at h4
  obtain ⟨rfl, rfl⟩ := h4
  simp [withCleanup, h1, h3]

/-- An operation known to end with the error `e`, as one that ends well. -/
theorem Serves.caught {x : Op α} {ws : List DmiWord} {ds : List Word} {e : Error} {g : State → State}
    (hx : Serves lk p x ws ds (.error e) g) :
    Serves lk p (fun s => match x s with
      | .ok _ t => .error (.err e) t
      | .error e' t => if e' = .err e then .ok () t else .error e' t : Op Unit) ws ds (.ok ()) g where
  len := hx.len
  params := hx.params
  width := hx.width
  run := by
    intro s pre rs rest hp hw hs hr hq
    obtain ⟨t, e1, A, e2⟩ := hx.run s pre rs rest hp hw hs hr hq
    exact ⟨t, by simp only [Gives] at e1 ⊢; simp [e1], A, e2⟩

/-- The body raises an error other than TransportFailure: the cleanup runs, and the error goes on (R187, R188). -/
theorem Serves.withCleanup_error {o : Pending} {c : Op Unit} {x : Op α} {ws vs us : List DmiWord}
    {ds es cs : List Word} {e : Error} (he : e ≠ .transportFailure) (hx : Serves lk p x ws ds (.error e) id)
    (hc : Serves lk p c vs es (.ok ()) id) (hus : us = ws ++ vs := by first | rfl | simp)
    (hcs : cs = ds ++ es := by first | rfl | simp) : Serves lk p (withCleanup o c x) us cs (.error e) id := by
  have h1 := Serves.after (x := update fun s => s.popPending.holdPrimary e) (a := ()) (y := fun _ => c) hc (serves_own _)
  have h2 := hx.caught.bind (f := fun _ => update (fun s => s.popPending.holdPrimary e) >>= fun _ => c) h1 hus hcs
  have h := Serves.after (x := update (State.pushPending · o)) (a := ()) (y := fun _ => _) h2 (serves_own _)
  refine ⟨h.len, h.params, h.width, fun s pre rs rest hp hw hs hr hq => ?_⟩
  obtain ⟨t, e1, A, e2⟩ := h.run s pre rs rest hp hw hs hr hq
  refine ⟨t, ?_, A, e2⟩
  simp only [Gives, update_bind] at e1 ⊢
  obtain ⟨b, u, h1, h2⟩ := bind_ok_inv e1
  rw [update_bind] at h2
  have hxe : x (s.pushPending o) = .error (.err e) u := by
    cases hb : x (s.pushPending o) with
    | ok a v => simp [hb] at h1
    | error e' v =>
      simp only [hb] at h1
      split at h1
      · next h => simp only [EStateM.Result.ok.injEq, true_and] at h1; rw [h, h1]
      · simp at h1
  simp [withCleanup, hxe, he, h2]

end Sys2Proof.Machine
end

