-- ==== Sys2Proof/Laws/Served.lean ====
section
/-! SUPPORT. What a served request and a word of the wire leave, from what their bodies do. -/

namespace Sys2Proof.Machine

variable {lk : Link} {α : Type}

/-! ## The rest of the state -/

theorem core_field {s t : State} (h : t.core = s.core) {β : Type} (f : State → β)
    (hf : ∀ s : State, f s.core = f s := by intro _; rfl) : f t = f s := by
  rw [← hf t, ← hf s, h]

theorem sameSession_of_core {s t : State} (h : t.core = s.core) : SameSession s t where
  phase := core_field h State.phase
  idcode := core_field h State.idcode
  dtmVersion := core_field h State.dtmVersion
  debugVersion := core_field h State.debugVersion
  idleCycles := core_field h State.idleCycles
  addressBits := core_field h State.addressBits
  programBufferSize := core_field h State.programBufferSize
  impebreak := core_field h State.impebreak
  abstractDataCount := core_field h State.abstractDataCount
  autoexecSupported := core_field h State.autoexecSupported
  progbufCsrEnabled := core_field h State.progbufCsrEnabled
  hartsellen := core_field h State.hartsellen

theorem sameHost_of_core {s t : State} (h : t.core = s.core) : SameHost s t where
  wire := core_field h State.wire
  params := core_field h State.params
  hostQueue := core_field h State.hostQueue
  discoveryIndex := core_field h State.discoveryIndex

theorem sameButWire_of_core {s t : State} (h : t.core = s.core) : SameButWire s t where
  toSameSession := sameSession_of_core h
  toSameHost := sameHost_of_core h
  harts := core_field h State.harts
  currentHart := core_field h State.currentHart

theorem After.shifted {A : Nat} {s t : State} {ws : List DmiWord} {pre rs rest : List Reply}
    (h : After A s t ws pre rs rest) (hw : ws ≠ []) : Shifted s t A ws pre rs rest where
  trace := h.trace
  replies := h.replies
  last := by
    rw [h.last]
    cases hl : ws.getLast? with
    | none => exact absurd (List.getLast?_eq_none_iff.mp hl) hw
    | some w => rfl
  valid := by
    rw [h.valid]
    cases ws
    · exact absurd rfl hw
    · simp
  ir := by simp [h.ir, hw]

/-! ## Words of the wire -/

theorem ended_finish (s t : State) (r : Response) (h : t.hostOut = s.hostOut) : Ended s (t.finish r) r :=
  { req := rfl, label := rfl, pending := rfl, primaryError := rfl, result := rfl, hostOut := h }

/-- What a word's body leads to (R180, log 8). -/
theorem runWord_of_ok {s t : State} {body : Op Value} {v : Value} (h : body s = .ok v t) :
    runWord body s = .next (t.finish (.ok v)) := by simp [runWord, h]

theorem runWord_of_error {s t : State} {body : Op Value} {e : Error} (h : body s = .error (.err e) t) :
    runWord body s = .next ((t.sessionEffect e).finish (.err e)) := by simp [runWord, h]

theorem runWord_of_fault {s t : State} {body : Op Value} {f : Fault} (h : body s = .error (.fault f) t) :
    runWord body s = .fault f := by simp [runWord, h]

/-- A word whose body shifts the words `ws`, each answered NO_ERROR. -/
theorem runWord_ok {s : State} {body : Op Value} {ws : List DmiWord} {ds : List Word} {v : Value}
    (h : Serves lk s.params body ws ds (.ok v) id) (hw : ws ≠ []) (ha : s.addressBits = some lk.abits)
    {pre rs rest : List Reply} (hs : Selected s pre) (hr : s.replies = pre ++ rs ++ rest) (hq : Quiet lk.A rs ds) :
    ∃ t, runWord body s = .next t ∧ Shifted s t lk.A ws pre rs rest ∧ SameButWire s t ∧ Ended s t (.ok v) := by
  obtain ⟨t, e, A, c⟩ := h.run s pre rs rest rfl ha (by simpa [Selecting, hw] using hs) hr hq
  exact ⟨t.finish (.ok v), runWord_of_ok e, { A.shifted hw with }, { sameButWire_of_core c with },
    ended_finish s t _ (core_field c State.hostOut)⟩

theorem sessionEffect_ready {t : State} {e : Error} (hp : t.phase = .ready) (he : e ≠ .transportFailure) :
    t.sessionEffect e = t := by simp [State.sessionEffect, hp, he]

/-- A word whose body shifts the words `ws`, each answered NO_ERROR, and raises, in a Ready session (R180). -/
theorem runWord_error {s : State} {body : Op Value} {ws : List DmiWord} {ds : List Word} {e : Error}
    (h : Serves lk s.params body ws ds (.error e) id) (hw : ws ≠ []) (he : e ≠ .transportFailure)
    (hp : s.phase = .ready) (ha : s.addressBits = some lk.abits) {pre rs rest : List Reply} (hs : Selected s pre)
    (hr : s.replies = pre ++ rs ++ rest) (hq : Quiet lk.A rs ds) :
    ∃ t, runWord body s = .next t ∧ Shifted s t lk.A ws pre rs rest ∧ SameButWire s t ∧ Ended s t (.err e) := by
  obtain ⟨t, e1, A, c⟩ := h.run s pre rs rest rfl ha (by simpa [Selecting, hw] using hs) hr hq
  have hpt : t.phase = .ready := (core_field c State.phase).trans hp
  refine ⟨t.finish (.err e), ?_, { A.shifted hw with }, { sameButWire_of_core c with },
    ended_finish s t _ (core_field c State.hostOut)⟩
  rw [runWord_of_error e1, sessionEffect_ready hpt he]

/-! ## Host requests -/

theorem whenReady_ready {s : State} (k : Outcome) (h : s.phase = .ready) : whenReady s k = k := by
  simp [whenReady, h]

/-- What a served request leaves where its body ends without an error, with one, and with a fault (R185). -/
theorem serve_of_ok {s t : State} {req : Instr} {body : Op Value} {v : Value} (h : body (s.serving req) = .ok v t) :
    serve req body s = .next ((t.backTo s.label).answer (.ok v)) := by
  unfold serve
  rw [line_ok h]
  rfl

theorem serve_of_error {s t : State} {req : Instr} {body : Op Value} {e : Error}
    (h : body (s.serving req) = .error (.err e) t) :
    serve req body s = .next (((t.backTo s.label).sessionEffect e).answer (.err e)) := by
  unfold serve
  rw [line_error h]
  rfl

theorem serve_of_fault {s t : State} {req : Instr} {body : Op Value} {f : Fault}
    (h : body (s.serving req) = .error (.fault f) t) : serve req body s = .fault f := by
  unfold serve
  rw [line_error h]

theorem line_congr {r n : Nat} {x y : Op α} {s : State} (h : x (s.moveTo ⟨r, n⟩) = y (s.moveTo ⟨r, n⟩)) :
    line r n x s = line r n y s := by simp [line, h]

/-- A request whose body is another one's in the state it starts in. -/
theorem serve_congr {s : State} {req : Instr} {x y : Op Value} (h : x (s.serving req) = y (s.serving req)) :
    serve req x s = serve req y s := by
  unfold serve
  rw [line_congr h]

theorem answered_answer (s t : State) (r : Response) (h : t.hostOut = s.hostOut) : Answered s (t.answer r) [] r :=
  { req := rfl, label := rfl, pending := rfl, primaryError := rfl, result := rfl, hostOut := by simp [State.answer, h] }

@[simp] theorem serving_core (s : State) (req : Instr) : (s.serving req).core = s.core := rfl

theorem answered_away (s : State) : Answered s (turnAway s) [] (.err (.sessionNotReady s.phase)) :=
  { req := rfl, label := rfl, pending := rfl, primaryError := rfl, result := rfl, hostOut := by simp [turnAway] }

/-! A response leaves what the body left. -/

theorem SameSession.answer {s t : State} (h : SameSession s t) (ls : List Line) (r : Response) :
    SameSession s ((t.backTo ls).answer r) := by
  constructor <;> simp [h.phase, h.idcode, h.dtmVersion, h.debugVersion, h.idleCycles, h.addressBits,
    h.programBufferSize, h.impebreak, h.abstractDataCount, h.autoexecSupported, h.progbufCsrEnabled, h.hartsellen]

theorem SameHost.answer {s t : State} (h : SameHost s t) (ls : List Line) (r : Response) :
    SameHost s ((t.backTo ls).answer r) := by
  constructor <;> simp [h.wire, h.params, h.hostQueue, h.discoveryIndex]

theorem SameButWire.answer {s t : State} (h : SameButWire s t) (ls : List Line) (r : Response) :
    SameButWire s ((t.backTo ls).answer r) where
  toSameSession := h.toSameSession.answer ls r
  toSameHost := h.toSameHost.answer ls r
  harts := by simp [h.harts]
  currentHart := by simp [h.currentHart]

theorem Shifted.answer {A : Nat} {s t : State} {req : Instr} {ws : List DmiWord} {pre rs rest : List Reply}
    (h : Shifted (s.serving req) t A ws pre rs rest) (ls : List Line) (r : Response) :
    Shifted s ((t.backTo ls).answer r) A ws pre rs rest := by
  constructor <;> simp [h.trace, h.replies, h.last, h.valid, h.ir]

/-- What a request whose body left `t` leaves. -/
theorem answer_leaves {A : Nat} {s t : State} {req : Instr} {ws : List DmiWord} {pre rs rest : List Reply} (r : Response)
    (h : After A (s.serving req) t ws pre rs rest) (hw : ws ≠ []) (hc : t.core = s.core) :
    Shifted s ((t.backTo s.label).answer r) A ws pre rs rest ∧ SameButWire s ((t.backTo s.label).answer r)
      ∧ Answered s ((t.backTo s.label).answer r) [] r :=
  ⟨(h.shifted hw).answer _ _, (sameButWire_of_core hc).answer _ _, answered_answer s _ r (core_field hc State.hostOut)⟩

/-- A request whose body shifts the words `ws`, each answered NO_ERROR. -/
theorem serve_shifts {s : State} {req : Instr} {body : Op Value} {ws : List DmiWord} {ds : List Word} {v : Value}
    (h : Serves lk s.params body ws ds (.ok v) id) (hw : ws ≠ []) (ha : s.addressBits = some lk.abits)
    {pre rs rest : List Reply} (hs : Selected s pre) (hr : s.replies = pre ++ rs ++ rest) (hq : Quiet lk.A rs ds) :
    ∃ t, serve req body s = .next t ∧ Shifted s t lk.A ws pre rs rest ∧ SameButWire s t ∧ Answered s t [] (.ok v) := by
  obtain ⟨t, e, A, c⟩ := h.run (s.serving req) pre rs rest (by simp) (by simpa using ha)
    (by simpa [Selecting, hw, Selected] using hs) (by simpa using hr) hq
  exact ⟨_, serve_of_ok e, answer_leaves _ A hw c⟩

/-- A request whose body shifts the words `ws`, each answered NO_ERROR, and raises (R180). -/
theorem serve_raises {s : State} {req : Instr} {body : Op Value} {ws : List DmiWord} {ds : List Word} {e : Error}
    (h : Serves lk s.params body ws ds (.error e) id) (hw : ws ≠ []) (he : e ≠ .transportFailure)
    (hp : s.phase = .ready) (ha : s.addressBits = some lk.abits) {pre rs rest : List Reply} (hs : Selected s pre)
    (hr : s.replies = pre ++ rs ++ rest) (hq : Quiet lk.A rs ds) :
    ∃ t, serve req body s = .next t ∧ Shifted s t lk.A ws pre rs rest ∧ SameButWire s t
      ∧ Answered s t [] (.err e) := by
  obtain ⟨t, e1, A, c⟩ := h.run (s.serving req) pre rs rest (by simp) (by simpa using ha)
    (by simpa [Selecting, hw, Selected] using hs) (by simpa using hr) hq
  have hc : t.core = s.core := c
  have hpt : (t.backTo s.label).phase = .ready := by rw [State.backTo_phase, core_field hc State.phase, hp]
  have h2 := serve_of_error (req := req) e1
  rw [sessionEffect_ready hpt he] at h2
  exact ⟨_, h2, answer_leaves _ A hw hc⟩

/-! ## Reads of the session and the table in the middle of an operation -/

theorem bind_congr_run {β : Type} {x : Op α} {f f' : α → Op β} {s : State}
    (h : ∀ a t, x s = .ok a t → f a t = f' a t) : (x >>= f) s = (x >>= f') s := by
  cases hx : x s with
  | ok a t => rw [bind_ok f hx, bind_ok f' hx, h a t hx]
  | error e t => rw [Machine.bind_error f hx, Machine.bind_error f' hx]

/-- A cleanup may be replaced by one that does the same in every state the body leaves. -/
theorem withCleanup_congr {o : Pending} {c c' : Op Unit} {x : Op α} {s : State}
    (hok : ∀ a t, x (s.pushPending o) = .ok a t → c t.popPending = c' t.popPending)
    (herr : ∀ e t, x (s.pushPending o) = .error (.err e) t →
      c (t.popPending.holdPrimary e) = c' (t.popPending.holdPrimary e)) :
    withCleanup o c x s = withCleanup o c' x s := by
  unfold withCleanup
  cases h : x (s.pushPending o) with
  | ok a t => simp only [hok a t h]
  | error e t =>
    cases e with
    | fault f => rfl
    | err e => simp only [herr e t h]

/-- What READ_CSR_PROGBUF reads besides the wire. -/
def State.kept (s : State) : Option Bool × Option Nat × List HartEntry := (s.impebreak, s.currentHart, s.harts)

/-- None of it is a concern of the wire. -/
theorem wireFrame_kept : WireFrame (fun s t => t.kept = s.kept) (fun s t => t.kept = s.kept) (fun _ => True) where
  refl _ := by rfl
  trans h1 h2 := h2.trans h1
  fails h1 h2 := h2.trans h1
  stops _ _ := by trivial
  moved _ _ := by rfl
  back _ _ := by rfl
  backFailed _ h := h
  issued _ _ _ _ _ := by rfl
  failed _ _ _ _ := by rfl
  ir _ _ _ := by rfl
  noWidth _ _ := by trivial
  noIdle _ _ := by trivial
  noReplay _ _ _ := by trivial
  success _ := by rfl
  begun _ _ _ := by rfl
  recovery _ := by rfl
  polled _ := by rfl
  polls _ := by rfl
  started _ _ := by rfl
  reissued _ := by rfl
  pushed _ _ := by rfl
  popped _ := by rfl
  held _ _ := by rfl
  register _ _ := by rfl
  noAutoexec _ _ := by trivial

/-! ## READ_CSR_PROGBUF -/

/-- `Upload(w)` where `impebreak` holds `imp` (R159). -/
def uploadKnown (imp : Bool) (w : Word) : Op Unit := do
  line 159 1 (dmiWrite addrProgbuf0 w)
  line 159 2 (if imp then pure () else dmiWrite addrProgbuf1 ebreakWord)

theorem upload_known {s : State} {imp : Bool} (h : s.impebreak = some imp) (w : Word) :
    upload w s = uploadKnown imp w s := by
  refine bind_congr_run fun _ t ht => line_congr ?_
  have hk := (wireFrame_kept.toTxFrame.line (wireFrame_kept.toDmiFrame.dmiWrite addrProgbuf0 w)).ok ht
  have hi : (t.moveTo ⟨159, 2⟩).impebreak = some imp := (congrArg Prod.fst hk).trans h
  unfold uploadEbreak
  rw [bind_ok _ (readReg_some hi)]

theorem backUp_written (e : HartEntry) (b : List Word) : (e.backUp b).registerBackup.take b.length = b := by
  simp [HartEntry.backUp]

/-- The slots of an entry just backed up are written, and hold the values (R162). -/
theorem backedUp_run {s : State} {h : Nat} {b : List Word} (hl : h < s.harts.length) {t : State}
    (ht : t.harts = (s.backUp h b).harts) : backedUp h b.length t = .ok b t := by
  have hw : t.writtenSlots h = (s.harts[h].backUp b).registerBackup := by
    simp [State.writtenSlots, ht, State.backUp, List.getElem?_eq_getElem hl]
  have hlen : b.length ≤ (t.writtenSlots h).length := by simp [hw, HartEntry.backUp]
  unfold backedUp
  rw [if_pos hlen, hw, backUp_written]

/-- Steps (2) to (6) for one register, with the value backed up at hand (R162 to R166). -/
def progbufKnown (h : Nat) : Op (List Word) := do
  pass 160 [4]
  let b ← line 160 5 (readRegisters regnoX1 1)
  line 160 6 (update (State.backUp · h b))
  pass 160 [7]
  withCleanup .restore (do pass 160 [11]; line 160 12 (writeRegisters regnoX1 b)) (execBody [] 1)

theorem progbuf_known {s : State} {h : Nat} (hl : h < s.harts.length) : aroundExec h 1 [] 1 s = progbufKnown h s := by
  have e : aroundExec h 1 [] 1 = (do
      pass 160 [4]
      let b ← line 160 5 (readRegisters regnoX1 1)
      line 160 6 (update (State.backUp · h b))
      pass 160 [7]
      withCleanup .restore (restoreGprs h 1) (execBody [] 1)) := by
    simp only [aroundExec, backupGprs, Nat.one_ne_zero, if_false, bind_assoc]
  rw [e]
  unfold progbufKnown
  rw [pass_bind, pass_bind]
  refine bind_congr_run fun b t hb => ?_
  have hlen : b.length = 1 := returns_line (readRegisters_length regnoX1 1) _ _ _ hb
  have hk := (wireFrame_kept.toTxFrame.line (wireFrame_kept.readRegisters regnoX1 1)).ok hb
  have hh : t.harts = s.harts := congrArg (fun k => k.2.2) hk
  refine bind_congr_run fun _ u hu => ?_
  rw [line_update_run] at hu
  have hu' : u.harts = (t.backUp h b).harts := by cases hu; rfl
  rw [pass_bind, pass_bind]
  have key : ∀ v : State, v.harts = u.harts →
      restoreGprs h 1 v = (pass 160 [11] >>= fun _ => line 160 12 (writeRegisters regnoX1 b)) v := by
    intro v hv
    simp only [restoreGprs, Nat.one_ne_zero, if_false, pass_bind]
    refine line_congr ?_
    exact bind_ok (writeRegisters regnoX1) (hlen ▸ backedUp_run (s := t) (h := h) (b := b) (hh ▸ hl) (hv.trans hu'))
  have hbody := wireFrame_kept.execBody [] 1
  refine withCleanup_congr (fun a v hv => key _ ?_) (fun e v hv => key _ ?_)
  · exact congrArg (fun k => k.2.2) (hbody.ok hv)
  · exact congrArg (fun k => k.2.2) (hbody.same hv)

/-- `current_hart` names entry `h` exactly where it holds `h` and the table has it (10_state.md R35). -/
theorem namedEntry_eq_some {s : State} {h : Nat} :
    s.namedEntry = some h ↔ s.currentHart = some h ∧ h < s.harts.length := by
  simp [State.namedEntry, Option.filter_eq_some_iff]

/-- The entry that `progbuf_exec` works on is the current hart's, and the table has it (10_state.md R35). -/
theorem currentEntry_ok {s t : State} {h : Nat} (hs : currentEntry s = .ok h t) :
    t = s ∧ s.currentHart = some h ∧ h < s.harts.length := by
  unfold currentEntry at hs
  rw [look_bind] at hs
  cases hc : s.namedEntry with
  | none => rw [hc] at hs; cases hs
  | some c =>
    rw [hc] at hs
    cases hs
    exact ⟨rfl, namedEntry_eq_some.mp hc⟩

/-- The layer of READ_CSR_PROGBUF: it reads two more registers that may hold no value, and writes the backup of the current hart's entry
(R162). -/
structure CsrFrame (R E : State → State → Prop) (Z : State → Prop) : Prop extends WireFrame R E Z where
  noImpebreak : ∀ s : State, s.impebreak = none → Z s
  noCsrPath : ∀ s : State, s.progbufCsrEnabled = none → Z s
  backup : ∀ (s t : State) (h : Nat) (b : Word), s.currentHart = some h → h < s.harts.length → R s t →
    R s (t.backUp h [b])

namespace CsrFrame

variable {R E : State → State → Prop} {Z : State → Prop} (F : CsrFrame R E Z)
include F

theorem upload (w : Word) : Keeps R E Z (upload w) :=
  keeps_bind F.toRuns (F.toTxFrame.line (F.toDmiFrame.dmiWrite _ _)) fun _ =>
    F.toTxFrame.line <| keeps_bind F.toRuns (keeps_readReg F.toRuns F.noImpebreak) fun _ =>
    keeps_ite (keeps_pure F.toRuns _) (F.toDmiFrame.dmiWrite _ _)

/-- `progbuf_exec` with no inputs and one output (R160): the slot it restores is the one it has just backed up. -/
theorem progbufExec : Keeps R E Z (progbufExec [] 1) := by
  intro s0
  refine Ends.after F.toRuns (F.toTxFrame.passed s0 160 [1]) (r := Machine.progbufExec [] 1 s0) ?_
  obtain ⟨s, hs⟩ : ∃ s, s = s0.passed 160 [1] := ⟨_, rfl⟩
  unfold Machine.progbufExec
  rw [pass_bind, ← hs]
  refine Ends.bind (F.toTxFrame.line (keeps_require F.toRuns _ Error.noConfusion) s) fun _ u0 e0 k0 => ?_
  have hcur : Keeps R E Z (Machine.line 160 3 currentEntry) := F.toTxFrame.line <|
    keeps_looking F.toRuns fun h => by
      cases h with
      | none => exact keeps_raise F.toRuns Error.noConfusion
      | some h => exact keeps_pure F.toRuns h
  refine Ends.after F.toRuns k0 (Ends.bind (hcur u0) fun h u1 e1 k1 => ?_)
  obtain ⟨_, e2, rfl⟩ := line_ok_inv e1
  obtain ⟨rfl, h1, h2⟩ := currentEntry_ok e2
  refine Ends.bind ?_ fun _ t _ k => Ends.after F.toRuns k (F.toTxFrame.passThen (keeps_pure F.toRuns _) t)
  have e3 := progbuf_known (s := (u0.moveTo ⟨160, 3⟩).backTo u0.label) (h := h) h2
  refine (congrArg (Ends R E Z u0) e3).mpr ?_
  have k2 := F.trans k1 (F.toTxFrame.passed _ 160 [4])
  obtain ⟨s1, hs1⟩ : ∃ s1, s1 = ((u0.moveTo ⟨160, 3⟩).backTo u0.label).passed 160 [4] := ⟨_, rfl⟩
  unfold progbufKnown
  rw [pass_bind, ← hs1]
  rw [← hs1] at k2
  refine Ends.bind ((F.toTxFrame.line (F.toWireFrame.readRegisters _ _) _).after F.toRuns k2) fun b t e4 k4 => ?_
  obtain ⟨v, rfl⟩ : ∃ v, b = [v] :=
    List.length_eq_one_iff.mp (returns_line (readRegisters_length regnoX1 1) _ _ _ e4)
  refine Ends.bind (F.trans (F.backup u0 (t.moveTo ⟨160, 6⟩) h v h1 h2 (F.trans k4 (F.moved t _))) (F.back _ t.label))
    fun _ u _ k5 => Ends.after F.toRuns k5 ?_
  exact F.toTxFrame.passThen (F.toCleanupFrame.withCleanup
    (F.toTxFrame.passThen (F.toTxFrame.line (F.toWireFrame.writeRegisters _ _))) (F.toWireFrame.execBody _ _)) u

/-- READ_CSR_PROGBUF (R157). -/
theorem readCsr (csr : Nat) : Keeps R E Z (readCsr csr) :=
  keeps_bind F.toRuns (keeps_readReg F.toRuns F.noCsrPath) fun _ =>
  keeps_bind F.toRuns (F.toTxFrame.line (keeps_require F.toRuns _ Error.noConfusion)) fun _ =>
  keeps_bind F.toRuns (F.toTxFrame.line (keeps_require F.toRuns _ Error.noConfusion)) fun _ =>
  keeps_looking F.toRuns fun _ =>
  keeps_bind F.toRuns (F.toTxFrame.line (keeps_require F.toRuns _ Error.noConfusion)) fun _ =>
  keeps_bind F.toRuns (F.toTxFrame.line (F.upload _)) fun _ =>
  keeps_bind F.toRuns (F.toTxFrame.line F.progbufExec) fun _ => F.toTxFrame.passThen (keeps_pure F.toRuns _)

end CsrFrame

/-- `progbuf_exec` where the current hart's entry is `h` (R160). -/
def progbufExecKnown (h : Nat) : Op (List Word) := do
  pass 160 [1, 2, 3]
  let out ← progbufKnown h
  pass 160 [13]
  pure out

/-- READ_CSR_PROGBUF where the registers it reads hold what R157 and R160 ask for. -/
def readCsrKnown (imp : Bool) (h : Nat) (w : Word) : Op Value := do
  pass 157 [1, 2, 3]
  line 157 4 (uploadKnown imp w)
  let out ← line 157 5 (progbufExecKnown h)
  pass 157 [6]
  pure (firstOut out)

theorem currentEntry_run {s : State} {h : Nat} (hc : s.currentHart = some h) (hl : h < s.harts.length) :
    currentEntry s = .ok h s := by
  unfold currentEntry
  rw [look_bind, namedEntry_eq_some.mpr ⟨hc, hl⟩]
  rfl

theorem progbufExec_known {s : State} {h : Nat} (hc : s.currentHart = some h) (hl : h < s.harts.length) :
    progbufExec [] 1 s = progbufExecKnown h s := by
  have hm : decide (max ([] : List Word).length 1 ≤ maxBackup) = true := by decide
  unfold progbufExec progbufExecKnown
  rw [pass_bind, hm, line_require, if_pos rfl,
    bind_ok _ (line_pass (currentEntry_run (by simpa using hc) (by simpa using hl))), passed_passed, passed_passed,
    pass_bind, bind_run, show max ([] : List Word).length 1 = 1 from rfl, progbuf_known (by simpa using hl), ← bind_run]
  rfl

theorem readCsr_known {s : State} {imp : Bool} {h csr : Nat} (he : s.progbufCsrEnabled = some true)
    (hcsr : csr ≤ 0xFFF) (hi : s.impebreak = some imp) (hc : s.currentHart = some h) (hl : h < s.harts.length) :
    readCsr csr s = readCsrKnown imp h (csrrsX1Word (BitVec.ofNat 12 csr)) s := by
  unfold readCsr readCsrKnown
  rw [bind_ok _ (readReg_some he), decide_eq_true hcsr, line_require, if_pos rfl, line_require, if_pos rfl, look_bind,
    State.passed_harts, State.passed_harts, decide_eq_true (show s.harts.length ≠ 0 by omega), line_require, if_pos rfl,
    passed_passed, passed_passed, pass_bind]
  obtain ⟨s3, h3⟩ : ∃ s3, s3 = s.passed 157 [1, 2, 3] := ⟨_, rfl⟩
  have k3 : s3.kept = s.kept := by rw [h3]; rfl
  show _ = (line 157 4 (uploadKnown imp _) >>= _) (s.passed 157 [1, 2, 3])
  rw [show [1] ++ ([2] ++ [3]) = [1, 2, 3] from rfl, ← h3]
  have hi3 : s3.impebreak = some imp := (congrArg Prod.fst k3).trans hi
  rw [bind_run, line_congr (upload_known (s := s3.moveTo _) hi3 _), ← bind_run]
  refine bind_congr_run fun _ s4 h4 => ?_
  have hk := (wireFrame_kept.toTxFrame.line (show Keeps _ _ _ (uploadKnown imp _) from
    keeps_bind wireFrame_kept.toRuns (wireFrame_kept.toTxFrame.line (wireFrame_kept.toDmiFrame.dmiWrite _ _)) fun _ =>
      wireFrame_kept.toTxFrame.line (keeps_ite (keeps_pure wireFrame_kept.toRuns _)
        (wireFrame_kept.toDmiFrame.dmiWrite _ _)))).ok h4
  have hc4 : s4.currentHart = some h := (congrArg (fun k => k.2.1) (hk.trans k3)).trans hc
  have hh4 : s4.harts = s.harts := congrArg (fun k => k.2.2) (hk.trans k3)
  rw [bind_run, line_congr (progbufExec_known (s := s4.moveTo _) hc4 (by rw [State.moveTo_harts, hh4]; exact hl)),
    ← bind_run]

theorem serves_upload {p : Params} (imp : Bool) (w : Word) {us : List Word}
    (hu : us.length = (uploadWords lk.A imp w).length) :
    Serves lk p (uploadKnown imp w) (uploadWords lk.A imp w) us (.ok ()) id := by
  cases imp with
  | true =>
    match us, hu with
    | [a], _ => exact ((serves_dmiWrite addrProgbuf0 w a).line _ _).bind ((serves_pure ()).line _ _)
  | false =>
    match us, hu with
    | [a, b], _ =>
      exact ((serves_dmiWrite addrProgbuf0 w a).line _ _).bind ((serves_dmiWrite addrProgbuf1 ebreakWord b).line _ _)

theorem regnoAt_zero (r : BitVec 16) : regnoAt r 0 = r := by simp [regnoAt]

/-- A None-mode read of one register (R154). -/
theorem serves_readRegisters_one {p : Params} (r : BitVec 16) {q : OneRead} (hq : q.command.Ends p .none) :
    Serves lk p (readRegisters r 1) (q.words lk.A r) q.data (.ok [q.value]) id := by
  have h := serves_readNone (lk := lk) (p := p) r [q] (by simpa using hq) 0
  have hl : runTooLong r 1 = false := by have := r.isLt; simp [runTooLong]; omega
  have h2 : Serves lk p (readEach r 1) (q.words lk.A r) q.data (.ok [q.value]) id :=
    Serves.thenReturn (by simpa [noneReadWords, regnoAt_zero] using h) 154 [4] id
  unfold readRegisters
  simp only [hl, Bool.not_false, require_true, Nat.one_ne_zero, if_false, usesAutoexec, if_true]
  exact Serves.after (Serves.after (y := fun b => if b then readBatch r 1 else readEach r 1) h2
    ((serves_pure false).line _ _)) ((serves_pure ()).line _ _)

/-- Steps (3) to (5) with no inputs and one output (R163 to R165). -/
theorem serves_execBody {p : Params} {c : Command} {q : OneRead} (hc : c.Ends p .none)
    (hq : q.command.Ends p .none) :
    Serves lk p (execBody [] 1) (c.words lk.A arPostexecWord ++ q.words lk.A regnoX1) (c.data ++ q.data)
      (.ok [q.value]) id :=
  ((serves_pure ()).line _ _).bind (((serves_run_ok _ hc).line _ _).bind
    ((serves_readRegisters_one regnoX1 hq).line _ _) rfl rfl)

/-- Step (4) fails: nothing is read back. -/
theorem serves_execBody_fail {p : Params} {c : Command} {e : CmdErr} {kind : AbstractKind} (hc : c.Ends p e)
    (hk : classify e = .fail kind) (d : Word) :
    Serves lk p (execBody [] 1)
      (c.words lk.A arPostexecWord ++ writeWords lk.A addrAbstractCs cmderrClearWord) (c.data ++ [d])
      (.error (.abstractCmdError kind)) id :=
  ((serves_pure ()).line _ _).bind (((serves_run_fail _ hc hk d).line _ _).bind_error _)

/-- Step (6) for one register (R166). -/
theorem serves_restore {p : Params} {q : OneWrite} (b : Word) (hq : q.command.Ends p .none) :
    Serves lk p (do pass 160 [11]; line 160 12 (writeRegisters regnoX1 [b])) (q.words lk.A regnoX1 b) q.data (.ok ()) id := by
  have h := serves_writeNone (lk := lk) (p := p) regnoX1 [(b, q)] (by simpa using hq) 0
  have h2 : Serves lk p (writeEach regnoX1 [b]) (q.words lk.A regnoX1 b) q.data (.ok ()) id :=
    Serves.bind (by simpa [noneWriteWords, regnoAt_zero] using h) (serves_pass _ _)
  have h3 : Serves lk p (line 155 2 (usesAutoexec 1) >>= fun c => if c then writeBatch regnoX1 b [] else writeEach regnoX1 [b])
      (q.words lk.A regnoX1 b) q.data (.ok ()) id := by
    simp only [usesAutoexec, if_true]
    exact Serves.after (y := fun c => if c then writeBatch regnoX1 b [] else writeEach regnoX1 [b]) h2
      ((serves_pure false).line _ _)
  have h4 : Serves lk p (writeRegisters regnoX1 [b]) (q.words lk.A regnoX1 b) q.data (.ok ()) id :=
    Serves.after (y := fun _ => _) h3 ((serves_pure ()).line 155 1)
  exact Serves.afterPass (h4.line 160 12)

/-- Steps (2) to (6), where steps (3) to (5) shift the words `ws` and end with `out`, and the restore completes. -/
theorem serves_progbuf {p : Params} (h : Nat) {qb : OneRead} {qr : OneWrite} (hqb : qb.command.Ends p .none)
    (hqr : qr.command.Ends p .none) {ws : List DmiWord} {ds : List Word} {out : Except Error (List Word)}
    (hbody : Serves lk p (execBody [] 1) ws ds out id) (hout : out ≠ .error .transportFailure) :
    Serves lk p (progbufKnown h) (qb.words lk.A regnoX1 ++ (ws ++ qr.words lk.A regnoX1 qb.value))
      (qb.data ++ (ds ++ qr.data)) out (State.backUp · h [qb.value]) := by
  have h2 : Serves lk p (withCleanup .restore (do pass 160 [11]; line 160 12 (writeRegisters regnoX1 [qb.value]))
      (execBody [] 1)) (ws ++ qr.words lk.A regnoX1 qb.value) (ds ++ qr.data) out id := by
    cases out with
    | ok a => exact hbody.withCleanup_ok (serves_restore qb.value hqr)
    | error e => exact hbody.withCleanup_error (by simpa using hout) (serves_restore qb.value hqr)
  have h3 := ((serves_change (lk := lk) (p := p) (State.backUp · h [qb.value])).line 160 6).andThen (f := fun _ => _)
    (h2.afterPass (r := 160) (ns := [7]) (y := fun _ => _))
  exact Serves.afterPass (((serves_readRegisters_one regnoX1 hqb).line 160 5).andThen (f := fun b => do
    line 160 6 (update (State.backUp · h b))
    pass 160 [7]
    withCleanup .restore (do pass 160 [11]; line 160 12 (writeRegisters regnoX1 b)) (execBody [] 1)) h3)

theorem serves_readCsr {p : Params} (imp : Bool) (h : Nat) (w : Word) {us : List Word} {qb : OneRead} {qr : OneWrite}
    (hu : us.length = (uploadWords lk.A imp w).length) (hqb : qb.command.Ends p .none)
    (hqr : qr.command.Ends p .none) {ws : List DmiWord} {ds : List Word} {out : Except Error (List Word)}
    (hbody : Serves lk p (execBody [] 1) ws ds out id) (hout : out ≠ .error .transportFailure) :
    Serves lk p (readCsrKnown imp h w)
      (uploadWords lk.A imp w ++ (qb.words lk.A regnoX1 ++ (ws ++ qr.words lk.A regnoX1 qb.value)))
      (us ++ (qb.data ++ (ds ++ qr.data))) (out.map firstOut) (State.backUp · h [qb.value]) := by
  have hexec : Serves lk p (progbufExecKnown h) (qb.words lk.A regnoX1 ++ (ws ++ qr.words lk.A regnoX1 qb.value))
      (qb.data ++ (ds ++ qr.data)) out (State.backUp · h [qb.value]) := by
    have h := (serves_progbuf h hqb hqr hbody hout).thenReturn 160 [13] id
    rw [show out.map id = out by cases out <;> rfl] at h
    exact h.afterPass (y := fun _ => _)
  have hall := (hexec.line 157 5).thenReturn 157 [6] firstOut
  exact Serves.afterPass (((serves_upload imp w hu).line 157 4).andThen (f := fun _ => _) hall)

end Sys2Proof.Machine
end

