-- ==== Sys2Proof/Laws/Exec.lean ====
section
/-! SUPPORT. Everything an instruction other than ATTACH and DETACH can do, said once: it is turned away, or it runs a
body, and every relation that holds across the changes its layer makes holds across the body. -/

namespace Sys2Proof.Machine

/-- The layer of an instruction: 0 selections and DTMCS words, 1 DMI words and register writes, 2 commands, 3 register
runs. -/
def layer : Instr → Nat
  | .irDtmcs | .irDmi | .dtmcsRead | .dtmcsDmireset | .dtmcsDmihardreset | .hostAttach _ | .hostDetach => 0
  | .dmiNop _ _ | .dmiRead _ _ | .dmiWrite _ _ | .statusNoError _ | .statusReserved _ | .statusOpFailed _
  | .statusOpInterrupted _ | .acsClear | .autoexecSentinel | .autoexecArm | .autoexecDisarm | .dmcontrolHartsel _
  | .csrrsX1 _ | .ebreak | .hostDmiRead _ | .hostDmiWrite _ _ | .hostSelectHart _ => 1
  | .arRead _ | .arWrite _ | .arReadPostinc _ | .arWritePostinc _ | .arPostexec | .cmderrNone _ | .cmderrBusy _
  | .cmderrNotSupported _ | .cmderrException _ | .cmderrHaltResume _ | .cmderrBus _ | .cmderrReserved _
  | .cmderrOther _ | .hostRun _ => 2
  | .hostReadRegs _ _ | .hostWriteRegs _ _ | .hostReadCsrProgbuf _ => 3

variable {R E : State → State → Prop} {Z : State → Prop}

/-- Relations that hold across every change the instruction `i` makes. -/
structure ExecFrame (i : Instr) (R E : State → State → Prop) (Z : State → Prop) : Prop extends TxFrame R E Z where
  dmi : 1 ≤ layer i → DmiFrame R E Z
  run : 2 ≤ layer i → RunFrame R E Z
  wire : 3 ≤ layer i → WireFrame R E Z
  csr : ∀ c, i = .hostReadCsrProgbuf c → CsrFrame R E Z
  current : ∀ k, i = .hostSelectHart k → ∀ u v : State, k < u.harts.length → R u v → R u (v.makeCurrent k)

/-- The body keeps every relation that holds across the changes the instruction makes. -/
def BodyOf (i : Instr) (body : Op Value) : Prop := ∀ R E Z, ExecFrame i R E Z → Keeps R E Z body

/-- A result made from the result is no change. -/
theorem keeps_thenPure {α β : Type} (hR : Runs R E Z) {x : Op α} (h : Keeps R E Z x) (f : α → β) :
    Keeps R E Z (do let a ← x; pure (f a)) := keeps_bind hR h fun _ => keeps_pure hR _

theorem body_dmi {α : Type} {i : Instr} (hi : 1 ≤ layer i) {x : Op α} (f : α → Value)
    (h : ∀ {R E Z}, DmiFrame R E Z → Keeps R E Z x) : BodyOf i (do let a ← x; pure (f a)) :=
  fun _ _ _ F => keeps_thenPure F.toRuns (h (F.dmi hi)) f

theorem body_run {α : Type} {i : Instr} (hi : 2 ≤ layer i) {x : Op α} (f : α → Value)
    (h : ∀ {R E Z}, RunFrame R E Z → Keeps R E Z x) : BodyOf i (do let a ← x; pure (f a)) :=
  fun _ _ _ F => keeps_thenPure F.toRuns (h (F.run hi)) f

theorem body_tx {α : Type} {i : Instr} {x : Op α} (f : α → Value)
    (h : ∀ {R E Z}, TxFrame R E Z → Keeps R E Z x) : BodyOf i (do let a ← x; pure (f a)) :=
  fun _ _ _ F => keeps_thenPure F.toRuns (h F.toTxFrame) f

/-- The four classes of words of the wire: a DMI word, a captured DMI word, a register write, a captured ABSTRACT_CS
word. -/
theorem word_shift {s : State} {i : Instr} {op : BitVec 2} {a : Nat} {d : Word} (hi : 1 ≤ layer i) :
    ∃ body, shiftWord (dmiEncode op a d) s = runWord body s ∧ BodyOf i body :=
  ⟨_, rfl, body_dmi hi _ fun F => F.dmiShift (fits_encode _ _ _)⟩

theorem word_capture {s : State} {i : Instr} {st : DmiStatus} {d : Word} (hi : 1 ≤ layer i) :
    ∃ body, classifyCapture st d s = runWord body s ∧ BodyOf i body :=
  ⟨_, rfl, fun _ _ _ F => keeps_looking F.toRuns fun _ => keeps_thenPure F.toRuns ((F.dmi hi).dmiClassify _ _) _⟩

theorem word_write {s : State} {i : Instr} {a : Nat} {w : Word} (hi : 1 ≤ layer i) :
    ∃ body, writeWord a w s = runWord body s ∧ BodyOf i body :=
  ⟨_, rfl, body_dmi hi (fun _ => .unit) fun F => F.dmiWrite _ _⟩

theorem word_command {s : State} {i : Instr} {cmd : Word} {r : BitVec 16} (hi : 2 ≤ layer i) :
    ∃ body, issueCommand cmd r s = runWord body s ∧ BodyOf i body :=
  ⟨_, rfl, body_run hi (fun _ => .unit) fun F => F.runReg _ _⟩

theorem word_classify {s : State} {i : Instr} {acs : AcsFields} {e : CmdErr} (hi : 2 ≤ layer i) :
    ∃ body, classifyAcs acs e s = runWord body s ∧ BodyOf i body :=
  ⟨_, rfl, fun _ _ _ F => keeps_looking F.toRuns fun _ => keeps_looking F.toRuns fun _ =>
    keeps_looking F.toRuns fun _ =>
    keeps_bind F.toRuns (F.toTxFrame.line ((F.run hi).pollWith ((F.run hi).pollAgain _) _)) fun _ =>
    keeps_bind F.toRuns ((F.run hi).runWith ((F.run hi).runAgain _ _) _) fun _ => keeps_pure F.toRuns _⟩

/-- A word of the wire runs a body. -/
theorem exec_word (s : State) {i : Instr} (hi : isRequest i = false) :
    ∃ body, exec i s = runWord body s ∧ BodyOf i body := by
  cases i with
  | irDtmcs => exact ⟨_, rfl, body_tx (fun _ => .unit) fun F => F.selectDtmcs⟩
  | irDmi => exact ⟨_, rfl, body_tx (fun _ => .unit) fun F => F.selectDmi⟩
  | dtmcsRead => exact ⟨_, rfl, body_tx _ fun F => F.readDtmcs⟩
  | dtmcsDmireset => exact ⟨_, rfl, body_tx (fun _ => .unit) fun F => F.softReset⟩
  | dtmcsDmihardreset => exact ⟨_, rfl, body_tx (fun _ => .unit) fun F => F.hardReset⟩
  | dmiNop a d => exact word_shift (Nat.le_refl 1)
  | dmiRead a d => exact word_shift (Nat.le_refl 1)
  | dmiWrite a d => exact word_shift (Nat.le_refl 1)
  | statusNoError d => exact word_capture (Nat.le_refl 1)
  | statusReserved d => exact word_capture (Nat.le_refl 1)
  | statusOpFailed d => exact word_capture (Nat.le_refl 1)
  | statusOpInterrupted d => exact word_capture (Nat.le_refl 1)
  | arRead r => exact word_command (Nat.le_refl 2)
  | arWrite r => exact word_command (Nat.le_refl 2)
  | arReadPostinc r => exact word_command (Nat.le_refl 2)
  | arWritePostinc r => exact word_command (Nat.le_refl 2)
  | arPostexec => exact ⟨_, rfl, body_run (i := .arPostexec) (Nat.le_refl 2) (fun _ => .unit) fun F => F.run _⟩
  | cmderrNone a => exact word_classify (Nat.le_refl 2)
  | cmderrBusy a => exact word_classify (Nat.le_refl 2)
  | cmderrNotSupported a => exact word_classify (Nat.le_refl 2)
  | cmderrException a => exact word_classify (Nat.le_refl 2)
  | cmderrHaltResume a => exact word_classify (Nat.le_refl 2)
  | cmderrBus a => exact word_classify (Nat.le_refl 2)
  | cmderrReserved a => exact word_classify (Nat.le_refl 2)
  | cmderrOther a => exact word_classify (Nat.le_refl 2)
  | acsClear => exact word_write (Nat.le_refl 1)
  | autoexecSentinel => exact word_write (Nat.le_refl 1)
  | autoexecArm => exact word_write (Nat.le_refl 1)
  | autoexecDisarm => exact word_write (Nat.le_refl 1)
  | dmcontrolHartsel n => exact word_write (Nat.le_refl 1)
  | csrrsX1 c => exact word_write (Nat.le_refl 1)
  | ebreak => exact word_write (Nat.le_refl 1)
  | hostAttach _ | hostDetach | hostDmiRead _ | hostDmiWrite _ _ | hostRun _ | hostReadRegs _ _ | hostWriteRegs _ _
  | hostReadCsrProgbuf _ | hostSelectHart _ => simp [isRequest] at hi

/-- SELECT_HART changes the current hart to an entry of the table, or nothing (R175). -/
theorem DmiFrame.selectHart (F : DmiFrame R E Z) (k : Nat)
    (hc : ∀ u v : State, k < u.harts.length → R u v → R u (v.makeCurrent k)) : Keeps R E Z (selectHart k) := by
  intro s
  unfold Machine.selectHart
  rw [look_bind]
  cases he : s.harts[k]? with
  | none => exact F.toTxFrame.raise Error.noConfusion s
  | some e =>
    have hk : k < s.harts.length := (List.getElem?_eq_some_iff.mp he).1
    refine Ends.after F.toRuns (F.toTxFrame.passed s 175 [1]) (r := (do
      line 175 2 (Machine.writeHartsel (BitVec.ofNat 20 e.index))
      line 175 3 (update (State.makeCurrent · k))
      pure .unit : Op Value) (s.passed 175 [1])) ?_
    refine Ends.bind (F.toTxFrame.line (F.writeHartsel _) _) fun _ t _ h => ?_
    exact F.trans (hc (s.passed 175 [1]) (t.moveTo ⟨175, 3⟩) hk (F.trans h (F.moved t _))) (F.back _ _)

/-- In a Ready session a request other than ATTACH and DETACH runs a body. -/
theorem exec_request {s : State} {i : Instr} (hi : isRequest i = true) (ha : ∀ w, i ≠ .hostAttach w)
    (hd : i ≠ .hostDetach) (hp : s.phase = .ready) :
    ∃ body, exec i s = serve i body s ∧ BodyOf i body := by
  cases i with
  | hostAttach w => exact absurd rfl (ha w)
  | hostDetach => exact absurd rfl hd
  | hostDmiRead a =>
    exact ⟨_, whenReady_ready _ hp, body_dmi (i := .hostDmiRead a) (Nat.le_refl 1) _ fun F => F.toTxFrame.line (F.dmiRead _)⟩
  | hostDmiWrite a w =>
    exact ⟨_, whenReady_ready _ hp,
      body_dmi (i := .hostDmiWrite a w) (Nat.le_refl 1) (fun _ => .unit) fun F => F.toTxFrame.line (F.dmiWrite _ _)⟩
  | hostRun w =>
    exact ⟨_, whenReady_ready _ hp,
      body_run (i := .hostRun w) (Nat.le_refl 2) (fun _ => .unit) fun F => F.toTxFrame.line (F.run _)⟩
  | hostReadRegs base n =>
    exact ⟨_, whenReady_ready _ hp, fun _ _ _ F =>
      keeps_thenPure F.toRuns ((F.wire (Nat.le_refl 3)).readRegisters _ _) _⟩
  | hostWriteRegs base vs =>
    exact ⟨_, whenReady_ready _ hp, fun _ _ _ F =>
      keeps_thenPure F.toRuns ((F.wire (Nat.le_refl 3)).writeRegisters _ _) fun _ => Value.unit⟩
  | hostReadCsrProgbuf c =>
    exact ⟨_, whenReady_ready _ hp, fun _ _ _ F => (F.csr c rfl).readCsr c⟩
  | hostSelectHart k =>
    exact ⟨_, whenReady_ready _ hp, fun _ _ _ F => (F.dmi (Nat.le_refl 1)).selectHart k (F.current k rfl)⟩
  | irDtmcs | irDmi | dtmcsRead | dtmcsDmireset | dtmcsDmihardreset | dmiNop _ _ | dmiRead _ _ | dmiWrite _ _
  | statusNoError _ | statusReserved _ | statusOpFailed _ | statusOpInterrupted _ | arRead _ | arWrite _
  | arReadPostinc _ | arWritePostinc _ | arPostexec | cmderrNone _ | cmderrBusy _ | cmderrNotSupported _
  | cmderrException _ | cmderrHaltResume _ | cmderrBus _ | cmderrReserved _ | cmderrOther _ | acsClear
  | autoexecSentinel | autoexecArm | autoexecDisarm | dmcontrolHartsel _ | csrrsX1 _ | ebreak => simp [isRequest] at hi

/-- Out of phase a request is turned away (R88, R185). -/
theorem exec_away {s : State} {i : Instr} (hi : isRequest i = true) (h : ¬ Admitted i s) :
    exec i s = .next (turnAway s) := by
  cases i <;> simp only [isRequest, Bool.false_eq_true] at hi <;> simp only [Admitted] at h
  case hostAttach w => simp [exec, execHostAttach, h]
  all_goals
    simp only [exec, execHostDetach, execHostDmiRead, execHostDmiWrite, execHostRun, execHostReadRegs,
      execHostWriteRegs, execHostReadCsrProgbuf, execHostSelectHart, whenReady, if_neg h]

/-- What a DETACH in a Ready session leaves (R130). -/
def State.detached (s : State) : State :=
  (((s.serving .hostDetach).moveTo ⟨130, 1⟩).resetSession.backTo s.label).answer (.ok .unit)

theorem exec_detach {s : State} (h : s.phase = .ready) : exec .hostDetach s = .next s.detached := by
  simp only [exec, execHostDetach, whenReady_ready _ h]
  rfl

/-- ATTACH in the Detached state (R114). -/
theorem exec_attach {s : State} (idcode : Word) (h : s.phase = .detached) :
    exec (.hostAttach idcode) s = serve (.hostAttach idcode) (attach idcode) s := by
  simp [exec, execHostAttach, h]

/-! ## How an instruction ends -/

/-- An operation that started in `s` left `u` and ended with `r`. -/
def Ending (R E : State → State → Prop) (s u : State) : Response → Prop
  | .ok _ => R s u
  | .err e => if e = .transportFailure then E s u else R s u

/-- What the end with `r` does to the session (60_exceptions.md R180). -/
def State.afterward (u : State) : Response → State
  | .ok _ => u
  | .err e => u.sessionEffect e

/-- The state an operation starts from. -/
def startOf (s : State) (i : Instr) : State := if isRequest i then s.takeUp i else s

/-- The state an instruction leaves. -/
def closeOf (i : Instr) (u : State) (r : Response) : State :=
  if isRequest i then (u.afterward r).answer r else (u.afterward r).finish r

/-- How an instruction ran: it ended as `R` and `E` say, or it stopped as `Z` says. -/
def Ran (R E : State → State → Prop) (Z : State → Prop) (s : State) (i : Instr) (o : Outcome) : Prop :=
  (∃ u r, Ending R E (startOf s i) u r ∧ o = .next (closeOf i u r)) ∨ (∃ f, o = .fault f ∧ Z (startOf s i))

theorem runWord_ran {s : State} {i : Instr} {body : Op Value} (hi : isRequest i = false) (h : Keeps R E Z body) :
    Ran R E Z s i (runWord body s) := by
  have hs := h s
  have h0 : startOf s i = s := by simp [startOf, hi]
  unfold Ran
  rw [h0]
  cases hb : body s with
  | ok v u =>
    rw [hb] at hs
    exact .inl ⟨u, .ok v, hs, by simp [runWord_of_ok hb, closeOf, hi, State.afterward]⟩
  | error e u =>
    rw [hb] at hs
    cases e with
    | err e => exact .inl ⟨u, .err e, hs, by simp [runWord_of_error hb, closeOf, hi, State.afterward]⟩
    | fault f => exact .inr ⟨f, runWord_of_fault hb, hs⟩

theorem serve_ran {s : State} {i : Instr} {body : Op Value} (F : TxFrame R E Z) (hi : isRequest i = true)
    (h : Keeps R E Z body) : Ran R E Z s i (serve i body s) := by
  have hs := F.line (r := 185) (n := 5) h (s.takeUp i)
  have h0 : startOf s i = s.takeUp i := by simp [startOf, hi]
  unfold Ran
  rw [h0]
  cases hb : line 185 5 body (s.takeUp i) with
  | ok v u =>
    rw [hb] at hs
    exact .inl ⟨u, .ok v, hs, by simp [serve, hb, closeOf, hi, State.afterward]⟩
  | error e u =>
    rw [hb] at hs
    cases e with
    | err e => exact .inl ⟨u, .err e, hs, by simp [serve, hb, closeOf, hi, State.afterward]⟩
    | fault f => exact .inr ⟨f, by simp [serve, hb], hs⟩

/-- An instruction other than ATTACH and DETACH is turned away, or it runs as its relations say. -/
theorem exec_ran {s : State} {i : Instr} (ha : ∀ w, i ≠ .hostAttach w) (hd : i ≠ .hostDetach)
    (F : ExecFrame i R E Z) :
    (isRequest i = true ∧ s.phase ≠ .ready ∧ exec i s = .next (turnAway s))
    ∨ ((isRequest i = true → s.phase = .ready) ∧ Ran R E Z s i (exec i s)) := by
  cases hi : isRequest i with
  | false =>
    obtain ⟨body, e, hb⟩ := exec_word s hi
    rw [e]
    exact .inr ⟨by simp, runWord_ran hi (hb R E Z F)⟩
  | true =>
    by_cases hp : s.phase = .ready
    · obtain ⟨body, e, hb⟩ := exec_request hi ha hd hp
      rw [e]
      exact .inr ⟨fun _ => hp, serve_ran F.toTxFrame hi (hb R E Z F)⟩
    · have hn : ¬ Admitted i s := by
        unfold Admitted
        cases i <;> first | exact absurd rfl (ha _) | exact hp
      exact .inl ⟨rfl, hp, exec_away hi hn⟩

/-- Where it answers a next state. -/
theorem exec_ends {s t : State} {i : Instr} (ha : ∀ w, i ≠ .hostAttach w) (hd : i ≠ .hostDetach)
    (F : ExecFrame i R E Z) (h : exec i s = .next t) :
    (isRequest i = true ∧ s.phase ≠ .ready ∧ t = turnAway s)
    ∨ ((isRequest i = true → s.phase = .ready) ∧ ∃ u r, Ending R E (startOf s i) u r ∧ t = closeOf i u r) := by
  rcases exec_ran (s := s) ha hd F with ⟨h1, h2, h3⟩ | ⟨h1, ⟨u, r, hr, h3⟩ | ⟨f, h3, -⟩⟩ <;> rw [h3] at h <;> cases h
  · exact .inl ⟨h1, h2, rfl⟩
  · exact .inr ⟨h1, u, r, hr, rfl⟩

/-- ATTACH from Detached runs as its relations say, where they hold across its start, its DTMCS read and its failure. -/
theorem attach_ran {s : State} {w : Word} (F : AttachFrame R E Z) (hp : s.phase = .detached)
    (hs : ∀ s : State, R s (s.startAttach w)) (hd : ∀ (s : State) (d : Word), R s (s.wroteDtmcs d))
    (hf : ∀ (s : State) (e : Error), e ≠ .transportFailure → R s (s.attachFailed e))
    (he : ∀ s u : State, E s u → E s (u.attachFailed .transportFailure)) :
    Ran R E Z s (.hostAttach w) (exec (.hostAttach w) s) := by
  rw [exec_attach w hp]
  refine serve_ran F.toTxFrame rfl (keeps_bind F.toRuns (by rw [beginAttach_eq]; exact F.toTxFrame.passUpdate hs) fun _ =>
    keeps_bind F.toRuns (fun s => ?_) fun _ => keeps_pure F.toRuns _)
  have K := F.attachSteps hd s
  unfold onError
  cases hb : attachSteps s with
  | ok n u => rw [hb] at K; exact K
  | error e u =>
    rw [hb] at K
    cases e with
    | fault f => exact K
    | err e =>
      simp only [attachFailure_eq, update_run]
      simp only [Ends] at K ⊢
      split
      · next hx => subst hx; rw [if_pos rfl] at K; exact he _ _ K
      · next hx => rw [if_neg hx] at K; exact F.trans K (hf u e hx)

theorem attach_ends {s t : State} {w : Word} (F : AttachFrame R E Z) (hp : s.phase = .detached)
    (hs : ∀ s : State, R s (s.startAttach w)) (hd : ∀ (s : State) (d : Word), R s (s.wroteDtmcs d))
    (hf : ∀ (s : State) (e : Error), e ≠ .transportFailure → R s (s.attachFailed e))
    (he : ∀ s u : State, E s u → E s (u.attachFailed .transportFailure))
    (h : exec (.hostAttach w) s = .next t) :
    ∃ u r, Ending R E (startOf s (.hostAttach w)) u r ∧ t = closeOf (.hostAttach w) u r := by
  rcases attach_ran F hp hs hd hf he with ⟨u, r, hr, h3⟩ | ⟨f, h3, -⟩ <;> rw [h3] at h <;> cases h
  exact ⟨u, r, hr, rfl⟩

@[simp] theorem closeOf_result (i : Instr) (u : State) (r : Response) : (closeOf i u r).result = some r := by
  unfold closeOf
  split <;> rfl

/-- A relation that holds whichever way the operation ended. -/
theorem Ending.same {s u : State} {r : Response} (h : Ending R R s u r) : R s u := by
  cases r with
  | ok => exact h
  | err e => simpa [Ending] using h

/-- The frame of an instruction from a frame of all its layers. -/
theorem ExecFrame.ofCsr {i : Instr} (F : CsrFrame R E Z)
    (hm : ∀ (u v : State) (k : Nat), k < u.harts.length → R u v → R u (v.makeCurrent k)) : ExecFrame i R E Z where
  toTxFrame := F.toTxFrame
  dmi _ := F.toDmiFrame
  run _ := F.toRunFrame
  wire _ := F.toWireFrame
  csr _ _ := F
  current k _ u v := hm u v k

/-- In a Ready session only TransportFailure changes the session (R180). -/
theorem State.afterward_ready {u : State} {r : Response} (hp : u.phase = .ready) (hr : r ≠ .err .transportFailure) :
    u.afterward r = u := by
  cases r with
  | ok => rfl
  | err e => exact sessionEffect_ready hp (by simpa using hr)

theorem closeOf_ready {i : Instr} {u : State} {r : Response} (hp : u.phase = .ready)
    (hr : r ≠ .err .transportFailure) : closeOf i u r = if isRequest i then u.answer r else u.finish r := by
  rw [closeOf, State.afterward_ready hp hr]

theorem sessionGone_reset (s : State) : SessionGone s.resetSession := by constructor <;> rfl

/-- TransportFailure in a Ready session destroys it (R180). -/
theorem closeOf_failed {i : Instr} {u : State} (hp : u.phase = .ready) :
    SessionGone (closeOf i u (.err .transportFailure)) := by
  have h : u.afterward (.err .transportFailure) = u.resetSession := by simp [State.afterward, State.sessionEffect, hp]
  rw [closeOf, h]
  split <;> constructor <;> rfl

/-- The two things an error does to the session (R180). -/
theorem sessionEffect_cases (u : State) (e : Error) : u.sessionEffect e = u ∨ u.sessionEffect e = u.resetSession := by
  unfold State.sessionEffect
  split
  · exact .inl rfl
  · exact .inr rfl
  · exact .inr rfl
  · split
    · exact .inr rfl
    · exact .inl rfl

theorem afterward_cases (u : State) (r : Response) : u.afterward r = u ∨ u.afterward r = u.resetSession := by
  cases r with
  | ok => exact .inl rfl
  | err e => exact sessionEffect_cases u e

@[simp] theorem sessionEffect_trace (u : State) (e : Error) : (u.sessionEffect e).trace = u.trace := by
  rcases sessionEffect_cases u e with h | h
  · rw [h]
  · rw [h]; rfl

@[simp] theorem closeOf_trace (i : Instr) (u : State) (r : Response) : (closeOf i u r).trace = u.trace := by
  unfold closeOf
  split <;> cases r <;> simp [State.afterward]

@[simp] theorem startOf_trace (s : State) (i : Instr) : (startOf s i).trace = s.trace := by
  unfold startOf
  split <;> rfl

theorem closeOf_atRest (i : Instr) (u : State) (r : Response) : AtRest (closeOf i u r) := by
  unfold closeOf
  split <;> exact ⟨rfl, rfl, rfl, rfl⟩

end Sys2Proof.Machine
end

