-- ==== Sys2Proof/Laws/Recovery.lean ====
section
/-! SUPPORT. What a DMI shift does where the environment does not answer NO_ERROR at once: the recoveries from
OP_INTERRUPTED, the soft reset before an error, and an action that fails (40_dmi_transaction.md R98 to R101). -/

namespace Sys2Proof.Machine

variable {lk : Link} {α : Type}

/-- Between `s` and `t` the lines `ls` were put on the lower port and the label moved as in `ms`; the word of the DMI
shift in force and what `State.core` holds are what they were. -/
structure Put (s t : State) (ls : List (Action × Reply)) (ms : List (List Line)) (rest : List Reply) : Prop where
  trace : t.trace = s.trace ++ ls
  replies : t.replies = rest
  last : t.lastDmiCommand = s.lastDmiCommand
  valid : t.lastValid = s.lastValid
  core : t.core = s.core
  cmd : t.dmiCmd = s.dmiCmd
  label : t.label = s.label
  moves : t.moves = s.moves ++ ms

theorem Put.refl {s : State} {rest : List Reply} (h : s.replies = rest) : Put s s [] [] rest := by
  constructor <;> simp [h]

theorem Put.trans {s t u : State} {l1 l2 : List (Action × Reply)} {m1 m2 : List (List Line)} {r1 r2 : List Reply}
    (h1 : Put s t l1 m1 r1) (h2 : Put t u l2 m2 r2) : Put s u (l1 ++ l2) (m1 ++ m2) r2 where
  trace := by rw [h2.trace, h1.trace, List.append_assoc]
  replies := h2.replies
  last := h2.last.trans h1.last
  valid := h2.valid.trans h1.valid
  core := h2.core.trans h1.core
  cmd := h2.cmd.trans h1.cmd
  label := h2.label.trans h1.label
  moves := by rw [h2.moves, h1.moves, List.append_assoc]

theorem Put.replayWord {s t : State} {ls : List (Action × Reply)} {ms : List (List Line)} {rest : List Reply}
    (h : Put s t ls ms rest) : t.replayWord = s.replayWord := by simp [State.replayWord, h.last, h.valid]

theorem Put.linked {s t : State} {ls : List (Action × Reply)} {ms : List (List Line)} {rest : List Reply}
    (h : Put s t ls ms rest) (hk : Linked s lk) : Linked t lk where
  abits := by rw [← core_addressBits, h.core, core_addressBits, hk.abits]
  idle := (congrArg State.idleCycles h.core).trans hk.idle
  last := by rw [h.last, h.valid]; exact hk.last

theorem Linked.moveTo {s : State} (hk : Linked s lk) (l : Line) : Linked (s.moveTo l) lk := ⟨hk.abits, hk.idle, hk.last⟩

/-- A line puts on the port what its statement puts there. -/
theorem put_line {x : Op α} {s u : State} {r n : Nat} {a : α} {ls : List (Action × Reply)} {ms : List (List Line)}
    {rest : List Reply} (e : x (s.moveTo ⟨r, n⟩) = .ok a u) (h : Put (s.moveTo ⟨r, n⟩) u ls ms rest) :
    ∃ t, line r n x s = .ok a t ∧ Put s t ls ((⟨r, n⟩ :: s.label) :: ms) rest ∧ t.irCurrent = u.irCurrent :=
  ⟨u.backTo s.label, line_ok e,
    { trace := h.trace, replies := h.replies, last := h.last, valid := h.valid, core := h.core, cmd := h.cmd
      label := rfl, moves := by simpa using h.moves }, rfl⟩

/-- Lines passed put nothing on the port. -/
theorem put_pass {s : State} {rest : List Reply} (r : Nat) (ns : List Nat) (h : s.replies = rest) :
    Put s (s.passed r ns) [] (movesAt r ns s.label) rest := by constructor <;> simp [h, State.core]

theorem put_issued {s : State} {r : Reply} {rest : List Reply} (a : Action) (h : s.replies = r :: rest) :
    Put s (s.issued a) [(a, r)] [] rest := by
  refine { trace := ?_, replies := ?_, last := rfl, valid := rfl, core := rfl, cmd := rfl, label := rfl, moves := ?_ }
  · exact issued_trace_eq a h
  · simp [h]
  · simp

/-- An action that completes. -/
theorem act_completes {s : State} {r : Reply} {rest : List Reply} (a : Action) (h : s.replies = r :: rest)
    (hr : r.completes) : ∃ b, act a s = .ok b (s.issued a) := by
  cases r with
  | done b => exact ⟨b, act_done a h⟩
  | failed => exact hr.elim

theorem txIr_completes {s : State} {r : Reply} {rest : List Reply} (c : Byte) (sel : IrSel) (h : s.replies = r :: rest)
    (hr : r.completes) : ∃ t, txIr c sel s = .ok () t ∧ Put s t [(.writeIr c, r)] [] rest ∧ t.irCurrent = sel := by
  obtain ⟨b, e⟩ := act_completes (.writeIr c) h hr
  have hp := put_issued (.writeIr c) h
  refine ⟨(s.issued (.writeIr c)).selectIr sel, ?_, ?_, rfl⟩
  · unfold txIr
    rw [bind_ok _ e]
    rfl
  · exact { hp with }

/-- R92. -/
theorem softReset_run {s : State} {a b : Reply} {rest : List Reply} (h : s.replies = a :: b :: rest)
    (ha : a.completes) (hb : b.completes) :
    ∃ t, softReset s = .ok () t ∧ Put s t (softResetLines a b) (movesAt 92 [1, 2] s.label) rest
      ∧ t.irCurrent = .dtmcs := by
  obtain ⟨t, e1, p1, hi⟩ := txIr_completes (s := s.moveTo ⟨92, 1⟩) irCodeDtmcs .dtmcs h ha
  obtain ⟨t', e1', q1, hi'⟩ := put_line e1 p1
  have e2 := txShift_completes (s := t'.moveTo ⟨92, 2⟩) 32 (dtmcsDmiresetValue.setWidth 97) q1.replies hb
  obtain ⟨u, e2', q2, hi2⟩ := put_line e2
    (put_issued (s := t'.moveTo ⟨92, 2⟩) (.shiftDr (packBytes 32 (dtmcsDmiresetValue.setWidth 97)) 32) q1.replies)
  refine ⟨u, ?_, ?_, hi2.trans (hi'.trans hi)⟩
  · unfold softReset selectDtmcs
    rw [bind_ok _ e1', bind_ok _ e2']
    rfl
  · simpa [movesAt, q1.label, softResetLines] using q1.trans q2

/-- The idle clocks of a recovery (R98). -/
def idleActions (lk : Link) : List Action := if 2 ≤ lk.idle.toNat then [.idleClock (lk.idle.toNat - 1)] else []

theorem recoveryIdle_run {s : State} {mid rest : List Reply} (hk : s.idleCycles = some lk.idle)
    (h : s.replies = mid ++ rest) (hl : mid.length = (idleActions lk).length) (hm : ∀ x ∈ mid, x.completes) :
    ∃ t, recoveryIdle s = .ok () t ∧ Put s t ((idleActions lk).zip mid) [] rest ∧ t.irCurrent = s.irCurrent := by
  unfold recoveryIdle idleActions at *
  rw [bind_ok _ (readReg_some hk)]
  by_cases hidle : 2 ≤ lk.idle.toNat
  · simp only [hidle, if_true, List.length_singleton] at hl ⊢
    match mid, hl with
    | [i], _ =>
      obtain ⟨b, e⟩ := act_completes (.idleClock (lk.idle.toNat - 1)) h (hm i (by simp))
      refine ⟨s.issued (.idleClock (lk.idle.toNat - 1)), ?_, put_issued _ h, rfl⟩
      unfold txIdle
      rw [bind_ok _ e]
      rfl
  · simp only [hidle, if_false, List.length_nil, List.length_eq_zero_iff] at hl ⊢
    subst hl
    exact ⟨s, rfl, Put.refl h, rfl⟩

/-- The replay word is read where it is written (R110, 00_scope.md R16). -/
theorem replayWord_run {s : State} (h : s.lastValid = true → s.lastDmiCommand.isSome) :
    replayWord s = .ok s.replayWord s := by
  unfold replayWord State.replayWord
  rw [look_bind]
  by_cases hv : s.lastValid = true
  · obtain ⟨w, hw⟩ := Option.isSome_iff_exists.mp (h hv)
    simp [hv, readReg_some hw, hw]
  · simp [hv]

theorem replay_run {s : State} {r : Reply} {rest : List Reply} (hk : Linked s lk) (h : s.replies = r :: rest)
    (hr : r.completes) :
    ∃ t, replay s = .ok () t ∧ Put s t [dmiLine lk.A s.replayWord r] [] rest ∧ t.irCurrent = s.irCurrent := by
  have e := txShift_completes (dmiWidth lk.A) s.replayWord h hr
  refine ⟨s.issued (.shiftDr (packBytes (dmiWidth lk.A) s.replayWord) (dmiWidth lk.A)), ?_, put_issued _ h, rfl⟩
  unfold replay
  rw [bind_ok _ (replayWord_run hk.last), bind_ok _ (show shiftDmi s.replayWord s = .ok _ _ from ?_)]
  rotate_left 3
  · unfold shiftDmi
    rw [bind_ok _ (addressWidth_some hk.abits)]
    exact e
  · rfl

/-- The shift's word goes out and the capture comes back. -/
theorem shiftCmd_run {s : State} {r : Reply} {rest : List Reply} (hw : s.addressBits = some lk.abits)
    (h : s.replies = r :: rest) (hr : r.completes) :
    ∃ t, shiftCmd s = .ok (r.value (dmiWidth lk.A)) t
      ∧ Put s t [dmiLine lk.A s.dmiCmd r] (movesAt 95 [3, 4] s.label) rest ∧ t.irCurrent = s.irCurrent := by
  obtain ⟨t, e, ht, htr, hti, htd, htl, htv, hla, hmo, htc⟩ := shiftCmd_completes hw h hr
  exact ⟨t, e, { trace := ht, replies := htr, last := htl, valid := htv, core := htc, cmd := htd, label := hla
                 moves := hmo }, hti⟩

/-- The moves of one recovery and its `goto`. -/
def recoverMoves (caller : List Line) : List (List Line) :=
  movesAt 95 [14, 15] caller ++ movesAt 92 [1, 2] (⟨95, 15⟩ :: caller) ++ movesAt 95 [16, 17, 18, 19] caller

/-- One recovery (R98). -/
theorem recover_run {s : State} {mid rest : List Reply} (hk : Linked s lk) (h : s.replies = mid ++ rest)
    (hl : mid.length = (recoveryActions lk s.replayWord).length) (hm : ∀ x ∈ mid, x.completes) :
    ∃ t, recover s = .ok () t
      ∧ Put s t ((recoveryActions lk s.replayWord).zip mid) (recoverMoves s.label) rest ∧ t.irCurrent = .dmi := by
  match mid, hl with
  | a :: b :: c :: d :: mid, hl =>
    simp only [List.mem_cons, forall_eq_or_imp] at hm
    obtain ⟨ha, hb, hc, hd, hm⟩ := hm
    have hl' : mid.length = (idleActions lk).length := by
      simpa [recoveryActions, idleActions] using hl
    obtain ⟨s0, e0, q0, -⟩ := put_line (x := update State.countRecovery) (s := s) (r := 95) (n := 14) (a := ())
      (ls := []) (ms := []) (rest := s.replies) rfl
      { trace := by simp, replies := rfl, last := rfl, valid := rfl, core := rfl, cmd := rfl, label := rfl
        moves := by simp }
    obtain ⟨_, e1, p1, -⟩ := softReset_run (s := s0.moveTo ⟨95, 15⟩) (a := a) (b := b)
      (rest := c :: d :: (mid ++ rest)) (by rw [State.moveTo_replies, q0.replies, h]; rfl) ha hb
    obtain ⟨s1, f1, q1, -⟩ := put_line e1 p1
    obtain ⟨_, e2, p2, hi2⟩ := txIr_completes (s := s1.moveTo ⟨95, 16⟩) irCodeDmi .dmi q1.replies hc
    obtain ⟨s2, f2, q2, hj2⟩ := put_line e2 p2
    have p02 := (q0.trans q1).trans q2
    obtain ⟨_, e3, p3, hi3⟩ := replay_run (s := s2.moveTo ⟨95, 17⟩) ((p02.linked hk).moveTo _) q2.replies hd
    obtain ⟨s3, f3, q3, hj3⟩ := put_line e3 p3
    have p03 := p02.trans q3
    obtain ⟨_, e4, p4, hi4⟩ := recoveryIdle_run (lk := lk) (s := s3.moveTo ⟨95, 18⟩) (p03.linked hk).idle q3.replies
      hl' hm
    obtain ⟨s4, f4, q4, hj4⟩ := put_line e4 p4
    have q5 := put_pass 95 [19] q4.replies
    refine ⟨s4.passed 95 [19], ?_, ?_, ?_⟩
    · unfold recover selectDmi
      rw [bind_ok _ e0, bind_ok _ f1, bind_ok _ f2, bind_ok _ f3, bind_ok _ f4, pass_run]
    · have := (p03.trans q4).trans q5
      rw [show (s2.moveTo ⟨95, 17⟩).replayWord = s.replayWord from p02.replayWord] at this
      simpa [recoveryActions, idleActions, softResetLines, dmiLine, recoverMoves, movesAt, q0.label,
        (q0.trans q1).label, p02.label, p03.label, (p03.trans q4).label] using this
    · rw [State.passed_irCurrent, hj4, hi4, State.moveTo_irCurrent, hj3, hi3, State.moveTo_irCurrent, hj2, hi2]

/-- An interrupted capture, with recoveries left: the recovery, and the shift again (R98). -/
theorem onStatus_interrupted (left : Nat) {r : DmiWord} (h : dmiOp r = DmiStatus.opInterrupted.toBits) (s : State) :
    onStatus (dmiRetry (left + 1)) r s = (recover >>= fun _ => shiftCmd >>= dmiClassify left) (s.passed 95 [10, 11]) := by
  unfold onStatus
  rw [h, ofBits_toBits]
  rfl

/-- The shift of the word in force with its interrupted attempts, up to what the capture that ends it leads to. -/
theorem shifts_rounds (qs : List Round) {s : State} (hk : Linked s lk) (hi : s.irCurrent = .dmi)
    (hq : ∀ q ∈ qs, q.Recovers lk s.replayWord) (left : Nat) {r : Reply} {rest : List Reply} (hr : r.completes)
    (h : s.replies = roundReplies qs ++ r :: rest) :
    ∃ t, (shiftCmd >>= dmiClassify (left + qs.length)) s = onStatus (dmiRetry left) (r.value (dmiWidth lk.A)) t
      ∧ Put s t (roundLines lk s.dmiCmd s.replayWord qs ++ [dmiLine lk.A s.dmiCmd r])
        (movesAt 95 [3, 4, 5, 6] s.label ++ qs.flatMap fun _ => recoveryMoves s.label) rest
      ∧ t.irCurrent = .dmi := by
  induction qs generalizing s with
  | nil =>
    obtain ⟨t, e, P, ht⟩ := shiftCmd_run hk.abits h hr
    have P2 := P.trans (put_pass 95 [5, 6] P.replies)
    refine ⟨t.passed 95 [5, 6], by rw [bind_ok _ e, dmiClassify_run]; rfl, ?_, ht.trans hi⟩
    rw [P.label] at P2
    simpa [roundLines, movesAt] using P2
  | cons q qs ih =>
    obtain ⟨⟨d, hs⟩, hl, hm⟩ := hq q List.mem_cons_self
    obtain ⟨t, e, P, -⟩ := shiftCmd_run hk.abits (r := q.shift) (rest := q.recovery ++ (roundReplies qs ++ r :: rest))
      (by rw [h]; simp [roundReplies]) hs.completes
    have P1 := P.trans (put_pass 95 [5, 6, 10, 11] P.replies)
    have hw := P1.replayWord
    obtain ⟨u, e', P', hu⟩ := recover_run (P1.linked hk) P1.replies (by rw [hw]; exact hl) hm
    have PP := P1.trans P'
    obtain ⟨v, e'', P'', hv⟩ := ih (PP.linked hk) hu
      (fun x hx => by rw [PP.replayWord]; exact hq x (List.mem_cons_of_mem _ hx)) PP.replies
    refine ⟨v, ?_, ?_, hv⟩
    · have h2 : left + (q :: qs).length = (left + qs.length) + 1 := by simp; omega
      rw [h2, bind_ok _ e, dmiClassify_run, onStatus_interrupted _ hs.value.1, passed_passed]
      exact (bind_ok _ e').trans e''
    · have := PP.trans P''
      rw [PP.replayWord, PP.cmd, PP.label, hw, P1.label, P.label] at this
      simpa [roundLines, recoverMoves, recoveryMoves, movesAt] using this

/-- A DMI shift of `cmd` with its interrupted attempts, up to what the capture that ends it leads to (R95, R98). -/
theorem dmiShift_rounds (cmd : Nat → DmiWord) (qs : List Round) {s : State} (hk : Linked s lk)
    (hq : ∀ q ∈ qs, q.Recovers lk s.replayWord) (hn : qs.length ≤ s.params.dmiRetryMax) {pre rest : List Reply}
    {r : Reply} (hr : r.completes) (hs : Selected s pre) (h : s.replies = pre ++ roundReplies qs ++ r :: rest) :
    ∃ t, dmiShift cmd s = onStatus (dmiRetry (s.params.dmiRetryMax - qs.length)) (r.value (dmiWidth lk.A)) t
      ∧ t.trace = s.trace ++ (selectLines pre ++ roundLines lk (cmd lk.A) s.replayWord qs ++ [dmiLine lk.A (cmd lk.A) r])
      ∧ t.replies = rest ∧ t.irCurrent = .dmi ∧ t.dmiCmd = cmd lk.A ∧ t.lastDmiCommand = s.lastDmiCommand
      ∧ t.lastValid = s.lastValid ∧ t.label = s.label
      ∧ t.moves = s.moves ++ (shiftMoves s.label ++ qs.flatMap fun _ => recoveryMoves s.label)
      ∧ t.core = s.core := by
  obtain ⟨t, e, ht, htr, hti, htd, htl, htv, hla, hmo, htc⟩ := dmiShift_begun cmd hk.abits hs
    (rest := roundReplies qs ++ r :: rest) (by rw [h, List.append_assoc])
  have hw : t.replayWord = s.replayWord := by simp [State.replayWord, htl, htv]
  have hk' : Linked t lk :=
    { abits := by rw [← core_addressBits, htc, core_addressBits, hk.abits]
      idle := (congrArg State.idleCycles htc).trans hk.idle
      last := by rw [htl, htv]; exact hk.last }
  obtain ⟨u, e', P, hu⟩ := shifts_rounds qs hk' hti (by rwa [hw]) (s.params.dmiRetryMax - qs.length) hr htr
  rw [Nat.sub_add_cancel hn] at e'
  refine ⟨u, e.trans e', ?_, P.replies, hu, P.cmd.trans htd, P.last.trans htl, P.valid.trans htv, P.label.trans hla, ?_,
    P.core.trans htc⟩
  · rw [P.trace, ht, hw, htd]
    simp
  · rw [P.moves, hmo, hla]
    simp [movesAt, shiftMoves]

end Sys2Proof.Machine
end

