-- ==== Sys2Proof/Laws/Attach.lean ====
section
/-! SUPPORT. ATTACH (41_capability_negotiation.md R114): what each of its operations does where the environment answers
every DMI shift with NO_ERROR, and what any ATTACH that succeeds leaves. -/

namespace Sys2Proof.Machine

variable {lk : Link} {p : Params} {α β : Type}

/-! ## The first four actions -/

/-- A DTMCS shift that completes, lines 1 and 2 of its rule. -/
theorem dtmcs_run (r : Nat) (v : Word) (f : DmiWord → α) {s : State} {a b : Reply} {rest : List Reply}
    (h : s.replies = a :: b :: rest) (ha : a.completes) (hb : b.completes) :
    ∃ t, (do line r 1 selectDtmcs; let d ← line r 2 (txShift 32 (v.setWidth 97)); pure (f d)) s
        = .ok (f (b.value 32)) t
      ∧ Put s t (dtmcsLines v a b) (movesAt r [1, 2] s.label) rest ∧ t.irCurrent = .dtmcs := by
  obtain ⟨_, e1, p1, hi⟩ := txIr_completes (s := s.moveTo ⟨r, 1⟩) irCodeDtmcs .dtmcs h ha
  obtain ⟨t, f1, q1, hi1⟩ := put_line e1 p1
  have e2 := txShift_completes (s := t.moveTo ⟨r, 2⟩) 32 (v.setWidth 97) q1.replies hb
  obtain ⟨u, f2, q2, hi2⟩ := put_line e2
    (put_issued (s := t.moveTo ⟨r, 2⟩) (.shiftDr (packBytes 32 (v.setWidth 97)) 32) q1.replies)
  refine ⟨u, ?_, ?_, hi2.trans (hi1.trans hi)⟩
  · unfold selectDtmcs
    rw [bind_ok _ f1, bind_ok _ f2]
    rfl
  · have := q1.trans q2
    rw [q1.label] at this
    exact this

/-- A state after `s` in which the lines `ls` are on the lower port and the rest of the state is `c`. -/
structure Started (s t : State) (ls : List (Action × Reply)) (rest : List Reply) (c : State) : Prop where
  trace : t.trace = s.trace ++ ls
  replies : t.replies = rest
  ir : t.irCurrent = .dtmcs
  core : t.core = c
  label : t.label = s.label

/-- The DTMCS read of an ATTACH (R115). -/
theorem sessionStart_run {s : State} {a0 : Reply} {cap : Buffer} {rest : List Reply} {d : Word}
    (h : s.replies = a0 :: .done cap :: rest) (h0 : a0.completes) (hd : d = (unpackBytes 32 cap.toList).setWidth 32) :
    ∃ t, line 114 4 sessionStart s = .ok (dtmcsVersion d) t
      ∧ Started s t (dtmcsLines 0x00000000 a0 (.done cap)) rest (s.core.wroteDtmcs d) := by
  subst hd
  obtain ⟨u, e, q, hi⟩ := dtmcs_run (s := (s.moveTo ⟨114, 4⟩).moveTo ⟨115, 1⟩) 94 dtmcsReadValue (BitVec.setWidth 32) h h0
    trivial
  refine ⟨(((u.backTo (⟨114, 4⟩ :: s.label)).passed 115 [2, 3, 4, 5]).wroteDtmcs
    ((unpackBytes 32 cap.toList).setWidth 32)).backTo s.label, line_ok ?_, ⟨q.trace, q.replies, hi, ?_, rfl⟩⟩
  · unfold sessionStart
    rw [bind_ok _ (line_ok (show readDtmcs _ = _ from e)), writeDtmcs_eq]
    rfl
  · exact congrArg (State.wroteDtmcs · ((unpackBytes 32 cap.toList).setWidth 32)) q.core

/-- The hard reset of a negotiation (R116). -/
theorem hardReset_run {s : State} {a b : Reply} {rest : List Reply} (h : s.replies = a :: b :: rest) (ha : a.completes)
    (hb : b.completes) :
    ∃ t, line 116 1 hardReset s = .ok () t ∧ Started s t (dtmcsLines 0x00020000 a b) rest s.core := by
  obtain ⟨u, e, q, hi⟩ := dtmcs_run (s := s.moveTo ⟨116, 1⟩) 93 dtmcsDmihardresetValue (fun _ => ()) h ha hb
  exact ⟨u.backTo s.label, line_ok (show hardReset _ = _ from e), q.trace, q.replies, hi, q.core, rfl⟩

/-! ## The steps of the negotiation -/

/-- The same run, its words, data and change written another way. -/
theorem Serves.cast {x : Op α} {ws us : List DmiWord} {ds cs : List Word} {out : Except Error α}
    {g h : State → State} (H : Serves lk p x ws ds out g) (hw : us = ws) (hd : cs = ds) (hg : h = g) :
    Serves lk p x us cs out h := by
  subst hw hd hg
  exact H

/-- One operation after the other, with what they shift and change together. -/
theorem Serves.followedBy {x : Op α} {f : α → Op β} {ws vs us : List DmiWord} {ds es cs : List Word} {a : α}
    {out : Except Error β} {g h k : State → State} (hx : Serves lk p x ws ds (.ok a) g)
    (hf : Serves lk p (f a) vs es out h) (hus : us = ws ++ vs := by simp) (hcs : cs = ds ++ es := by simp)
    (hk : k = h ∘ g := by rfl) : Serves lk p (x >>= f) us cs out k :=
  (hx.andThen hf).cast hus hcs hk

/-- Words shifted, then what follows them. -/
theorem Serves.shiftThen {x : Op α} {f : α → Op β} {ws vs us : List DmiWord} {ds es cs : List Word} {a : α}
    {out : Except Error β} {h : State → State} (hx : Serves lk p x ws ds (.ok a) id)
    (hf : Serves lk p (f a) vs es out h) (hus : us = ws ++ vs := by simp) (hcs : cs = ds ++ es := by simp) :
    Serves lk p (x >>= f) us cs out h :=
  hx.followedBy hf hus hcs

/-- A line that changes the session, then what follows it. -/
theorem Serves.change {f : State → State} {r n : Nat} {y : Unit → Op β} {ws : List DmiWord} {ds : List Word}
    {out : Except Error β} {h k : State → State} (hf : Serves lk p (update f) [] [] (.ok ()) f)
    (hy : Serves lk p (y ()) ws ds out h) (hk : k = h ∘ f := by rfl) :
    Serves lk p (Machine.line r n (update f) >>= y) ws ds out k :=
  ((hf.line r n).andThen hy).cast rfl rfl hk

/-- Writes of several lines together, then what follows them. -/
theorem Serves.changes {x : Op Unit} {f : State → State} {r : Nat} {ns : List Nat} {y : Unit → Op β} {ws : List DmiWord}
    {ds : List Word} {out : Except Error β} {h k : State → State} (hx : x = (do pass r ns; update f))
    (hf : Serves lk p (update f) [] [] (.ok ()) f) (hy : Serves lk p (y ()) ws ds out h) (hk : k = h ∘ f := by rfl) :
    Serves lk p (x >>= y) ws ds out k := by
  subst hx
  exact ((hf.afterPass (y := fun _ => _)).andThen hy).cast rfl rfl hk

/-- A condition that holds, then the rest. -/
theorem Serves.required {b : Bool} {r n : Nat} {y : Op β} {ws : List DmiWord} {ds : List Word} {out : Except Error β}
    {g : State → State} (e : Error) (hb : b = true) (hy : Serves lk p y ws ds out g) :
    Serves lk p (Machine.line r n (require b e) >>= fun _ => y) ws ds out g := by
  subst hb
  exact Serves.after hy ((serves_pure ()).line r n)

/-- A condition that does not hold. -/
theorem serves_require_false {r n : Nat} (e : Error) (y : Op β) :
    Serves lk p (Machine.line r n (require false e) >>= fun _ => y) [] [] (.error e) id :=
  ((serves_raise e).line r n).bind_error _

/-- Steps (b) and the version check (R117, R118). -/
theorem serves_negotiateVersion (dtm : DebugVersion) (x st : Word) :
    Serves lk p (negotiateVersion dtm) (readWords lk.A addrDmstatus) [x, st]
      (if resolveVersion (dmstatusVersion st) dtm = .v0_13 then .ok st
        else .error (.versionUnsupported (resolveVersion (dmstatusVersion st) dtm)))
      (State.wroteVersion · (resolveVersion (dmstatusVersion st) dtm)) := by
  refine ((serves_dmiRead addrDmstatus x st).line 117 1).shiftThen (vs := []) (es := []) (Serves.afterPass ?_)
  refine Serves.change (serves_change (State.wroteVersion · (resolveVersion (dmstatusVersion st) dtm))) (h := id) ?_
  by_cases hv : resolveVersion (dmstatusVersion st) dtm = .v0_13
  · simp only [hv, if_true]
    exact Serves.required _ rfl (serves_pure st)
  · have hb : (resolveVersion (dmstatusVersion st) dtm == .v0_13) = false := by simpa using hv
    rw [hb, if_neg hv]
    exact serves_require_false _ _

/-- What step (d) tells the host (R120, R121). -/
def State.sawNextdm (s : State) (n : Word) : State := if n = 0 then s else s.diagnose (.nextDmIgnored n)

theorem serves_negotiateNextdm (x n : Word) :
    Serves lk p negotiateNextdm (readWords lk.A addrNextdm) [x, n] (.ok ()) (State.sawNextdm · n) := by
  refine ((serves_dmiRead addrNextdm x n).line 120 1).shiftThen (vs := []) (es := []) ?_
  by_cases hn : n = 0
  · subst hn
    exact (serves_pure ()).line 121 1
  · have e : (State.sawNextdm · n) = (State.diagnose · (.nextDmIgnored n)) := by
      funext s
      exact if_neg hn
    rw [if_neg hn, e]
    exact (serves_change _).line 121 1

/-- Steps (e) to (g) where the capabilities are valid (R122 to R125). -/
theorem serves_negotiateCapabilities (st x acs : Word)
    (hv : capabilitiesValid (acsFields acs).datacount (acsFields acs).progbufsize (impebreakFlag st) = true) :
    Serves lk p (negotiateCapabilities st) (readWords lk.A addrAbstractCs) [x, acs] (.ok ())
      fun s => ((s.wroteImpebreak (impebreakFlag st)).wroteCapabilities (acsFields acs)).wroteCsrPath
        (progbufCsrFlag (acsFields acs).progbufsize) := by
  refine Serves.change (serves_change (State.wroteImpebreak · (impebreakFlag st)))
    (h := fun s => (s.wroteCapabilities (acsFields acs)).wroteCsrPath (progbufCsrFlag (acsFields acs).progbufsize)) ?_
  refine ((serves_dmiRead addrAbstractCs x acs).line 123 1).shiftThen (vs := []) (es := []) ?_
  have hc : Serves lk p (checkCapabilities (acsFields acs) (impebreakFlag st)) [] [] (.ok ()) id := by
    unfold checkCapabilities
    rw [if_pos hv]
    exact (serves_pure ()).afterPass
  refine Serves.after (y := fun _ => _) ?_ hc
  refine Serves.changes (writeCapabilities_eq _) (serves_change (State.wroteCapabilities · (acsFields acs)))
    (h := (State.wroteCsrPath · (progbufCsrFlag (acsFields acs).progbufsize))) ?_
  exact (serves_change (State.wroteCsrPath · (progbufCsrFlag (acsFields acs).progbufsize))).line 125 1

/-- Step (f) where they are not (R123). -/
theorem serves_negotiateCapabilities_invalid (st x acs : Word)
    (hv : capabilitiesValid (acsFields acs).datacount (acsFields acs).progbufsize (impebreakFlag st) = false) :
    Serves lk p (negotiateCapabilities st) (readWords lk.A addrAbstractCs) [x, acs]
      (.error (.invalidCapabilities (acsFields acs).datacount (acsFields acs).progbufsize (impebreakFlag st)))
      (State.wroteImpebreak · (impebreakFlag st)) := by
  refine Serves.change (serves_change (State.wroteImpebreak · (impebreakFlag st))) (h := id) ?_
  refine ((serves_dmiRead addrAbstractCs x acs).line 123 1).shiftThen (vs := []) (es := []) ?_
  have hc : Serves lk p (checkCapabilities (acsFields acs) (impebreakFlag st)) [] []
      (.error (.invalidCapabilities (acsFields acs).datacount (acsFields acs).progbufsize (impebreakFlag st))) id := by
    unfold checkCapabilities
    rw [hv]
    exact ((serves_raise _).line _ _).afterPass
  exact hc.bind_error _

/-- Step (h) (R126). -/
theorem serves_autoexecProbe (w x r c : Word) :
    Serves lk p autoexecProbe
      (writeWords lk.A addrAutoexec autoexecSentinelWord ++ readWords lk.A addrAutoexec
        ++ writeWords lk.A addrAutoexec autoexecDisarmWord) [w, x, r, c] (.ok ())
      (State.wroteAutoexec · (autoexecFlag r)) := by
  have h1 : Serves lk p (do line 126 3 (dmiWrite addrAutoexec autoexecSentinelWord); line 126 4 (dmiRead addrAutoexec))
      (writeWords lk.A addrAutoexec autoexecSentinelWord ++ readWords lk.A addrAutoexec) ([w] ++ [x, r]) (.ok r) id :=
    ((serves_dmiWrite addrAutoexec autoexecSentinelWord w).line 126 3).bind
      ((serves_dmiRead addrAutoexec x r).line 126 4) rfl rfl
  have h2 := h1.withCleanup_ok (o := .clearProbe)
    (((serves_dmiWrite (lk := lk) (p := p) addrAutoexec autoexecDisarmWord c).line 126 6).afterPass (r := 126) (ns := [5])
      (y := fun _ => _)) rfl rfl
  exact Serves.afterPass (h2.followedBy ((serves_change (State.wroteAutoexec · (autoexecFlag r))).line 126 7))

/-! ## The scan -/

theorem serves_writeHartsel (i : BitVec 20) (d : Word) :
    Serves lk p (writeHartsel i) (writeWords lk.A addrDmcontrol (dmcontrolWord p i)) [d] (.ok ()) id :=
  serves_params _ (serves_dmiWrite _ _ d)

/-- The width probe (R170). -/
theorem serves_probeWidth (x y w : Word) :
    Serves lk p probeWidth
      (writeWords lk.A addrDmcontrol (dmcontrolWord p 0xFFFFF) ++ readWords lk.A addrDmcontrol) [x, y, w]
      (.ok (hartselDecode p.hartselLayout w)) (State.wroteHartsellen · (hartselDecode p.hartselLayout w)) := by
  refine ((serves_writeHartsel 0xFFFFF x).line 170 1).shiftThen (vs := readWords lk.A addrDmcontrol) (es := [y, w]) ?_
  refine ((serves_dmiRead addrDmcontrol y w).line 170 2).shiftThen (vs := []) (es := []) (serves_params _ ?_)
  exact Serves.change (serves_change (State.wroteHartsellen · (hartselDecode p.hartselLayout w)))
    (serves_pure (hartselDecode p.hartselLayout w))

/-- What a scan from candidate `i` that finds `k` harts leaves (R171). -/
def State.scanned (s : State) (i k : Nat) : State :=
  { s with harts := s.harts ++ (List.range' i k).map newHart, discoveryIndex := s.discoveryIndex + k }

theorem scanned_zero (s : State) (i : Nat) : s.scanned i 0 = s := by simp [State.scanned]

theorem scanned_succ (s : State) (i k : Nat) :
    s.scanned i (k + 1) = ((s.addHart i).nextCandidate).scanned (i + 1) k := by
  simp [State.scanned, State.nextCandidate, State.addHart, List.range'_succ]
  omega

/-- The scan over `found` then `stop` (R171, R172). -/
theorem serves_scanHarts (n : BitVec 20) (found stop : List Candidate) (i left : Nat)
    (hf : ∀ c ∈ found, dmstatusAnynonexistent c.dmstatus = false)
    (hl : found.length ≤ min (n.toNat + 1 - i) left)
    (hs : if found.length = min (n.toNat + 1 - i) left then stop = []
      else ∃ c, stop = [c] ∧ dmstatusAnynonexistent c.dmstatus = true) :
    Serves lk p (scanHarts n left i) (scanWords lk.A p (found ++ stop) i) (scanData (found ++ stop)) (.ok ())
      (State.scanned · i found.length) := by
  induction found generalizing i left with
  | nil =>
    simp only [List.length_nil, List.nil_append] at hs ⊢
    rw [funext fun s => scanned_zero s i]
    cases left with
    | zero =>
      have : stop = [] := by simpa using hs
      subst this
      exact serves_pass _ _
    | succ left =>
      refine Serves.afterPass (g := id) ?_
      by_cases hi : i ≤ n.toNat
      · rw [if_neg (show ¬ 0 = min (n.toNat + 1 - i) (left + 1) by omega)] at hs
        obtain ⟨c, rfl, hc⟩ := hs
        rw [if_pos hi]
        refine ((serves_writeHartsel (BitVec.ofNat 20 i) c.select).line 171 3).shiftThen
          (vs := readWords lk.A addrDmstatus) (es := [c.stale, c.dmstatus]) ?_ (by simp [scanWords]) (by simp [scanData])
        refine ((serves_dmiRead addrDmstatus c.stale c.dmstatus).line 171 4).shiftThen (vs := []) (es := [])
          (Serves.afterPass ?_)
        rw [hc]
        exact serves_pure ()
      · rw [if_pos (show 0 = min (n.toNat + 1 - i) (left + 1) by omega)] at hs
        subst hs
        rw [if_neg hi]
        exact serves_pure ()
  | cons c found ih =>
    obtain ⟨left, rfl⟩ : ∃ m, left = m + 1 := ⟨left - 1, by simp at hl; omega⟩
    have hi : i ≤ n.toNat := by simp at hl; omega
    have hc := hf c List.mem_cons_self
    have e : (c :: found).length = min (n.toNat + 1 - i) (left + 1) ↔
        found.length = min (n.toNat + 1 - (i + 1)) left := by simp; omega
    have e2 : (State.scanned · i (c :: found).length)
        = fun s => ((s.addHart i).nextCandidate).scanned (i + 1) found.length :=
      funext fun s => scanned_succ s i found.length
    have h := ih (i + 1) left (fun x hx => hf x (List.mem_cons_of_mem _ hx)) (by simp at hl ⊢; omega)
      (by simpa only [e] using hs)
    rw [e2]
    refine Serves.afterPass ?_
    rw [if_pos hi]
    refine ((serves_writeHartsel (BitVec.ofNat 20 i) c.select).line 171 3).shiftThen
      (vs := readWords lk.A addrDmstatus ++ scanWords lk.A p (found ++ stop) (i + 1))
      (es := [c.stale, c.dmstatus] ++ scanData (found ++ stop)) ?_ (by simp [scanWords]) (by simp [scanData])
    refine ((serves_dmiRead addrDmstatus c.stale c.dmstatus).line 171 4).shiftThen
      (vs := scanWords lk.A p (found ++ stop) (i + 1)) (es := scanData (found ++ stop)) (Serves.afterPass ?_)
    rw [hc]
    exact Serves.change (serves_change (State.addHart · i)) (Serves.afterPass
      (Serves.change (serves_change State.nextCandidate) h)) (h := fun s => (s.nextCandidate).scanned (i + 1) found.length)

/-! ## A whole ATTACH -/

/-- What the negotiation leaves of the session after the DTMCS read (R117 to R126). -/
def State.negotiated (s : State) (st nextdm acs readback : Word) : State :=
  (((((s.wroteVersion .v0_13).sawNextdm nextdm).wroteImpebreak (impebreakFlag st)).wroteCapabilities
    (acsFields acs)).wroteCsrPath (progbufCsrFlag (acsFields acs).progbufsize)).wroteAutoexec (autoexecFlag readback)

/-- What discovery leaves of the session where it finds `k` harts (R170 to R173). -/
def State.discovered (s : State) (width : BitVec 20) (k : Nat) : State :=
  (((s.wroteHartsellen width).startScan.scanned 0 k).makeCurrent 0)

/-- What ATTACH leaves of the session (R114). -/
def State.attached (s : State) (d st nextdm acs readback : Word) (width : BitVec 20) (k : Nat) : State :=
  ((((s.wroteDtmcs d).negotiated st nextdm acs readback).atPhase .discovering).discovered width k).atPhase .ready

/-! ### The fields of an attached session -/

section

variable (s : State) (d st n acs rb : Word) (width : BitVec 20) (k : Nat)

@[simp] theorem State.attached_phase : (s.attached d st n acs rb width k).phase = .ready := by
  unfold State.attached State.negotiated State.sawNextdm
  split <;> rfl

@[simp] theorem State.attached_idcode : (s.attached d st n acs rb width k).idcode = s.idcode := by
  unfold State.attached State.negotiated State.sawNextdm
  split <;> rfl

@[simp] theorem State.attached_dtmVersion : (s.attached d st n acs rb width k).dtmVersion = some (dtmcsVersion d) := by
  unfold State.attached State.negotiated State.sawNextdm
  split <;> rfl

@[simp] theorem State.attached_debugVersion : (s.attached d st n acs rb width k).debugVersion = some .v0_13 := by
  unfold State.attached State.negotiated State.sawNextdm
  split <;> rfl

@[simp] theorem State.attached_idleCycles : (s.attached d st n acs rb width k).idleCycles = some (dtmcsIdle d) := by
  unfold State.attached State.negotiated State.sawNextdm
  split <;> rfl

@[simp] theorem State.attached_addressBits : (s.attached d st n acs rb width k).addressBits = some (dtmcsAbits d) := by
  unfold State.attached State.negotiated State.sawNextdm
  split <;> rfl

@[simp] theorem State.attached_programBufferSize : (s.attached d st n acs rb width k).programBufferSize
    = some (acsFields acs).progbufsize := by
  unfold State.attached State.negotiated State.sawNextdm
  split <;> rfl

@[simp] theorem State.attached_impebreak : (s.attached d st n acs rb width k).impebreak = some (impebreakFlag st) := by
  unfold State.attached State.negotiated State.sawNextdm
  split <;> rfl

@[simp] theorem State.attached_abstractDataCount : (s.attached d st n acs rb width k).abstractDataCount
    = some (acsFields acs).datacount := by
  unfold State.attached State.negotiated State.sawNextdm
  split <;> rfl

@[simp] theorem State.attached_autoexecSupported : (s.attached d st n acs rb width k).autoexecSupported
    = some (autoexecFlag rb) := by
  unfold State.attached State.negotiated State.sawNextdm
  split <;> rfl

@[simp] theorem State.attached_progbufCsrEnabled : (s.attached d st n acs rb width k).progbufCsrEnabled
    = some (progbufCsrFlag (acsFields acs).progbufsize) := by
  unfold State.attached State.negotiated State.sawNextdm
  split <;> rfl

@[simp] theorem State.attached_hartsellen : (s.attached d st n acs rb width k).hartsellen = some width := by
  unfold State.attached State.negotiated State.sawNextdm
  split <;> rfl

@[simp] theorem State.attached_harts : (s.attached d st n acs rb width k).harts = (List.range k).map newHart := by
  unfold State.attached State.negotiated State.sawNextdm
  split <;> simp [State.discovered, State.scanned, State.makeCurrent, State.atPhase, State.startScan, List.range_eq_range']

@[simp] theorem State.attached_currentHart : (s.attached d st n acs rb width k).currentHart = some 0 := by
  unfold State.attached State.negotiated State.sawNextdm
  split <;> rfl

@[simp] theorem State.attached_wire : (s.attached d st n acs rb width k).wire = s.wire := by
  unfold State.attached State.negotiated State.sawNextdm
  split <;> rfl

@[simp] theorem State.attached_params : (s.attached d st n acs rb width k).params = s.params := by
  unfold State.attached State.negotiated State.sawNextdm
  split <;> rfl

@[simp] theorem State.attached_hostQueue : (s.attached d st n acs rb width k).hostQueue = s.hostQueue := by
  unfold State.attached State.negotiated State.sawNextdm
  split <;> rfl

@[simp] theorem State.attached_hostOut : (s.attached d st n acs rb width k).hostOut
    = s.hostOut ++ (if n = 0 then [] else [.diag (.nextDmIgnored n)]) := by
  unfold State.attached State.negotiated State.sawNextdm
  split
  · simp [State.discovered, State.scanned, State.makeCurrent, State.atPhase, State.startScan]
  · rfl

end

/-- The negotiation after the hard reset (R117 to R126). -/
theorem serves_negotiateSteps (dtm : DebugVersion) (x1 st x2 nextdm x3 acs x4 x5 readback x6 : Word)
    (hres : resolveVersion (dmstatusVersion st) dtm = .v0_13) (hauth : dmstatusAuthenticated st = true)
    (hv : capabilitiesValid (acsFields acs).datacount (acsFields acs).progbufsize (impebreakFlag st) = true) :
    Serves lk p (negotiateSteps dtm)
      (readWords lk.A addrDmstatus ++ readWords lk.A addrNextdm ++ readWords lk.A addrAbstractCs
        ++ writeWords lk.A addrAutoexec autoexecSentinelWord ++ readWords lk.A addrAutoexec
        ++ writeWords lk.A addrAutoexec autoexecDisarmWord)
      [x1, st, x2, nextdm, x3, acs, x4, x5, readback, x6] (.ok ()) (State.negotiated · st nextdm acs readback) := by
  have h1 := serves_negotiateVersion (lk := lk) (p := p) dtm x1 st
  rw [if_pos hres, hres] at h1
  have h4 := (serves_negotiateCapabilities (lk := lk) (p := p) st x3 acs hv).andThen (f := fun _ => autoexecProbe)
    (serves_autoexecProbe x4 x5 readback x6)
  have h3 := (serves_negotiateNextdm (lk := lk) (p := p) x2 nextdm).andThen (f := fun _ => _) h4
  exact (h1.andThen (Serves.required .authenticationRequired hauth h3)).cast (by simp) (by simp) rfl

/-- `DiscoverHarts()` without its result. -/
def scanAll : Op Unit := do
  let n ← probeWidth
  line 171 1 (update State.startScan)
  let p ← look State.params
  scanHarts n p.hartCapacity 0
  line 171 9 (update (State.makeCurrent · 0))
  pass 171 [10]

theorem discoverHarts_eq : discoverHarts = (do scanAll; look fun s => s.harts.length) := by
  simp only [discoverHarts, scanAll, bind_assoc]

theorem serves_scanAll (x y w : Word) {found stop : List Candidate}
    (hs : ScanEnds p (hartselDecode p.hartselLayout w) found stop) :
    Serves lk p scanAll
      (writeWords lk.A addrDmcontrol (dmcontrolWord p 0xFFFFF) ++ readWords lk.A addrDmcontrol
        ++ scanWords lk.A p (found ++ stop) 0) ([x, y, w] ++ scanData (found ++ stop)) (.ok ())
      (State.discovered · (hartselDecode p.hartselLayout w) found.length) := by
  have h := serves_scanHarts (lk := lk) (p := p) (hartselDecode p.hartselLayout w) found stop 0 p.hartCapacity hs.1
    (by simpa using hs.2.1) (by simpa using hs.2.2)
  refine (serves_probeWidth x y w).followedBy (vs := scanWords lk.A p (found ++ stop) 0)
    (es := scanData (found ++ stop)) (h := fun s => (s.startScan.scanned 0 found.length).makeCurrent 0) ?_
  refine Serves.change (serves_change State.startScan) (h := fun s => (s.scanned 0 found.length).makeCurrent 0)
    (serves_params _ ?_)
  exact h.followedBy (Serves.change (serves_change (State.makeCurrent · 0)) (serves_pass _ _)) (List.append_nil _).symm
    (List.append_nil _).symm

/-- Reading the state after words are shifted. -/
theorem look_after {x : Op Unit} {f : State → β} {s t : State} {b : β} (h : x s = .ok () t) (hb : f t = b) :
    (x >>= fun _ => look f) s = .ok b t := by rw [bind_ok _ h, look_run, hb]

/-- The rest of an ATTACH in which nothing fails, from the hard reset on. -/
theorem attachRest_run (dtm : DebugVersion) {s : State} {a1 a2 a3 : Reply}
    {x1 st x2 nextdm x3 acs x4 x5 readback x6 x7 x8 width : Word} {found stop : List Candidate} {rs rest : List Reply}
    (hp : s.params = p) (hw : s.addressBits = some lk.abits) (h1 : a1.completes) (h2 : a2.completes) (h3 : a3.completes)
    (hr : s.replies = a1 :: a2 :: a3 :: (rs ++ rest))
    (hq : Quiet lk.A rs ([x1, st, x2, nextdm, x3, acs, x4, x5, readback, x6, x7, x8, width]
      ++ scanData (found ++ stop)))
    (hres : resolveVersion (dmstatusVersion st) dtm = .v0_13) (hauth : dmstatusAuthenticated st = true)
    (hv : capabilitiesValid (acsFields acs).datacount (acsFields acs).progbufsize (impebreakFlag st) = true)
    (hscan : ScanEnds p (hartselDecode p.hartselLayout width) found stop) :
    ∃ t, attachRest dtm s = .ok found.length t
      ∧ t.trace = s.trace ++ dtmcsLines 0x00020000 a1 a2 ++ selectLines [a3] ++ List.zipWith (dmiLine lk.A)
        (readWords lk.A addrDmstatus ++ readWords lk.A addrNextdm ++ readWords lk.A addrAbstractCs
        ++ writeWords lk.A addrAutoexec autoexecSentinelWord ++ readWords lk.A addrAutoexec
        ++ writeWords lk.A addrAutoexec autoexecDisarmWord
        ++ writeWords lk.A addrDmcontrol (dmcontrolWord p 0xFFFFF) ++ readWords lk.A addrDmcontrol
        ++ scanWords lk.A p (found ++ stop) 0) rs
      ∧ t.replies = rest ∧ t.lastValid = true ∧ t.irCurrent = .dmi
      ∧ t.core = (((s.core.negotiated st nextdm acs readback).atPhase .discovering).discovered
        (hartselDecode p.hartselLayout width) found.length).atPhase .ready := by
  obtain ⟨u, e0, S⟩ := hardReset_run (s := s.moveTo ⟨114, 5⟩) hr h1 h2
  have hup : u.params = p := by rw [← core_params, S.core, core_params]; exact hp
  have huw : u.addressBits = some lk.abits := by rw [← core_addressBits, S.core, core_addressBits]; exact hw
  obtain ⟨b3, rfl⟩ : ∃ b, a3 = .done b := by
    cases a3 with
    | done b => exact ⟨b, rfl⟩
    | failed => exact h3.elim
  -- the negotiation
  obtain ⟨rs1, rs2, q1, q2, rfl⟩ := quiet_append (ds := [x1, st, x2, nextdm, x3, acs, x4, x5, readback, x6])
    (es := [x7, x8, width] ++ scanData (found ++ stop)) hq
  have H1 := serves_negotiateSteps (lk := lk) (p := p) dtm x1 st x2 nextdm x3 acs x4 x5 readback x6 hres hauth hv
  obtain ⟨v, e1, A1, c1⟩ := H1.run u [.done b3] rs1 (rs2 ++ rest) hup huw
    (by simp [Selecting, Selected, readWords, S.ir]) (by rw [S.replies]; simp) q1
  simp only [Gives] at e1
  have hneg : line 114 5 (negotiate dtm) s = .ok () (v.backTo s.label) := by
    refine line_ok ?_
    unfold negotiate
    rw [bind_ok _ e0, e1]
  have hir : v.irCurrent = .dmi := by simpa [readWords] using A1.ir
  -- the discovery
  have H2 := Serves.change (r := 114) (n := 6) (y := fun _ => line 114 7 scanAll)
    (serves_change (lk := lk) (p := p) (State.atPhase · .discovering)) ((serves_scanAll x7 x8 width hscan).line 114 7)
  have hvp : (v.backTo s.label).params = p := by
    have := congrArg State.params c1
    rw [H1.params] at this
    exact this.trans hup
  have hvw : (v.backTo s.label).addressBits = some lk.abits := by
    have := congrArg State.addressBits c1
    rw [H1.width] at this
    exact this.trans huw
  obtain ⟨w, e2, A2, c2⟩ := H2.run (v.backTo s.label) [] rs2 rest hvp hvw
    (by simp [Selecting, Selected, hir]) (by simpa using A1.replies) q2
  simp only [Gives] at e2
  have hcore : w.core = ((s.core.negotiated st nextdm acs readback).atPhase .discovering).discovered
      (hartselDecode p.hartselLayout width) found.length := by
    rw [c2, backTo_core, c1, S.core, moveTo_core]
    rfl
  have hlen : w.harts.length = found.length := by
    have := congrArg (fun s : State => s.harts.length) hcore
    simpa [State.discovered, State.scanned, State.core, State.startScan, State.makeCurrent] using this
  have A12 := A1.trans (by simp [readWords]) (by rw [H1.len]; exact q1.length_eq)
    (show After lk.A v w _ [] rs2 rest from ⟨A2.trace, A2.replies, A2.last, A2.valid, A2.ir⟩)
  refine ⟨(((w.moveTo ⟨114, 8⟩).atPhase .ready).backTo w.label).passed 114 [9], ?_, ?_, A12.replies, ?_, ?_,
    congrArg (State.atPhase · .ready) hcore⟩
  · obtain ⟨_, z, e3, e4⟩ := bind_ok_inv e2
    obtain ⟨y, e5, rfl⟩ := line_ok_inv e4
    have e6 : line 114 7 discoverHarts z = .ok found.length (y.backTo z.label) := by
      refine line_ok ?_
      rw [discoverHarts_eq]
      exact look_after e5 hlen
    unfold attachRest setPhase
    rw [bind_ok _ hneg, bind_ok _ e3, bind_ok _ e6]
    rfl
  · have := A12.trace
    rw [S.trace] at this
    refine this.trans ?_
    simp
  · have := A12.valid
    simpa [readWords] using this
  · have := A12.ir
    simpa [readWords] using this

/-! ## Any ATTACH that succeeds -/

/-- The registers of the DMI layer are those of a session. -/
structure Wired (s : State) : Prop where
  valid : s.lastValid = true
  last : ∃ w, s.lastDmiCommand = some w ∧ s.fits w
  cmd : s.fits s.dmiCmd
  ir : s.irCurrent ≠ .none

/-- The session and the hart table are unchanged, a shift in force stays in force, and a wired DMI layer stays wired. -/
structure Through (s t : State) : Prop where
  core : t.core = s.core
  shift : s.fits s.dmiCmd ∧ s.irCurrent ≠ .none → t.fits t.dmiCmd ∧ t.irCurrent ≠ .none
  wired : Wired s → Wired t

theorem through_of {s t : State} (hc : t.core = s.core) (hd : t.fits t.dmiCmd = s.fits s.dmiCmd)
    (hl : t.lastDmiCommand = s.lastDmiCommand) (hv : t.lastValid = s.lastValid) (hi : t.irCurrent = s.irCurrent) :
    Through s t where
  core := hc
  shift := by rw [hd, hi]; exact id
  wired h := by
    have ha : t.addressBits = s.addressBits := by rw [← core_addressBits, hc, core_addressBits]
    refine ⟨hv ▸ h.valid, ?_, hd ▸ h.cmd, hi ▸ h.ir⟩
    obtain ⟨w, h1, h2⟩ := h.last
    exact ⟨w, hl ▸ h1, by unfold State.fits at *; rwa [ha]⟩

/-- A failure, and a fault, end an ATTACH that succeeds nowhere. -/
theorem wireFrame_through : WireFrame Through (fun _ _ => True) (fun _ => True) where
  refl _ := ⟨rfl, id, id⟩
  trans h g := ⟨g.core.trans h.core, g.shift ∘ h.shift, g.wired ∘ h.wired⟩
  fails _ _ := trivial
  stops _ _ := trivial
  moved _ _ := through_of rfl rfl rfl rfl rfl
  back _ _ := through_of rfl rfl rfl rfl rfl
  backFailed _ _ := trivial
  issued _ _ _ _ _ := through_of rfl rfl rfl rfl rfl
  failed _ _ _ _ := trivial
  ir _ _ hc := ⟨rfl, fun h => ⟨h.1, hc⟩, fun h => ⟨h.valid, h.last, h.cmd, hc⟩⟩
  noWidth _ _ := trivial
  noIdle _ _ := trivial
  noReplay _ _ _ := trivial
  success s := ⟨rfl, id, fun h => ⟨rfl, ⟨s.dmiCmd, rfl, h.cmd⟩, h.cmd, h.ir⟩⟩
  begun _ _ hw := ⟨rfl, fun h => ⟨hw, h.2⟩, fun h => ⟨h.valid, h.last, hw, h.ir⟩⟩
  recovery _ := through_of rfl rfl rfl rfl rfl
  polled _ := through_of rfl rfl rfl rfl rfl
  polls _ := through_of rfl rfl rfl rfl rfl
  started _ _ := through_of rfl rfl rfl rfl rfl
  reissued _ := through_of rfl rfl rfl rfl rfl
  register _ _ := through_of rfl rfl rfl rfl rfl
  noAutoexec _ _ := trivial
  pushed _ _ := through_of rfl rfl rfl rfl rfl
  popped _ := through_of rfl rfl rfl rfl rfl
  held _ _ := through_of rfl rfl rfl rfl rfl

/-- A shift that ends without an error has recorded its word (R97). -/
def Records (x : Op Word) : Prop :=
  ∀ s d t, x s = .ok d t → t.lastValid = true ∧ t.lastDmiCommand = some t.dmiCmd

theorem records_bind {x : Op α} {f : α → Op Word} (h : ∀ a, Records (f a)) : Records (x >>= f) := by
  intro s d t e
  obtain ⟨a, u, -, e2⟩ := bind_ok_inv e
  exact h a u d t e2

theorem records_onStatus {again : Op Word} (h : Records again) (r : DmiWord) : Records (onStatus again r) := by
  have hf : ∀ st, Records (statusFailed st) := fun st => records_bind fun _ => records_bind fun _ s d t e => by
    obtain ⟨u, hu, -⟩ := line_ok_inv e
    simp at hu
  unfold onStatus
  split
  · intro s d t e
    rw [recordShift_eq] at e
    simp only [pass_bind, update_bind, pure_run, EStateM.Result.ok.injEq] at e
    obtain ⟨-, rfl⟩ := e
    exact ⟨rfl, rfl⟩
  · exact hf 1
  · exact hf 2
  · exact h

theorem records_classifyWith {again : Op Word} (h : Records again) (r : DmiWord) : Records (classifyWith again r) :=
  records_bind fun _ => records_onStatus h r

theorem records_dmiRetry (left : Nat) : Records (dmiRetry left) := by
  induction left with
  | zero =>
    exact records_bind fun _ => records_bind fun _ s d t e => by
      obtain ⟨u, hu, -⟩ := line_ok_inv e
      simp at hu
  | succ n ih => exact records_bind fun _ => records_bind fun _ => records_bind fun r => records_classifyWith ih r

theorem ensureDmi_ok {s t : State} (h : ensureDmi s = .ok () t) :
    t.irCurrent = .dmi ∧ t.dmiCmd = s.dmiCmd ∧ t.addressBits = s.addressBits := by
  obtain ⟨u, e, rfl⟩ := line_ok_inv h
  clear h
  simp only [State.backTo_irCurrent, State.backTo_dmiCmd, State.backTo_addressBits]
  split at e
  · next hi =>
    simp only [EStateM.Result.ok.injEq, true_and] at e
    exact e ▸ ⟨hi, rfl, rfl⟩
  · obtain ⟨_, v, h1, h2⟩ := bind_ok_inv (show (act (.writeIr irCodeDmi) >>= fun _ => update (State.selectIr · .dmi)) _
      = .ok () u from e)
    simp only [update_run, EStateM.Result.ok.injEq, true_and] at h2
    unfold act at h1
    split at h1
    · simp only [EStateM.Result.ok.injEq] at h1
      rw [← h2, ← h1.2]
      exact ⟨rfl, rfl, rfl⟩
    · simp at h1

/-- A DMI shift that ends without an error leaves the DMI layer wired (R97). -/
theorem dmiShift_wired {cmd : Nat → DmiWord} (hc : FitsAll cmd) {s t : State} {d : Word}
    (h : dmiShift cmd s = .ok d t) : Wired t := by
  have F := wireFrame_through
  unfold dmiShift at h
  obtain ⟨_, t1, h1, h⟩ := bind_ok_inv h
  obtain ⟨_, t2, h2, h⟩ := bind_ok_inv h
  rw [look_bind] at h
  obtain ⟨r, t3, h3, h4⟩ := bind_ok_inv h
  have hv := records_classifyWith (records_dmiRetry t2.params.dmiRetryMax) r t3 d t h4
  have f1 : t1.fits t1.dmiCmd := by
    obtain ⟨u, e1, rfl⟩ := line_ok_inv h1
    unfold beginShift at e1
    cases ha : (s.moveTo ⟨95, 1⟩).addressBits with
    | none => rw [bind_error _ (addressWidth_none ha)] at e1; simp at e1
    | some a =>
      rw [bind_ok _ (addressWidth_some ha)] at e1
      simp only [update_run, EStateM.Result.ok.injEq, true_and] at e1
      rw [← e1]
      exact ⟨a, ha, hc _⟩
  have k2 := (F.toTxFrame.line F.toTxFrame.ensureDmi).ok h2
  obtain ⟨u, e2, rfl⟩ := line_ok_inv h2
  obtain ⟨hi, hd, ha⟩ := ensureDmi_ok e2
  have i2 : (u.backTo t1.label).irCurrent ≠ .none := by
    rw [State.backTo_irCurrent, hi]
    decide
  have f2 : (u.backTo t1.label).fits (u.backTo t1.label).dmiCmd := by
    unfold State.fits at *
    rw [State.backTo_dmiCmd, State.backTo_addressBits, hd, ha]
    exact f1
  have k3 := F.trans (F.toDmiFrame.shiftCmd.ok h3) ((F.toDmiFrame.dmiClassify _ _).ok h4)
  obtain ⟨f3, i3⟩ := k3.shift ⟨f2, i2⟩
  exact ⟨hv.1, ⟨_, hv.2, f3⟩, f3, i3⟩

theorem dmiRead_wired {a : Nat} {s t : State} {d : Word} (h : dmiRead a s = .ok d t) : Wired t := by
  obtain ⟨_, u, -, h2⟩ := bind_ok_inv h
  obtain ⟨_, w, h3, h4⟩ := bind_ok_inv h2
  obtain ⟨v, h5, rfl⟩ := line_ok_inv h3
  simp only [pass_bind, pure_run, EStateM.Result.ok.injEq] at h4
  obtain ⟨-, rfl⟩ := h4
  exact (wireFrame_through.toTxFrame.passed _ _ _).wired
    ((wireFrame_through.back v _).wired (dmiShift_wired (fits_encode _ _ _) h5))

/-- What an operation that ends without an error does to the rest of the state; a wired DMI layer stays wired. -/
def Leaves (P : State → α → State → Prop) (x : Op α) : Prop :=
  ∀ s a t, x s = .ok a t → P s.core a t.core ∧ (Wired s → Wired t)

theorem Leaves.bind {P : State → α → State → Prop} {Q : α → State → β → State → Prop} {x : Op α} {f : α → Op β}
    (hx : Leaves P x) (hf : ∀ a, Leaves (Q a) (f a)) : Leaves (fun c b c2 => ∃ a c1, P c a c1 ∧ Q a c1 b c2) (x >>= f) := by
  intro s b u h
  obtain ⟨a, t, h1, h2⟩ := bind_ok_inv h
  have k1 := hx s a t h1
  have k2 := hf a t b u h2
  exact ⟨⟨a, t.core, k1.1, k2.1⟩, k2.2 ∘ k1.2⟩

theorem Leaves.mono {P Q : State → α → State → Prop} {x : Op α} (h : Leaves P x) (hPQ : ∀ c a c2, P c a c2 → Q c a c2) :
    Leaves Q x := fun s a t e => ⟨hPQ _ _ _ (h s a t e).1, (h s a t e).2⟩

theorem Leaves.line {P : State → α → State → Prop} {x : Op α} (h : Leaves P x) (r n : Nat) :
    Leaves P (Machine.line r n x) := by
  intro s a t e
  obtain ⟨u, e1, rfl⟩ := line_ok_inv e
  have k := h _ _ _ e1
  exact ⟨k.1, fun hw => (wireFrame_through.back u _).wired (k.2 ((wireFrame_through.moved s _).wired hw))⟩

theorem leaves_pure (b : α) : Leaves (fun c a c2 => a = b ∧ c2 = c) (pure b : Op α) := by
  intro s a t e
  simp only [pure_run, EStateM.Result.ok.injEq] at e
  obtain ⟨rfl, rfl⟩ := e
  exact ⟨⟨rfl, rfl⟩, id⟩

theorem leaves_pass (r : Nat) (ns : List Nat) : Leaves (fun c _ c2 => c2 = c) (pass r ns) := by
  intro s a t e
  simp only [pass_run, EStateM.Result.ok.injEq, true_and] at e
  exact e ▸ ⟨rfl, (wireFrame_through.toTxFrame.passed s r ns).wired⟩

/-- Lines passed, then the rest. -/
theorem Leaves.afterPass {P : State → α → State → Prop} {r : Nat} {ns : List Nat} {y : Unit → Op α}
    (h : Leaves P (y ())) : Leaves P (pass r ns >>= y) :=
  ((leaves_pass r ns).bind fun _ => h).mono fun _ _ _ h => by
    obtain ⟨_, _, rfl, h⟩ := h
    exact h

theorem leaves_look (f : State → α) (hf : ∀ s : State, f s.core = f s := by intro _; rfl) :
    Leaves (fun c a c2 => a = f c ∧ c2 = c) (look f) := by
  intro s a t e
  simp only [look_run, EStateM.Result.ok.injEq] at e
  obtain ⟨rfl, rfl⟩ := e
  exact ⟨⟨(hf s).symm, rfl⟩, id⟩

theorem leaves_require (b : Bool) (e : Error) : Leaves (fun c _ c2 => b = true ∧ c2 = c) (require b e) := by
  intro s a t h
  cases b
  · simp at h
  · simp at h
    exact ⟨⟨rfl, h ▸ rfl⟩, h ▸ id⟩

/-- A change of the session leaves the DMI layer wired. -/
theorem leaves_update (f : State → State) (hc : ∀ s, (f s).core = f s.core := by intro _; rfl)
    (hw : ∀ s, Wired s → Wired (f s) := by exact fun s h => { h with }) :
    Leaves (fun c _ c2 => c2 = f c) (update f) := by
  intro s a t e
  simp only [update_run, EStateM.Result.ok.injEq, true_and] at e
  exact e ▸ ⟨hc s, hw s⟩

theorem leaves_keeps {x : Op α} (h : Keeps Through (fun _ _ => True) (fun _ => True) x) :
    Leaves (fun c _ c2 => c2 = c) x := fun _ _ _ e => ⟨(h.ok e).core, (h.ok e).wired⟩

/-- The version (R117, R118). -/
theorem leaves_negotiateVersion (dtm : DebugVersion) :
    Leaves (fun c _ c2 => c2 = c.wroteVersion .v0_13) (negotiateVersion dtm) := by
  refine (((leaves_keeps (wireFrame_through.toDmiFrame.dmiRead _)).line 117 1).bind fun st => Leaves.afterPass <|
    ((leaves_update (State.wroteVersion · (resolveVersion (dmstatusVersion st) dtm))).line 117 3).bind fun _ =>
    ((leaves_require _ _).line 118 1).bind fun _ => leaves_pure st).mono ?_
  rintro c a c2 ⟨st, c1, rfl, _, c3, rfl, _, c4, ⟨hv, rfl⟩, rfl, rfl⟩
  rw [show resolveVersion (dmstatusVersion a) dtm = .v0_13 by simpa using hv]

theorem leaves_negotiateNextdm : Leaves (fun c _ c2 => ∃ n, c2 = c.sawNextdm n) negotiateNextdm := by
  have h : ∀ n : Word, Leaves (fun c _ c2 => c2 = c.sawNextdm n)
      (if n = 0 then pure () else emitDiag (.nextDmIgnored n)) := by
    intro n
    by_cases hn : n = 0
    · rw [if_pos hn]
      exact (leaves_pure ()).mono fun c a c2 h => by rw [State.sawNextdm, if_pos hn]; exact h.2
    · rw [if_neg hn]
      exact (leaves_update (State.diagnose · (.nextDmIgnored n))).mono fun c a c2 h => by
        rw [State.sawNextdm, if_neg hn]; exact h
  refine (((leaves_keeps (wireFrame_through.toDmiFrame.dmiRead _)).line 120 1).bind fun n => (h n).line 121 1).mono ?_
  rintro c a c2 ⟨n, c1, rfl, rfl⟩
  exact ⟨n, rfl⟩

theorem leaves_checkCapabilities (f : AcsFields) (b : Bool) :
    Leaves (fun c _ c2 => capabilitiesValid f.datacount f.progbufsize b = true ∧ c2 = c) (checkCapabilities f b) := by
  refine Leaves.afterPass ?_
  cases hv : capabilitiesValid f.datacount f.progbufsize b with
  | true => exact (leaves_pure ()).mono fun _ _ _ h => ⟨rfl, h.2⟩
  | false =>
    intro s a t e
    rw [if_neg Bool.false_ne_true] at e
    obtain ⟨u, h, -⟩ := line_ok_inv e
    simp at h

theorem leaves_writeCapabilities (f : AcsFields) :
    Leaves (fun c _ c2 => c2 = c.wroteCapabilities f) (writeCapabilities f) := by
  rw [writeCapabilities_eq]
  exact Leaves.afterPass (leaves_update (State.wroteCapabilities · f))

theorem leaves_negotiateCapabilities (st : Word) :
    Leaves (fun c _ c2 => ∃ acs,
      capabilitiesValid (acsFields acs).datacount (acsFields acs).progbufsize (impebreakFlag st) = true
      ∧ c2 = ((c.wroteImpebreak (impebreakFlag st)).wroteCapabilities (acsFields acs)).wroteCsrPath
        (progbufCsrFlag (acsFields acs).progbufsize)) (negotiateCapabilities st) := by
  refine (((leaves_update (State.wroteImpebreak · (impebreakFlag st))).line 122 1).bind fun _ =>
    ((leaves_keeps (wireFrame_through.toDmiFrame.dmiRead _)).line 123 1).bind fun acs =>
    (leaves_checkCapabilities (acsFields acs) (impebreakFlag st)).bind fun _ =>
    (leaves_writeCapabilities (acsFields acs)).bind fun _ =>
    (leaves_update (State.wroteCsrPath · (progbufCsrFlag (acsFields acs).progbufsize))).line 125 1).mono ?_
  rintro c a c2 ⟨_, c1, rfl, acs, c3, rfl, _, c4, ⟨hv, rfl⟩, _, c5, rfl, rfl⟩
  exact ⟨acs, hv, rfl⟩

theorem leaves_autoexecProbe : Leaves (fun c _ c2 => ∃ r, c2 = c.wroteAutoexec (autoexecFlag r)) autoexecProbe := by
  have F := wireFrame_through
  refine (Leaves.afterPass <| (leaves_keeps (F.toCleanupFrame.withCleanup
    (F.toTxFrame.passThen (F.toTxFrame.line (F.toDmiFrame.dmiWrite _ _)))
    (keeps_bind F.toRuns (F.toTxFrame.line (F.toDmiFrame.dmiWrite _ _)) fun _ =>
      F.toTxFrame.line (F.toDmiFrame.dmiRead _)))).bind fun r =>
    (leaves_update (State.wroteAutoexec · (autoexecFlag r))).line 126 7).mono ?_
  rintro c a c2 ⟨r, c1, rfl, rfl⟩
  exact ⟨r, rfl⟩

/-- A negotiation that succeeds (R117 to R126). -/
theorem leaves_negotiateSteps (dtm : DebugVersion) :
    Leaves (fun c _ c2 => ∃ st nextdm acs readback,
      capabilitiesValid (acsFields acs).datacount (acsFields acs).progbufsize (impebreakFlag st) = true
      ∧ c2 = c.negotiated st nextdm acs readback) (negotiateSteps dtm) := by
  refine ((leaves_negotiateVersion dtm).bind fun st => ((leaves_require _ _).line 119 1).bind fun _ =>
    leaves_negotiateNextdm.bind fun _ => (leaves_negotiateCapabilities st).bind fun _ => leaves_autoexecProbe).mono ?_
  rintro c a c2 ⟨st, c1, rfl, _, c3, ⟨-, rfl⟩, _, c4, ⟨n, rfl⟩, _, c5, ⟨acs, hv, rfl⟩, r, rfl⟩
  exact ⟨st, n, acs, r, hv, rfl⟩

/-- It leaves the DMI layer wired: its first operation is a DMI read. -/
theorem negotiateSteps_wired {dtm : DebugVersion} {s t : State} (h : negotiateSteps dtm s = .ok () t) : Wired t := by
  have e : negotiateSteps dtm = (line 117 1 (dmiRead addrDmstatus) >>= fun st => do
      pass 117 [2]
      let v := resolveVersion (dmstatusVersion st) dtm
      line 117 3 (update (State.wroteVersion · v))
      line 118 1 (require (v == .v0_13) (.versionUnsupported v))
      line 119 1 (require (dmstatusAuthenticated st) .authenticationRequired)
      negotiateNextdm
      negotiateCapabilities st
      autoexecProbe) := by
    simp only [negotiateSteps, negotiateVersion, bind_assoc, pure_bind]
  rw [e] at h
  obtain ⟨st, u, h1, h2⟩ := bind_ok_inv h
  have L := (leaves_pass 117 [2]).bind fun _ =>
    ((leaves_update (State.wroteVersion · (resolveVersion (dmstatusVersion st) dtm))).line 117 3).bind fun _ =>
    ((leaves_require (resolveVersion (dmstatusVersion st) dtm == .v0_13)
      (.versionUnsupported (resolveVersion (dmstatusVersion st) dtm))).line 118 1).bind fun _ =>
    ((leaves_require (dmstatusAuthenticated st) .authenticationRequired).line 119 1).bind fun _ =>
    leaves_negotiateNextdm.bind fun _ => (leaves_negotiateCapabilities st).bind fun _ => leaves_autoexecProbe
  refine (L u () t h2).2 ?_
  obtain ⟨v, h3, rfl⟩ := line_ok_inv h1
  exact (wireFrame_through.back v _).wired (dmiRead_wired h3)

/-- A scan that ends without an error (R171, R172). -/
theorem leaves_scanHarts (n : BitVec 20) (left i : Nat) :
    Leaves (fun c _ c2 => ∃ k, k ≤ left ∧ (k = 0 ∨ i + k ≤ n.toNat + 1) ∧ c2 = c.scanned i k) (scanHarts n left i) := by
  have none : ∀ {c c2 : State} {m : Nat}, c2 = c → ∃ k, k ≤ m ∧ (k = 0 ∨ i + k ≤ n.toNat + 1)
      ∧ c2 = c.scanned i k := fun h => ⟨0, Nat.zero_le _, .inl rfl, h.trans (scanned_zero _ _).symm⟩
  induction left generalizing i with
  | zero => exact (leaves_pass _ _).mono fun c a c2 h => none h
  | succ left ih =>
    refine Leaves.afterPass ?_
    by_cases hi : i ≤ n.toNat
    · simp only [if_pos hi]
      have body : ∀ st : Word, Leaves (fun c _ c2 => c2 = c ∨ ∃ k, k ≤ left ∧ (k = 0 ∨ i + 1 + k ≤ n.toNat + 1)
          ∧ c2 = ((c.addHart i).nextCandidate).scanned (i + 1) k)
          (if dmstatusAnynonexistent st then pure ()
            else do
              line 171 6 (update (State.addHart · i))
              pass 171 [7]
              line 171 8 (update State.nextCandidate)
              scanHarts n left (i + 1)) := by
        intro st
        by_cases hst : dmstatusAnynonexistent st = true
        · rw [if_pos hst]
          exact (leaves_pure ()).mono fun c a c2 h => .inl h.2
        · rw [if_neg hst]
          refine (((leaves_update (State.addHart · i)).line 171 6).bind fun _ => Leaves.afterPass <|
            ((leaves_update State.nextCandidate).line 171 8).bind fun _ => ih (i + 1) fun h =>
            ⟨0, Nat.zero_le _, .inl rfl, h.trans (scanned_zero _ _).symm⟩).mono ?_
          rintro c a c2 ⟨_, c1, rfl, _, c3, rfl, h⟩
          exact .inr h
      refine (((leaves_keeps (wireFrame_through.toDmiFrame.writeHartsel _)).line 171 3).bind fun _ =>
        ((leaves_keeps (wireFrame_through.toDmiFrame.dmiRead _)).line 171 4).bind fun st =>
          Leaves.afterPass (body st)).mono ?_
      rintro c a c2 ⟨_, c3, rfl, st, c4, rfl, rfl | ⟨k, h1, h2, rfl⟩⟩
      · exact none rfl
      · exact ⟨k + 1, by omega, .inr (by omega), (scanned_succ _ i k).symm⟩
    · simp only [if_neg hi]
      exact (leaves_pure ()).mono fun c a c2 h => none h.2

theorem leaves_probeWidth : Leaves (fun c n c2 => c2 = c.wroteHartsellen n) probeWidth := by
  refine (((leaves_keeps (wireFrame_through.toDmiFrame.writeHartsel _)).line 170 1).bind fun _ =>
    ((leaves_keeps (wireFrame_through.toDmiFrame.dmiRead _)).line 170 2).bind fun w =>
    (leaves_look State.params).bind fun p =>
    ((leaves_update (State.wroteHartsellen · (hartselDecode p.hartselLayout w))).line 170 3).bind fun _ =>
    leaves_pure (hartselDecode p.hartselLayout w)).mono ?_
  rintro c a c2 ⟨_, c1, rfl, w, c3, rfl, p, c4, ⟨-, rfl⟩, _, c5, rfl, rfl, rfl⟩
  rfl

/-- A discovery that ends without an error (R169 to R173). -/
theorem leaves_discoverHarts :
    Leaves (fun c n c2 => ∃ width, n ≤ c.params.hartCapacity ∧ n ≤ width.toNat + 1 ∧ c2 = c.discovered width n)
      discoverHarts := by
  refine (leaves_probeWidth.bind fun n => ((leaves_update State.startScan).line 171 1).bind fun _ =>
    (leaves_look State.params).bind fun p => (leaves_scanHarts n p.hartCapacity 0).bind fun _ =>
    ((leaves_update (State.makeCurrent · 0)).line 171 9).bind fun _ => Leaves.afterPass <|
    leaves_look fun s => s.harts.length).mono ?_
  rintro c a c2 ⟨n, c1, rfl, _, c3, rfl, p, c4, ⟨rfl, rfl⟩, _, c5, ⟨k, h1, h2, rfl⟩, _, c6, rfl, rfl, rfl⟩
  have hk : ((c.wroteHartsellen n).startScan.scanned 0 k).harts.length = k := by
    simp [State.scanned, State.startScan]
  rw [show (((c.wroteHartsellen n).startScan.scanned 0 k).makeCurrent 0).harts.length = k from hk]
  exact ⟨n, h1, by omega, rfl⟩

/-- The DTMCS read of an ATTACH (R115). -/
theorem sessionStart_core {s t : State} {dtm : DebugVersion} (h : line 114 4 sessionStart s = .ok dtm t) :
    ∃ d, t.core = s.core.wroteDtmcs d := by
  obtain ⟨u, f1, rfl⟩ := line_ok_inv h
  unfold sessionStart at f1
  obtain ⟨d, v, f2, f3⟩ := bind_ok_inv f1
  rw [writeDtmcs_eq] at f3
  obtain ⟨_, w, f4, f5⟩ := bind_ok_inv f3
  simp only [pure_run, EStateM.Result.ok.injEq, update_run, pass_bind, true_and] at f5 f4
  obtain ⟨-, rfl⟩ := f5
  have k : v.core = s.core :=
    ((wireFrame_through.toTxFrame.line wireFrame_through.toTxFrame.readDtmcs).ok f2).core
  refine ⟨d, ?_⟩
  rw [← k, ← f4]
  rfl

/-- Its negotiation (R116 to R127). -/
theorem negotiate_core {s t : State} {dtm : DebugVersion} (h : line 114 5 (negotiate dtm) s = .ok () t) :
    (∃ st nextdm acs readback,
      capabilitiesValid (acsFields acs).datacount (acsFields acs).progbufsize (impebreakFlag st) = true
      ∧ t.core = s.core.negotiated st nextdm acs readback) ∧ Wired t := by
  obtain ⟨u, f1, rfl⟩ := line_ok_inv h
  unfold negotiate at f1
  obtain ⟨_, v, f2, f3⟩ := bind_ok_inv f1
  have k := ((wireFrame_through.toTxFrame.line wireFrame_through.toTxFrame.hardReset).ok f2).core
  have L := (leaves_negotiateSteps dtm v () u f3).1
  rw [k] at L
  exact ⟨L, (wireFrame_through.back u _).wired (negotiateSteps_wired f3)⟩

/-- Its discovery, lines 6 to 9 of R114. -/
theorem leaves_discovery :
    Leaves (fun c n c2 => ∃ width, n ≤ c.params.hartCapacity ∧ n ≤ width.toNat + 1
        ∧ c2 = ((c.atPhase .discovering).discovered width n).atPhase .ready)
      (do line 114 6 (setPhase .discovering); let n ← line 114 7 discoverHarts; line 114 8 (setPhase .ready)
          pass 114 [9]; pure n) := by
  refine (((leaves_update (State.atPhase · .discovering)).line 114 6).bind fun _ =>
    (leaves_discoverHarts.line 114 7).bind fun n => ((leaves_update (State.atPhase · .ready)).line 114 8).bind fun _ =>
    (leaves_pass 114 [9]).bind fun _ => leaves_pure n).mono ?_
  rintro c a c2 ⟨_, c1, rfl, m, c3, ⟨width, h1, h2, rfl⟩, _, c4, rfl, _, c5, rfl, rfl, rfl⟩
  exact ⟨width, h1, h2, rfl⟩

@[simp] theorem State.negotiated_params (s : State) (st n acs rb : Word) :
    (s.negotiated st n acs rb).params = s.params := by
  unfold State.negotiated State.sawNextdm
  split <;> rfl

/-- What an ATTACH that succeeds leaves, whatever the environment answered (R114 to R127, R169 to R174). -/
theorem attachSteps_ok {s t : State} {n : Nat} (h : attachSteps s = .ok n t) :
    ∃ d st nextdm acs readback width,
      capabilitiesValid (acsFields acs).datacount (acsFields acs).progbufsize (impebreakFlag st) = true
      ∧ n ≤ s.params.hartCapacity ∧ n ≤ width.toNat + 1
      ∧ t.core = s.core.attached d st nextdm acs readback width n ∧ Wired t := by
  rw [attachSteps_eq, pass_bind] at h
  obtain ⟨dtm, a, e1, h⟩ := bind_ok_inv h
  obtain ⟨_, b, e2, h⟩ := bind_ok_inv h
  obtain ⟨d, ca⟩ := sessionStart_core e1
  obtain ⟨⟨st, nextdm, acs, readback, hv, cb⟩, wb⟩ := negotiate_core e2
  obtain ⟨⟨width, h1, h2, ht⟩, hw⟩ := leaves_discovery b n t h
  rw [cb, ca, passed_core] at h1 ht
  rw [State.negotiated_params] at h1
  exact ⟨d, st, nextdm, acs, readback, width, hv, h1, h2, ht, hw wb⟩

/-! ## What an ATTACH tells the host before its response -/

/-- Between `s` and `t` at most `n` diagnostics were sent, and nothing else (R189). -/
def Tells (n : Nat) (s t : State) : Prop := ∃ ds : List Diag, ds.length ≤ n ∧ t.hostOut = s.hostOut ++ ds.map .diag

theorem tells_none {s t : State} (h : t.hostOut = s.hostOut) (n : Nat) : Tells n s t := ⟨[], Nat.zero_le n, by simp [h]⟩

theorem Tells.trans {n m k : Nat} {a b c : State} (h : Tells n a b) (g : Tells m b c) (hk : n + m ≤ k) : Tells k a c := by
  obtain ⟨d, h1, h2⟩ := h
  obtain ⟨e, g1, g2⟩ := g
  exact ⟨d ++ e, by simp; omega, by rw [g2, h2]; simp⟩

theorem tells_runs : Runs (Tells 0) (Tells 0) (fun _ => True) where
  refl _ := tells_none rfl 0
  trans h g := h.trans g (Nat.le_refl 0)
  fails h g := h.trans g (Nat.le_refl 0)
  stops _ _ := trivial

/-- No operation below ATTACH tells the host anything. -/
theorem csrFrame_tells : CsrFrame (Tells 0) (Tells 0) (fun _ => True) where
  toRuns := tells_runs
  moved _ _ := tells_none rfl 0
  back _ _ := tells_none rfl 0
  backFailed _ h := h.trans (tells_none rfl 0) (Nat.le_refl 0)
  issued _ _ _ _ _ := tells_none rfl 0
  failed _ _ _ _ := tells_none rfl 0
  ir _ _ _ := tells_none rfl 0
  noWidth _ _ := trivial
  noIdle _ _ := trivial
  noReplay _ _ _ := trivial
  success _ := tells_none rfl 0
  begun _ _ _ := tells_none rfl 0
  recovery _ := tells_none rfl 0
  polled _ := tells_none rfl 0
  polls _ := tells_none rfl 0
  started _ _ := tells_none rfl 0
  reissued _ := tells_none rfl 0
  register _ _ := tells_none rfl 0
  noAutoexec _ _ := trivial
  pushed _ _ := tells_none rfl 0
  popped _ := tells_none rfl 0
  held _ _ := tells_none rfl 0
  noImpebreak _ _ := trivial
  noCsrPath _ _ := trivial
  backup _ _ _ _ _ _ g := g.trans (tells_none rfl 0) (Nat.le_refl 0)

/-- Nor does the negotiation but for its step (d), nor the discovery. -/
theorem sessionFrame_tells : SessionFrame (Tells 0) (Tells 0) (fun _ => True) where
  toCleanupFrame := csrFrame_tells.toCleanupFrame
  version _ _ := tells_none rfl 0
  impebreak _ _ := tells_none rfl 0
  capabilities _ _ := tells_none rfl 0
  csrPath _ _ := tells_none rfl 0
  autoexec _ _ := tells_none rfl 0
  phase _ _ := tells_none rfl 0
  hartsellen _ _ := tells_none rfl 0
  cleared _ := tells_none rfl 0
  candidate _ := tells_none rfl 0
  added _ _ := tells_none rfl 0
  current _ _ := tells_none rfl 0

theorem tells_bind {n m k : Nat} {Z : State → Prop} {x : Op α} {f : α → Op β} (hx : Keeps (Tells n) (Tells n) Z x)
    (hf : ∀ a, Keeps (Tells m) (Tells m) (fun _ => True) (f a)) (hk : n + m ≤ k) :
    Keeps (Tells k) (Tells k) (fun _ => True) (x >>= f) := by
  intro s
  have h1 := hx s
  cases h : x s with
  | ok a t =>
    rw [h] at h1
    rw [bind_ok f h]
    have h2 := hf a t
    cases hh : f a t with
    | ok b u => rw [hh] at h2; exact Tells.trans h1 h2 hk
    | error e u =>
      rw [hh] at h2
      cases e with
      | fault f => trivial
      | err e =>
        simp only [Ends, ite_self] at h2 ⊢
        exact Tells.trans h1 h2 hk
  | error e t =>
    rw [h] at h1
    rw [bind_error f h]
    cases e with
    | fault f => trivial
    | err e =>
      simp only [Ends, ite_self] at h1 ⊢
      exact h1.trans (tells_none rfl 0) (by omega)

theorem tells_line {n r l : Nat} {x : Op α} (h : Keeps (Tells n) (Tells n) (fun _ => True) x) :
    Keeps (Tells n) (Tells n) (fun _ => True) (line r l x) := by
  intro s
  have h1 := h (s.moveTo ⟨r, l⟩)
  cases hx : x (s.moveTo ⟨r, l⟩) with
  | ok a t => rw [hx] at h1; rw [line_ok hx]; exact h1
  | error e t =>
    rw [hx] at h1
    rw [line_error hx]
    cases e with
    | fault f => trivial
    | err e => simp only [Ends, ite_self] at h1 ⊢; exact h1

/-- An ATTACH sends at most one diagnostic before it ends (R120, R189). -/
theorem attachSteps_tells : Keeps (Tells 1) (Tells 1) (fun _ => True) attachSteps := by
  have F := sessionFrame_tells
  have req : ∀ (b : Bool) (e : Error) (r n : Nat), e ≠ .transportFailure →
      Keeps (Tells 0) (Tells 0) (fun _ => True) (line r n (require b e)) := fun b e r n he =>
    F.toTxFrame.line (keeps_require F.toRuns b he)
  have nextdm : Keeps (Tells 1) (Tells 1) (fun _ => True) negotiateNextdm :=
    tells_bind (F.toTxFrame.line (F.toDmiFrame.dmiRead _)) (fun n => tells_line (n := 1) <|
      keeps_ite (fun s => tells_none rfl 1) (keeps_update fun s => ⟨[.nextDmIgnored n], by simp, by simp⟩))
      (Nat.le_refl 1)
  have steps : ∀ dtm, Keeps (Tells 1) (Tells 1) (fun _ => True) (negotiateSteps dtm) := fun dtm =>
    tells_bind (F.negotiateVersion dtm) (fun st => tells_bind (req _ _ _ _ Error.noConfusion) (fun _ =>
      tells_bind nextdm (fun _ => keeps_bind F.toRuns (F.negotiateCapabilities st) fun _ => F.autoexecProbe)
        (Nat.le_refl 1)) (Nat.le_refl 1)) (Nat.le_refl 1)
  have start : Keeps (Tells 0) (Tells 0) (fun _ => True) sessionStart :=
    keeps_bind F.toRuns (F.toTxFrame.line F.toTxFrame.readDtmcs) fun d =>
      keeps_bind F.toRuns (by rw [writeDtmcs_eq]; exact F.toTxFrame.passUpdate fun s => tells_none rfl 0) fun _ =>
      keeps_pure F.toRuns _
  rw [attachSteps_eq]
  refine tells_bind (n := 0) (m := 1) (F.toTxFrame.pass 114 [3]) (fun _ => ?_) (Nat.le_refl 1)
  refine tells_bind (m := 1) (F.toTxFrame.line start) (fun dtm => ?_) (Nat.le_refl 1)
  refine tells_bind (n := 1) (m := 0) (tells_line (tells_bind (F.toTxFrame.line F.toTxFrame.hardReset)
    (fun _ => steps dtm) (Nat.le_refl 1))) (fun _ => ?_) (Nat.le_refl 1)
  exact keeps_bind F.toRuns (F.toTxFrame.update fun s => F.phase s _) fun _ =>
    keeps_bind F.toRuns (F.toTxFrame.line F.discoverHarts) fun _ =>
    keeps_bind F.toRuns (F.toTxFrame.update fun s => F.phase s _) fun _ => F.toTxFrame.passThen (keeps_pure F.toRuns _)

end Sys2Proof.Machine
end

