-- ==== Sys2Proof/Laws/PerInstr.lean ====
section
/-! SUPPORT. One lemma for each instruction: decoding its words gives it back. -/

namespace Sys2Proof.Laws.RoundTrip

/-- For every address width and every parameters, the words of the instruction, where it is well formed, decode to
it. -/
def Statement (i : Instr) : Prop :=
  ∀ (p : Params) (A : Nat), A ≤ 63 → i.wf A = true → decode p A (encode p A i) = .ok i

theorem irDtmcs : Statement .irDtmcs := fun _ _ _ _ => rfl
theorem irDmi : Statement .irDmi := fun _ _ _ _ => rfl
theorem dtmcsRead : Statement .dtmcsRead := fun p A _ _ => decodeWire_32 p A .dtmcsW _ rfl
theorem dtmcsDmireset : Statement .dtmcsDmireset := fun p A _ _ => decodeWire_32 p A .dtmcsW _ rfl
theorem dtmcsDmihardreset : Statement .dtmcsDmihardreset := fun p A _ _ => decodeWire_32 p A .dtmcsW _ rfl

theorem dmiNop (addr : BitVec 63) (data : Word) : Statement (.dmiNop addr data) := by
  intro p A hA hw
  simp only [Instr.wf, Bool.and_eq_true, beq_iff_eq] at hw
  obtain ⟨rfl, rfl⟩ := hw
  exact decodeWire_dmiReq p 0 0 0 hA (by positivity)

theorem dmiRead (addr : BitVec 63) (data : Word) : Statement (.dmiRead addr data) := by
  intro p A hA hw
  simp only [Instr.wf, Bool.and_eq_true, beq_iff_eq, decide_eq_true_eq] at hw
  have h := decodeWire_dmiReq p 1 addr.toNat data hA hw.2
  simpa [encode, decode] using h

theorem dmiWrite (addr : BitVec 63) (data : Word) : Statement (.dmiWrite addr data) := by
  intro p A hA hw
  simp only [Instr.wf, decide_eq_true_eq] at hw
  have h := decodeWire_dmiReq p 2 addr.toNat data hA hw
  simpa [encode, decode] using h

theorem statusNoError (data : Word) : Statement (.statusNoError data) := fun p A _ _ => decodeWire_dmiRsp p A _ _
theorem statusReserved (data : Word) : Statement (.statusReserved data) := fun p A _ _ => decodeWire_dmiRsp p A _ _
theorem statusOpFailed (data : Word) : Statement (.statusOpFailed data) := fun p A _ _ => decodeWire_dmiRsp p A _ _
theorem statusOpInterrupted (data : Word) : Statement (.statusOpInterrupted data) :=
  fun p A _ _ => decodeWire_dmiRsp p A _ _

/-- A command word of one of the four register forms. -/
theorem decodeCmdAr_form (c : Word) (r : BitVec 16) (h0 : c.extractLsb' 0 16 = 0)
    (hp : c.extractLsb' 16 16 ≠ (0x0024 : BitVec 16)) :
    decodeCmdAr (c ||| r.setWidth 32) =
      if c.extractLsb' 16 16 = (0x0022 : BitVec 16) then .ok (.arRead r)
      else if c.extractLsb' 16 16 = (0x0023 : BitVec 16) then .ok (.arWrite r)
      else if c.extractLsb' 16 16 = (0x002A : BitVec 16) then .ok (.arReadPostinc r)
      else if c.extractLsb' 16 16 = (0x002B : BitVec 16) then .ok (.arWritePostinc r)
      else .error .commandForm := by
  have hne : c ||| r.setWidth 32 ≠ arPostexecWord := by
    intro h
    have := congrArg (fun w : Word => w.extractLsb' 16 16) h
    simp only [command_form] at this
    exact hp (this.trans (by decide))
  unfold decodeCmdAr
  simp only [if_neg hne, command_form, command_regno c r h0]

theorem arRead (regno : BitVec 16) : Statement (.arRead regno) := fun p A _ _ =>
  (decodeWire_32 p A .cmdAr _ rfl).trans (decodeCmdAr_form 0x00220000 regno (by decide) (by decide))
theorem arWrite (regno : BitVec 16) : Statement (.arWrite regno) := fun p A _ _ =>
  (decodeWire_32 p A .cmdAr _ rfl).trans (decodeCmdAr_form 0x00230000 regno (by decide) (by decide))
theorem arReadPostinc (regno : BitVec 16) : Statement (.arReadPostinc regno) := fun p A _ _ =>
  (decodeWire_32 p A .cmdAr _ rfl).trans (decodeCmdAr_form 0x002A0000 regno (by decide) (by decide))
theorem arWritePostinc (regno : BitVec 16) : Statement (.arWritePostinc regno) := fun p A _ _ =>
  (decodeWire_32 p A .cmdAr _ rfl).trans (decodeCmdAr_form 0x002B0000 regno (by decide) (by decide))
theorem arPostexec : Statement .arPostexec := fun p A _ _ => decodeWire_32 p A .cmdAr _ rfl

/-- A captured ABSTRACT_CS word. -/
theorem decode_acs (p : Params) (A : Nat) (f : AcsFields) (e : CmdErr) :
    decode p A (wire32 .acsRead (acsWord f e)) = .ok (decodeAcsRead (acsWord f e)) :=
  decodeWire_32 p A .acsRead _ rfl

theorem cmderrNone (acs : AcsFields) : Statement (.cmderrNone acs) := fun p A _ _ =>
  (decode_acs p A acs .none).trans (by rw [decodeAcsRead_word])
theorem cmderrBusy (acs : AcsFields) : Statement (.cmderrBusy acs) := fun p A _ _ =>
  (decode_acs p A acs .busy).trans (by rw [decodeAcsRead_word])
theorem cmderrNotSupported (acs : AcsFields) : Statement (.cmderrNotSupported acs) := fun p A _ _ =>
  (decode_acs p A acs .notSupported).trans (by rw [decodeAcsRead_word])
theorem cmderrException (acs : AcsFields) : Statement (.cmderrException acs) := fun p A _ _ =>
  (decode_acs p A acs .exception).trans (by rw [decodeAcsRead_word])
theorem cmderrHaltResume (acs : AcsFields) : Statement (.cmderrHaltResume acs) := fun p A _ _ =>
  (decode_acs p A acs .haltResume).trans (by rw [decodeAcsRead_word])
theorem cmderrBus (acs : AcsFields) : Statement (.cmderrBus acs) := fun p A _ _ =>
  (decode_acs p A acs .bus).trans (by rw [decodeAcsRead_word])
theorem cmderrReserved (acs : AcsFields) : Statement (.cmderrReserved acs) := fun p A _ _ =>
  (decode_acs p A acs .reserved).trans (by rw [decodeAcsRead_word])
theorem cmderrOther (acs : AcsFields) : Statement (.cmderrOther acs) := fun p A _ _ =>
  (decode_acs p A acs .other).trans (by rw [decodeAcsRead_word])

theorem acsClear : Statement .acsClear := fun p A _ _ => decodeWire_32 p A .acsWrite _ rfl
theorem autoexecSentinel : Statement .autoexecSentinel := fun p A _ _ => decodeWire_32 p A .autoexec _ rfl
theorem autoexecArm : Statement .autoexecArm := fun p A _ _ => decodeWire_32 p A .autoexec _ rfl
theorem autoexecDisarm : Statement .autoexecDisarm := fun p A _ _ => decodeWire_32 p A .autoexec _ rfl

theorem dmcontrolHartsel (index : BitVec 20) : Statement (.dmcontrolHartsel index) := fun p A _ _ =>
  (decodeWire_32 p A .dmcontrol _ rfl).trans (by
    unfold decodeDmcontrol
    rw [if_pos (dmcontrolWord_and p index), hartselDecode_dmcontrol])

theorem csrrsX1 (csr : BitVec 12) : Statement (.csrrsX1 csr) := fun p A _ _ =>
  (decodeWire_32 p A .rv32 _ rfl).trans (by
    have hne : csrrsX1Word csr ≠ ebreakWord := by
      intro h
      have := congrArg (fun w : Word => w.extractLsb' 0 20) h
      simp only [csrrs_low] at this
      exact absurd this (by decide)
    unfold decodeRv32
    rw [if_neg hne, if_pos (csrrs_low csr), csrrs_high])

theorem ebreak : Statement .ebreak := fun p A _ _ => decodeWire_32 p A .rv32 _ rfl

theorem hostAttach (idcode : Word) : Statement (.hostAttach idcode) := by
  intro p A _ _
  simp [encode, decode, hostWord, decodeHost, operand_toNat, Except.map]
theorem hostDetach : Statement .hostDetach := fun _ _ _ _ => rfl
theorem hostDmiRead (address : Nat) : Statement (.hostDmiRead address) := fun _ _ _ _ => rfl
theorem hostDmiWrite (address : Nat) (word : Word) : Statement (.hostDmiWrite address word) := by
  intro p A _ _
  simp [encode, decode, hostWord, decodeHost, operand_toNat, Except.map]
theorem hostRun (commandWord : Word) : Statement (.hostRun commandWord) := by
  intro p A _ _
  simp [encode, decode, hostWord, decodeHost, operand_toNat, Except.map]
theorem hostReadRegs (baseId : BitVec 16) (count : Nat) : Statement (.hostReadRegs baseId count) := by
  intro p A _ _
  simp [encode, decode, hostWord, decodeHost, operand_toNat, Except.map]
theorem hostWriteRegs (baseId : BitVec 16) (values : List Word) : Statement (.hostWriteRegs baseId values) := by
  intro p A _ _
  simp [encode, decode, hostWord, decodeHost, operand_toNat, wordOperands_toNat]
theorem hostReadCsrProgbuf (csrId : Nat) : Statement (.hostReadCsrProgbuf csrId) := fun _ _ _ _ => rfl
theorem hostSelectHart (index : Nat) : Statement (.hostSelectHart index) := fun _ _ _ _ => rfl

end Sys2Proof.Laws.RoundTrip
end

