-- ==== Sys2Proof/Tests/Slice0.lean ====
section
/-! SUPPORT. The model's own tests, all with the parameters of 95_test_vectors.md (A = 7, idle_cycles = 5,
DMI_RETRY_MAX = 2, POLL_MAX = 4, BUSY_RETRY_MAX = 2, HART_CAPACITY = 8), and a witness for the hypotheses of each
statement. An expected value is the vector's that the comment names, or is written out from the rule named. -/

namespace Sys2Proof.Tests

open Sys2Proof Sys2Proof.Machine

-- One test after the other: each waits for the declarations before it, and waiting threads hold memory.
set_option Elab.async false

/-! ## Small states and answers -/

def vecParams : Params :=
  { hartCapacityLess1 := 7, dmiRetryLess1 := 1, pollLess1 := 3, busyRetryMax := 2
    dmcontrolHigh := 0, dmcontrolLow := 0, hartselLayout := .doc }

def lk : Link := ⟨7, 5⟩

/-- The capture buffer with the bits of `w`, byte 0 lowest (R50). -/
def capture (w : DmiWord) : Buffer :=
  #v[w.extractLsb' 0 8, w.extractLsb' 8 8, w.extractLsb' 16 8, w.extractLsb' 24 8, w.extractLsb' 32 8,
    w.extractLsb' 40 8, w.extractLsb' 48 8, w.extractLsb' 56 8, w.extractLsb' 64 8, w.extractLsb' 72 8,
    w.extractLsb' 80 8, w.extractLsb' 88 8, w.extractLsb' 96 8]

/-- A DMI capture with a status and a data field. -/
def answer (st : DmiStatus) (d : Word) : Reply := .done (capture (dmiResponse st d))

/-- DMI captures with status NO_ERROR. -/
def quiet (ds : List Word) : List Reply := ds.map (answer .noError)

/-- A DTMCS capture, or the answer to an action that captures nothing of use. -/
def dtmcs (d : Word) : Reply := .done (capture (d.setWidth 97))

/-- A completed IR selection. -/
def selected : Reply := dtmcs 0

/-- A Detached block. -/
def fresh (rs : List Reply) : State := { State.reset with params := vecParams, replies := rs }

/-- The "Ready block" of 95_test_vectors.md. -/
def ready (rs : List Reply) : State :=
  { fresh rs with
    phase := .ready
    idcode := some 0x20000913
    dtmVersion := some .v0_13
    debugVersion := some .v0_13
    idleCycles := some 5
    addressBits := some 7
    programBufferSize := some 2
    impebreak := some true
    abstractDataCount := some 2
    autoexecSupported := some true
    progbufCsrEnabled := some true
    lastDmiCommand := some 0
    lastValid := true
    irCurrent := .dmi
    hartsellen := some 1
    harts := [newHart 0]
    currentHart := some 0 }

/-- The Ready block without autoexec. -/
def plain (rs : List Reply) : State := { ready rs with autoexecSupported := some false }

/-- The Ready block with the DTMCS register selected. -/
def elsewhere (rs : List Reply) : State := { ready rs with irCurrent := .dtmcs }

/-- The next state, if there is one. -/
def after (o : Host.Outcome State Fault Refusal) : Option State :=
  match o with
  | .next t => some t
  | .fault _ => none
  | .refused _ => none

/-- The DMI words shifted so far, for A = 7. -/
def shifts (t : State) : List DmiWord :=
  t.trace.filterMap fun x =>
    match x.1 with
    | .shiftDr out n => if n = 41 then some (unpackBytes n out) else none
    | .writeIr _ => none
    | .idleClock _ => none

/-- The words shifted and the result. -/
def wordsAndResult (o : Host.Outcome State Fault Refusal) : Option (List DmiWord × Option Response) :=
  (after o).map fun t => (shifts t, t.result)

/-- The actions issued. -/
def actions (o : Host.Outcome State Fault Refusal) : Option (List Action) :=
  (after o).map fun t => t.trace.map Prod.fst

theorem shift_byte (x k : Nat) : (x >>> k) % 2 ^ 8 + 256 * (x >>> (k + 8)) = x >>> k := by
  rw [Nat.shiftRight_add, Nat.shiftRight_eq_div_pow _ 8]; omega

theorem bytesToNat_capture (w : DmiWord) : bytesToNat (capture w).toList = w.toNat := by
  have h : w.toNat >>> 96 % 2 ^ 8 + 256 * 0 = w.toNat >>> 96 := by
    have := w.isLt
    rw [Nat.shiftRight_eq_div_pow]; omega
  simp only [capture, bytesToNat, Vector.toList_mk, List.foldr_cons, List.foldr_nil, BitVec.extractLsb'_toNat]
  have g := shift_byte w.toNat
  rw [h, g 88, g 80, g 72, g 64, g 56, g 48, g 40, g 32, g 24, g 16, g 8, g 0]
  rfl

theorem answers_answer (st : DmiStatus) (d : Word) : (answer st d).answers 7 st d := by
  have h : unpackBytes (dmiWidth 7) (capture (dmiResponse st d)).toList = dmiResponse st d := by
    rw [unpackBytes, bytesToNat_capture]
    apply BitVec.eq_of_toNat_eq
    have := dmiResponse_lt st d
    simp only [lowBits, BitVec.toNat_ofNat, dmiWidth]
    omega
  simp only [answer, Reply.answers, h]
  exact ⟨dmiOp_response st d, dmiData_response st d⟩

theorem quiet_quiet (ds : List Word) : Quiet 7 (quiet ds) ds := by
  induction ds with
  | nil => exact .nil
  | cons d ds h => exact .cons (answers_answer .noError d) h

theorem completes_dtmcs (d : Word) : (dtmcs d).completes := trivial

theorem selected_ready (rs : List Reply) : Selected (ready rs) [] := ⟨fun _ => rfl, fun h => absurd rfl h⟩

theorem selected_elsewhere (rs : List Reply) : Selected (elsewhere rs) [selected] := ⟨nofun, fun _ => ⟨_, rfl⟩⟩

/-! ## Well-formed instructions (R68, R69, 92 D56): one ill-formed term for each check -/

theorem test_wf_nop_address : Instr.wf 7 (.dmiNop 1 0) = false := by decide
theorem test_wf_nop_data : Instr.wf 7 (.dmiNop 0 1) = false := by decide
theorem test_wf_read_data : Instr.wf 7 (.dmiRead 0x11 1) = false := by decide
theorem test_wf_read_address : Instr.wf 7 (.dmiRead 0x80 0) = false := by decide
theorem test_wf_write_address : Instr.wf 7 (.dmiWrite 0x80 0) = false := by decide
theorem test_wf_top_address : Instr.wf 7 (.dmiWrite 0x7F 0xFFFFFFFF) = true := by decide

/-! ## Decoding: a word written out from the encoding of each constructor -/

def wire (f : Format) (w : DmiWord) : Except Reject Instr := decodeWire vecParams 7 ⟨f, w⟩

/-- R64. -/
theorem test_decode_ir : wire .ir 0x10 = .ok .irDtmcs ∧ wire .ir 0x11 = .ok .irDmi ∧ wire .ir 0x12 = .error .irCode := by
  decide

/-- R67. -/
theorem test_decode_dtmcs : wire .dtmcsW 0 = .ok .dtmcsRead ∧ wire .dtmcsW 0x10000 = .ok .dtmcsDmireset
    ∧ wire .dtmcsW 0x20000 = .ok .dtmcsDmihardreset ∧ wire .dtmcsW 0x30000 = .error .dtmcsValue := by decide

/-- E4, E5, E10 and R85: op 3 is no instruction, and a 42-bit word is too wide for A = 7. -/
theorem test_decode_dmi_request : wire .dmiReq 0 = .ok (.dmiNop 0 0) ∧ wire .dmiReq 0x4400000001 = .ok (.dmiRead 0x11 0)
    ∧ wire .dmiReq 0x1FFFFFFFFFE = .ok (.dmiWrite 0x7F 0xFFFFFFFF) ∧ wire .dmiReq 3 = .error .dmiOpReserved
    ∧ wire .dmiReq 0x20000000000 = .error .width := by decide

/-- E9: the widest word. -/
theorem test_decode_widest :
    decodeWire vecParams 63 ⟨.dmiReq, 0x1FFFFFFFFFFFFFFFC00000001⟩ = .ok (.dmiRead 0x7FFFFFFFFFFFFFFF 0) := by decide

/-- R70 (the capture of Part 2.1) and R71. -/
theorem test_decode_dmi_status : wire .dmiRsp 0x00001000208 = .ok (.statusNoError 0x00400082)
    ∧ wire .dmiRsp 1 = .ok (.statusReserved 0) ∧ wire .dmiRsp 0x3FFFFFFFE = .ok (.statusOpFailed 0xFFFFFFFF)
    ∧ wire .dmiRsp 0x1FC00000007 = .ok (.statusOpInterrupted 1) := by decide

/-- E19 to E26. -/
theorem test_decode_command : wire .cmdAr 0x00221001 = .ok (.arRead 0x1001) ∧ wire .cmdAr 0x00231001 = .ok (.arWrite 0x1001)
    ∧ wire .cmdAr 0x002A1001 = .ok (.arReadPostinc 0x1001) ∧ wire .cmdAr 0x002B1001 = .ok (.arWritePostinc 0x1001)
    ∧ wire .cmdAr 0x00241000 = .ok .arPostexec ∧ wire .cmdAr 0x0022FFFF = .ok (.arRead 0xFFFF)
    ∧ wire .cmdAr 0x00241001 = .error .commandForm ∧ wire .cmdAr 0x01000000 = .error .commandForm := by decide

/-- E36 to E40 and R77: one word for each code. -/
theorem test_decode_abstractcs :
    wire .acsRead 0x02000002 = .ok (.cmderrNone ⟨2, false, 2⟩) ∧ wire .acsRead 0x02000102 = .ok (.cmderrBusy ⟨2, false, 2⟩)
    ∧ wire .acsRead 0x02001202 = .ok (.cmderrNotSupported ⟨2, true, 2⟩)
    ∧ wire .acsRead 0x02000302 = .ok (.cmderrException ⟨2, false, 2⟩)
    ∧ wire .acsRead 0x11000402 = .ok (.cmderrHaltResume ⟨2, false, 17⟩)
    ∧ wire .acsRead 0x0000050D = .ok (.cmderrBus ⟨13, false, 0⟩)
    ∧ wire .acsRead 0x02000602 = .ok (.cmderrReserved ⟨2, false, 2⟩)
    ∧ wire .acsRead 0xFFFFFFFF = .ok (.cmderrOther ⟨15, true, 31⟩) := by decide

/-- R76, R80. -/
theorem test_decode_written_words : wire .acsWrite 0x700 = .ok .acsClear ∧ wire .acsWrite 0x100 = .error .acsWriteValue
    ∧ wire .autoexec 0xAAA = .ok .autoexecSentinel ∧ wire .autoexec 1 = .ok .autoexecArm
    ∧ wire .autoexec 0 = .ok .autoexecDisarm ∧ wire .autoexec 2 = .error .autoexecValue := by decide

/-- E12, E17, E18, and a word with a bit outside hart-select. -/
theorem test_decode_dmcontrol : wire .dmcontrol 0x40 = .ok (.dmcontrolHartsel 1)
    ∧ wire .dmcontrol 0x00010040 = .ok (.dmcontrolHartsel 0x401)
    ∧ wire .dmcontrol 0x03FFFFC0 = .ok (.dmcontrolHartsel 0xFFFFF) ∧ wire .dmcontrol 0x41 = .error .dmcontrolBase := by
  decide

/-- The words of Part 2.1. -/
theorem test_decode_program : wire .rv32 0x301020F3 = .ok (.csrrsX1 0x301) ∧ wire .rv32 0xFFF020F3 = .ok (.csrrsX1 0xFFF)
    ∧ wire .rv32 0x00100073 = .ok .ebreak ∧ wire .rv32 0x000020F2 = .error .programWord := by decide

/-- R88, and the requests that are no instruction (log 14). -/
theorem test_decode_host : decodeHost ⟨1, [0x20000913]⟩ = .ok (.hostAttach 0x20000913) ∧ decodeHost ⟨2, []⟩ = .ok .hostDetach
    ∧ decodeHost ⟨3, [0x11]⟩ = .ok (.hostDmiRead 0x11) ∧ decodeHost ⟨4, [0x18, 0]⟩ = .ok (.hostDmiWrite 0x18 0)
    ∧ decodeHost ⟨5, [0x01000000]⟩ = .ok (.hostRun 0x01000000)
    ∧ decodeHost ⟨6, [0x1001, 3]⟩ = .ok (.hostReadRegs 0x1001 3)
    ∧ decodeHost ⟨7, [0x1001, 5, 6, 7]⟩ = .ok (.hostWriteRegs 0x1001 [5, 6, 7])
    ∧ decodeHost ⟨8, [0x1000]⟩ = .ok (.hostReadCsrProgbuf 0x1000) ∧ decodeHost ⟨9, [2]⟩ = .ok (.hostSelectHart 2)
    ∧ decodeHost ⟨0, []⟩ = .error .requestCode ∧ decodeHost ⟨10, []⟩ = .error .requestCode
    ∧ decodeHost ⟨4, [0x18]⟩ = .error .operandCount ∧ decodeHost ⟨6, [0x10000, 1]⟩ = .error .operandRange := by decide

/-- E6, E8: the address is taken mod 2^A, at A = 7 and at A = 32. -/
theorem test_encode_dmi : dmiEncode 2 0x80 1 7 = 0x6 ∧ dmiEncode 2 0xFFFFFFFF 0x12345678 32 = 0x3FFFFFFFC48D159E2 := by
  decide

/-- R50: the bytes of a 41-bit word, and a capture whose top seven bits are ignored. -/
theorem test_shift_buffer : packBytes 41 0x4400000001 = [0x01, 0x00, 0x00, 0x00, 0x44, 0x00]
    ∧ unpackBytes 41 [0x08, 0x02, 0x00, 0x01, 0x00, 0xFE] = 0x00001000208 := by decide

/-- E15, E16, and `hartsel_decode(0xFFFFFFFF)`. -/
theorem test_hartsel : hartselField .doc 0x3FF = 0x0000FFC0 ∧ hartselField .doc 0x400 = 0x00010000
    ∧ hartselDecode .doc 0xFFFFFFFF = 0xFFFFF := by decide

/-- E27 to E35: the fields of DTMCS and DMSTATUS. -/
theorem test_register_fields : dtmcsVersion 0x00005071 = .v0_13 ∧ dtmcsAbits 0x00005071 = 7 ∧ dtmcsIdle 0x00005071 = 5
    ∧ dtmcsVersion 0x00005070 = .v0_11 ∧ dtmcsVersion 0x00005072 = .unknown ∧ dmstatusVersion 0x00400082 = .v0_13
    ∧ dmstatusVersion 0x00000081 = .v0_11 ∧ dmstatusVersion 0x0000008F = .unknown
    ∧ dmstatusAnynonexistent 0x00004082 = true ∧ dmstatusAuthenticated 0x00400002 = false
    ∧ impebreakFlag 0x00400082 = true := by decide

/-! ## Steps: words of the transport and the DMI layer -/

/-- R64. -/
theorem test_ir_dmi : (after (exec .irDmi (fresh [selected]))).map (fun t => (t.irCurrent, t.trace.map Prod.fst))
    = some (.dmi, [.writeIr 0x11]) := by decide +kernel

/-- R64; a selection that fails leaves `ir_current` (R30). -/
theorem test_ir_dtmcs : (after (exec .irDtmcs (fresh [.failed]))).map (fun t => (t.irCurrent, t.result))
    = some (.none, some (.err .transportFailure)) := by decide +kernel

/-- R94 and E27. -/
theorem test_dtmcs_read : (after (exec .dtmcsRead (fresh [selected, dtmcs 0x00005071]))).map
    (fun t => (t.trace.map Prod.fst, t.result))
    = some ([.writeIr 0x10, .shiftDr [0, 0, 0, 0] 32], some (.ok (.word 0x00005071))) := by decide +kernel

/-- R92: 0x10000, least significant byte first. -/
theorem test_dmireset : actions (exec .dtmcsDmireset (fresh [selected, selected]))
    = some [.writeIr 0x10, .shiftDr [0, 0, 1, 0] 32] := by decide +kernel

/-- R93. -/
theorem test_dmihardreset : actions (exec .dtmcsDmihardreset (fresh [selected, selected]))
    = some [.writeIr 0x10, .shiftDr [0, 0, 2, 0] 32] := by decide +kernel

/-- R102, R105: the DMI register is selected first. -/
theorem test_dmi_nop : actions (exec (.dmiNop 0 0) (elsewhere (selected :: quiet [7])))
    = some [.writeIr 0x11, .shiftDr [0, 0, 0, 0, 0, 0] 41] := by decide +kernel

/-- E4: its capture is the result. -/
theorem test_dmi_read : wordsAndResult (exec (.dmiRead 0x11 0) (ready (quiet [7])))
    = some ([0x4400000001], some (.ok (.word 7))) := by decide +kernel

/-- D4. -/
theorem test_dmi_write_reserved : (after (exec (.dmiWrite 4 5) (ready [answer .reserved 0, selected, selected]))).map
    (fun t => (t.trace.length, t.lastDmiCommand, t.result))
    = some (3, some 0, some (.err (.dmiOperationFailed 1))) := by decide +kernel

/-- R97. -/
theorem test_status_no_error :
    (after (exec (.statusNoError 9) { ready [] with lastDmiCommand := some 0x123, dmiCmd := 0x01000000016 })).map
      (fun t => (t.lastDmiCommand, t.result)) = some (some 0x01000000016, some (.ok (.word 9))) := by decide +kernel

/-- R100. -/
theorem test_status_reserved : (after (exec (.statusReserved 9) (ready [selected, selected]))).map
    (fun t => (t.irCurrent, t.result)) = some (.dtmcs, some (.err (.dmiOperationFailed 1))) := by decide +kernel

/-- R100. -/
theorem test_status_op_failed : (after (exec (.statusOpFailed 9) (ready [selected, selected]))).map
    (fun t => (t.irCurrent, t.result)) = some (.dtmcs, some (.err (.dmiOperationFailed 2))) := by decide +kernel

/-- P5, lines 3 to 8. -/
theorem test_status_interrupted :
    actions (exec (.statusOpInterrupted 0)
      { ready [selected, selected, selected, answer .noError 0, selected, answer .noError 0x00400082] with
        lastDmiCommand := some 0x04400000001 })
    = some [.writeIr 0x10, .shiftDr [0, 0, 1, 0] 32, .writeIr 0x11, .shiftDr [1, 0, 0, 0, 0x44, 0] 41, .idleClock 4,
      .shiftDr [0, 0, 0, 0, 0, 0] 41] := by decide +kernel

/-- D5, lines 13 to 15: no recovery is left. -/
theorem test_status_interrupted_spent :
    (after (exec (.statusOpInterrupted 0) { ready [selected, selected] with dmiTries := 2 })).map
      (fun t => (t.trace.length, t.result)) = some (2, some (.err (.timeout .dmiRetry))) := by decide +kernel

/-! ## Steps: DMI requests -/

/-- D1. -/
theorem test_host_dmi_write : (after (exec (.hostDmiWrite 4 5) (ready (quiet [0])))).map
    (fun t => (shifts t, t.lastDmiCommand, t.result))
    = some ([0x01000000016], some 0x01000000016, some (.ok .unit)) := by decide +kernel

/-- D2: nothing has succeeded, so the no-op is replayed; one idle cycle gives no idle clock. -/
theorem test_interrupted_first_shift :
    (after (exec (.hostDmiWrite 0x10 0x40)
      { ready [answer .opInterrupted 0, selected, dtmcs 0x00005071, selected, answer .noError 0, answer .noError 0] with
        lastValid := false, lastDmiCommand := none, idleCycles := some 1 })).map
      (fun t => (shifts t, t.trace.length, t.lastDmiCommand))
    = some ([0x04000000102, 0, 0x04000000102], 6, some 0x04000000102) := by decide +kernel

/-- D3. -/
theorem test_host_dmi_read_failed :
    (after (exec (.hostDmiRead 0x11) { ready [answer .noError 0, answer .opFailed 0, selected, selected] with
      lastDmiCommand := some 0x123 })).map (fun t => (t.lastDmiCommand, t.irCurrent, t.phase, t.result))
    = some (some 0x04400000001, .dtmcs, .ready, some (.err (.dmiOperationFailed 2))) := by decide +kernel

/-- P5, by a step from the host port. -/
theorem test_step_host_dmi_read :
    wordsAndResult (step { ready (quiet [0] ++ [answer .opInterrupted 0, selected, selected, selected] ++ quiet [0]
      ++ [selected] ++ quiet [0x00400082]) with hostQueue := [⟨3, [0x11]⟩], lastDmiCommand := some 0x06000000002 })
    = some ([0x04400000001, 0, 0x04400000001, 0], some (.ok (.word 0x00400082))) := by decide +kernel

/-! ## Steps: abstract commands, `run(0x00221001)` and others (2.4) -/

/-- A1. -/
theorem test_run_busy_poll : wordsAndResult (exec (.hostRun 0x00221001) (ready (quiet [0, 0, 0x02001002, 0, 0x02000002])))
    = some ([0x05C00884006, 0x05800000001, 0, 0x05800000001, 0], some (.ok .unit)) := by decide +kernel

/-- A12: the word goes out unchanged, and its rejection is cleared. -/
theorem test_run_other_type : wordsAndResult (exec (.hostRun 0x01000000) (ready (quiet [0, 0, 0x02000202, 0])))
    = some ([0x05C04000002, 0x05800000001, 0, 0x05800001C02], some (.err (.abstractCmdError .notSupported))) := by decide +kernel

/-- G6: an exception of a register access names the register. -/
theorem test_ar_read_absent : wordsAndResult (exec (.arRead 0x1003) (ready (quiet [0, 0, 0x02000302, 0])))
    = some ([0x05C0088400E, 0x05800000001, 0, 0x05800001C02], some (.err (.registerNotPresent 0x1003))) := by decide +kernel

/-- A13. -/
theorem test_ar_write : wordsAndResult (exec (.arWrite 0x1001) (ready (quiet [0, 0, 0x02000002])))
    = some ([0x05C008C4006, 0x05800000001, 0], some (.ok .unit)) := by decide +kernel

/-- P2, lines 1 to 3. -/
theorem test_ar_read_postinc : wordsAndResult (exec (.arReadPostinc 0x1001) (ready (quiet [0, 0, 0x02000002])))
    = some ([0x05C00A84006, 0x05800000001, 0], some (.ok .unit)) := by decide +kernel

/-- A5 with the word E22, 0x002B1001 at address 0x17: three rounds, then Timeout(BusyRetry). -/
theorem test_ar_write_postinc_busy :
    (after (exec (.arWritePostinc 0x1001)
      (ready (quiet [0, 0, 0x02000102, 0, 0, 0, 0x02000102, 0, 0, 0, 0x02000102, 0])))).map
        (fun t => ((shifts t).filter (· == 0x05C00AC4006), t.trace.length, t.result))
    = some ([0x05C00AC4006, 0x05C00AC4006, 0x05C00AC4006], 12, some (.err (.timeout .busyRetry))) := by decide +kernel

/-- P4, lines 8 to 11: the program's exception is not mapped. -/
theorem test_ar_postexec_exception : wordsAndResult (exec .arPostexec (ready (quiet [0, 0, 0x02000302, 0])))
    = some ([0x05C00904002, 0x05800000001, 0, 0x05800001C02], some (.err (.abstractCmdError .exception))) := by decide +kernel

/-- The end of A1, and the end of A2 with POLL_MAX = 4: no read is left. -/
theorem test_cmderr_none : wordsAndResult (exec (.cmderrNone ⟨2, false, 2⟩) (ready [])) = some ([], some (.ok .unit)) := by
  decide +kernel
theorem test_cmderr_none_poll_spent : wordsAndResult (exec (.cmderrNone ⟨2, true, 2⟩) { ready [] with polls := 4 })
    = some ([], some (.err (.timeout .poll))) := by decide +kernel

/-- A3 from its first captured word on, and A4 from there, with both re-issues spent. -/
theorem test_cmderr_busy :
    wordsAndResult (exec (.cmderrBusy ⟨2, false, 2⟩)
      { ready (quiet [0, 0, 0, 0x02000002]) with runCmd := 0x00221001, polls := 1 })
    = some ([0x05800001C02, 0x05C00884006, 0x05800000001, 0], some (.ok .unit)) := by decide +kernel
theorem test_cmderr_busy_spent :
    wordsAndResult (exec (.cmderrBusy ⟨2, false, 2⟩) { ready (quiet [0]) with busyTries := 2 })
    = some ([0x05800001C02], some (.err (.timeout .busyRetry))) := by decide +kernel

/-- A6 to A11, from the captured word on. -/
theorem test_cmderr_not_supported : wordsAndResult (exec (.cmderrNotSupported ⟨2, false, 2⟩) (ready (quiet [0])))
    = some ([0x05800001C02], some (.err (.abstractCmdError .notSupported))) := by decide +kernel
theorem test_cmderr_exception : wordsAndResult (exec (.cmderrException ⟨2, false, 2⟩) (ready (quiet [0])))
    = some ([0x05800001C02], some (.err (.abstractCmdError .exception))) := by decide +kernel
theorem test_cmderr_halt_resume : wordsAndResult (exec (.cmderrHaltResume ⟨2, false, 2⟩) (ready (quiet [0])))
    = some ([0x05800001C02], some (.err (.abstractCmdError .haltResume))) := by decide +kernel
theorem test_cmderr_bus : wordsAndResult (exec (.cmderrBus ⟨2, false, 2⟩) (ready (quiet [0])))
    = some ([0x05800001C02], some (.err (.abstractCmdError .bus))) := by decide +kernel
theorem test_cmderr_reserved : wordsAndResult (exec (.cmderrReserved ⟨2, false, 2⟩) (ready (quiet [0])))
    = some ([0x05800001C02], some (.err (.abstractCmdError .other))) := by decide +kernel

/-- R135: busy is tested before the code, and the next word decides. -/
theorem test_cmderr_other_while_busy :
    wordsAndResult (exec (.cmderrOther ⟨2, true, 2⟩) { ready (quiet [0, 0x02000002]) with polls := 3 })
    = some ([0x05800000001, 0], some (.ok .unit)) := by decide +kernel

/-! ## Steps: words written to registers -/

/-- Part 2.1. -/
theorem test_acs_clear : wordsAndResult (exec .acsClear (ready (quiet [0]))) = some ([0x05800001C02], some (.ok .unit)) := by
  decide +kernel
/-- P1, line 12. -/
theorem test_sentinel : wordsAndResult (exec .autoexecSentinel (ready (quiet [0])))
    = some ([0x06000002AAA], some (.ok .unit)) := by decide +kernel
/-- P2, line 4. -/
theorem test_arm : wordsAndResult (exec .autoexecArm (ready (quiet [0]))) = some ([0x06000000006], some (.ok .unit)) := by
  decide +kernel
/-- P2, line 17. -/
theorem test_disarm : wordsAndResult (exec .autoexecDisarm (ready (quiet [0])))
    = some ([0x06000000002], some (.ok .unit)) := by decide +kernel
/-- H5: DMCONTROL_BASE = 1. -/
theorem test_dmcontrol : wordsAndResult (exec (.dmcontrolHartsel 0xFFFFF)
      { ready (quiet [0]) with params := { vecParams with dmcontrolLow := 1 } })
    = some ([0x0400FFFFF06], some (.ok .unit)) := by decide +kernel
/-- Part 2.6. -/
theorem test_csrrs : wordsAndResult (exec (.csrrsX1 0x301) (ready (quiet [0])))
    = some ([0x080C04083CE], some (.ok .unit)) := by decide +kernel
/-- Part 2.6. -/
theorem test_ebreak : wordsAndResult (exec .ebreak (ready (quiet [0]))) = some ([0x084004001CE], some (.ok .unit)) := by
  decide +kernel

/-! ## Steps: registers -/

/-- P2. -/
theorem test_read_regs : wordsAndResult (exec (.hostReadRegs 0x1001 3) (ready (quiet [0, 0, 0x02000002, 0, 0, 0x11111111, 0,
      0x02000002, 0, 0x22222222, 0, 0x02000002, 0, 0x33333333, 0, 0x02000002, 0])))
    = some ([0x05C00A84006, 0x05800000001, 0, 0x06000000006, 0x01000000001, 0, 0x05800000001, 0, 0x01000000001, 0,
        0x05800000001, 0, 0x01000000001, 0, 0x05800000001, 0, 0x06000000002],
      some (.ok (.words [0x11111111, 0x22222222, 0x33333333]))) := by decide +kernel

/-- G2: the poll after x2 finds x3 absent; the clear and the disarm follow. -/
theorem test_read_regs_absent : wordsAndResult (exec (.hostReadRegs 0x1001 3) (ready (quiet [0, 0, 0x02000002, 0, 0, 1, 0,
      0x02000002, 0, 2, 0, 0x02000302, 0, 0])))
    = some ([0x05C00A84006, 0x05800000001, 0, 0x06000000006, 0x01000000001, 0, 0x05800000001, 0, 0x01000000001, 0,
        0x05800000001, 0, 0x05800001C02, 0x06000000002], some (.err (.registerNotPresent 0x1003))) := by decide +kernel

/-- G8; the words of `WR 0x04, 5`, `WR 0x17, 0x002B1001` and `WR 0x04, 6` are those of R72. -/
theorem test_write_regs_absent : wordsAndResult (exec (.hostWriteRegs 0x1001 [5, 6]) (ready (quiet [0, 0, 0, 0x02000002, 0,
      0, 0, 0x02000302, 0, 0])))
    = some ([0x01000000016, 0x05C00AC4006, 0x05800000001, 0, 0x06000000006, 0x0100000001A, 0x05800000001, 0,
        0x05800001C02, 0x06000000002], some (.err (.registerNotPresent 0x1002))) := by decide +kernel

/-- G11; the words of `WR 0x04, 1`, `WR 0x04, 2` and `WR 0x17, 0x00231002` are those of R72. -/
theorem test_write_regs_none : wordsAndResult (exec (.hostWriteRegs 0x1001 [1, 2]) (plain (quiet [0, 0, 0, 0x02000002, 0, 0,
      0, 0x02000002])))
    = some ([0x01000000006, 0x05C008C4006, 0x05800000001, 0, 0x0100000000A, 0x05C008C400A, 0x05800000001, 0],
      some (.ok .unit)) := by decide +kernel

/-! ## Steps: program-buffer CSR reads -/

/-- P3, by its response, its shifts and the backup. -/
theorem test_read_csr : (after (exec (.hostReadCsrProgbuf 0x301) (ready (quiet [0, 0, 0, 0x02000002, 0, 0xDEADBEEF, 0, 0,
      0x02000002, 0, 0, 0x02000002, 0, 0x40001105, 0, 0, 0, 0x02000002])))).map
      (fun t => (shifts t, t.harts.map HartEntry.registerBackup, t.result))
    = some ([0x080C04083CE, 0x05C00884006, 0x05800000001, 0, 0x01000000001, 0, 0x05C00904002, 0x05800000001, 0,
        0x05C00884006, 0x05800000001, 0, 0x01000000001, 0, 0x0137AB6FBBE, 0x05C008C4006, 0x05800000001, 0],
      [[0xDEADBEEF]], some (.ok (.word 0x40001105))) := by decide +kernel

/-- P4: the explicit ebreak, and the restore after an exception. -/
theorem test_read_csr_exception : wordsAndResult (exec (.hostReadCsrProgbuf 0x301)
      { ready (quiet [0, 0, 0, 0, 0x02000002, 0, 0xDEADBEEF, 0, 0, 0x02000302, 0, 0, 0, 0, 0x02000002]) with
        impebreak := some false })
    = some ([0x080C04083CE, 0x084004001CE, 0x05C00884006, 0x05800000001, 0, 0x01000000001, 0, 0x05C00904002,
        0x05800000001, 0, 0x05800001C02, 0x0137AB6FBBE, 0x05C008C4006, 0x05800000001, 0],
      some (.err (.abstractCmdError .exception))) := by decide +kernel

/-! ## Steps: harts and the session -/

/-- H7 and H9. -/
theorem test_select_hart :
    (after (exec (.hostSelectHart 1) { ready (quiet [0]) with harts := [newHart 0, newHart 1] })).map
      (fun t => (shifts t, t.currentHart, t.result)) = some ([0x04000000102], some 1, some (.ok .unit)) := by decide +kernel
theorem test_select_hart_past : wordsAndResult (exec (.hostSelectHart 2) { ready [] with harts := [newHart 0, newHart 1] })
    = some ([], some (.err .invalidRequest)) := by decide +kernel

/-- X3 and X4. -/
theorem test_detach_detached : wordsAndResult (exec .hostDetach (fresh []))
    = some ([], some (.err (.sessionNotReady .detached))) := by decide +kernel
theorem test_detach : (after (exec .hostDetach (ready []))).map (fun t => (t.phase, t.harts, t.lastDmiCommand, t.result))
    = some (.detached, [], none, some (.ok .unit)) := by decide +kernel

/-- The answers of P1. -/
def p1Replies : List Reply :=
  [selected, dtmcs 0x00005071, selected, dtmcs 0x00005071, selected]
    ++ quiet [0, 0x00000082, 0, 0, 0, 0x00000002, 0, 0, 0, 0, 0, 0, 0x000000C0, 0, 0, 0x00000082, 0, 0, 0x00000082, 0, 0,
      0x00004082]

/-- P1, the DMI words of its lines 6 to 27 and the response. -/
theorem test_attach : wordsAndResult (exec (.hostAttach 0x20000913) (fresh p1Replies))
    = some ([0x04400000001, 0, 0x07400000001, 0, 0x05800000001, 0, 0x06000002AAA, 0x06000000001, 0, 0x06000000002,
        0x0400FFFFF02, 0x04000000001, 0, 0x04000000002, 0x04400000001, 0, 0x04000000102, 0x04400000001, 0,
        0x04000000202, 0x04400000001, 0], some (.ok (.hartCount 2))) := by decide +kernel

/-- N9: the bounds of the capabilities; the diagnostic comes before the response. -/
theorem test_attach_refused : (after (exec (.hostAttach 0x20000913)
      (fresh ([selected, dtmcs 0x00005071, selected, selected, selected] ++ quiet [0, 0x00000082, 0, 0, 0, 0x01000002])))).map
      (fun t => (t.phase, t.hostOut))
    = some (.detached, [.diag (.attachFailed 11), .response (.err (.invalidCapabilities 2 1 false))]) := by decide +kernel

/-! ## The table's words as first instructions after reset (log 9) -/

/-- The request DETACH, and the word CMD.AR_POSTEXEC: decoded, and placed where the next step takes it. -/
theorem test_table_word : decodeTableWord 8 0x02 = some .hostDetach ∧ decodeTableWord 32 0x00241000 = some .arPostexec
    ∧ (after (step (State.reset.withFetchWord 8 0x02))).map State.result
      = some (some (.err (.sessionNotReady .detached))) := by decide +kernel

/-! ## The step label (R15) and the stop of R16 -/

/-- R95, R92 and R102, line by line: after the recovery, `goto SHIFT` takes the label back to line 3; the label is idle
in the end. -/
theorem test_label_of_retry :
    (after (exec (.dmiRead 0x11 0) (ready [answer .opInterrupted 0, selected, selected, selected, selected, selected,
      answer .noError 7]))).map (fun t => (t.moves.map List.head?, t.label))
    = some ([some ⟨95, 1⟩, some ⟨95, 2⟩, some ⟨102, 1⟩, some ⟨95, 3⟩, some ⟨95, 4⟩, some ⟨95, 5⟩, some ⟨95, 6⟩,
        some ⟨95, 10⟩, some ⟨95, 11⟩, some ⟨95, 14⟩, some ⟨95, 15⟩, some ⟨92, 1⟩, some ⟨92, 2⟩, some ⟨95, 16⟩,
        some ⟨95, 17⟩, some ⟨95, 18⟩, some ⟨95, 19⟩, some ⟨95, 3⟩, some ⟨95, 4⟩, some ⟨95, 5⟩, some ⟨95, 6⟩,
        some ⟨95, 7⟩, some ⟨95, 8⟩, some ⟨95, 9⟩], []) := by decide +kernel

/-- R185, R108 and R104 call one another: the label holds the lines that called. -/
theorem test_label_of_call :
    (after (exec (.hostDmiWrite 4 5) (ready (quiet [0])))).map (fun t => (t.moves.take 7, t.moves.getLast?))
    = some ([[⟨185, 1⟩], [⟨185, 2⟩], [⟨185, 4⟩], [⟨185, 5⟩], [⟨109, 1⟩, ⟨185, 5⟩], [⟨104, 1⟩, ⟨109, 1⟩, ⟨185, 5⟩],
        [⟨95, 1⟩, ⟨104, 1⟩, ⟨109, 1⟩, ⟨185, 5⟩]], some [⟨185, 7⟩]) := by decide +kernel

/-- The lines of rule R`rule` that the label took, in their order. -/
def linesOf (rule : Nat) (t : State) : List Nat :=
  t.moves.filterMap fun ls => ls.head?.bind fun l => if l.rule = rule then some l.line else none

/-- R114, R115, R123 and R171 in the ATTACH of P1: line 2 of R114 and lines 3 to 5 of R115 stand apart, valid
capabilities never reach the raise of line 5 of R123, and the scan takes line 8 of R171 after a candidate. -/
theorem test_label_of_attach :
    (after (exec (.hostAttach 0x20000913) (fresh p1Replies))).map
      (fun t => (linesOf 114 t, linesOf 115 t, linesOf 123 t, linesOf 171 t))
    = some ([1, 2, 3, 4, 5, 6, 7, 8, 9], [1, 2, 3, 4, 5], [1, 2, 3, 4, 6, 7],
        [1, 2, 3, 4, 5, 6, 7, 8, 2, 3, 4, 5, 6, 7, 8, 2, 3, 4, 5, 9, 10]) := by decide +kernel

/-- N9: invalid capabilities raise at line 5 of R123, and lines 10 to 13 of R114 follow. -/
theorem test_label_of_refusal : (after (exec (.hostAttach 0x20000913)
      (fresh ([selected, dtmcs 0x00005071, selected, selected, selected] ++ quiet [0, 0x00000082, 0, 0, 0, 0x01000002])))).map
      (fun t => (linesOf 114 t, linesOf 123 t))
    = some ([1, 2, 3, 4, 5, 10, 11, 12, 13], [1, 2, 3, 4, 5]) := by decide +kernel

/-- R151: each raise of `ContinuePoll` stands at its own line. -/
theorem test_label_of_continue :
    [0x02000102, 0x02000302, 0x02000502].map (fun acs =>
      match continuePoll 0x1003 false (ready (quiet [0, acs, 0])) with
      | .ok _ t => linesOf 151 t
      | .error _ t => linesOf 151 t)
    = [[1, 2, 3, 4, 5, 6], [1, 2, 3, 4, 5, 6, 7], [1, 2, 3, 4, 5, 6, 7, 8]] := by decide +kernel

/-- The fault, if there is one. -/
def faultOf (o : Host.Outcome State Fault Refusal) : Option Fault :=
  match o with
  | .next _ => none
  | .fault f => some f
  | .refused _ => none

/-- R16: before a DTMCS read no register holds the width of a DMI word. -/
theorem test_unwritten_register : faultOf (exec (.dmiRead 0x11 0) (fresh [])) = some (.unwrittenRead .addressBits) := by
  decide +kernel

/-- R35, R174, H2: with `hart_count = 0`, `current_hart = 0` names no entry. -/
theorem test_no_current_hart :
    (match currentEntry { ready [] with harts := [] } with
      | .error (.err e) _ => some e
      | _ => none) = some .noCurrentHart := by decide +kernel

/-- R70, R97: a captured word's address bits are ignored, so it needs no width and runs where none is written. -/
theorem test_captured_word_needs_no_width :
    (after (step { fresh [] with wire := some ⟨.dmiRsp, 0x00001000208⟩ })).map (fun t => (t.lastValid, t.result))
    = some (true, some (.ok (.word 0x00400082))) := by decide +kernel

/-- R16: a slot that no backup has written is no value and no shorter list. -/
theorem test_unwritten_slot :
    (match backedUp 0 2 { ready [] with harts := [{ newHart 0 with registerBackup := [5] }] } with
      | .error (.fault f) _ => some f
      | _ => none) = some (.unwrittenSlot 0 1) := by decide +kernel

/-! ## Witnesses: for each statement with hypotheses, states and operands that meet them all

One witness stands for each clause, at a boundary value where the clause has a range. `elsewhere` is the case in which
the DMI register has to be selected first. -/

/-- Polls, commands and register accesses, with the captures of the Ready block's target. -/
def idlePoll : Poll := ⟨[], 0, 0x02000002⟩
/-- Busy on every read but the last that POLL_MAX = 4 allows. -/
def longPoll : Poll := ⟨[(0, 0x02001002), (0, 0x02001002), (0, 0x02001002)], 0, 0x02000002⟩
def busyAttempt : Attempt := ⟨0, ⟨[], 0, 0x02000102⟩⟩
/-- Two rejections, as many as BUSY_RETRY_MAX = 2 allows, and then a word with the code at [10:8]. -/
def longCommand (acs : Word) : Command := ⟨[(busyAttempt, 0), (busyAttempt, 0)], ⟨0, ⟨longPoll.busy, 0, acs⟩⟩⟩
def command : Command := ⟨[], ⟨0, idlePoll⟩⟩
def oneRead (v : Word) : OneRead := ⟨command, 0, v⟩
def oneWrite : OneWrite := ⟨0, command⟩

/-- A busy captured word, as `simp` writes it. -/
theorem busy_word : acsBusy 0x02001002#32 = true := by decide

theorem three_polls : 3 < vecParams.pollMax := by decide

theorem poll_ends {acs : Word} (h : acsBusy acs = false) (b : List (Word × Word))
    (hb : b = [] ∨ b = [(0, 0x02001002), (0, 0x02001002), (0, 0x02001002)]) : Poll.Ends vecParams ⟨b, 0, acs⟩ := by
  obtain rfl | rfl := hb
  · exact ⟨nofun, Nat.lt_of_succ_lt (Nat.lt_of_succ_lt (Nat.lt_of_succ_lt three_polls)), h⟩
  · exact ⟨by simp [busy_word], three_polls, h⟩

theorem idlePoll_ends : idlePoll.Ends vecParams ∧ acsCmderr idlePoll.acs = .none :=
  ⟨poll_ends (by decide) _ (.inl rfl), by decide⟩

theorem longPoll_ends : longPoll.Ends vecParams ∧ acsCmderr longPoll.acs = .none :=
  ⟨poll_ends (by decide) _ (.inr rfl), by decide⟩

theorem busyAttempt_ends : busyAttempt.poll.Ends vecParams ∧ acsCmderr busyAttempt.poll.acs = .busy :=
  ⟨poll_ends (by decide) _ (.inl rfl), by decide⟩

theorem rejected_replicate (n : Nat) : Rejected vecParams (List.replicate n (busyAttempt, 0)) := fun q h => by
  rw [List.eq_of_mem_replicate h]; exact busyAttempt_ends

theorem command_ends : command.Ends vecParams .none := ⟨nofun, by decide, idlePoll_ends⟩

theorem longCommand_ends {acs : Word} (h : acsBusy acs = false) : (longCommand acs).Ends vecParams (acsCmderr acs) :=
  ⟨rejected_replicate 2, Nat.le_refl 2, poll_ends h _ (.inr rfl), rfl⟩

theorem longCommand_none : (longCommand 0x02000002).Ends vecParams .none := longCommand_ends (by decide)
theorem longCommand_exception : (longCommand 0x02000302).Ends vecParams .exception := longCommand_ends (by decide)

/-- What the witnesses of a Ready block share: the phase, the address width, the selection and the answers. -/
def Starts (s : State) (pre rs rest : List Reply) : Prop :=
  s.phase = .ready ∧ s.addressBits = some lk.abits ∧ Selected s pre ∧ s.replies = pre ++ rs ++ rest

theorem ready_starts (rs : List Reply) : Starts (ready rs) [] rs [] :=
  ⟨rfl, rfl, selected_ready rs, (List.append_nil _).symm⟩
theorem plain_starts (rs : List Reply) : Starts (plain rs) [] rs [] :=
  ⟨rfl, rfl, ⟨fun _ => rfl, fun h => absurd rfl h⟩, (List.append_nil _).symm⟩
theorem elsewhere_starts (rs : List Reply) : Starts (elsewhere (selected :: rs)) [selected] rs [] :=
  ⟨rfl, rfl, selected_elsewhere _, by simp [elsewhere, ready, fresh]⟩

theorem witness_EncodeThenDecode : (63 ≤ 63 ∧ Instr.wf 63 (.dmiWrite 0x7FFFFFFFFFFFFFFF 0xFFFFFFFF) = true)
    ∧ (0 ≤ 63 ∧ Instr.wf 0 (.dmiRead 0 0) = true) := by decide

theorem witness_DecodedWordIsTheEncoding :
    (Format.dmiReq ≠ .dmiRsp ∧ Format.dmiReq ≠ .acsRead
      ∧ decodeWire vecParams 63 ⟨.dmiReq, 0x1FFFFFFFFFFFFFFFC00000001⟩ = .ok (.dmiRead 0x7FFFFFFFFFFFFFFF 0))
    ∧ decodeHost ⟨7, [0xFFFF, 0xFFFFFFFF]⟩ = .ok (.hostWriteRegs 0xFFFF [0xFFFFFFFF]) := by decide

theorem witness_DmiWordFields : (63 ≤ 63 ∧ 2 ^ 63 - 1 < 2 ^ 63) ∧ (0 ≤ 63 ∧ 0 < 2 ^ 0) := by decide

theorem witness_ShiftBufferLayout : 97 ≤ 97 ∧ (fresh [selected]).replies = .done (capture 0) :: []
    ∧ (packBytes 97 0x1FFFFFFFFFFFFFFFC00000001)[96 / 8]? = some 0x01 := by decide

theorem witness_StepRunsDecoded :
    (({ ready [] with hostQueue := [⟨2, []⟩] } : State).wire = none ∧ decodeHost ⟨2, []⟩ = .ok .hostDetach)
    ∧ (({ ready [] with wire := some ⟨.dmiReq, 0x4400000001⟩ } : State).fetchWidth = 7
      ∧ decodeWire vecParams 7 ⟨.dmiReq, 0x4400000001⟩ = .ok (.dmiRead 0x11 0))
    ∧ (({ ready [] with hostQueue := [⟨10, []⟩] } : State).wire = none ∧ decodeHost ⟨10, []⟩ = .error .requestCode)
    ∧ (({ fresh [] with wire := some ⟨.ir, 0x12⟩ } : State).fetchWidth = 63
      ∧ decodeWire vecParams 63 ⟨.ir, 0x12⟩ = .error .irCode)
    ∧ ((fresh []).wire = none ∧ (fresh []).hostQueue = [])
    ∧ (ready []).addressBits = some 7 ∧ (fresh []).addressBits = none
    ∧ (Format.rv32 ≠ .dmiReq ∧ Format.rv32 ≠ .dmiRsp) := by decide

theorem witness_DetachedStateEntries :
    (ready []).phase = .ready
    ∧ (∃ t, (fresh [.failed]).phase = .detached ∧ exec (.hostAttach 0) (fresh [.failed]) = .next t
      ∧ t.result = some (.err .transportFailure))
    ∧ ∃ t, exec (.hostDmiRead 0x11) (ready [answer .noError 0, .failed]) = .next t
      ∧ t.result = some (.err .transportFailure) :=
  ⟨rfl, ⟨_, rfl, rfl, rfl⟩, ⟨_, rfl, rfl⟩⟩

theorem one_le_capacity : 1 ≤ vecParams.hartCapacity := by decide
theorem one_le_width : 1 ≤ (1 : BitVec 20).toNat + 1 := by decide
theorem nop_fits (rs : List Reply) : (ready rs).fits 0 := ⟨7, rfl, by decide⟩
theorem ready_linked (rs : List Reply) : Linked (ready rs) lk := ⟨rfl, rfl, fun _ => rfl⟩

theorem ready_inv_queue (q : List HostWord) : MachineInv { ready [] with hostQueue := q } where
  toAtRest := ⟨rfl, rfl, rfl, rfl⟩
  phase := .inr ⟨rfl, {
    idcode := rfl
    dtmVersion := rfl
    debugVersion := rfl
    autoexecSupported := rfl
    capabilities := ⟨2, 2, true, rfl, rfl, rfl, rfl, rfl⟩
    idleCycles := rfl
    last := ⟨0, rfl, nop_fits []⟩
    cmd := nop_fits []
    lastValid := rfl
    ir := nofun
    harts := {
      capacity := one_le_capacity
      width := ⟨1, rfl, one_le_width⟩
      index := fun k e h => by
        cases k with
        | zero => obtain rfl : newHart 0 = e := by simpa [ready] using h
                  rfl
        | succ k => simp [ready] at h
      hartId := fun e h => by obtain rfl : e = newHart 0 := by simpa [ready] using h
                              rfl
      backup := fun e h => by obtain rfl : e = newHart 0 := by simpa [ready] using h
                              decide }
    currentHart := ⟨0, rfl, .inr rfl⟩ }⟩

theorem ready_inv : MachineInv (ready []) := ready_inv_queue []

theorem witness_StepKeepsInvariant :
    (∃ q, MachineInv { ready [] with hostQueue := q } ∧ q = [⟨2, []⟩])
    ∧ ∃ t, step { ready [] with hostQueue := [⟨2, []⟩] } = .next t :=
  ⟨⟨_, ready_inv_queue _, rfl⟩, _, rfl⟩

theorem witness_NoUnwrittenRead : MachineInv (ready []) ∧ (fresh []).addressBits = none := ⟨ready_inv, rfl⟩

/-! ### Transport and DMI words -/

theorem witness_IrWordsSelect : (fresh [selected]).replies = selected :: [] ∧ selected.completes :=
  ⟨rfl, trivial⟩

theorem witness_DtmcsWordsShift : (fresh [selected, dtmcs 0x00005071]).replies
    = selected :: .done (capture (BitVec.setWidth 97 (0x00005071 : Word))) :: [] ∧ selected.completes := ⟨rfl, trivial⟩

theorem witness_dmiWordOf :
    dmiWordOf 7 (.dmiNop 0 0) 0 ∧ dmiWordOf 7 (.dmiRead 0x7F 0) 0x1FC00000001
      ∧ dmiWordOf 7 (.dmiWrite 0x7F 0xFFFFFFFF) 0x1FFFFFFFFFE :=
  ⟨.inl ⟨0, 0, rfl, by decide⟩, .inr (.inl ⟨0x7F, 0, rfl, by decide⟩), .inr (.inr ⟨0x7F, 0xFFFFFFFF, rfl, by decide⟩)⟩

theorem witness_DmiWordsShift :
    dmiWordOf 7 (.dmiWrite 0x7F 0xFFFFFFFF) 0x1FFFFFFFFFE ∧ (Starts (ready (quiet [9])) [] [answer .noError 9] [] ∧ (answer .noError 9).answers 7 .noError 9)
    ∧ Starts (elsewhere (selected :: quiet [9])) [selected] [answer .noError 9] [] :=
  ⟨witness_dmiWordOf.2.2, ⟨ready_starts _, answers_answer _ _⟩, elsewhere_starts _⟩

theorem witness_ReplayWordOnlyOnSuccess :
    dmiWordOf 7 (.dmiWrite 4 5) 0x01000000016 ∧ (ready [answer .reserved 0, selected, selected]).phase = .ready
    ∧ ∃ t, exec (.dmiWrite 4 5) (ready [answer .reserved 0, selected, selected]) = .next t
      ∧ t.result = some (.err (.dmiOperationFailed 1)) ∧ Error.dmiOperationFailed 1 ≠ .transportFailure :=
  ⟨.inr (.inr ⟨4, 5, rfl, by decide⟩), rfl, _, rfl, by decide, nofun⟩

theorem witness_FailedStatusResets :
    dmiWordOf 7 (.dmiRead 0x7F 0) 0x1FC00000001
    ∧ Starts (ready [answer .reserved 9, selected, selected]) [] [answer .reserved 9, selected, selected] []
    ∧ (answer .reserved 9).answers 7 .reserved 9
    ∧ Starts (elsewhere [selected, answer .opFailed 9, selected, selected]) [selected]
      [answer .opFailed 9, selected, selected] []
    ∧ (answer .opFailed 9).answers 7 .opFailed 9 ∧ selected.completes :=
  ⟨witness_dmiWordOf.2.1, ready_starts _, answers_answer _ _, elsewhere_starts _, answers_answer _ _, trivial⟩

/-- One interrupted shift, with an idle clock in its recovery since idle_cycles = 5. -/
def round : Round := ⟨answer .opInterrupted 0, [selected, selected, selected, selected, selected]⟩

theorem round_recovers (w : DmiWord) : round.Recovers lk w :=
  ⟨⟨0, answers_answer _ _⟩, rfl, by simp [round, selected, dtmcs, Reply.completes]⟩

theorem witness_InterruptedShiftRetries :
    dmiWordOf 7 (.dmiRead 0x7F 0) 0x1FC00000001
    ∧ Starts (ready (roundReplies [round, round] ++ quiet [9])) [] (roundReplies [round, round] ++ quiet [9]) []
    ∧ Linked (ready (roundReplies [round, round] ++ quiet [9])) lk
    ∧ (∀ q ∈ [round, round], q.Recovers lk (ready []).replayWord) ∧ [round, round].length ≤ vecParams.dmiRetryMax
    ∧ (answer .noError 9).answers 7 .noError 9 :=
  ⟨witness_dmiWordOf.2.1, ready_starts _, ready_linked _, by simp [round_recovers], by decide, answers_answer _ _⟩

theorem witness_RetryBoundExhausted :
    dmiWordOf 7 (.dmiNop 0 0) 0
    ∧ Starts (ready (roundReplies [round, round] ++ [answer .opInterrupted 9, selected, selected])) []
      (roundReplies [round, round] ++ [answer .opInterrupted 9, selected, selected]) []
    ∧ Linked (ready (roundReplies [round, round] ++ [answer .opInterrupted 9, selected, selected])) lk
    ∧ (∀ q ∈ [round, round], q.Recovers lk (ready []).replayWord) ∧ [round, round].length = vecParams.dmiRetryMax
    ∧ (answer .opInterrupted 9).answers 7 .opInterrupted 9 ∧ selected.completes :=
  ⟨witness_dmiWordOf.1, ready_starts _, ready_linked _, by simp [round_recovers], by decide, answers_answer _ _, trivial⟩

theorem witness_DmiWordIsBounded : dmiWordOf lk.A (.dmiNop 0 0) 0 ∧ Linked (ready []) lk :=
  ⟨witness_dmiWordOf.1, ready_linked _⟩

/-! ### Captured words -/

theorem witness_StatusFailedResets : Starts (ready [selected, selected]) [] [selected, selected] [] ∧ selected.completes :=
  ⟨ready_starts _, trivial⟩

theorem witness_StatusInterruptedRecovers :
    (Linked (ready (round.recovery ++ quiet [9])) lk ∧ ({ ready [] with dmiTries := 1 } : State).dmiTries < vecParams.dmiRetryMax
      ∧ round.recovery.length = (recoveryActions lk (ready []).replayWord).length ∧ (∀ x ∈ round.recovery, x.completes)
      ∧ (answer .noError 9).answers 7 .noError 9)
    ∧ (vecParams.dmiRetryMax ≤ ({ ready [selected, selected] with dmiTries := 2 } : State).dmiTries ∧ selected.completes) :=
  ⟨⟨ready_linked _, by decide, rfl, by simp [round, selected, dtmcs, Reply.completes], answers_answer _ _⟩, by decide,
    trivial⟩

/-! ### Register words and commands -/

theorem witness_RegisterWordsWrite :
    (registerWrite vecParams .acsClear 0x16 0x700 ∧ registerWrite vecParams .autoexecSentinel 0x18 0xAAA
      ∧ registerWrite vecParams .autoexecArm 0x18 1 ∧ registerWrite vecParams .autoexecDisarm 0x18 0
      ∧ registerWrite vecParams (.dmcontrolHartsel 0xFFFFF) 0x10 0x03FFFFC0
      ∧ registerWrite vecParams (.csrrsX1 0xFFF) 0x20 0xFFF020F3 ∧ registerWrite vecParams .ebreak 0x21 0x00100073)
    ∧ Starts (elsewhere (selected :: quiet [0])) [selected] [answer .noError 0] []
    ∧ (answer .noError 0).answers 7 .noError 0 := by
  refine ⟨?_, elsewhere_starts _, answers_answer _ _⟩
  refine ⟨by simp [registerWrite], by simp [registerWrite], by simp [registerWrite], by simp [registerWrite], ?_, ?_,
    by simp [registerWrite]⟩
  · exact .inr (.inr (.inr (.inr (.inl ⟨0xFFFFF, rfl, rfl, by decide⟩))))
  · exact .inr (.inr (.inr (.inr (.inr (.inl ⟨0xFFF, rfl, rfl, by decide⟩)))))

theorem witness_commandOf : commandOf (.arRead 0xFFFF) 0x0022FFFF ∧ commandOf (.arWrite 0) 0x00230000
    ∧ commandOf (.arReadPostinc 0x1001) 0x002A1001 ∧ commandOf (.arWritePostinc 0x1001) 0x002B1001
    ∧ commandOf .arPostexec 0x00241000 :=
  ⟨.inl ⟨_, .inl ⟨rfl, by decide⟩⟩, .inl ⟨_, .inr (.inl ⟨rfl, by decide⟩)⟩,
    .inl ⟨_, .inr (.inr (.inl ⟨rfl, by decide⟩))⟩, .inl ⟨_, .inr (.inr (.inr ⟨rfl, by decide⟩))⟩, .inr ⟨rfl, rfl⟩⟩

theorem witness_CommandWordsRun : commandOf (.arRead 0xFFFF) 0x0022FFFF
    ∧ Starts (elsewhere (selected :: quiet (longCommand 0x02000002).data)) [selected] (quiet (longCommand 0x02000002).data) []
    ∧ Quiet 7 (quiet (longCommand 0x02000002).data) (longCommand 0x02000002).data
    ∧ (longCommand 0x02000002).Ends vecParams .none :=
  ⟨witness_commandOf.1, elsewhere_starts _, quiet_quiet _, longCommand_none⟩

theorem witness_CommandExceptionIsMapped : commandOf .arPostexec 0x00241000
    ∧ Starts (ready (quiet ((longCommand 0x02000302).data ++ [9]))) [] (quiet ((longCommand 0x02000302).data ++ [9])) []
    ∧ Quiet 7 (quiet ((longCommand 0x02000302).data ++ [9])) ((longCommand 0x02000302).data ++ [9])
    ∧ (longCommand 0x02000302).Ends vecParams .exception :=
  ⟨witness_commandOf.2.2.2.2, ready_starts _, quiet_quiet _, longCommand_exception⟩

/-- A captured word with busy clear, and one with busy set. -/
def idleAcs : AcsFields := ⟨2, false, 2⟩
def busyAcs : AcsFields := ⟨2, true, 2⟩

theorem witness_CmderrNoneSucceeds : idleAcs.busy = false := by decide

theorem witness_CmderrSurfaces : (surfaced idleAcs (.cmderrNotSupported idleAcs) .notSupported
      ∧ surfaced idleAcs (.cmderrReserved idleAcs) .other ∧ surfaced idleAcs (.cmderrOther idleAcs) .other)
    ∧ idleAcs.busy = false ∧ Starts (elsewhere (selected :: quiet [9])) [selected] [answer .noError 9] []
    ∧ (answer .noError 9).answers 7 .noError 9 :=
  ⟨by simp [surfaced], rfl, elsewhere_starts _, answers_answer _ _⟩

theorem witness_CmderrBusyReissues :
    (idleAcs.busy = false ∧ Starts (ready (quiet (9 :: command.data))) [] (quiet (9 :: command.data)) []
      ∧ Quiet 7 (quiet (9 :: command.data)) (9 :: command.data) ∧ Rejected vecParams command.rejected
      ∧ command.last.poll.Ends vecParams ∧ acsCmderr command.last.poll.acs = .none
      ∧ ({ ready [] with busyTries := 1 } : State).busyTries + command.rejected.length < vecParams.busyRetryMax)
    ∧ ((answer .noError 9).answers 7 .noError 9
      ∧ vecParams.busyRetryMax ≤ ({ ready (quiet [9]) with busyTries := 2 } : State).busyTries) :=
  ⟨⟨rfl, ready_starts _, quiet_quiet _, command_ends.1, command_ends.2.2.1, rfl, by decide⟩, answers_answer _ _, by decide⟩

theorem witness_CmderrWaitsWhileBusy :
    (cmderrWord busyAcs (.cmderrOther busyAcs) ∧ busyAcs.busy = true ∧ Starts (ready (quiet longPoll.data)) [] (quiet longPoll.data) []
      ∧ Quiet 7 (quiet longPoll.data) longPoll.data ∧ (∀ b ∈ longPoll.busy, acsBusy b.2 = true)
      ∧ (ready []).polls + longPoll.busy.length < vecParams.pollMax ∧ acsBusy longPoll.acs = false
      ∧ acsCmderr longPoll.acs = .none)
    ∧ vecParams.pollMax ≤ ({ ready [] with polls := 4 } : State).polls :=
  ⟨⟨by simp [cmderrWord], rfl, ready_starts _, quiet_quiet _, by simp [longPoll, busy_word], by decide, by decide, by decide⟩, by decide⟩

/-! ### Requests -/

theorem witness_WrongPhaseIsTurnedAway :
    (isRequest (.hostReadRegs 0x1001 1) = true ∧ ¬ Admitted (.hostReadRegs 0x1001 1) (fresh []))
    ∧ (isRequest (.hostAttach 0) = true ∧ ¬ Admitted (.hostAttach 0) (ready [])) := by
  simp [isRequest, Admitted, fresh, ready, State.reset]

/-- A request and a lone word that run to a next state: the hypothesis of OneResponsePerRequest,
NothingAfterTransportFailure, EveryInstructionFrame and SequencerFrame, whose groups of instructions are witnessed above. -/
theorem witness_exec_next : (∃ t, exec .hostDetach (ready []) = .next t) ∧ ∃ t, exec .irDmi (fresh [selected]) = .next t :=
  ⟨⟨_, rfl⟩, _, rfl⟩

theorem witness_DmiRequests :
    (Starts (ready (quiet [0, 9])) [] (quiet [0, 9]) [] ∧ Quiet 7 (quiet [0, 9]) [0, 9])
    ∧ Starts (elsewhere (selected :: quiet [9])) [selected] (quiet [9]) [] ∧ Quiet 7 (quiet [9]) [9] :=
  ⟨⟨ready_starts _, quiet_quiet _⟩, elsewhere_starts _, quiet_quiet _⟩

theorem witness_RunRequestSucceeds :
    Starts (ready (quiet (longCommand 0x02000002).data)) [] (quiet (longCommand 0x02000002).data) []
    ∧ Quiet 7 (quiet (longCommand 0x02000002).data) (longCommand 0x02000002).data
    ∧ (longCommand 0x02000002).Ends vecParams .none :=
  ⟨ready_starts _, quiet_quiet _, longCommand_none⟩

theorem witness_RunRequestSurfacesError :
    Starts (ready (quiet ((longCommand 0x02000302).data ++ [9]))) [] (quiet ((longCommand 0x02000302).data ++ [9])) []
    ∧ Quiet 7 (quiet ((longCommand 0x02000302).data ++ [9])) ((longCommand 0x02000302).data ++ [9])
    ∧ (longCommand 0x02000302).Ends vecParams .exception ∧ (longCommand 0x02000202).Ends vecParams .notSupported
    ∧ (longCommand 0x02000402).Ends vecParams .haltResume ∧ (longCommand 0x02000502).Ends vecParams .bus
    ∧ (longCommand 0x02000602).Ends vecParams .reserved ∧ (longCommand 0x02000702).Ends vecParams .other := by
  exact ⟨ready_starts _, quiet_quiet _, longCommand_exception, longCommand_ends (by decide), longCommand_ends (by decide),
    longCommand_ends (by decide), longCommand_ends (by decide), longCommand_ends (by decide)⟩

theorem witness_RunRequestCeilings :
    (Starts (ready (quiet (rejectedData (List.replicate 3 (busyAttempt, 0))))) []
        (quiet (rejectedData (List.replicate 3 (busyAttempt, 0)))) []
      ∧ Quiet 7 (quiet (rejectedData (List.replicate 3 (busyAttempt, 0)))) (rejectedData (List.replicate 3 (busyAttempt, 0)))
      ∧ Rejected vecParams (List.replicate 3 (busyAttempt, 0))
      ∧ (List.replicate 3 (busyAttempt, (0 : Word))).length = vecParams.busyRetryMax + 1)
    ∧ Starts (ready (quiet (0 :: (List.replicate 4 ((0 : Word), (0x02001002 : Word))).flatMap fun b => [b.1, b.2]))) []
        (quiet (0 :: (List.replicate 4 ((0 : Word), (0x02001002 : Word))).flatMap fun b => [b.1, b.2])) []
    ∧ Quiet 7 (quiet (0 :: (List.replicate 4 ((0 : Word), (0x02001002 : Word))).flatMap fun b => [b.1, b.2]))
        (0 :: (List.replicate 4 ((0 : Word), (0x02001002 : Word))).flatMap fun b => [b.1, b.2])
    ∧ (∀ b ∈ List.replicate 4 ((0 : Word), (0x02001002 : Word)), acsBusy b.2 = true)
    ∧ (List.replicate 4 ((0 : Word), (0x02001002 : Word))).length = vecParams.pollMax := by
  exact ⟨⟨ready_starts _, quiet_quiet _, rejected_replicate 3, rfl⟩, ready_starts _, quiet_quiet _, by simp [busy_word], rfl⟩

theorem witness_RegisterRunsAreValidated : (ready []).phase = .ready
    ∧ (0 < 2 ∧ 0x10000 < (0xFFFF : BitVec 16).toNat + 2)
    ∧ (0 < [5, 6].length ∧ 0x10000 < (0xFFFF : BitVec 16).toNat + [5, 6].length) := by decide

theorem witness_ReadRegsNoneMode :
    ([oneRead 9] ≠ [] ∧ (0xFFFF : BitVec 16).toNat + [oneRead 9].length ≤ 0x10000 ∧ [oneRead 9].length = 1
      ∧ Starts (ready (quiet ([oneRead 9].flatMap OneRead.data))) [] (quiet ([oneRead 9].flatMap OneRead.data)) []
      ∧ ∀ q ∈ [oneRead 9], q.command.Ends vecParams .none)
    ∧ ((plain []).autoexecSupported = some false ∧ (0xFFFE : BitVec 16).toNat + [oneRead 9, oneRead 8].length ≤ 0x10000
      ∧ Starts (plain (quiet ([oneRead 9, oneRead 8].flatMap OneRead.data))) []
        (quiet ([oneRead 9, oneRead 8].flatMap OneRead.data)) []
      ∧ ∀ q ∈ [oneRead 9, oneRead 8], q.command.Ends vecParams .none) :=
  ⟨⟨nofun, by decide, rfl, ready_starts _, by simp [oneRead, command_ends]⟩, rfl, by decide, plain_starts _,
    by simp [oneRead, command_ends]⟩

theorem witness_WriteRegsNoneMode :
    ([((9 : Word), oneWrite)] ≠ [] ∧ (0xFFFF : BitVec 16).toNat + [((9 : Word), oneWrite)].length ≤ 0x10000
      ∧ Starts (ready (quiet oneWrite.data)) [] (quiet oneWrite.data) []
      ∧ ∀ q ∈ [((9 : Word), oneWrite)], q.2.command.Ends vecParams .none)
    ∧ ((plain []).autoexecSupported = some false
      ∧ Starts (plain (quiet (oneWrite.data ++ oneWrite.data))) [] (quiet (oneWrite.data ++ oneWrite.data)) []
      ∧ ∀ q ∈ [((9 : Word), oneWrite), (8, oneWrite)], q.2.command.Ends vecParams .none) :=
  ⟨⟨nofun, by decide, ready_starts _, by simp [oneWrite, command_ends]⟩, rfl, plain_starts _,
    by simp [oneWrite, command_ends]⟩

/-- The steps of a batch read; the poll after the last one may end with a code (R152). -/
def batchStep (v : Word) : BatchStep := ⟨0, v, longPoll⟩
def trailingStep : BatchStep := ⟨0, 2, ⟨[], 0, 0x02000302⟩⟩

theorem witness_ReadRegsBatch :
    [batchStep 1] ≠ [] ∧ (0xFFFE : BitVec 16).toNat + [batchStep 1].length + 1 ≤ 0x10000
    ∧ (ready []).autoexecSupported = some true
    ∧ Starts (ready (quiet (command.data ++ 0 :: batchReadData ([batchStep 1] ++ [trailingStep]) ++ [7] ++ [0]))) []
      (quiet (command.data ++ 0 :: batchReadData ([batchStep 1] ++ [trailingStep]) ++ [7] ++ [0])) []
    ∧ Quiet 7 (quiet (command.data ++ 0 :: batchReadData ([batchStep 1] ++ [trailingStep]) ++ [7] ++ [0]))
      (command.data ++ 0 :: batchReadData ([batchStep 1] ++ [trailingStep]) ++ [7] ++ [0])
    ∧ command.Ends vecParams .none
    ∧ (∀ q ∈ [batchStep 1], q.poll.Ends vecParams ∧ acsCmderr q.poll.acs = .none)
    ∧ trailingStep.poll.Ends vecParams
    ∧ [(7 : Word)].length = (clearWords 7 (acsCmderr trailingStep.poll.acs)).length :=
  ⟨nofun, by decide, rfl, ready_starts _, quiet_quiet _, command_ends, by simp [batchStep, longPoll_ends],
    poll_ends (by decide) _ (.inl rfl), by decide⟩

theorem witness_WriteRegsBatch :
    [((6 : Word), (0 : Word), longPoll)] ≠ [] ∧ (0xFFFE : BitVec 16).toNat + 1 + 1 ≤ 0x10000
    ∧ (ready []).autoexecSupported = some true
    ∧ Starts (ready (quiet (0 :: command.data ++ 0 :: batchWriteData [(6, 0, longPoll)] ++ [0]))) []
      (quiet (0 :: command.data ++ 0 :: batchWriteData [(6, 0, longPoll)] ++ [0])) []
    ∧ Quiet 7 (quiet (0 :: command.data ++ 0 :: batchWriteData [(6, 0, longPoll)] ++ [0]))
      (0 :: command.data ++ 0 :: batchWriteData [(6, 0, longPoll)] ++ [0])
    ∧ command.Ends vecParams .none
    ∧ ∀ q ∈ [((6 : Word), (0 : Word), longPoll)], q.2.2.Ends vecParams ∧ acsCmderr q.2.2.acs = .none :=
  ⟨nofun, by decide, rfl, ready_starts _, quiet_quiet _, command_ends, by simp [longPoll_ends]⟩

theorem witness_BatchAlwaysDisarms :
    (∃ t, exec (.hostReadRegs 0xFFFE 2) (ready [answer .opFailed 0, selected, selected, selected, answer .noError 0]) = .next t
      ∧ t.result = some (.err (.dmiOperationFailed 2)))
    ∧ (1 < 2 ∧ (0xFFFE : BitVec 16).toNat + 2 ≤ 0x10000 ∧ (ready []).addressBits = some lk.abits
      ∧ (ready []).autoexecSupported = some true)
    ∧ ∃ t, exec (.hostWriteRegs 0xFFFE [1, 2]) (ready (answer .opFailed 0 :: selected :: selected :: selected :: quiet [0]))
        = .next t ∧ t.result = some (.err (.dmiOperationFailed 2)) :=
  ⟨⟨_, rfl, by decide⟩, by decide, _, rfl, by decide⟩

theorem witness_BatchStopsAtError :
    [batchStep 1].length + 1 < 3 ∧ (0xFFFD : BitVec 16).toNat + 3 ≤ 0x10000
    ∧ (ready []).autoexecSupported = some true ∧ command.Ends vecParams .none
    ∧ Starts (ready (quiet (command.data ++ 0 :: batchReadData ([batchStep 1] ++ [trailingStep]) ++ [0, 0]))) []
      (quiet (command.data ++ 0 :: batchReadData ([batchStep 1] ++ [trailingStep]) ++ [0, 0])) []
    ∧ Quiet 7 (quiet (command.data ++ 0 :: batchReadData ([batchStep 1] ++ [trailingStep]) ++ [0, 0]))
      (command.data ++ 0 :: batchReadData ([batchStep 1] ++ [trailingStep]) ++ [0, 0])
    ∧ (∀ q ∈ [batchStep 1], q.poll.Ends vecParams ∧ acsCmderr q.poll.acs = .none)
    ∧ trailingStep.poll.Ends vecParams ∧ acsCmderr trailingStep.poll.acs ≠ .none :=
  ⟨by decide, by decide, rfl, command_ends, ready_starts _, quiet_quiet _, by simp [batchStep, longPoll_ends],
    poll_ends (by decide) _ (.inl rfl), by decide⟩

/-- The write of a batch whose poll ends with a code (R149). -/
def trailingWrite : Word × Word × Poll := (7, 0, trailingStep.poll)

theorem witness_BatchStopsAtError_write :
    (0xFFFC : BitVec 16).toNat + ([((6 : Word), (0 : Word), longPoll)].length + [(8 : Word)].length + 2) ≤ 0x10000
    ∧ Starts (ready (quiet (0 :: command.data ++ 0 :: batchWriteData ([(6, 0, longPoll)] ++ [trailingWrite]) ++ [0, 0]))) []
      (quiet (0 :: command.data ++ 0 :: batchWriteData ([(6, 0, longPoll)] ++ [trailingWrite]) ++ [0, 0])) []
    ∧ Quiet 7 (quiet (0 :: command.data ++ 0 :: batchWriteData ([(6, 0, longPoll)] ++ [trailingWrite]) ++ [0, 0]))
      (0 :: command.data ++ 0 :: batchWriteData ([(6, 0, longPoll)] ++ [trailingWrite]) ++ [0, 0])
    ∧ (ready []).autoexecSupported = some true ∧ command.Ends vecParams .none
    ∧ (∀ q ∈ [((6 : Word), (0 : Word), longPoll)], q.2.2.Ends vecParams ∧ acsCmderr q.2.2.acs = .none)
    ∧ trailingWrite.2.2.Ends vecParams ∧ acsCmderr trailingWrite.2.2.acs ≠ .none :=
  ⟨by decide, ready_starts _, quiet_quiet _, rfl, command_ends, by simp [longPoll_ends],
    poll_ends (by decide) _ (.inl rfl), by decide⟩

theorem witness_ReadCsrChecks :
    ({ ready [] with progbufCsrEnabled := some false } : State).progbufCsrEnabled = some false
    ∧ ((ready []).progbufCsrEnabled = some true ∧ 0xFFF < 0x1000)
    ∧ ({ ready [] with harts := [] } : State).harts = []
    ∧ (max ([] : List Word).length 31 ≤ 31 ∧ ∀ h, (fresh []).currentHart = some h → (fresh []).harts.length ≤ h)
    ∧ ∀ h, ({ ready [] with currentHart := some 1 } : State).currentHart = some h → (ready []).harts.length ≤ h :=
  ⟨rfl, ⟨rfl, by decide⟩, rfl, ⟨by decide, nofun⟩, fun _ e => by cases e; decide⟩

theorem witness_ReadCsrRequest :
    0xFFF ≤ 0xFFF ∧ (ready []).currentHart = some 0 ∧ 0 < (ready []).harts.length ∧ (ready []).impebreak = some true
    ∧ (ready []).progbufCsrEnabled = some true ∧ [(0 : Word)].length = (if true then 1 else 2)
    ∧ [(0 : Word), 0].length = (if false then 1 else 2)
    ∧ Starts (ready (quiet ([0] ++ (oneRead 9).data ++ command.data ++ (oneRead 8).data ++ oneWrite.data))) []
      (quiet ([0] ++ (oneRead 9).data ++ command.data ++ (oneRead 8).data ++ oneWrite.data)) []
    ∧ Quiet 7 (quiet ([0] ++ (oneRead 9).data ++ command.data ++ (oneRead 8).data ++ oneWrite.data))
      ([0] ++ (oneRead 9).data ++ command.data ++ (oneRead 8).data ++ oneWrite.data)
    ∧ command.Ends vecParams .none :=
  ⟨by decide, rfl, by decide, rfl, rfl, rfl, rfl, ready_starts _, quiet_quiet _, command_ends⟩

theorem witness_ReadCsrRestoresOnError :
    (longCommand 0x02000302).Ends vecParams .exception ∧ classify .exception = .fail .exception
    ∧ Starts (ready (quiet ([0] ++ (oneRead 9).data ++ (longCommand 0x02000302).data ++ [0] ++ oneWrite.data))) []
      (quiet ([0] ++ (oneRead 9).data ++ (longCommand 0x02000302).data ++ [0] ++ oneWrite.data)) []
    ∧ 0xFFF ≤ 0xFFF ∧ (ready []).currentHart = some 0 ∧ 0 < (ready []).harts.length
    ∧ (ready []).impebreak = some true ∧ (ready []).progbufCsrEnabled = some true
    ∧ [(0 : Word)].length = (if true then 1 else 2)
    ∧ Quiet 7 (quiet ([0] ++ (oneRead 9).data ++ (longCommand 0x02000302).data ++ [0] ++ oneWrite.data))
      ([0] ++ (oneRead 9).data ++ (longCommand 0x02000302).data ++ [0] ++ oneWrite.data)
    ∧ oneWrite.command.Ends vecParams .none ∧ (oneRead 9).command.Ends vecParams .none :=
  ⟨longCommand_exception, rfl, ready_starts _, by decide, rfl, by decide, rfl, rfl, rfl, quiet_quiet _, command_ends,
    command_ends⟩

theorem witness_SelectHartRequest :
    (fresh []).phase ≠ .ready ∧ (ready []).harts.length ≤ 1
    ∧ ((ready (quiet [0])).harts[0]? = some (newHart 0) ∧ Starts (ready (quiet [0])) [] [answer .noError 0] []
      ∧ (answer .noError 0).answers 7 .noError 0)
    ∧ ∃ t, exec (.hostSelectHart 0) (ready [answer .opFailed 0, selected, selected]) = .next t
      ∧ t.result = some (.err (.dmiOperationFailed 2)) :=
  ⟨by decide, by decide, ⟨rfl, ready_starts _, answers_answer _ _⟩, _, rfl, by decide⟩

theorem witness_DetachRequest : (ready []).phase = .ready ∧ (fresh []).phase ≠ .ready := by decide

/-- P1: two harts, then candidate 2 ends the scan. -/
theorem witness_AttachRequest :
    (fresh p1Replies).phase = .detached
    ∧ (fresh p1Replies).replies = [selected, dtmcs 0x00005071, selected, dtmcs 0x00005071, selected]
      ++ quiet ([0, 0x00000082, 0, 0, 0, 2, 0, 0, 0, 0, 0, 0, 0x000000C0]
        ++ scanData ([⟨0, 0, 0x00000082⟩, ⟨0, 0, 0x00000082⟩] ++ [⟨0, 0, 0x00004082⟩])) ++ []
    ∧ (unpackBytes 32 (capture ((0x00005071 : Word).setWidth 97)).toList).setWidth 32 = (0x00005071 : Word)
    ∧ Quiet lk.A (quiet ([0, 0x00000082, 0, 0, 0, 2, 0, 0, 0, 0, 0, 0, 0x000000C0]
        ++ scanData ([⟨0, 0, 0x00000082⟩, ⟨0, 0, 0x00000082⟩] ++ [⟨0, 0, 0x00004082⟩])))
      ([0, 0x00000082, 0, 0, 0, 2, 0, 0, 0, 0, 0, 0, 0x000000C0]
        ++ scanData ([⟨0, 0, 0x00000082⟩, ⟨0, 0, 0x00000082⟩] ++ [⟨0, 0, 0x00004082⟩]))
    ∧ hartselDecode .doc 0x000000C0 = 3 ∧ selected.completes
    ∧ lk.abits = (0x00005071 : Word).extractLsb' 4 6 ∧ lk.idle = (0x00005071 : Word).extractLsb' 12 3
    ∧ resolveVersion (dmstatusVersion 0x00000082) (dtmcsVersion 0x00005071) = .v0_13
    ∧ (0x00000082 : Word).getLsbD 7 = true
    ∧ capabilitiesValid (acsFields 2).datacount (acsFields 2).progbufsize ((0x00000082 : Word).getLsbD 22) = true :=
  ⟨rfl, rfl, by decide, quiet_quiet _, by decide, trivial, by decide, by decide, by decide, by decide, by decide⟩

/-- The two ways a scan ends: at a nonexistent candidate, and at the limit (here both limits, with a width of 7). -/
theorem witness_ScanEnds :
    ScanEnds vecParams 3 [⟨0, 0, 0x00000082⟩, ⟨0, 0, 0x00000082⟩] [⟨0, 0, 0x00004082⟩]
    ∧ ScanEnds vecParams 7 (List.replicate 8 ⟨0, 0, 0x00000082⟩) [] := by
  refine ⟨⟨?_, by decide, ?_⟩, ?_, by decide, ?_⟩
  · simp; decide
  · rw [if_neg (by decide)]; exact ⟨_, rfl, by decide⟩
  · simp; decide
  · rw [if_pos (by decide)]

theorem witness_AttachIsAllOrNothing : (fresh []).phase = .detached := rfl

/-- N2, N5, and N6 to N9. -/
theorem witness_AttachRefusals :
    ((fresh ([selected, dtmcs 0x00005071, selected, selected, selected] ++ quiet [0, 0x00000081])).replies
        = [selected, dtmcs 0x00005071, selected, selected, selected] ++ quiet [0, 0x00000081] ++ []
      ∧ resolveVersion (dmstatusVersion 0x00000081) (dtmcsVersion 0x00005071) ≠ .v0_13)
    ∧ (resolveVersion (dmstatusVersion 0x00400002) (dtmcsVersion 0x00005071) = .v0_13
      ∧ (0x00400002 : Word).getLsbD 7 = false)
    ∧ (acsFields 0x02000000).datacount.toNat < 1 ∧ 12 < (acsFields 0x0200000D).datacount.toNat
    ∧ 16 < (acsFields 0x11000002).progbufsize.toNat
    ∧ ((acsFields 0x01000002).progbufsize = 1 ∧ (0x00000082 : Word).getLsbD 22 = false)
    ∧ Quiet lk.A (quiet [0, 0x00000082, 0, 0, 0, 0x01000002]) [0, 0x00000082, 0, 0, 0, 0x01000002] :=
  ⟨⟨rfl, by decide⟩, by decide, by decide, by decide, by decide, by decide, quiet_quiet _⟩

/-- Both cases of ReadySessionIsKept and of NothingAfterTransportFailure. -/
theorem witness_ReadySessionIsKept :
    (∃ t, exec (.hostSelectHart 0) (ready (quiet [0])) = .next t ∧ t.result = some (.ok .unit))
    ∧ ∃ t, exec (.hostSelectHart 0) (ready [.failed]) = .next t ∧ t.result = some (.err .transportFailure) :=
  ⟨⟨_, rfl, rfl⟩, _, rfl, rfl⟩

theorem witness_HartTableIsKept :
    ∃ t, exec (.hostReadCsrProgbuf 0x1000) (ready []) = .next t ∧ t.result ≠ some (.err .transportFailure)
      ∧ (ready []).harts[0]? = some (newHart 0) ∧ t.harts[0]? = some (newHart 0) :=
  ⟨_, rfl, by decide, rfl, rfl⟩

theorem witness_LowerPortActions : (∀ w, Instr.hostDetach ≠ .hostAttach w)
    ∧ ∃ t, exec .hostDetach (ready []) = .next t := ⟨nofun, _, rfl⟩

/-- Each clause of the cleanup rule: the body and the cleanup succeed, fail, and fail with TransportFailure; and both
values of `primary_error` that the last clause allows. -/
theorem witness_CleanupPriority :
    (∃ t, (raise .transportFailure : Op Value) ((ready []).pushPending .disarm) = .error (.err .transportFailure) t)
    ∧ (∃ t u v, t.primaryError = none ∧ (pure .unit : Op Value) ((ready []).pushPending .disarm) = .ok .unit t
      ∧ (pure () : Op Unit) t.popPending = .ok () u
      ∧ (raise .invalidRequest : Op Unit) t.popPending = .error (.err .invalidRequest) v)
    ∧ (∃ t u v w, t.primaryError = none
      ∧ (raise .invalidRequest : Op Value) ((ready []).pushPending .disarm) = .error (.err .invalidRequest) t
      ∧ (pure () : Op Unit) { t.popPending with primaryError := some .invalidRequest } = .ok () u
      ∧ (raise .noCurrentHart : Op Unit) { t.popPending with primaryError := some .invalidRequest }
        = .error (.err .noCurrentHart) v
      ∧ (raise .transportFailure : Op Unit) { t.popPending with primaryError := some .invalidRequest }
        = .error (.err .transportFailure) w)
    ∧ (∃ t, t.primaryError = some .invalidRequest ∧ (raise .invalidRequest : Op Value)
        (({ ready [] with primaryError := some .invalidRequest } : State).pushPending .disarm)
        = .error (.err .invalidRequest) t)
    ∧ Error.invalidRequest ≠ .transportFailure ∧ Error.noCurrentHart ≠ .transportFailure :=
  ⟨⟨_, rfl⟩, ⟨_, _, _, rfl, rfl, rfl, rfl⟩, ⟨_, _, _, _, rfl, rfl, rfl, rfl, rfl⟩, ⟨_, rfl, rfl⟩, nofun, nofun⟩

end Sys2Proof.Tests
end

section
/-! SUPPORT. How a lone DMI word, and a captured OP_INTERRUPTED, run to their end: the capture that is recorded, and the
soft reset before an error (40_dmi_transaction.md R95 to R100). -/

namespace Sys2Proof.Machine

variable {lk : Link} {α : Type}

/-! ## Words and the operation they run -/

/-- The word of a request instruction is one encoding, and the instruction shifts it (R69, R91). -/
theorem exec_dmiWord {A : Nat} {i : Instr} {w : DmiWord} (h : dmiWordOf A i w) :
    ∃ (op : BitVec 2) (a : Nat) (d : Word),
      w = dmiEncode op a d A ∧ ∀ s, exec i s = shiftWord (dmiEncode op a d) s := by
  rcases h with ⟨a, d, rfl, rfl⟩ | ⟨a, d, rfl, rfl⟩ | ⟨a, d, rfl, rfl⟩
  · exact ⟨0, a.toNat, d, rfl, fun _ => rfl⟩
  · exact ⟨1, a.toNat, d, rfl, fun _ => rfl⟩
  · exact ⟨2, a.toNat, d, rfl, fun _ => rfl⟩

/-- A DMI shift has no width where `address_bits` holds no value (R16, R95). -/
theorem shiftWord_noWidth (cmd : Nat → DmiWord) {s : State} (h : s.addressBits = none) :
    shiftWord cmd s = .fault (.unwrittenRead .addressBits) := by
  have hb : beginShift cmd (s.moveTo ⟨95, 1⟩)
      = .error (.fault (.unwrittenRead .addressBits)) (s.moveTo ⟨95, 1⟩) :=
    bind_error _ (addressWidth_none h)
  have hs : dmiShift cmd s = .error (.fault (.unwrittenRead .addressBits)) ((s.moveTo ⟨95, 1⟩).backTo s.label) :=
    bind_error _ (line_error hb)
  exact runWord_of_fault (bind_error _ hs)

/-- The capture of a captured word is classified for the DMI shift in force (R107). -/
theorem classifyCapture_eq (st : DmiStatus) (data : Word) (s : State) :
    classifyCapture st data s
      = runWord (do let d ← dmiClassify s.recoveriesLeft (dmiResponse st data); pure (.word d)) s := rfl

/-! ## The end of a word -/

/-- A word whose shift comes to a capture answered NO_ERROR in the state `u`: the word in force is recorded and the data
is the result (R97). -/
theorem runWord_records {x again : Op Word} {s u : State} {r : Reply} {d : Word}
    (e : x s = onStatus again (r.value (dmiWidth lk.A)) u) (hr : r.answers lk.A .noError d) (hc : u.core = s.core) :
    ∃ t, runWord (do let d ← x; pure (.word d)) s = .next t ∧ t.trace = u.trace ∧ t.replies = u.replies
      ∧ t.irCurrent = u.irCurrent ∧ t.lastDmiCommand = some u.dmiCmd ∧ t.lastValid = true
      ∧ t.moves = u.moves ++ movesAt 95 [7, 8, 9] u.label ∧ SameButWire s t ∧ Ended s t (.ok (.word d)) := by
  have hv := hr.value
  have h : x s = .ok d (u.passed 95 [7, 8, 9]).recordSuccess := by
    rw [e, onStatus_noError _ _ _ hv.1, hv.2]
  exact ⟨_, runWord_of_ok (bind_ok _ h), rfl, rfl, rfl, rfl, rfl, rfl, { sameButWire_of_core hc with },
    ended_finish s _ _ (core_field hc State.hostOut)⟩

/-- A word that ends in an error other than TransportFailure in a Ready session (R180). -/
theorem runWord_fails {x : Op Word} {s u : State} {e : Error} {ls : List (Action × Reply)} {ms : List (List Line)}
    {rest : List Reply} (h : x s = .error (.err e) u) (he : e ≠ .transportFailure) (hp : s.phase = .ready)
    (P : Put s u ls ms rest) :
    ∃ t, runWord (do let d ← x; pure (.word d)) s = .next t ∧ t.trace = s.trace ++ ls ∧ t.replies = rest
      ∧ t.irCurrent = u.irCurrent ∧ SameReplay s t ∧ SameButWire s t ∧ Ended s t (.err e) := by
  have hu : u.phase = .ready := (core_field P.core State.phase).trans hp
  refine ⟨u.finish (.err e), ?_, P.trace, P.replies, rfl, ⟨P.last, P.valid⟩, { sameButWire_of_core P.core with },
    ended_finish s u _ (core_field P.core State.hostOut)⟩
  rw [runWord_of_error (bind_error _ h), sessionEffect_ready hu he]

/-! ## The ways out of an interrupted or a failed shift -/

/-- The two ways a DMI shift ends in an error of its own: lines passed, a soft reset, and the error (R99, R100). -/
theorem resetThenRaise_run (ns : List Nat) (m k : Nat) (e : Error) {s : State} {a b : Reply} {rest : List Reply}
    (h : s.replies = a :: b :: rest) (ha : a.completes) (hb : b.completes) :
    ∃ u, (do pass 95 ns; line 95 m softReset; line 95 k (raise e) : Op α) s = .error (.err e) u
      ∧ Put s u (softResetLines a b)
        (movesAt 95 ns s.label ++ movesAt 95 [m] s.label ++ movesAt 92 [1, 2] (⟨95, m⟩ :: s.label)
          ++ movesAt 95 [k] s.label) rest ∧ u.irCurrent = .dtmcs := by
  obtain ⟨t, e1, p1, i1⟩ := softReset_run (s := (s.passed 95 ns).moveTo ⟨95, m⟩) h ha hb
  obtain ⟨v, e2, p2, i2⟩ := put_line e1 p1
  have P := ((put_pass 95 ns h).trans p2).trans (put_pass 95 [k] p2.replies)
  refine ⟨v.passed 95 [k], ?_, ?_, i2.trans i1⟩
  · rw [pass_bind, bind_ok _ e2, passed_cons, passed_nil]
    exact line_error rfl
  · simpa [p2.label, movesAt] using P

/-- An interrupted capture, with no recovery left (R99). -/
theorem onStatus_exhausted {r : DmiWord} (h : dmiOp r = DmiStatus.opInterrupted.toBits) (s : State) :
    onStatus (dmiRetry 0) r s
      = (do pass 95 [10, 11]; line 95 12 softReset; line 95 13 (raise (.timeout .dmiRetry))) s := by
  unfold onStatus
  rw [h, ofBits_toBits]
  rfl

/-- With a recovery left, an interrupted capture leads to the recovery and the shift again, up to what the next capture
leads to (R98). -/
theorem dmiClassify_recovers (left : Nat) (w : DmiWord) (hw : dmiOp w = DmiStatus.opInterrupted.toBits) {s : State}
    (hk : Linked s lk) {mid rest : List Reply} {r : Reply} (h : s.replies = mid ++ r :: rest)
    (hl : mid.length = (recoveryActions lk s.replayWord).length) (hm : ∀ x ∈ mid, x.completes) (hr : r.completes) :
    ∃ u, dmiClassify (left + 1) w s = onStatus (dmiRetry left) (r.value (dmiWidth lk.A)) u
      ∧ Put s u ((recoveryActions lk s.replayWord).zip mid ++ [dmiLine lk.A s.dmiCmd r])
        (movesAt 95 [5, 6] s.label ++ recoveryMoves s.label) rest ∧ u.irCurrent = .dmi := by
  have P0 := put_pass 95 [5, 6, 10, 11] h
  obtain ⟨t, e1, P1, i1⟩ := recover_run (P0.linked hk) P0.replies hl hm
  have P := P0.trans P1
  obtain ⟨u, e2, P2, i2⟩ := shifts_rounds [] (P.linked hk) i1 (by simp) left hr P1.replies
  refine ⟨u, ?_, ?_, i2⟩
  · rw [dmiClassify_run, onStatus_interrupted _ hw, passed_passed]
    exact (bind_ok _ e1).trans e2
  · have Q := P.trans P2
    rw [P0.replayWord, P.cmd, P.label, P0.label] at Q
    simpa [roundLines, recoverMoves, recoveryMoves, movesAt] using Q

end Sys2Proof.Machine
end

section
/-! The statements about DMI words of the scope family (00_scope.md). -/

namespace Sys2Proof.Machine

/-- Settles O15: up to its first capture the shift is `dmiShift_first`, and NO_ERROR records the word. -/
theorem dmiWordsShift : Obligations.DmiWordsShift := by
  unfold Obligations.DmiWordsShift
  intro s lk i w d pre rest r hi ha hs hrep hr
  obtain ⟨op, a, v, rfl, he⟩ := exec_dmiWord hi
  obtain ⟨u, e, htr, hre, hir, hcmd, -, -, hla, hmo, hc⟩ :=
    dmiShift_first (dmiEncode op a v) hr.completes ha hs hrep
  obtain ⟨t, ht, ttr, tre, tir, tlast, tval, tmo, hsame, hend⟩ := runWord_records e hr hc
  refine ⟨t, (he s).trans ht, ⟨ttr.trans htr, tre.trans hre, ?_, tval, tir.trans hir⟩, ?_, hsame, hend⟩
  · rw [tlast, hcmd]
    rfl
  · rw [tmo, hmo, hla, List.append_assoc]

/-- Settles O18: the rounds of `dmiShift_rounds`, and the word recorded at the capture that ends them. -/
theorem interruptedShiftRetries : Obligations.InterruptedShiftRetries := by
  unfold Obligations.InterruptedShiftRetries
  intro s lk i w d pre rest qs r hi hk hs hrep hq hn hr
  obtain ⟨op, a, v, rfl, he⟩ := exec_dmiWord hi
  obtain ⟨u, e, htr, hre, hir, hcmd, -, -, hla, hmo, hc⟩ :=
    dmiShift_rounds (dmiEncode op a v) qs hk hq hn hr.completes hs hrep
  obtain ⟨t, ht, ttr, tre, tir, tlast, tval, tmo, hsame, hend⟩ := runWord_records e hr hc
  refine ⟨t, (he s).trans ht, ttr.trans htr, tre.trans hre, tir.trans hir, tlast.trans (by rw [hcmd]), tval, ?_, hsame,
    hend⟩
  rw [tmo, hmo, hla, List.append_assoc]

/-- Settles O23: with a recovery left the shift goes on to a capture that is recorded; with none left a soft
reset ends it. -/
theorem statusInterruptedRecovers : Obligations.StatusInterruptedRecovers := by
  unfold Obligations.StatusInterruptedRecovers
  constructor
  · intro s lk d v mid rest r hk hlt hrep hl hm hr
    obtain ⟨left, hleft⟩ : ∃ left, s.recoveriesLeft = left + 1 :=
      Nat.exists_eq_succ_of_ne_zero (Nat.sub_ne_zero_of_lt hlt)
    obtain ⟨u, e, P, hir⟩ := dmiClassify_recovers left _ (dmiOp_response _ d) hk hrep hl hm hr.completes
    obtain ⟨t, ht, ttr, tre, tir, tlast, tval, tmo, hsame, hend⟩ := runWord_records e hr P.core
    refine ⟨t, ?_, ttr.trans P.trace, tre.trans P.replies, tir.trans hir, tlast.trans (by rw [P.cmd]), tval, ?_, hsame,
      hend⟩
    · exact (classifyCapture_eq .opInterrupted d s).trans (hleft ▸ ht)
    · rw [tmo, P.moves, P.label]
      simp
  · intro s d rest a b hp hge hrep ha hb
    have hleft : s.recoveriesLeft = 0 := Nat.sub_eq_zero_of_le hge
    have P0 := put_pass 95 [5, 6] hrep
    obtain ⟨u, e, P, hir⟩ := resetThenRaise_run (α := Word) [10, 11] 12 13 (.timeout .dmiRetry) P0.replies ha hb
    have h : dmiClassify 0 (dmiResponse .opInterrupted d) s = .error (.err (.timeout .dmiRetry)) u := by
      rw [dmiClassify_run, onStatus_exhausted (dmiOp_response _ d), e]
    obtain ⟨t, ht, htr, hre, hti, hrest⟩ := runWord_fails h Error.noConfusion hp (P0.trans P)
    refine ⟨t, ?_, htr, hre, hti.trans hir, hrest⟩
    exact (classifyCapture_eq .opInterrupted d s).trans (hleft ▸ ht)

end Sys2Proof.Machine
end

section
/-! SUPPORT. The registers a step reads hold a value (00_scope.md R16, 70_reset_and_hazards.md R204): a property that
the wire does not concern holds across every operation, and no operation that starts from it stops with a fault. -/

namespace Sys2Proof.Machine

variable {α β : Type}

/-! ## Properties that hold across a run -/

/-- The property is kept. -/
def Carries (P : State → Prop) (s t : State) : Prop := P s → P t

theorem Carries.trans {P : State → Prop} {a b c : State} (h : Carries P a b) (g : Carries P b c) : Carries P a c :=
  fun ha => g (h ha)

/-- The replay word is written where one is recorded (R110). -/
def State.replayWritten (s : State) : Prop := s.lastValid = true → s.lastDmiCommand.isSome

/-- A DMI shift with its recoveries reads no register without a value (R95, R98, R110). -/
def Recoverable (s : State) : Prop := ∃ lk, Linked s lk

theorem recoverable_of {s t : State} (ha : t.addressBits = s.addressBits) (hi : t.idleCycles = s.idleCycles)
    (hr : s.replayWritten → t.replayWritten) : Carries Recoverable s t :=
  fun ⟨lk, h⟩ => ⟨lk, ha.trans h.abits, hi.trans h.idle, hr h.last⟩

/-- The property depends on the replay word and on what the wire does not concern. -/
def OffWire (P : State → Prop) : Prop :=
  ∀ s t : State, t.core = s.core → (s.replayWritten → t.replayWritten) → Carries P s t

theorem recoverable_offWire : OffWire Recoverable := fun _ _ hc hr =>
  recoverable_of (core_field hc State.addressBits) (core_field hc State.idleCycles) hr

variable {P : State → Prop}

/-- Such a property holds across cleanups, and where it makes a shift recoverable no read there stops the machine. -/
theorem cleanupFrame_carries (hP : OffWire P) (hR : ∀ s, P s → Recoverable s) :
    CleanupFrame (Carries P) (fun _ _ => True) (fun s => ¬ P s) where
  refl _ := id
  trans := Carries.trans
  fails _ _ := trivial
  stops h hn hp := hn (h hp)
  moved _ _ := hP _ _ rfl id
  back _ _ := hP _ _ rfl id
  backFailed _ _ := trivial
  issued _ _ _ _ _ := hP _ _ rfl id
  failed _ _ _ _ := trivial
  ir _ _ _ := hP _ _ rfl id
  noWidth s hs hp := by
    obtain ⟨lk, h⟩ := hR s hp
    simpa [hs] using h.abits
  noIdle s hs hp := by
    obtain ⟨lk, h⟩ := hR s hp
    simpa [hs] using h.idle
  noReplay s hv hs hp := by
    obtain ⟨lk, h⟩ := hR s hp
    simpa [hs] using h.last hv
  success _ := hP _ _ rfl fun _ _ => rfl
  begun _ _ _ := hP _ _ rfl id
  recovery _ := hP _ _ rfl id
  pushed _ _ := hP _ _ rfl id
  popped _ := hP _ _ rfl id
  held _ _ := hP _ _ rfl id

/-- Every register that a request or a word reads holds a value. -/
structure Readable (s : State) : Prop where
  link : Recoverable s
  autoexec : s.autoexecSupported.isSome
  impebreak : s.impebreak.isSome
  csrPath : s.progbufCsrEnabled.isSome

theorem readable_of {s t : State} (hl : Carries Recoverable s t) (ha : t.autoexecSupported = s.autoexecSupported)
    (hi : t.impebreak = s.impebreak) (hc : t.progbufCsrEnabled = s.progbufCsrEnabled) : Carries Readable s t :=
  fun h => ⟨hl h.link, ha ▸ h.autoexec, hi ▸ h.impebreak, hc ▸ h.csrPath⟩

theorem readable_offWire : OffWire Readable := fun s t hc hr =>
  readable_of (recoverable_offWire s t hc hr) (core_field hc State.autoexecSupported) (core_field hc State.impebreak)
    (core_field hc State.progbufCsrEnabled)

/-- No request but ATTACH, and no word, reads a register without a value where all are written. -/
theorem csrFrame_readable : CsrFrame (Carries Readable) (fun _ _ => True) (fun s => ¬ Readable s) where
  toCleanupFrame := cleanupFrame_carries readable_offWire fun _ h => h.link
  polled _ := readable_offWire _ _ rfl id
  polls _ := readable_offWire _ _ rfl id
  started _ _ := readable_offWire _ _ rfl id
  reissued _ := readable_offWire _ _ rfl id
  register _ _ := readable_offWire _ _ rfl id
  noAutoexec s hs h := by simpa [hs] using h.autoexec
  noImpebreak s hs h := by simpa [hs] using h.impebreak
  noCsrPath s hs h := by simpa [hs] using h.csrPath
  backup _ _ _ _ _ _ h := h.trans (readable_of (recoverable_of rfl rfl id) rfl rfl rfl)

/-- Nor does an ATTACH once its DTMCS read has written the two widths. -/
theorem attachFrame_recoverable : AttachFrame (Carries Recoverable) (fun _ _ => True) (fun s => ¬ Recoverable s) where
  toCleanupFrame := cleanupFrame_carries recoverable_offWire fun _ => id
  version _ _ := recoverable_of rfl rfl id
  impebreak _ _ := recoverable_of rfl rfl id
  capabilities _ _ := recoverable_of rfl rfl id
  csrPath _ _ := recoverable_of rfl rfl id
  autoexec _ _ := recoverable_of rfl rfl id
  phase _ _ := recoverable_of rfl rfl id
  hartsellen _ _ := recoverable_of rfl rfl id
  cleared _ := recoverable_of rfl rfl id
  candidate _ := recoverable_of rfl rfl id
  added _ _ := recoverable_of rfl rfl id
  current _ _ := recoverable_of rfl rfl id
  diagnosed _ _ := recoverable_of rfl rfl id

/-- A Ready session has every register that is read (R204). -/
theorem ReadySession.readable {s : State} (h : ReadySession s) : Readable s := by
  obtain ⟨w, hlast, a, ha, -⟩ := h.last
  obtain ⟨i, hi⟩ := Option.isSome_iff_exists.mp h.idleCycles
  obtain ⟨dc, pb, imp, -, -, himp, -, hcsr⟩ := h.capabilities
  exact
    { link := ⟨⟨a, i⟩, ha, hi, fun _ => by simp [hlast]⟩
      autoexec := h.autoexecSupported
      impebreak := by simp [himp]
      csrPath := by simp [hcsr] }

/-! ## Where a fault comes from -/

/-- A sequence that stops, stops in its first part or in what follows it. -/
theorem bind_error_inv {x : Op α} {f : α → Op β} {s u : State} {e : Stop} (h : (x >>= f) s = .error e u) :
    x s = .error e u ∨ ∃ a t, x s = .ok a t ∧ f a t = .error e u := by
  rw [bind_run] at h
  cases hx : x s with
  | ok a t => exact .inr ⟨a, t, rfl, by simpa [hx] using h⟩
  | error e' t => exact .inl (by simpa [hx] using h)

theorem line_error_inv {x : Op α} {s t : State} {e : Stop} {r n : Nat} (h : line r n x s = .error e t) :
    ∃ u, x (s.moveTo ⟨r, n⟩) = .error e u := by
  cases hx : x (s.moveTo ⟨r, n⟩) with
  | ok b u => rw [line_ok hx] at h; cases h
  | error e' u => rw [line_error hx] at h; cases h; exact ⟨u, rfl⟩

/-- A handler that raises no fault adds none (R114). -/
theorem onError_fault {handler : Error → Op Unit} {x : Op α} {s u : State} {f : Fault}
    (hh : ∀ e s, ∃ t, handler e s = .ok () t) (h : onError handler x s = .error (.fault f) u) :
    x s = .error (.fault f) u := by
  unfold onError at h
  cases hx : x s with
  | ok a t => simp [hx] at h
  | error e t =>
    cases e with
    | fault g => simpa [hx] using h
    | err e =>
      obtain ⟨v, hv⟩ := hh e t
      simp [hx, hv] at h

/-- A request whose body does not stop is served. -/
theorem serve_ne_fault {req : Instr} {body : Op Value} (h : ∀ s f t, body s ≠ .error (.fault f) t) (s : State)
    (f : Fault) : serve req body s ≠ .fault f := by
  intro hs
  cases hb : body (s.serving req) with
  | ok v t => rw [serve_of_ok hb] at hs; cases hs
  | error e t =>
    cases e with
    | err e => rw [serve_of_error hb] at hs; cases hs
    | fault g => exact h _ g t hb

/-! ## ATTACH -/

/-- Selections and DTMCS shifts read no register that may hold no value. -/
theorem txFrame_noRead : TxFrame (fun _ _ => True) (fun _ _ => True) (fun _ => False) where
  refl _ := trivial
  trans _ _ := trivial
  fails _ _ := trivial
  stops _ := id
  moved _ _ := trivial
  back _ _ := trivial
  backFailed _ _ := trivial
  issued _ _ _ _ _ := trivial
  failed _ _ _ _ := trivial
  ir _ _ _ := trivial

theorem sessionStart_ne_fault (s : State) (f : Fault) (t : State) : sessionStart s ≠ .error (.fault f) t := by
  have F := txFrame_noRead
  have K : Keeps (fun _ _ => True) (fun _ _ => True) (fun _ => False) sessionStart :=
    keeps_bind F.toRuns (F.line F.readDtmcs) fun d =>
      keeps_bind F.toRuns (by rw [writeDtmcs_eq]; exact F.passUpdate fun _ => trivial) fun _ => keeps_pure F.toRuns _
  exact K.stopped

/-- The DTMCS read writes the two widths and forgets the replay word (R115). -/
theorem sessionStart_recoverable {s t : State} {dtm : DebugVersion} (h : sessionStart s = .ok dtm t) :
    Recoverable t := by
  obtain ⟨d, u, -, h2⟩ := bind_ok_inv h
  rw [writeDtmcs_eq] at h2
  obtain ⟨_, v, h3, h4⟩ := bind_ok_inv h2
  simp only [pass_bind, update_run, pure_run, EStateM.Result.ok.injEq, true_and] at h3 h4
  obtain ⟨-, rfl⟩ := h4
  subst h3
  exact ⟨⟨dtmcsAbits d, dtmcsIdle d⟩, rfl, rfl, nofun⟩

theorem attachSteps_ne_fault (s : State) (f : Fault) (t : State) : attachSteps s ≠ .error (.fault f) t := by
  intro h
  rw [attachSteps_eq, pass_bind] at h
  rcases bind_error_inv h with h | ⟨dtm, u, h1, h2⟩
  · obtain ⟨_, hs⟩ := line_error_inv h
    exact sessionStart_ne_fault _ _ _ hs
  · obtain ⟨v, hv, rfl⟩ := line_ok_inv h1
    exact (attachFrame_recoverable.attachRest dtm).stopped h2
      (recoverable_of (s := v) rfl rfl id (sessionStart_recoverable hv))

theorem attach_ne_fault (idcode : Word) (s : State) (f : Fault) (t : State) :
    attach idcode s ≠ .error (.fault f) t := by
  intro h
  unfold attach at h
  rw [beginAttach_eq] at h
  rcases bind_error_inv h with h | ⟨_, u, -, h⟩
  · cases h
  rcases bind_error_inv h with h | ⟨n, v, -, h⟩
  · exact attachSteps_ne_fault _ _ _ (onError_fault (fun e s => ⟨_, by rw [attachFailure_eq]; rfl⟩) h)
  · cases h

/-! ## Instructions and steps -/

theorem startOf_core (s : State) (i : Instr) : (startOf s i).core = s.core := by
  unfold startOf
  split <;> rfl

theorem startOf_replayWritten (s : State) (i : Instr) (h : s.replayWritten) : (startOf s i).replayWritten := by
  unfold startOf
  split <;> exact h

/-- An instruction other than ATTACH stops at no read where every register is written. -/
theorem exec_ne_fault_of_readable {s : State} {i : Instr} (ha : ∀ w, i ≠ .hostAttach w) (hs : Readable s)
    (f : Fault) : exec i s ≠ .fault f := by
  intro h
  by_cases hd : i = .hostDetach
  · subst hd
    by_cases hp : s.phase = .ready
    · rw [exec_detach hp] at h; cases h
    · rw [exec_away (i := .hostDetach) rfl hp] at h; cases h
  have F : ExecFrame i (Carries Readable) (fun _ _ => True) (fun s => ¬ Readable s) :=
    .ofCsr csrFrame_readable fun _ _ _ _ h => h.trans (readable_of (recoverable_of rfl rfl id) rfl rfl rfl)
  rcases exec_ran ha hd F with ⟨-, -, e⟩ | ⟨-, ⟨u, r, -, e⟩ | ⟨g, -, hz⟩⟩
  · rw [e] at h; cases h
  · rw [e] at h; cases h
  · exact hz (readable_offWire s _ (startOf_core s i) (startOf_replayWritten s i) hs)

theorem exec_attach_ne_fault (idcode : Word) (s : State) (f : Fault) : exec (.hostAttach idcode) s ≠ .fault f := by
  by_cases hp : s.phase = .detached
  · rw [exec_attach idcode hp]
    exact serve_ne_fault (attach_ne_fault idcode) s f
  · rw [exec_away (i := .hostAttach idcode) rfl hp]
    nofun

/-- A request stops at no read where the session is gone, since only ATTACH is admitted (R88). -/
theorem exec_ne_fault_of_detached {s : State} {i : Instr} (hi : isRequest i = true) (hp : s.phase = .detached)
    (f : Fault) : exec i s ≠ .fault f := by
  by_cases ha : ∃ w, i = .hostAttach w
  · obtain ⟨w, rfl⟩ := ha
    exact exec_attach_ne_fault w s f
  · have hn : ¬ Admitted i s := by
      unfold Admitted
      split
      · next w => exact absurd ⟨w, rfl⟩ ha
      · simp [hp]
    rw [exec_away hi hn]
    nofun

theorem map_ok_inv {ε : Type} {f : α → β} {x : Except ε α} {b : β} (h : x.map f = .ok b) : ∃ a, b = f a := by
  cases x with
  | error e => cases h
  | ok a => cases h; exact ⟨a, rfl⟩

/-- The host port carries requests only (R88). -/
theorem isRequest_of_decodeHost {w : HostWord} {i : Instr} (h : decodeHost w = .ok i) : isRequest i = true := by
  unfold decodeHost at h
  split at h
  case h_1 | h_4 | h_5 | h_6 => obtain ⟨_, rfl⟩ := map_ok_inv h; rfl
  case h_7 =>
    split at h
    · cases h; rfl
    · cases h
  case h_10 => split at h <;> cases h
  all_goals cases h; rfl

/-- A step stops where the instruction it takes does: a lone word, or a request. -/
theorem step_fault_inv {s : State} {f : Fault} (h : step s = .fault f) :
    ∃ i, (s.wire ≠ none ∧ exec i s.takeWord = .fault f)
      ∨ (isRequest i = true ∧ exec i s.takeRequest = .fault f) := by
  unfold step fetch at h
  cases hw : s.wire with
  | some w =>
    simp only [hw] at h
    cases hd : decodeWire s.params s.fetchWidth w with
    | ok i => exact ⟨i, .inl ⟨nofun, by rw [hd] at h; exact h⟩⟩
    | error why => simp only [hd, Fetched.ofDecoded] at h; cases h
  | none =>
    simp only [hw] at h
    cases hq : s.hostQueue with
    | nil => simp only [hq] at h; cases h
    | cons w q =>
      simp only [hq] at h
      cases hd : decodeHost w with
      | ok i => exact ⟨i, .inr ⟨isRequest_of_decodeHost hd, by rw [hd] at h; exact h⟩⟩
      | error why => simp only [hd, Fetched.ofDecoded] at h; cases h

/-- No step from the invariant stops (R16, R204). -/
theorem step_ne_fault {s : State} (hs : MachineInv s) (f : Fault) : step s ≠ .fault f := by
  intro h
  obtain ⟨i, h⟩ := step_fault_inv h
  rcases hs.phase with ⟨hp, hw, -⟩ | ⟨-, hr⟩
  · rcases h with ⟨hn, -⟩ | ⟨hi, h⟩
    · exact hn hw
    · exact exec_ne_fault_of_detached (s := s.takeRequest) hi hp f h
  · have run : ∀ t, Carries Readable s t → exec i t ≠ .fault f := fun t ht => by
      by_cases ha : ∃ w, i = .hostAttach w
      · obtain ⟨w, rfl⟩ := ha
        exact exec_attach_ne_fault w t f
      · exact exec_ne_fault_of_readable (fun w hw => ha ⟨w, hw⟩) (ht hr.readable) f
    rcases h with ⟨-, h⟩ | ⟨-, h⟩
    · exact run s.takeWord (readable_of (recoverable_of rfl rfl id) rfl rfl rfl) h
    · exact run s.takeRequest (readable_of (recoverable_of rfl rfl id) rfl rfl rfl) h

/-- Settles O12: the invariant writes every register that is read, and a DMI word run alone reads its width first. -/
theorem noUnwrittenRead : Obligations.NoUnwrittenRead := by
  unfold Obligations.NoUnwrittenRead
  refine ⟨fun s f hs => step_ne_fault hs f, ?_⟩
  rintro s i hw ⟨a, d, rfl | rfl | rfl⟩
  all_goals exact shiftWord_noWidth _ hw

end Sys2Proof.Machine
end

section
/-! SUPPORT. What no instruction changes, and what only grows (00_scope.md R8, 10_state.md R36, R37). -/

namespace Sys2Proof.Machine

/-! ## The relation -/

/-- The parameters, the requests waiting and the lone word are what they were; the records of the two ports and of the
step label grow (logs 1, 3, 4, 8 and 16). -/
structure Grows (s t : State) : Prop where
  wire : t.wire = s.wire
  params : t.params = s.params
  hostQueue : t.hostQueue = s.hostQueue
  trace : s.trace <+: t.trace
  hostOut : s.hostOut <+: t.hostOut
  moves : s.moves <+: t.moves

/-- What the relation speaks of. -/
def State.ports (s : State) : Option WireWord × Params × List HostWord × List (Action × Reply) × List HostEvent
    × List (List Line) := (s.wire, s.params, s.hostQueue, s.trace, s.hostOut, s.moves)

theorem grows_of_ports {s t : State} (h : t.ports = s.ports) : Grows s t := by
  simp only [State.ports, Prod.mk.injEq] at h
  obtain ⟨hw, hp, hq, ht, ho, hm⟩ := h
  exact ⟨hw, hp, hq, by rw [ht], by rw [ho], by rw [hm]⟩

theorem Grows.trans {a b c : State} (h : Grows a b) (g : Grows b c) : Grows a c where
  wire := g.wire.trans h.wire
  params := g.params.trans h.params
  hostQueue := g.hostQueue.trans h.hostQueue
  trace := h.trace.trans g.trace
  hostOut := h.hostOut.trans g.hostOut
  moves := h.moves.trans g.moves

/-! The changes that add to a record. -/

theorem grows_moveTo (s : State) (l : Line) : Grows s (s.moveTo l) :=
  ⟨rfl, rfl, rfl, by rfl, by rfl, ⟨_, rfl⟩⟩

theorem grows_passed (s : State) (r : Nat) (ns : List Nat) : Grows s (s.passed r ns) :=
  ⟨rfl, rfl, rfl, by rfl, by rfl, ⟨_, rfl⟩⟩

theorem grows_issued (s : State) (a : Action) : Grows s (s.issued a) :=
  ⟨rfl, rfl, rfl, ⟨_, rfl⟩, by rfl, by rfl⟩

theorem grows_diagnose (s : State) (d : Diag) : Grows s (s.diagnose d) :=
  ⟨rfl, rfl, rfl, by rfl, ⟨_, rfl⟩, by rfl⟩

theorem grows_respond (s : State) (r : Response) : Grows s (s.respond r) :=
  ⟨rfl, rfl, rfl, by rfl, ⟨_, rfl⟩, by rfl⟩

theorem grows_backTo (s : State) (ls : List Line) : Grows s (s.backTo ls) := grows_of_ports rfl

theorem grows_resetSession (s : State) : Grows s s.resetSession := grows_of_ports rfl

/-! ## Operations -/

/-- Every operation but ATTACH lets the records grow. -/
theorem csrFrame_grows : CsrFrame Grows Grows (fun _ => True) where
  refl _ := grows_of_ports rfl
  trans := Grows.trans
  fails := Grows.trans
  stops _ _ := trivial
  moved := grows_moveTo
  back := grows_backTo
  backFailed ls h := h.trans (grows_backTo _ ls)
  issued s a _ _ _ := grows_issued s a
  failed s a _ _ := grows_issued s a
  ir _ _ _ := grows_of_ports rfl
  noWidth _ _ := trivial
  noIdle _ _ := trivial
  noReplay _ _ _ := trivial
  success _ := grows_of_ports rfl
  begun _ _ _ := grows_of_ports rfl
  recovery _ := grows_of_ports rfl
  polled _ := grows_of_ports rfl
  polls _ := grows_of_ports rfl
  started _ _ := grows_of_ports rfl
  reissued _ := grows_of_ports rfl
  register _ _ := grows_of_ports rfl
  noAutoexec _ _ := trivial
  pushed _ _ := grows_of_ports rfl
  popped _ := grows_of_ports rfl
  held _ _ := grows_of_ports rfl
  noImpebreak _ _ := trivial
  noCsrPath _ _ := trivial
  backup _ _ _ _ _ _ h := h.trans (grows_of_ports rfl)

/-- So do negotiation and discovery. -/
theorem attachFrame_grows : AttachFrame Grows Grows (fun _ => True) where
  toCleanupFrame := csrFrame_grows.toCleanupFrame
  version _ _ := grows_of_ports rfl
  impebreak _ _ := grows_of_ports rfl
  capabilities _ _ := grows_of_ports rfl
  csrPath _ _ := grows_of_ports rfl
  autoexec _ _ := grows_of_ports rfl
  phase _ _ := grows_of_ports rfl
  hartsellen _ _ := grows_of_ports rfl
  cleared _ := grows_of_ports rfl
  candidate _ := grows_of_ports rfl
  added _ _ := grows_of_ports rfl
  current _ _ := grows_of_ports rfl
  diagnosed := grows_diagnose

theorem grows_attachFailed (s : State) (e : Error) : Grows s (s.attachFailed e) :=
  ((grows_passed s 114 [10, 11, 12, 13]).trans (grows_resetSession _)).trans (grows_diagnose _ _)

/-! ## The start and the end of an instruction -/

theorem grows_finish (s : State) (r : Response) : Grows s (s.finish r) := grows_of_ports rfl

theorem grows_answer (s : State) (r : Response) : Grows s (s.answer r) :=
  ((grows_passed s _ _).trans (grows_respond _ _)).trans (grows_finish _ _)

theorem grows_takeUp (s : State) (i : Instr) : Grows s (s.takeUp i) := (grows_passed s _ _).trans (grows_of_ports rfl)

theorem grows_startOf (s : State) (i : Instr) : Grows s (startOf s i) := by
  unfold startOf
  split
  · exact grows_takeUp s i
  · exact grows_of_ports rfl

theorem grows_afterward (u : State) (r : Response) : Grows u (u.afterward r) := by
  rcases afterward_cases u r with h | h <;> rw [h] <;> exact grows_of_ports rfl

theorem grows_closeOf (i : Instr) (u : State) (r : Response) : Grows u (closeOf i u r) := by
  unfold closeOf
  split
  · exact (grows_afterward u r).trans (grows_answer _ _)
  · exact (grows_afterward u r).trans (grows_finish _ _)

theorem grows_turnAway (s : State) : Grows s (turnAway s) :=
  ((grows_passed s _ _).trans (grows_respond _ _)).trans (grows_finish _ _)

theorem grows_detached (s : State) : Grows s s.detached :=
  (((((grows_takeUp s .hostDetach).trans (grows_moveTo _ ⟨185, 5⟩)).trans (grows_moveTo _ ⟨130, 1⟩)).trans
    (grows_resetSession _)).trans (grows_backTo _ s.label)).trans (grows_answer _ _)

/-- What an instruction leaves: it was turned away, it was a DETACH, or it ran to an end between whose start and end
every relation of the operations holds. -/
theorem exec_next_cases {R : State → State → Prop} {s t : State} {i : Instr} (F : CsrFrame R R (fun _ => True))
    (G : AttachFrame R R (fun _ => True)) (hstart : ∀ (s : State) (w : Word), R s (s.startAttach w))
    (hdtmcs : ∀ (s : State) (d : Word), R s (s.wroteDtmcs d))
    (hfailed : ∀ (s : State) (e : Error), R s (s.attachFailed e)) (h : exec i s = .next t) :
    t = turnAway s ∨ t = s.detached ∨ ∃ u r, R (startOf s i) u ∧ t = closeOf i u r := by
  by_cases hadm : isRequest i = true ∧ ¬ Admitted i s
  · rw [exec_away hadm.1 hadm.2] at h
    cases h
    exact .inl rfl
  by_cases hd : i = .hostDetach
  · subst hd
    rw [exec_detach (by simpa [isRequest, Admitted] using hadm)] at h
    cases h
    exact .inr (.inl rfl)
  by_cases ha : ∃ w, i = .hostAttach w
  · obtain ⟨w, rfl⟩ := ha
    obtain ⟨u, r, he, ht⟩ := attach_ends G (by simpa [isRequest, Admitted] using hadm) (hstart · w) hdtmcs
      (fun s e _ => hfailed s e) (fun s u hu => G.trans hu (hfailed u _)) h
    exact .inr (.inr ⟨u, r, he.same, ht⟩)
  · rcases exec_ends (fun w hw => ha ⟨w, hw⟩) hd
      (.ofCsr F fun _ v k _ hv => F.trans hv (G.current v k)) h with ⟨-, -, ht⟩ | ⟨-, u, r, he, ht⟩
    · exact .inl ht
    · exact .inr (.inr ⟨u, r, he.same, ht⟩)

/-- Settles O56: the relation holds across every change an operation makes, and every end leaves the block at rest. -/
theorem everyInstructionFrame : Obligations.EveryInstructionFrame := by
  unfold Obligations.EveryInstructionFrame
  intro s t i h
  have key : Grows s t ∧ AtRest t := by
    rcases exec_next_cases csrFrame_grows attachFrame_grows (fun _ _ => grows_of_ports rfl)
      (fun _ _ => grows_of_ports rfl) grows_attachFailed h with rfl | rfl | ⟨u, r, hu, rfl⟩
    · exact ⟨grows_turnAway s, (answered_away s).toAtRest⟩
    · exact ⟨grows_detached s, rfl, rfl, rfl, rfl⟩
    · exact ⟨((grows_startOf s i).trans hu).trans (grows_closeOf i u r), closeOf_atRest i u r⟩
  obtain ⟨g, hrest⟩ := key
  exact ⟨g.wire, g.params, g.hostQueue, g.trace, g.hostOut, g.moves, hrest⟩

end Sys2Proof.Machine
end

section
/-! SUPPORT. What a step runs (10_state.md R36, R42; 60_exceptions.md R201). -/

namespace Sys2Proof.Machine

theorem step_word {s : State} {w : WireWord} {i : Instr} (hw : s.wire = some w)
    (hd : decodeWire s.params s.fetchWidth w = .ok i) : step s = exec i s.takeWord := by
  simp only [step, fetch, hw, hd, Fetched.ofDecoded]

theorem step_word_refused {s : State} {w : WireWord} {why : Reject} (hw : s.wire = some w)
    (hd : decodeWire s.params s.fetchWidth w = .error why) : step s = .refused (.undecodable why) := by
  simp only [step, fetch, hw, hd, Fetched.ofDecoded]

theorem step_request {s : State} {w : HostWord} {q : List HostWord} {i : Instr} (hw : s.wire = none)
    (hq : s.hostQueue = w :: q) (hd : decodeHost w = .ok i) : step s = exec i s.takeRequest := by
  simp only [step, fetch, hw, hq, hd, Fetched.ofDecoded]

theorem step_request_refused {s : State} {w : HostWord} {q : List HostWord} {why : Reject} (hw : s.wire = none)
    (hq : s.hostQueue = w :: q) (hd : decodeHost w = .error why) : step s = .refused (.undecodable why) := by
  simp only [step, fetch, hw, hq, hd, Fetched.ofDecoded]

theorem step_waiting {s : State} (hw : s.wire = none) (hq : s.hostQueue = []) : step s = .next s := by
  simp only [step, fetch, hw, hq]

/-- Only the words of the DMI register have the width of an address (R63). -/
theorem decodeWire_width {w : WireWord} (h1 : w.format ≠ .dmiReq) (h2 : w.format ≠ .dmiRsp) (p : Params) (A B : Nat) :
    decodeWire p A w = decodeWire p B w := by
  obtain ⟨f, bits⟩ := w
  cases f with
  | dmiReq => exact absurd rfl h1
  | dmiRsp => exact absurd rfl h2
  | ir | dtmcsW | cmdAr | acsRead | acsWrite | autoexec | dmcontrol | rv32 => rfl

/-- Settles O8: the equations of a step, one for each outcome of the fetch. -/
theorem stepRunsDecoded : Obligations.StepRunsDecoded := by
  unfold Obligations.StepRunsDecoded
  intro s
  refine ⟨fun w q i hw hq hd => ?_, fun w i hw hd => step_word hw hd,
    fun w q why hw hq hd => step_request_refused hw hq hd, fun w why hw hd => step_word_refused hw hd, step_waiting,
    fun a ha => ?_, fun ha => ?_, fun w A h1 h2 => decodeWire_width h1 h2 s.params A 0⟩
  · rw [step_request hw hq hd, State.takeRequest, hq]
    rfl
  · simp [State.fetchWidth, ha]
  · simp [State.fetchWidth, ha]

end Sys2Proof.Machine
end

section
/-! SUPPORT. How an ATTACH from the Detached state ends, and what a Ready session keeps (10_state.md R38, R44;
60_exceptions.md R180). -/

namespace Sys2Proof.Machine

/-! ## The end of an ATTACH -/

/-- The state the steps of an ATTACH start in (41_capability_negotiation.md R114). -/
def State.attaching (s : State) (idcode : Word) : State :=
  ((s.serving (.hostAttach idcode)).passed 114 [1, 2]).startAttach idcode

theorem attach_run (idcode : Word) (s : State) :
    attach idcode (s.serving (.hostAttach idcode))
      = (do let n ← onError attachFailure attachSteps; pure (.hartCount n) : Op Value) (s.attaching idcode) := by
  unfold attach
  rw [beginAttach_eq]
  rfl

/-- An admitted ATTACH answers the count of its harts, or fails and resets the session (R114). -/
theorem exec_attach_next {s t : State} {idcode : Word} (hp : s.phase = .detached)
    (h : exec (.hostAttach idcode) s = .next t) :
    (∃ n u, attachSteps (s.attaching idcode) = .ok n u ∧ t = (u.backTo s.label).answer (.ok (.hartCount n)))
    ∨ (∃ e u, attachSteps (s.attaching idcode) = .error (.err e) u
        ∧ t = ((u.attachFailed e).backTo s.label).answer (.err e)) := by
  rw [exec_attach idcode hp] at h
  cases hx : attachSteps (s.attaching idcode) with
  | ok n u =>
    have e : attach idcode (s.serving (.hostAttach idcode)) = .ok (.hartCount n) u := by
      rw [attach_run, bind_ok _ (show onError attachFailure attachSteps _ = .ok n u by simp [onError, hx])]
      rfl
    rw [serve_of_ok e] at h
    cases h
    exact .inl ⟨n, u, rfl, rfl⟩
  | error e u =>
    cases e with
    | err e =>
      have e' : attach idcode (s.serving (.hostAttach idcode)) = .error (.err e) (u.attachFailed e) := by
        rw [attach_run, bind_error _ (show onError attachFailure attachSteps _ = .error (.err e) (u.attachFailed e) by
          simp [onError, hx, attachFailure_eq])]
      rw [serve_of_error e'] at h
      cases h
      exact .inr ⟨e, u, rfl, rfl⟩
    | fault f => exact absurd hx (attachSteps_ne_fault _ f u)

/-! ## The session at the end of an operation -/

theorem SessionGone.backTo {s : State} (h : SessionGone s) (ls : List Line) : SessionGone (s.backTo ls) := { h with }

theorem SessionGone.passed {s : State} (h : SessionGone s) (r : Nat) (ns : List Nat) : SessionGone (s.passed r ns) :=
  { h with }

theorem SessionGone.respond {s : State} (h : SessionGone s) (r : Response) : SessionGone (s.respond r) := { h with }

theorem SessionGone.finish {s : State} (h : SessionGone s) (r : Response) : SessionGone (s.finish r) := { h with }

theorem SessionGone.answer {s : State} (h : SessionGone s) (r : Response) : SessionGone (s.answer r) :=
  ((h.passed 185 (endLines r)).respond r).finish r

theorem SessionGone.turnAway {s : State} (h : SessionGone s) : SessionGone (turnAway s) :=
  ((h.passed 185 [1, 2, 3, 7]).respond _).finish _

theorem sessionGone_attachFailed (s : State) (e : Error) : SessionGone (s.attachFailed e) := by constructor <;> rfl

theorem sessionGone_detached (s : State) : SessionGone s.detached :=
  ((sessionGone_reset _).backTo s.label).answer (.ok .unit)

theorem ReadySession.backTo {s : State} (h : ReadySession s) (ls : List Line) : ReadySession (s.backTo ls) :=
  { h with harts := { h.harts with } }

theorem ReadySession.passed {s : State} (h : ReadySession s) (r : Nat) (ns : List Nat) :
    ReadySession (s.passed r ns) := { h with harts := { h.harts with } }

theorem ReadySession.respond {s : State} (h : ReadySession s) (r : Response) : ReadySession (s.respond r) :=
  { h with harts := { h.harts with } }

theorem ReadySession.finish {s : State} (h : ReadySession s) (r : Response) : ReadySession (s.finish r) :=
  { h with harts := { h.harts with } }

theorem ReadySession.answer {s : State} (h : ReadySession s) (r : Response) : ReadySession (s.answer r) :=
  ((h.passed 185 (endLines r)).respond r).finish r

theorem ReadySession.turnAway {s : State} (h : ReadySession s) : ReadySession (turnAway s) :=
  ((h.passed 185 [1, 2, 3, 7]).respond _).finish _

/-! ## What the wire leaves of a Ready session -/

theorem ReadySession.wired {s : State} (h : ReadySession s) : Wired s := ⟨h.lastValid, h.last, h.cmd, h.ir⟩

theorem HartsInOrder.of_core {s t : State} (h : HartsInOrder s) (hc : t.core = s.core) : HartsInOrder t := by
  have hh : t.harts = s.harts := core_field hc State.harts
  have hp : t.params = s.params := core_field hc State.params
  have hw : t.hartsellen = s.hartsellen := core_field hc State.hartsellen
  constructor <;> simp only [hh, hp, hw]
  exacts [h.capacity, h.width, h.index, h.hartId, h.backup]

/-- A Ready session, but for the registers of the DMI layer, is no concern of the wire. -/
theorem ReadySession.of_core {s t : State} (h : ReadySession s) (hc : t.core = s.core) (hw : Wired t) :
    ReadySession t where
  idcode := (core_field hc State.idcode) ▸ h.idcode
  dtmVersion := (core_field hc State.dtmVersion) ▸ h.dtmVersion
  debugVersion := (core_field hc State.debugVersion).trans h.debugVersion
  autoexecSupported := (core_field hc State.autoexecSupported) ▸ h.autoexecSupported
  capabilities := by
    simp only [core_field hc State.abstractDataCount, core_field hc State.programBufferSize,
      core_field hc State.impebreak, core_field hc State.progbufCsrEnabled]
    exact h.capabilities
  idleCycles := (core_field hc State.idleCycles) ▸ h.idleCycles
  last := hw.last
  cmd := hw.cmd
  lastValid := hw.valid
  ir := hw.ir
  harts := h.harts.of_core hc
  currentHart := by
    simp only [core_field hc State.currentHart, core_field hc State.harts]
    exact h.currentHart

/-! ## The hart table -/

/-- An entry of the table after a backup is one from before, with the backup where it is the one backed up (R162). -/
theorem getElem?_backUp {s : State} {h k : Nat} {b : List Word} {f : HartEntry} :
    (s.backUp h b).harts[k]? = some f → ∃ e, s.harts[k]? = some e ∧ f = if h = k then e.backUp b else e := by
  simp only [State.backUp, List.getElem?_modify, Option.map_eq_map, Option.map_eq_some_iff]
  rintro ⟨e, he, rfl⟩
  exact ⟨e, he, by split <;> rfl⟩

/-- What a backup does to any entry of the table. -/
theorem mem_backUp {s : State} {h : Nat} {b : List Word} {f : HartEntry} (hf : f ∈ (s.backUp h b).harts) :
    ∃ e ∈ s.harts, f = e ∨ f = e.backUp b := by
  obtain ⟨k, hk⟩ := List.mem_iff_getElem?.mp hf
  obtain ⟨e, he, rfl⟩ := getElem?_backUp hk
  refine ⟨e, List.mem_of_getElem? he, ?_⟩
  split
  · exact .inr rfl
  · exact .inl rfl

@[simp] theorem backUp_harts_length (s : State) (h : Nat) (b : List Word) :
    (s.backUp h b).harts.length = s.harts.length := by simp [State.backUp]

/-- A backup of one register keeps the table in order (R34, R162). -/
theorem HartsInOrder.backUp {s : State} (hs : HartsInOrder s) (h : Nat) (b : Word) : HartsInOrder (s.backUp h [b]) where
  capacity := (backUp_harts_length s h [b]).symm ▸ hs.capacity
  width := (backUp_harts_length s h [b]).symm ▸ hs.width
  index k f hf := by
    obtain ⟨e, he, rfl⟩ := getElem?_backUp hf
    have hi := hs.index k e he
    split <;> exact hi
  hartId f hf := by
    obtain ⟨e, he, rfl | rfl⟩ := mem_backUp hf
    · exact hs.hartId _ he
    · exact hs.hartId e he
  backup f hf := by
    obtain ⟨e, he, rfl | rfl⟩ := mem_backUp hf
    · exact hs.backup _ he
    · have hb := (hs.backup e he).1
      simp only [HartEntry.backUp, maxBackup, List.length_append, List.length_drop, List.length_singleton] at hb ⊢
      omega

theorem ReadySession.backUp {s : State} (hs : ReadySession s) (h : Nat) (b : Word) : ReadySession (s.backUp h [b]) :=
  { hs with harts := hs.harts.backUp h b, currentHart := (backUp_harts_length s h [b]).symm ▸ hs.currentHart }

theorem ReadySession.makeCurrent {s : State} (hs : ReadySession s) {k : Nat} (hk : k < s.harts.length) :
    ReadySession (s.makeCurrent k) :=
  { hs with harts := { hs.harts with }, currentHart := ⟨k, rfl, .inl hk⟩ }

/-- The table that discovery builds is in order (R171, R172). -/
theorem hartsInOrder_scanned {s : State} {n : Nat} {width : BitVec 20} (hs : s.harts = (List.range n).map newHart)
    (hw : s.hartsellen = some width) (hc : n ≤ s.params.hartCapacity) (hn : n ≤ width.toNat + 1) : HartsInOrder s := by
  constructor <;> rw [hs]
  · simpa using hc
  · exact ⟨width, hw, by simpa using hn⟩
  · intro k e he
    simp only [List.getElem?_map, Option.map_eq_some_iff] at he
    obtain ⟨i, hi, rfl⟩ := he
    obtain ⟨hk, rfl⟩ := List.getElem?_eq_some_iff.mp hi
    exact List.getElem_range hk
  all_goals
    intro e he
    obtain ⟨i, -, rfl⟩ := List.mem_map.mp he
  · rfl
  · exact ⟨Nat.zero_le _, Nat.le_refl _⟩

/-- A whole Ready session is what an ATTACH that succeeds leaves (R114). -/
theorem attachSteps_ready {s u : State} {n : Nat} (hi : s.idcode.isSome) (h : attachSteps s = .ok n u) :
    u.phase = .ready ∧ ReadySession u := by
  obtain ⟨d, st, nextdm, acs, readback, width, hv, hcap, hn, hc, hw⟩ := attachSteps_ok h
  have hc' : u.core = (s.core.attached d st nextdm acs readback width n).core := by rw [← hc]; rfl
  have hharts := (core_field hc' State.harts).trans (State.attached_harts ..)
  refine ⟨(core_field hc' State.phase).trans (State.attached_phase ..), ?_⟩
  exact
    { idcode := by rw [core_field hc' State.idcode, State.attached_idcode]; exact hi
      dtmVersion := by rw [core_field hc' State.dtmVersion, State.attached_dtmVersion]; rfl
      debugVersion := by rw [core_field hc' State.debugVersion, State.attached_debugVersion]
      autoexecSupported := by rw [core_field hc' State.autoexecSupported, State.attached_autoexecSupported]; rfl
      capabilities := ⟨_, _, _, (core_field hc' State.abstractDataCount).trans (State.attached_abstractDataCount ..),
        (core_field hc' State.programBufferSize).trans (State.attached_programBufferSize ..),
        (core_field hc' State.impebreak).trans (State.attached_impebreak ..), hv,
        (core_field hc' State.progbufCsrEnabled).trans (State.attached_progbufCsrEnabled ..)⟩
      idleCycles := by rw [core_field hc' State.idleCycles, State.attached_idleCycles]; rfl
      last := hw.last
      cmd := hw.cmd
      lastValid := hw.valid
      ir := hw.ir
      harts := hartsInOrder_scanned hharts ((core_field hc' State.hartsellen).trans (State.attached_hartsellen ..))
        (by rw [core_field hc' State.params, State.attached_params]; exact hcap) hn
      currentHart := ⟨0, (core_field hc' State.currentHart).trans (State.attached_currentHart ..), .inr rfl⟩ }

end Sys2Proof.Machine
end

section
/-! SUPPORT. The invariant between steps is kept (10_state.md R38, 70_reset_and_hazards.md R204): no operation of a
Ready session spoils it, and every end of an instruction leaves it or destroys the session. -/

namespace Sys2Proof.Machine

/-! ## Operations in a Ready session -/

/-- The session is Ready and whole. -/
def Whole (s : State) : Prop := s.phase = .ready ∧ ReadySession s

/-- A whole session stays whole, and its table keeps its length. -/
def StaysWhole (s t : State) : Prop := Whole s → Whole t ∧ t.harts.length = s.harts.length

/-- What a failed action leaves of a whole session: it is still to be destroyed (R180). -/
def StaysReady (s t : State) : Prop := Whole s → t.phase = .ready

theorem StaysWhole.trans {a b c : State} (h : StaysWhole a b) (g : StaysWhole b c) : StaysWhole a c := fun ha =>
  ⟨(g (h ha).1).1, (g (h ha).1).2.trans (h ha).2⟩

theorem staysWhole_of_through {s t : State} (h : Through s t) : StaysWhole s t := fun hs =>
  ⟨⟨(core_field h.core State.phase).trans hs.1, hs.2.of_core h.core (h.wired hs.2.wired)⟩,
    congrArg List.length (core_field h.core State.harts)⟩

/-- The relations of a run, from those of a run that succeeds: `Through` on the way, and nothing at a failure. -/
theorem wireFrame_of_through {R E : State → State → Prop} (hR : Runs R E (fun _ => True))
    (hRT : ∀ {s t : State}, Through s t → R s t) (hfail : ∀ (s : State) (a : Action), E s (s.issued a))
    (hback : ∀ {s t : State} (ls : List Line), E s t → E s (t.backTo ls)) : WireFrame R E (fun _ => True) where
  toRuns := hR
  moved s l := hRT (wireFrame_through.moved s l)
  back s ls := hRT (wireFrame_through.back s ls)
  backFailed := hback
  issued s a b ha hb := hRT (wireFrame_through.issued s a b ha hb)
  failed s a _ _ := hfail s a
  ir s c hc := hRT (wireFrame_through.ir s c hc)
  noWidth _ _ := trivial
  noIdle _ _ := trivial
  noReplay _ _ _ := trivial
  success s := hRT (wireFrame_through.success s)
  begun s w hw := hRT (wireFrame_through.begun s w hw)
  recovery s := hRT (wireFrame_through.recovery s)
  polled s := hRT (wireFrame_through.polled s)
  polls s := hRT (wireFrame_through.polls s)
  started s w := hRT (wireFrame_through.started s w)
  reissued s := hRT (wireFrame_through.reissued s)
  pushed s o := hRT (wireFrame_through.pushed s o)
  popped s := hRT (wireFrame_through.popped s)
  held s e := hRT (wireFrame_through.held s e)
  register s k := hRT (wireFrame_through.register s k)
  noAutoexec _ _ := trivial

theorem csrFrame_staysWhole : CsrFrame StaysWhole StaysReady (fun _ => True) where
  toWireFrame := wireFrame_of_through
    { refl := fun _ hs => ⟨hs, rfl⟩
      trans := StaysWhole.trans
      fails := fun h g hs => g (h hs).1
      stops := fun _ _ => trivial }
    staysWhole_of_through (fun _ _ hs => hs.1) fun _ h => h
  noImpebreak _ _ := trivial
  noCsrPath _ _ := trivial
  backup _ t h b _ _ g hs := ⟨⟨(g hs).1.1, (g hs).1.2.backUp h b⟩, (backUp_harts_length t h [b]).trans (g hs).2⟩

/-- The selected hart is in the table (R175). -/
theorem staysWhole_makeCurrent {u v : State} {k : Nat} (hk : k < u.harts.length) (h : StaysWhole u v) :
    StaysWhole u (v.makeCurrent k) := fun hu =>
  ⟨⟨(h hu).1.1, (h hu).1.2.makeCurrent ((h hu).2.symm ▸ hk)⟩, (h hu).2⟩

/-! ## Instructions -/

theorem Ending.ended {R E : State → State → Prop} {s u : State} {r : Response} (h : Ending R E s u r)
    (hr : r ≠ .err .transportFailure) : R s u := by
  cases r with
  | ok => exact h
  | err e => simpa [Ending, show e ≠ .transportFailure by simpa using hr] using h

theorem Ending.failed {R E : State → State → Prop} {s u : State} (h : Ending R E s u (.err .transportFailure)) :
    E s u := by simpa [Ending] using h

/-- In a Ready session an instruction other than DETACH is turned away (it is an ATTACH), or it runs as its relations
say. -/
theorem exec_ready_next {R E : State → State → Prop} {Z : State → Prop} {s t : State} {i : Instr}
    (hp : s.phase = .ready) (hd : i ≠ .hostDetach) (F : ExecFrame i R E Z) (h : exec i s = .next t) :
    t = turnAway s ∨ ∃ u r, Ending R E (startOf s i) u r ∧ t = closeOf i u r := by
  by_cases ha : ∃ w, i = .hostAttach w
  · obtain ⟨w, rfl⟩ := ha
    rw [exec_away (i := .hostAttach w) rfl (by simp [Admitted, hp])] at h
    cases h
    exact .inl rfl
  · rcases exec_ends (fun w hw => ha ⟨w, hw⟩) hd F h with ⟨-, hn, -⟩ | ⟨-, hu⟩
    · exact absurd hp hn
    · exact .inr hu

theorem Whole.startOf {s : State} (h : Whole s) (i : Instr) : Whole (startOf s i) := by
  unfold Machine.startOf
  split
  · exact ⟨h.1, { h.2 with harts := { h.2.harts with } }⟩
  · exact h

/-- An error other than TransportFailure, and a result, leave a whole session as it is (R180). -/
theorem Whole.closeOf {u : State} (h : Whole u) {i : Instr} {r : Response} (hr : r ≠ .err .transportFailure) :
    Whole (closeOf i u r) := by
  rw [closeOf_ready h.1 hr]
  split
  · exact ⟨h.1, h.2.answer r⟩
  · exact ⟨h.1, h.2.finish r⟩

theorem exec_whole {s t : State} {i : Instr} (hs : Whole s) (h : exec i s = .next t) : SessionGone t ∨ Whole t := by
  by_cases hd : i = .hostDetach
  · subst hd
    rw [exec_detach hs.1] at h
    cases h
    exact .inl (sessionGone_detached s)
  · rcases exec_ready_next hs.1 hd (.ofCsr csrFrame_staysWhole fun _ _ _ => staysWhole_makeCurrent) h with
      rfl | ⟨u, r, he, rfl⟩
    · exact .inr ⟨hs.1, hs.2.turnAway⟩
    · by_cases hr : r = .err .transportFailure
      · subst hr
        exact .inl (closeOf_failed (he.failed (hs.startOf i)))
      · exact .inr ((he.ended hr (hs.startOf i)).1.closeOf hr)

/-- With no session a request is turned away, or it is an ATTACH, which leaves a whole session or none (R88, R114). -/
theorem exec_gone {s t : State} {i : Instr} (hs : SessionGone s) (hi : isRequest i = true) (h : exec i s = .next t) :
    SessionGone t ∨ Whole t := by
  by_cases ha : ∃ w, i = .hostAttach w
  · obtain ⟨w, rfl⟩ := ha
    rcases exec_attach_next hs.phase h with ⟨n, u, hu, rfl⟩ | ⟨e, u, -, rfl⟩
    · obtain ⟨hp, hr⟩ := attachSteps_ready (by simp [State.attaching]) hu
      exact .inr ⟨by simpa using hp, (hr.backTo s.label).answer _⟩
    · exact .inl (((sessionGone_attachFailed u e).backTo _).answer _)
  · have hn : ¬ Admitted i s := by
      unfold Admitted
      split
      · next w => exact absurd ⟨w, rfl⟩ ha
      · simp [hs.phase]
    rw [exec_away hi hn] at h
    cases h
    exact .inl hs.turnAway

/-! ## Steps -/

/-- A step that goes on takes nothing, or it takes and runs the lone word, or a request. -/
theorem step_next_inv {s t : State} (h : step s = .next t) :
    t = s ∨ ∃ i, (s.wire ≠ none ∧ exec i s.takeWord = .next t)
      ∨ (s.wire = none ∧ isRequest i = true ∧ exec i s.takeRequest = .next t) := by
  cases hw : s.wire with
  | some w =>
    cases hd : decodeWire s.params s.fetchWidth w with
    | ok i => exact .inr ⟨i, .inl ⟨nofun, (step_word hw hd).symm.trans h⟩⟩
    | error why => rw [step_word_refused hw hd] at h; cases h
  | none =>
    cases hq : s.hostQueue with
    | nil => rw [step_waiting hw hq] at h; cases h; exact .inl rfl
    | cons w q =>
      cases hd : decodeHost w with
      | ok i => exact .inr ⟨i, .inr ⟨rfl, isRequest_of_decodeHost hd, (step_request hw hq hd).symm.trans h⟩⟩
      | error why => rw [step_request_refused hw hq hd] at h; cases h

/-- Every end of an instruction that took the lone word, if there was one, meets the invariant. -/
theorem machineInv_of_exec {s t : State} {i : Instr} (hw : s.wire = none) (h : exec i s = .next t)
    (hs : SessionGone t ∨ Whole t) : MachineInv t := by
  obtain ⟨hwire, -, -, -, -, -, hrest⟩ := everyInstructionFrame s t i h
  exact { hrest with phase := hs.imp (fun g => ⟨g.phase, hwire.trans hw, g⟩) id }

/-- Settles O11: a whole session stays whole or is destroyed, and with none only a request runs. -/
theorem stepKeepsInvariant : Obligations.StepKeepsInvariant := by
  unfold Obligations.StepKeepsInvariant
  intro s t hs h
  rcases step_next_inv h with rfl | ⟨i, ⟨hw, h⟩ | ⟨hw, hi, h⟩⟩
  · exact hs
  · rcases hs.phase with ⟨-, hn, -⟩ | ⟨hp, hr⟩
    · exact absurd hn hw
    · exact machineInv_of_exec (s := s.takeWord) rfl h
        (exec_whole (s := s.takeWord) ⟨hp, { hr with harts := { hr.harts with } }⟩ h)
  · refine machineInv_of_exec (s := s.takeRequest) hw h ?_
    rcases hs.phase with ⟨-, -, hg⟩ | ⟨hp, hr⟩
    · exact exec_gone (s := s.takeRequest) { hg with } hi h
    · exact exec_whole (s := s.takeRequest) ⟨hp, { hr with harts := { hr.harts with } }⟩ h

end Sys2Proof.Machine
end

section
/-! The session across an instruction (10_state.md R23, R32 to R35, R39, R44; 60_exceptions.md R180). -/

namespace Sys2Proof.Machine

/-! ## Reset -/

theorem sessionGone_initial : SessionGone State.reset := by constructor <;> rfl

/-- Settles O10: after reset nothing is in service and no session stands. -/
theorem resetMeetsInvariant : Obligations.ResetMeetsInvariant := by
  unfold Obligations.ResetMeetsInvariant
  exact { req := rfl, label := rfl, pending := rfl, primaryError := rfl, phase := .inl ⟨rfl, rfl, sessionGone_initial⟩ }

/-! ## The registers of a session -/

theorem SameSession.trans {a b c : State} (h : SameSession a b) (g : SameSession b c) : SameSession a c where
  phase := g.phase.trans h.phase
  idcode := g.idcode.trans h.idcode
  dtmVersion := g.dtmVersion.trans h.dtmVersion
  debugVersion := g.debugVersion.trans h.debugVersion
  idleCycles := g.idleCycles.trans h.idleCycles
  addressBits := g.addressBits.trans h.addressBits
  programBufferSize := g.programBufferSize.trans h.programBufferSize
  impebreak := g.impebreak.trans h.impebreak
  abstractDataCount := g.abstractDataCount.trans h.abstractDataCount
  autoexecSupported := g.autoexecSupported.trans h.autoexecSupported
  progbufCsrEnabled := g.progbufCsrEnabled.trans h.progbufCsrEnabled
  hartsellen := g.hartsellen.trans h.hartsellen

theorem sameSession_runs : Runs SameSession SameSession (fun _ => True) where
  refl _ := sameSession_of_core rfl
  trans := SameSession.trans
  fails := SameSession.trans
  stops _ _ := trivial

/-- No operation of a session writes what negotiation and discovery wrote (R39). -/
theorem csrFrame_sameSession : CsrFrame SameSession SameSession (fun _ => True) where
  toWireFrame := wireFrame_of_through sameSession_runs (fun h => sameSession_of_core h.core)
    (fun _ _ => sameSession_of_core rfl) fun _ h => h.trans (sameSession_of_core rfl)
  noImpebreak _ _ := trivial
  noCsrPath _ _ := trivial
  backup _ _ _ _ _ _ h := h.trans (by constructor <;> rfl)

theorem sameSession_startOf (s : State) (i : Instr) : SameSession s (startOf s i) :=
  sameSession_of_core (startOf_core s i)

theorem sameSession_turnAway (s : State) : SameSession s (turnAway s) := by constructor <;> simp [turnAway]

theorem sameSession_answer (u : State) (r : Response) : SameSession u (u.answer r) := by constructor <;> simp

theorem sameSession_finish (u : State) (r : Response) : SameSession u (u.finish r) := by constructor <;> simp

theorem sameSession_closeOf {u : State} {r : Response} (i : Instr) (hp : u.phase = .ready)
    (hr : r ≠ .err .transportFailure) : SameSession u (closeOf i u r) := by
  rw [closeOf_ready hp hr]
  split
  · exact sameSession_answer u r
  · exact sameSession_finish u r

@[simp] theorem turnAway_result (s : State) : (turnAway s).result = some (.err (.sessionNotReady s.phase)) := rfl

/-- Settles O52: every operation of a session keeps its registers, and only the end by TransportFailure destroys it. -/
theorem readySessionIsKept : Obligations.ReadySessionIsKept := by
  unfold Obligations.ReadySessionIsKept
  intro s t i hp hd h
  rcases exec_ready_next hp hd (.ofCsr csrFrame_sameSession fun _ _ _ _ h => h.trans (by constructor <;> rfl)) h with
    rfl | ⟨u, r, he, rfl⟩
  · simpa using sameSession_turnAway s
  · have hu : SameSession s u := (sameSession_startOf s i).trans he.same
    have hup : u.phase = .ready := hu.phase.trans hp
    by_cases hr : r = .err .transportFailure
    · subst hr
      simpa using closeOf_failed hup
    · simpa [hr] using hu.trans (sameSession_closeOf i hup hr)

/-- Settles O9: DETACH and a failed ATTACH reset the session, and so does TransportFailure when Ready. -/
theorem detachedStateEntries : Obligations.DetachedStateEntries := by
  unfold Obligations.DetachedStateEntries
  refine ⟨⟨sessionGone_initial, rfl, rfl⟩, fun s hp => ⟨s.detached, exec_detach hp, sessionGone_detached s, ?_⟩, ?_, ?_⟩
  · exact ⟨rfl, rfl, rfl, rfl⟩
  · intro s t idcode e hp h hr
    rcases exec_attach_next hp h with ⟨n, u, -, rfl⟩ | ⟨e, u, -, rfl⟩
    · simp at hr
    · exact ⟨((sessionGone_attachFailed u e).backTo _).answer _, rfl, rfl, rfl, rfl⟩
  · intro i s t _ hp h hr
    obtain ⟨-, -, -, -, -, -, hrest⟩ := everyInstructionFrame s t i h
    refine ⟨?_, hrest⟩
    by_cases hd : i = .hostDetach
    · subst hd
      rw [exec_detach hp] at h
      cases h
      exact sessionGone_detached s
    · simpa [hr] using readySessionIsKept s t i hp hd h

/-! ## The hart table -/

/-- The entries of the table but for the backup of entry `h` (R34). -/
structure SameEntries (h : Option Nat) (s t : State) : Prop where
  length : t.harts.length = s.harts.length
  entry : ∀ (k : Nat) (e f : HartEntry), s.harts[k]? = some e → t.harts[k]? = some f →
    f.index = e.index ∧ f.hartId = e.hartId ∧ (h ≠ some k → f = e)

theorem sameEntries_of_eq {s t : State} (h : Option Nat) (ht : t.harts = s.harts) : SameEntries h s t where
  length := congrArg List.length ht
  entry k e f he hf := by
    rw [ht, he] at hf
    cases hf
    exact ⟨rfl, rfl, fun _ => rfl⟩

theorem SameEntries.trans {h : Option Nat} {a b c : State} (hab : SameEntries h a b) (hbc : SameEntries h b c) :
    SameEntries h a c where
  length := hbc.length.trans hab.length
  entry k e g he hg := by
    have hk : k < b.harts.length := hab.length ▸ (List.getElem?_eq_some_iff.mp he).1
    obtain ⟨i1, d1, s1⟩ := hab.entry k e _ he (List.getElem?_eq_getElem hk)
    obtain ⟨i2, d2, s2⟩ := hbc.entry k _ g (List.getElem?_eq_getElem hk) hg
    exact ⟨i2.trans i1, d2.trans d1, fun hn => (s2 hn).trans (s1 hn)⟩

theorem sameEntries_backUp (s : State) (h : Nat) (b : List Word) : SameEntries (some h) s (s.backUp h b) where
  length := backUp_harts_length s h b
  entry k e f he hf := by
    obtain ⟨e', he', rfl⟩ := getElem?_backUp hf
    rw [he] at he'
    cases he'
    by_cases hk : h = k
    · rw [if_pos hk]
      exact ⟨rfl, rfl, fun hn => absurd (congrArg some hk) hn⟩
    · rw [if_neg hk]
      exact ⟨rfl, rfl, fun _ => rfl⟩

/-- The table and the current hart of a session, as far as the instruction `i` keeps them (R32, R34, R35). -/
structure KeepsHarts (i : Instr) (s t : State) : Prop where
  phase : t.phase = s.phase
  current : (∀ k, i ≠ .hostSelectHart k) → t.currentHart = s.currentHart
  table : (∀ csr, i ≠ .hostReadCsrProgbuf csr) → t.harts = s.harts
  entries : SameEntries s.currentHart s t

theorem keepsHarts_of_eq {s t : State} (i : Instr) (hp : t.phase = s.phase) (hc : t.currentHart = s.currentHart)
    (ht : t.harts = s.harts) : KeepsHarts i s t :=
  ⟨hp, fun _ => hc, fun _ => ht, sameEntries_of_eq _ ht⟩

theorem KeepsHarts.trans {i : Instr} {a b c : State} (h : KeepsHarts i a b) (g : KeepsHarts i b c) :
    KeepsHarts i a c where
  phase := g.phase.trans h.phase
  current hi := (g.current hi).trans (h.current hi)
  table hi := (g.table hi).trans (h.table hi)
  entries := by
    by_cases hi : ∃ k, i = .hostSelectHart k
    · obtain ⟨k, rfl⟩ := hi
      exact sameEntries_of_eq _ ((g.table nofun).trans (h.table nofun))
    · exact h.entries.trans (h.current (fun k hk => hi ⟨k, hk⟩) ▸ g.entries)

/-- What the wire does not concern is kept. -/
theorem wireFrame_keepsHarts (i : Instr) : WireFrame (KeepsHarts i) (KeepsHarts i) (fun _ => True) :=
  wireFrame_of_through
    { refl := fun _ => keepsHarts_of_eq i rfl rfl rfl
      trans := KeepsHarts.trans
      fails := KeepsHarts.trans
      stops := fun _ _ => trivial }
    (fun h => keepsHarts_of_eq i (core_field h.core State.phase) (core_field h.core State.currentHart)
      (core_field h.core State.harts))
    (fun _ _ => keepsHarts_of_eq i rfl rfl rfl) fun _ h => h.trans (keepsHarts_of_eq i rfl rfl rfl)

/-- READ_CSR_PROGBUF backs up the current hart's entry, and SELECT_HART selects (R162, R175). -/
theorem execFrame_keepsHarts (i : Instr) : ExecFrame i (KeepsHarts i) (KeepsHarts i) (fun _ => True) where
  toTxFrame := (wireFrame_keepsHarts i).toTxFrame
  dmi _ := (wireFrame_keepsHarts i).toDmiFrame
  run _ := (wireFrame_keepsHarts i).toRunFrame
  wire _ := wireFrame_keepsHarts i
  csr c hi :=
    { toWireFrame := wireFrame_keepsHarts i
      noImpebreak := fun _ _ => trivial
      noCsrPath := fun _ _ => trivial
      backup := fun s t h b hc _ k => k.trans
        { phase := rfl
          current := fun _ => rfl
          table := fun hn => absurd hi (hn c)
          entries := ((k.current (by simp [hi])).trans hc) ▸ sameEntries_backUp t h [b] } }
  current k hi u v _ h := h.trans
    { phase := rfl
      current := fun hn => absurd hi (hn k)
      table := fun _ => rfl
      entries := sameEntries_of_eq _ rfl }

theorem keepsHarts_startOf (s : State) (i : Instr) : KeepsHarts i s (startOf s i) :=
  have hc := startOf_core s i
  keepsHarts_of_eq i (core_field hc State.phase) (core_field hc State.currentHart) (core_field hc State.harts)

theorem keepsHarts_closeOf {u : State} {r : Response} (i : Instr) (hp : u.phase = .ready)
    (hr : r ≠ .err .transportFailure) : KeepsHarts i u (closeOf i u r) := by
  rw [closeOf_ready hp hr]
  split <;> exact keepsHarts_of_eq i (by simp) (by simp) (by simp)

/-- Settles O53: the table is kept across every operation, but for what the instruction itself may change. -/
theorem hartTableIsKept : Obligations.HartTableIsKept := by
  unfold Obligations.HartTableIsKept
  intro s t i hp hd h hr
  have key : KeepsHarts i s t := by
    rcases exec_ready_next hp hd (execFrame_keepsHarts i) h with rfl | ⟨u, r, he, rfl⟩
    · exact keepsHarts_of_eq i (by simp [turnAway]) (by simp [turnAway]) (by simp [turnAway])
    · have hu : KeepsHarts i s u := (keepsHarts_startOf s i).trans he.same
      exact hu.trans (keepsHarts_closeOf i (hu.phase.trans hp) (by simpa using hr))
  exact ⟨key.current, key.table, key.entries.length, key.entries.entry⟩

end Sys2Proof.Machine
end

section
/-! What an instruction answers, puts on the lower port and counts (10_state.md R36, R41, R42; 60_exceptions.md
R189). -/

namespace Sys2Proof.Machine

/-! ## Responses -/

@[simp] theorem afterward_hostOut (u : State) (r : Response) : (u.afterward r).hostOut = u.hostOut := by
  rcases afterward_cases u r with h | h
  · rw [h]
  · rw [h, State.resetSession_hostOut]

@[simp] theorem startOf_hostOut (s : State) (i : Instr) : (startOf s i).hostOut = s.hostOut :=
  core_field (startOf_core s i) State.hostOut

theorem tells_hostOut {s t : State} (h : Tells 0 s t) : t.hostOut = s.hostOut := by
  obtain ⟨ds, hl, he⟩ := h
  rw [List.length_eq_zero_iff.mp (Nat.le_zero.mp hl)] at he
  simpa using he

/-- A response after the diagnostics of the body. -/
theorem answered_of_tells {s u : State} {n : Nat} (h : Tells n s u) (ls : List Line) (r : Response) :
    ∃ ds, Answered s ((u.backTo ls).answer r) ds r ∧ ds.length ≤ n := by
  obtain ⟨ds, hl, he⟩ := h
  refine ⟨ds, ?_, hl⟩
  exact { req := rfl, label := rfl, pending := rfl, primaryError := rfl, result := rfl, hostOut := by simp [he] }

/-- ATTACH sends at most two diagnostics before its response (R121, R114). -/
theorem exec_attach_answered {s t : State} {w : Word} (h : exec (.hostAttach w) s = .next t) :
    ∃ ds r, Answered s t ds r ∧ ds.length ≤ 2 := by
  by_cases hp : s.phase = .detached
  · have start : Tells 0 s (s.attaching w) := tells_none (by simp [State.attaching]) 0
    rcases exec_attach_next hp h with ⟨n, u, hu, rfl⟩ | ⟨e, u, hu, rfl⟩
    · have hs := start.trans (attachSteps_tells.ok hu) (Nat.le_succ 1)
      obtain ⟨ds, ha, hl⟩ := answered_of_tells hs s.label (.ok (.hartCount n))
      exact ⟨ds, _, ha, hl⟩
    · have hf : Tells 1 u (u.attachFailed e) := ⟨[.attachFailed e.code], Nat.le_refl 1, rfl⟩
      have hs := (start.trans (attachSteps_tells.same hu) (Nat.le_refl 1)).trans hf (Nat.le_refl 2)
      obtain ⟨ds, ha, hl⟩ := answered_of_tells hs s.label (.err e)
      exact ⟨ds, _, ha, hl⟩
  · rw [exec_away (i := .hostAttach w) rfl hp] at h
    cases h
    exact ⟨[], _, answered_away s, Nat.zero_le 2⟩

/-- An instruction other than ATTACH is a request turned away, a DETACH, or it runs as its relations say. -/
theorem exec_next_of_frame {R E : State → State → Prop} {Z : State → Prop} {s t : State} {i : Instr}
    (ha : ∀ w, i ≠ .hostAttach w) (F : ExecFrame i R E Z) (h : exec i s = .next t) :
    (isRequest i = true ∧ (t = turnAway s ∨ t = s.detached))
    ∨ ∃ u r, Ending R E (startOf s i) u r ∧ t = closeOf i u r := by
  by_cases hd : i = .hostDetach
  · subst hd
    refine .inl ⟨rfl, ?_⟩
    by_cases hp : s.phase = .ready
    · rw [exec_detach hp] at h
      cases h
      exact .inr rfl
    · rw [exec_away (i := .hostDetach) rfl hp] at h
      cases h
      exact .inl rfl
  · rcases exec_ends ha hd F h with ⟨hi, -, ht⟩ | ⟨-, hu⟩
    · exact .inl ⟨hi, .inl ht⟩
    · exact .inr hu

theorem answered_detached (s : State) : Answered s s.detached [] (.ok .unit) := answered_answer s _ _ (by simp)

/-- Every other instruction sends its response, if it is a request, and nothing else. -/
theorem exec_answered {s t : State} {i : Instr} (ha : ∀ w, i ≠ .hostAttach w) (h : exec i s = .next t) :
    if isRequest i then ∃ r, Answered s t [] r else ∃ r, Ended s t r := by
  rcases exec_next_of_frame ha (.ofCsr csrFrame_tells fun _ _ _ _ h => h.trans (tells_none rfl 0) (Nat.le_refl 0)) h
    with ⟨hi, rfl | rfl⟩ | ⟨u, r, he, rfl⟩
  · rw [if_pos hi]
    exact ⟨_, answered_away s⟩
  · rw [if_pos hi]
    exact ⟨_, answered_detached s⟩
  · have hu : (u.afterward r).hostOut = s.hostOut := by simpa using tells_hostOut he.same
    unfold closeOf
    split
    · exact ⟨r, answered_answer s _ r hu⟩
    · exact ⟨r, ended_finish s _ r hu⟩

/-- Settles O32: one response ends a request, and only the steps of ATTACH tell the host anything before it. -/
theorem oneResponsePerRequest : Obligations.OneResponsePerRequest := by
  unfold Obligations.OneResponsePerRequest
  intro s t i h
  by_cases ha : ∃ w, i = .hostAttach w
  · obtain ⟨w, rfl⟩ := ha
    obtain ⟨ds, r, hr, hl⟩ := exec_attach_answered h
    exact ⟨ds, r, hr, hl, fun hn => absurd rfl (hn w)⟩
  · have hr := exec_answered (fun w hw => ha ⟨w, hw⟩) h
    by_cases hi : isRequest i = true
    · rw [if_pos hi] at hr ⊢
      obtain ⟨r, hr⟩ := hr
      exact ⟨[], r, hr, Nat.zero_le 2, fun _ => rfl⟩
    · rw [if_neg hi] at hr ⊢
      exact hr

/-! ## The lower port -/

/-- Between `s` and `t` the lower port saw only the actions of a session (R41, R64, R86, R112). -/
structure Emitted (s t : State) : Prop where
  abits : t.addressBits = s.addressBits
  idle : t.idleCycles = s.idleCycles
  trace : ∃ new, t.trace = s.trace ++ new ∧ ∀ x ∈ new, s.emits x.1

theorem emitted_of_eq {s t : State} (ha : t.addressBits = s.addressBits) (hi : t.idleCycles = s.idleCycles)
    (ht : t.trace = s.trace) : Emitted s t := ⟨ha, hi, [], by simpa using ht, nofun⟩

/-- The actions of a session are those of its address width and its idle cycles. -/
theorem emits_of_eq {s t : State} (ha : t.addressBits = s.addressBits) (hi : t.idleCycles = s.idleCycles) :
    ∀ a : Action, t.emits a → s.emits a
  | .writeIr _, h => h
  | .shiftDr _ _, h => by simpa only [State.emits, ha] using h
  | .idleClock _, h => by simpa only [State.emits, hi] using h

theorem emitted_issued {s : State} {a : Action} (ha : s.emits a) : Emitted s (s.issued a) where
  abits := rfl
  idle := rfl
  trace := ⟨[(a, s.nextReply)], rfl, by simpa using ha⟩

theorem Emitted.trans {a b c : State} (h : Emitted a b) (g : Emitted b c) : Emitted a c where
  abits := g.abits.trans h.abits
  idle := g.idle.trans h.idle
  trace := by
    obtain ⟨l, hl, al⟩ := h.trace
    obtain ⟨m, hm, am⟩ := g.trace
    refine ⟨l ++ m, by rw [hm, hl, List.append_assoc], fun x hx => ?_⟩
    rcases List.mem_append.mp hx with hx | hx
    · exact al x hx
    · exact emits_of_eq h.abits h.idle x.1 (am x hx)

/-- No operation but ATTACH puts another action on the port. -/
theorem csrFrame_emitted : CsrFrame Emitted Emitted (fun _ => True) where
  refl _ := emitted_of_eq rfl rfl rfl
  trans := Emitted.trans
  fails := Emitted.trans
  stops _ _ := trivial
  moved _ _ := emitted_of_eq rfl rfl rfl
  back _ _ := emitted_of_eq rfl rfl rfl
  backFailed _ h := h.trans (emitted_of_eq rfl rfl rfl)
  issued _ _ _ ha _ := emitted_issued ha
  failed _ _ ha _ := emitted_issued ha
  ir _ _ _ := emitted_of_eq rfl rfl rfl
  noWidth _ _ := trivial
  noIdle _ _ := trivial
  noReplay _ _ _ := trivial
  success _ := emitted_of_eq rfl rfl rfl
  begun _ _ _ := emitted_of_eq rfl rfl rfl
  recovery _ := emitted_of_eq rfl rfl rfl
  polled _ := emitted_of_eq rfl rfl rfl
  polls _ := emitted_of_eq rfl rfl rfl
  started _ _ := emitted_of_eq rfl rfl rfl
  reissued _ := emitted_of_eq rfl rfl rfl
  register _ _ := emitted_of_eq rfl rfl rfl
  noAutoexec _ _ := trivial
  pushed _ _ := emitted_of_eq rfl rfl rfl
  popped _ := emitted_of_eq rfl rfl rfl
  held _ _ := emitted_of_eq rfl rfl rfl
  noImpebreak _ _ := trivial
  noCsrPath _ _ := trivial
  backup _ _ _ _ _ _ h := h.trans (emitted_of_eq rfl rfl rfl)

@[simp] theorem turnAway_trace (s : State) : (turnAway s).trace = s.trace := by simp [turnAway]

@[simp] theorem detached_trace (s : State) : s.detached.trace = s.trace := by simp [State.detached]

/-- Settles O55: the actions of every operation of a session, from its start to its end. -/
theorem lowerPortActions : Obligations.LowerPortActions := by
  unfold Obligations.LowerPortActions
  intro s t i ha h
  rcases exec_next_of_frame ha (.ofCsr csrFrame_emitted fun _ _ _ _ h => h.trans (emitted_of_eq rfl rfl rfl)) h with
    ⟨-, rfl | rfl⟩ | ⟨u, r, he, rfl⟩
  · exact ⟨[], by simp, nofun⟩
  · exact ⟨[], by simp, nofun⟩
  · have hc := startOf_core s i
    have hs : Emitted s (startOf s i) :=
      emitted_of_eq (core_field hc State.addressBits) (core_field hc State.idleCycles) (startOf_trace s i)
    rw [closeOf_trace]
    exact (hs.trans he.same).trace

/-! ## The counters and operands of the sequencer -/

/-- Of the sequencer's counters and operands, those that an instruction of layer `n` leaves (R36, log 7): those of the
DMI layer only layer 0, those of the command engine the layers up to 1, the batch index the layers up to 2. -/
structure SameCounters (n : Nat) (s t : State) : Prop where
  shift : n = 0 → t.dmiTries = s.dmiTries ∧ t.dmiCmd = s.dmiCmd
  run : n ≤ 1 → t.polls = s.polls ∧ t.busyTries = s.busyTries ∧ t.runCmd = s.runCmd
  batch : n ≤ 2 → t.batchIndex = s.batchIndex
  discovery : t.discoveryIndex = s.discoveryIndex

/-- The counters and operands of the sequencer. -/
def State.counters (s : State) : (Nat × DmiWord) × (Nat × Nat × Word) × Nat × Nat :=
  ((s.dmiTries, s.dmiCmd), (s.polls, s.busyTries, s.runCmd), s.batchIndex, s.discoveryIndex)

theorem sameCounters_of_eq {s t : State} (n : Nat) (h : t.counters = s.counters) : SameCounters n s t := by
  simp only [State.counters, Prod.mk.injEq] at h
  obtain ⟨hshift, hrun, hbatch, hdiscovery⟩ := h
  exact ⟨fun _ => hshift, fun _ => hrun, fun _ => hbatch, hdiscovery⟩

theorem SameCounters.trans {n : Nat} {a b c : State} (h : SameCounters n a b) (g : SameCounters n b c) :
    SameCounters n a c where
  shift hn := ⟨(g.shift hn).1.trans (h.shift hn).1, (g.shift hn).2.trans (h.shift hn).2⟩
  run hn := by
    obtain ⟨p1, b1, c1⟩ := h.run hn
    obtain ⟨p2, b2, c2⟩ := g.run hn
    exact ⟨p2.trans p1, b2.trans b1, c2.trans c1⟩
  batch hn := (g.batch hn).trans (h.batch hn)
  discovery := g.discovery.trans h.discovery

variable {n : Nat}

/-- Selections and DTMCS shifts count nothing. -/
theorem txFrame_sameCounters : TxFrame (SameCounters n) (SameCounters n) (fun _ => True) where
  refl _ := sameCounters_of_eq n rfl
  trans := SameCounters.trans
  fails := SameCounters.trans
  stops _ _ := trivial
  moved _ _ := sameCounters_of_eq n rfl
  back _ _ := sameCounters_of_eq n rfl
  backFailed _ h := h.trans (sameCounters_of_eq n rfl)
  issued _ _ _ _ _ := sameCounters_of_eq n rfl
  failed _ _ _ _ := sameCounters_of_eq n rfl
  ir _ _ _ := sameCounters_of_eq n rfl

/-- The DMI layer counts its recoveries and holds its word. -/
theorem dmiFrame_sameCounters (hn : 1 ≤ n) : DmiFrame (SameCounters n) (SameCounters n) (fun _ => True) where
  toTxFrame := txFrame_sameCounters
  noWidth _ _ := trivial
  noIdle _ _ := trivial
  noReplay _ _ _ := trivial
  success _ := sameCounters_of_eq n rfl
  begun _ _ _ := ⟨by omega, fun _ => ⟨rfl, rfl, rfl⟩, fun _ => rfl, rfl⟩
  recovery _ := ⟨by omega, fun _ => ⟨rfl, rfl, rfl⟩, fun _ => rfl, rfl⟩

/-- The command engine counts its polls and re-issues and holds its word. -/
theorem runFrame_sameCounters (hn : 2 ≤ n) : RunFrame (SameCounters n) (SameCounters n) (fun _ => True) where
  toDmiFrame := dmiFrame_sameCounters (by omega)
  polled _ := ⟨by omega, by omega, fun _ => rfl, rfl⟩
  polls _ := ⟨by omega, by omega, fun _ => rfl, rfl⟩
  started _ _ := ⟨by omega, by omega, fun _ => rfl, rfl⟩
  reissued _ := ⟨by omega, by omega, fun _ => rfl, rfl⟩

/-- A register run counts its registers. -/
theorem csrFrame_sameCounters (hn : 3 ≤ n) : CsrFrame (SameCounters n) (SameCounters n) (fun _ => True) where
  toRunFrame := runFrame_sameCounters (by omega)
  pushed _ _ := sameCounters_of_eq n rfl
  popped _ := sameCounters_of_eq n rfl
  held _ _ := sameCounters_of_eq n rfl
  register _ _ := ⟨by omega, by omega, by omega, rfl⟩
  noAutoexec _ _ := trivial
  noImpebreak _ _ := trivial
  noCsrPath _ _ := trivial
  backup _ _ _ _ _ _ h := h.trans (sameCounters_of_eq n rfl)

theorem execFrame_sameCounters (i : Instr) :
    ExecFrame i (SameCounters (layer i)) (SameCounters (layer i)) (fun _ => True) where
  toTxFrame := txFrame_sameCounters
  dmi := dmiFrame_sameCounters
  run := runFrame_sameCounters
  wire hi := (csrFrame_sameCounters hi).toWireFrame
  csr c hi := csrFrame_sameCounters (by rw [hi]; exact Nat.le_refl 3)
  current _ _ _ _ _ h := h.trans (sameCounters_of_eq _ rfl)

theorem counters_startOf (s : State) (i : Instr) : (startOf s i).counters = s.counters := by
  unfold startOf
  split <;> simp [State.counters]

theorem counters_turnAway (s : State) : (turnAway s).counters = s.counters := by simp [State.counters, turnAway]

theorem counters_detached (s : State) : s.detached.counters = s.counters := by simp [State.counters, State.detached]

theorem counters_afterward (u : State) (r : Response) : (u.afterward r).counters = u.counters := by
  rcases afterward_cases u r with h | h
  · rw [h]
  · simp [h, State.counters]

theorem counters_closeOf (i : Instr) (u : State) (r : Response) : (closeOf i u r).counters = u.counters := by
  rw [← counters_afterward u r]
  unfold closeOf
  split <;> simp [State.counters]

theorem exec_sameCounters {s t : State} {i : Instr} (ha : ∀ w, i ≠ .hostAttach w) (h : exec i s = .next t) :
    SameCounters (layer i) s t := by
  rcases exec_next_of_frame ha (execFrame_sameCounters i) h with ⟨-, rfl | rfl⟩ | ⟨u, r, he, rfl⟩
  · exact sameCounters_of_eq _ (counters_turnAway s)
  · exact sameCounters_of_eq _ (counters_detached s)
  · exact ((sameCounters_of_eq _ (counters_startOf s i)).trans he.same).trans
      (sameCounters_of_eq _ (counters_closeOf i u r))

/-- An instruction of layer `n` other than ATTACH. -/
def InLayer (n : Nat) (i : Instr) : Prop := (∀ w, i ≠ .hostAttach w) ∧ layer i = n

theorem inLayer_dmiWordOf {A : Nat} {i : Instr} {w : DmiWord} (h : dmiWordOf A i w) : InLayer 1 i := by
  rcases h with ⟨_, _, rfl, -⟩ | ⟨_, _, rfl, -⟩ | ⟨_, _, rfl, -⟩ <;> exact ⟨nofun, rfl⟩

theorem inLayer_registerWrite {p : Params} {i : Instr} {a : Nat} {v : Word} (h : registerWrite p i a v) :
    InLayer 1 i := by
  rcases h with ⟨rfl, -⟩ | ⟨rfl, -⟩ | ⟨rfl, -⟩ | ⟨rfl, -⟩ | ⟨_, rfl, -⟩ | ⟨_, rfl, -⟩ | ⟨rfl, -⟩ <;>
    exact ⟨nofun, rfl⟩

theorem inLayer_commandOf {i : Instr} {v : Word} (h : commandOf i v) : InLayer 2 i := by
  rcases h with ⟨_, ⟨rfl, -⟩ | ⟨rfl, -⟩ | ⟨rfl, -⟩ | ⟨rfl, -⟩⟩ | ⟨rfl, -⟩ <;> exact ⟨nofun, rfl⟩

theorem inLayer_cmderrWord {acs : AcsFields} {i : Instr} (h : cmderrWord acs i) : InLayer 2 i := by
  rcases h with rfl | rfl | rfl | rfl | rfl | rfl | rfl | rfl <;> exact ⟨nofun, rfl⟩

/-- Settles O57: each group lies in one layer, and the layer says what its instructions count. -/
theorem sequencerFrame : Obligations.SequencerFrame := by
  unfold Obligations.SequencerFrame
  intro s t i h
  have key : ∀ n, InLayer n i → SameCounters n s t := fun n ⟨ha, hn⟩ => hn ▸ exec_sameCounters ha h
  refine ⟨fun hi => ?_, fun A a w d v hi => ?_, fun v acs hi => ?_⟩
  · have hl : InLayer 0 i := by rcases hi with rfl | rfl | rfl | rfl | rfl <;> exact ⟨nofun, rfl⟩
    obtain ⟨hshift, hrun, hbatch, hdiscovery⟩ := key 0 hl
    obtain ⟨htries, hcmd⟩ := hshift rfl
    obtain ⟨hpolls, hbusy, hrunCmd⟩ := hrun (Nat.zero_le 1)
    exact ⟨htries, hcmd, hpolls, hbusy, hrunCmd, hbatch (Nat.zero_le 2), hdiscovery⟩
  · have hl : InLayer 1 i := by
      rcases hi with hi | hi | hi
      · exact inLayer_dmiWordOf hi
      · exact inLayer_registerWrite hi
      · rcases hi with rfl | rfl | rfl | rfl | rfl | rfl | rfl <;> exact ⟨nofun, rfl⟩
    obtain ⟨-, hrun, hbatch, hdiscovery⟩ := key 1 hl
    obtain ⟨hpolls, hbusy, hrunCmd⟩ := hrun (Nat.le_refl 1)
    exact ⟨hpolls, hbusy, hrunCmd, hbatch (Nat.le_succ 1), hdiscovery⟩
  · have hl : InLayer 2 i := by
      rcases hi with hi | hi | rfl
      · exact inLayer_commandOf hi
      · exact inLayer_cmderrWord hi
      · exact ⟨nofun, rfl⟩
    obtain ⟨-, -, hbatch, hdiscovery⟩ := key 2 hl
    exact ⟨hbatch (Nat.le_refl 2), hdiscovery⟩

end Sys2Proof.Machine
end

section
/-! An IR word, and the checks of READ_CSR_PROGBUF: operations that end after one action, or before any
(10_state.md R30, R35; 44_progbuf_csr.md R157, R160). -/

namespace Sys2Proof.Machine

/-! ## IR words -/

/-- A selection alone on the wire, which completes (R30, R64). -/
theorem runWord_txIr {s : State} {r : Reply} {rest : List Reply} (code : Byte) (sel : IrSel)
    (h : s.replies = r :: rest) (hr : r.completes) :
    ∃ t, runWord (do txIr code sel; pure .unit) s = .next t ∧ t.trace = s.trace ++ [(.writeIr code, r)]
      ∧ t.replies = rest ∧ t.irCurrent = sel ∧ SameReplay s t ∧ SameButWire s t ∧ Ended s t (.ok .unit) := by
  obtain ⟨u, e, P, hi⟩ := txIr_completes code sel h hr
  exact ⟨u.finish (.ok .unit), runWord_of_ok (bind_ok _ e), P.trace, P.replies, hi, ⟨P.last, P.valid⟩,
    { sameButWire_of_core P.core with }, ended_finish s u _ (core_field P.core State.hostOut)⟩

/-- Settles O13: either IR word is one selection. -/
theorem irWordsSelect : Obligations.IrWordsSelect := by
  unfold Obligations.IrWordsSelect
  rintro s i code sel r rest (⟨rfl, rfl, rfl⟩ | ⟨rfl, rfl, rfl⟩) h hr
  · exact runWord_txIr irCodeDtmcs .dtmcs h hr
  · exact runWord_txIr irCodeDmi .dmi h hr

/-! ## READ_CSR_PROGBUF -/

/-- A check that fails ends the request before any action, with the error of the first one that does (R157). -/
theorem readCsr_refused {s : State} {csr : Nat} {enabled : Bool} (he : s.progbufCsrEnabled = some enabled)
    (h : enabled = false ∨ 0xFFF < csr ∨ s.harts = []) :
    ∃ ns, readCsr csr s = .error (.err (if enabled = false then .strategyUnavailable
      else if 0xFFF < csr then .invalidRequest else .noCurrentHart)) (s.passed 157 ns) := by
  unfold readCsr
  rw [bind_ok _ (readReg_some he), line_require]
  cases enabled with
  | false => exact ⟨[1], rfl⟩
  | true =>
    rw [if_pos rfl, line_require, passed_passed]
    by_cases hc : csr ≤ 0xFFF
    · have hh : s.harts = [] := by simpa [Nat.not_lt.mpr hc] using h
      rw [decide_eq_true hc, if_pos rfl, look_bind, line_require, passed_passed]
      simp only [State.passed_harts, hh, List.length_nil, ne_eq, not_true_eq_false, decide_false, Nat.not_lt.mpr hc]
      exact ⟨_, rfl⟩
    · simp only [decide_eq_false hc, Nat.not_le.mp hc, if_true]
      exact ⟨_, rfl⟩

/-- A request whose body ends in an error other than TransportFailure before it issues any action (R180). -/
theorem serve_refused {s u : State} {req : Instr} {body : Op Value} {e : Error} (hp : s.phase = .ready)
    (he : e ≠ .transportFailure) (h : body (s.serving req) = .error (.err e) u) (hc : u.core = s.core)
    (ht : u.trace = s.trace) (hr : SameReplay s u) :
    ∃ t, serve req body s = .next t ∧ t.trace = s.trace ∧ SameReplay s t ∧ SameButWire s t
      ∧ Answered s t [] (.err e) := by
  have hu : (u.backTo s.label).phase = .ready := (core_field hc State.phase).trans hp
  have h2 := serve_of_error h
  rw [sessionEffect_ready hu he] at h2
  exact ⟨_, h2, by simpa using ht, ⟨by simpa using hr.lastDmiCommand, by simpa using hr.lastValid⟩,
    (sameButWire_of_core hc).answer s.label (.err e),
    answered_answer s _ _ (core_field hc State.hostOut)⟩

theorem namedEntry_eq_none {s : State} (h : ∀ k, s.currentHart = some k → s.harts.length ≤ k) :
    s.namedEntry = none := by
  rw [Option.eq_none_iff_forall_ne_some]
  intro k hk
  obtain ⟨hc, hl⟩ := namedEntry_eq_some.mp hk
  exact absurd hl (Nat.not_lt.mpr (h k hc))

theorem currentEntry_none {s : State} (h : s.namedEntry = none) : currentEntry s = .error (.err .noCurrentHart) s := by
  unfold currentEntry
  rw [look_bind, h]
  rfl

/-- `progbuf_exec` with registers that fit, and no current hart (R35, R160). -/
theorem progbufExec_noHart {s : State} {inp : List Word} {m : Nat} (hm : max inp.length m ≤ maxBackup)
    (h : s.namedEntry = none) : ∃ t, progbufExec inp m s = .error (.err .noCurrentHart) t ∧ t.trace = s.trace := by
  have hc : currentEntry ((s.passed 160 [1, 2]).moveTo ⟨160, 3⟩)
      = .error (.err .noCurrentHart) ((s.passed 160 [1, 2]).moveTo ⟨160, 3⟩) := currentEntry_none h
  unfold progbufExec
  rw [pass_bind, decide_eq_true hm, line_require, if_pos rfl, passed_passed]
  exact ⟨_, bind_error _ (line_error hc), by simp⟩

/-- Settles O44: the checks come before the upload, and `current_hart` before the backup. -/
theorem readCsrChecks : Obligations.ReadCsrChecks := by
  unfold Obligations.ReadCsrChecks
  refine ⟨fun s csr enabled hp he hbad => ?_, fun s inp m hm h => progbufExec_noHart hm (namedEntry_eq_none h)⟩
  obtain ⟨ns, hr⟩ := readCsr_refused (s := s.serving (.hostReadCsrProgbuf csr)) he hbad
  have hne : (if enabled = false then Error.strategyUnavailable
      else if 0xFFF < csr then .invalidRequest else .noCurrentHart) ≠ .transportFailure := by
    split
    · nofun
    · split <;> nofun
  obtain ⟨t, ht, hrest⟩ := serve_refused hp hne hr (by rw [passed_core, serving_core]) (by simp)
    ⟨by simp, by simp⟩
  exact ⟨t, (whenReady_ready _ hp).trans ht, hrest⟩

end Sys2Proof.Machine
end

section
/-! The bytes of a shift buffer (20_memory.md R50). -/

namespace Sys2Proof

@[simp] theorem getLsbD_lowBits (n : Nat) (v : DmiWord) (j : Nat) :
    (lowBits n v).getLsbD j = (decide (j < n) && v.getLsbD j) := by
  rw [lowBits, BitVec.getLsbD_ofNat, Nat.testBit_mod_two_pow, BitVec.testBit_toNat]
  by_cases hj : j < 97
  · simp [hj]
  · simp [BitVec.getLsbD_of_ge v j (Nat.not_lt.mp hj)]

theorem length_packBytes (n : Nat) (v : DmiWord) : (packBytes n v).length = (n + 7) / 8 := by simp [packBytes]

theorem getLsbD_of_packBytes {n j : Nat} {v : DmiWord} {b : Byte} (h : (packBytes n v)[j / 8]? = some b) :
    b.getLsbD (j % 8) = (decide (j < n) && v.getLsbD j) := by
  obtain ⟨hj, rfl⟩ := List.getElem?_eq_some_iff.mp h
  simp [packBytes, Nat.div_add_mod, Nat.mod_lt]

/-- Bit `j` of the number a byte buffer holds is bit `j mod 8` of byte `j div 8`. -/
theorem testBit_bytesToNat (bs : List Byte) (j : Nat) :
    (bytesToNat bs).testBit j = (bs.getD (j / 8) 0).getLsbD (j % 8) := by
  induction bs generalizing j with
  | nil => simp [bytesToNat]
  | cons b bs ih =>
    have hcons : bytesToNat (b :: bs) = 2 ^ 8 * bytesToNat bs + b.toNat := Nat.add_comm ..
    rw [hcons, Nat.testBit_two_pow_mul_add _ b.isLt]
    split
    · next hj => simp [Nat.div_eq_of_lt hj, Nat.mod_eq_of_lt hj, BitVec.getLsbD]
    · next hj =>
      obtain ⟨k, rfl⟩ := Nat.exists_eq_add_of_le' (Nat.not_lt.mp hj)
      rw [Nat.add_sub_cancel, ih, Nat.add_div_right k (by decide), Nat.add_mod_right, List.getD_cons_succ]

/-- A captured buffer is read as it would be sent. -/
theorem getLsbD_unpackBytes {n : Nat} (hn : n ≤ 97) (bs : List Byte) (j : Nat) :
    (unpackBytes n bs).getLsbD j = (decide (j < n) && (bs.getD (j / 8) 0).getLsbD (j % 8)) := by
  rw [unpackBytes, getLsbD_lowBits, BitVec.getLsbD_ofNat, testBit_bytesToNat]
  by_cases hj : j < n
  · simp [hj, Nat.lt_of_lt_of_le hj hn]
  · simp [hj]

end Sys2Proof

namespace Sys2Proof.Machine

/-- Settles O5: the action carries the packed bytes and its capture is unpacked; either way a bit keeps its place. -/
theorem shiftBufferLayout : Obligations.ShiftBufferLayout := by
  unfold Obligations.ShiftBufferLayout
  refine fun n hn => ⟨fun v s b rest h => ?_, fun v => ⟨length_packBytes n v, fun j b => getLsbD_of_packBytes⟩,
    getLsbD_unpackBytes hn⟩
  exact ⟨_, txShift_completes n v h trivial, issued_trace_eq _ h, by simp [h]⟩

end Sys2Proof.Machine
end

section
/-! The words that are written to a DM register when they stand alone on the wire (20_memory.md R46;
40_dmi_transaction.md R104). -/

namespace Sys2Proof.Machine

/-- Each of the seven words is the write of its value to its register. -/
theorem exec_registerWrite {s : State} {i : Instr} {address : Nat} {word : Word}
    (h : registerWrite s.params i address word) : exec i s = writeWord address word s := by
  rcases h with ⟨rfl, rfl, rfl⟩ | ⟨rfl, rfl, rfl⟩ | ⟨rfl, rfl, rfl⟩ | ⟨rfl, rfl, rfl⟩ | ⟨_, rfl, rfl, rfl⟩
    | ⟨_, rfl, rfl, rfl⟩ | ⟨rfl, rfl, rfl⟩ <;> rfl

/-- Settles O24: the word is a register write, and a register write shifts one DMI word. -/
theorem registerWordsWrite : Obligations.RegisterWordsWrite := by
  unfold Obligations.RegisterWordsWrite
  intro s lk i address word d pre rest r hi ha hs hrep hr
  have hrep' : s.replies = pre ++ [r] ++ rest := by simp [hrep]
  rw [exec_registerWrite hi]
  exact runWord_ok ((serves_dmiWrite address word d).thenPure fun _ => .unit) (List.cons_ne_nil _ _) ha hs hrep'
    (.cons hr .nil)

end Sys2Proof.Machine
end

section
/-! The decoder undoes the encoder (30_encoding.md R63). -/

namespace Sys2Proof.Laws.RoundTrip

/-- The words of any instruction decode to it, where it is well formed. -/
theorem decode_encode : ∀ i : Instr, Statement i
  | .irDtmcs => irDtmcs
  | .irDmi => irDmi
  | .dtmcsRead => dtmcsRead
  | .dtmcsDmireset => dtmcsDmireset
  | .dtmcsDmihardreset => dtmcsDmihardreset
  | .dmiNop addr data => dmiNop addr data
  | .dmiRead addr data => dmiRead addr data
  | .dmiWrite addr data => dmiWrite addr data
  | .statusNoError data => statusNoError data
  | .statusReserved data => statusReserved data
  | .statusOpFailed data => statusOpFailed data
  | .statusOpInterrupted data => statusOpInterrupted data
  | .arRead regno => arRead regno
  | .arWrite regno => arWrite regno
  | .arReadPostinc regno => arReadPostinc regno
  | .arWritePostinc regno => arWritePostinc regno
  | .arPostexec => arPostexec
  | .cmderrNone acs => cmderrNone acs
  | .cmderrBusy acs => cmderrBusy acs
  | .cmderrNotSupported acs => cmderrNotSupported acs
  | .cmderrException acs => cmderrException acs
  | .cmderrHaltResume acs => cmderrHaltResume acs
  | .cmderrBus acs => cmderrBus acs
  | .cmderrReserved acs => cmderrReserved acs
  | .cmderrOther acs => cmderrOther acs
  | .acsClear => acsClear
  | .autoexecSentinel => autoexecSentinel
  | .autoexecArm => autoexecArm
  | .autoexecDisarm => autoexecDisarm
  | .dmcontrolHartsel index => dmcontrolHartsel index
  | .csrrsX1 csr => csrrsX1 csr
  | .ebreak => ebreak
  | .hostAttach idcode => hostAttach idcode
  | .hostDetach => hostDetach
  | .hostDmiRead address => hostDmiRead address
  | .hostDmiWrite address word => hostDmiWrite address word
  | .hostRun commandWord => hostRun commandWord
  | .hostReadRegs baseId count => hostReadRegs baseId count
  | .hostWriteRegs baseId values => hostWriteRegs baseId values
  | .hostReadCsrProgbuf csrId => hostReadCsrProgbuf csrId
  | .hostSelectHart index => hostSelectHart index

end Sys2Proof.Laws.RoundTrip

namespace Sys2Proof

/-- Settles O1: one round trip for each instruction. -/
theorem encodeThenDecode : Obligations.EncodeThenDecode := by
  unfold Obligations.EncodeThenDecode
  exact fun p A i => Laws.RoundTrip.decode_encode i p A

end Sys2Proof
end

section
/-! The fields of an encoded word, and the word that has given fields (30_encoding.md R72, R73, R79, R83). -/

namespace Sys2Proof

/-! ## DMI words -/

/-- Settles O3: the sum of the fields, and the extraction of each of them. -/
theorem dmiWordFields : Obligations.DmiWordFields := by
  unfold Obligations.DmiWordFields
  refine fun A op addr data hA => ⟨dmiEncode_toNat op addr data hA, fun ha => ?_⟩
  rw [dmiDecode, dmiOp_encode op addr data hA, dmiData_encode op addr data hA, dmiAddr_encode op addr data hA,
    Nat.mod_eq_of_lt ha]

/-- A word of at most `34 + A` bits is the encoding of its three fields (R72). -/
theorem dmiEncode_fields {A : Nat} (hA : A ≤ 63) {w : DmiWord} (hw : w.toNat < 2 ^ dmiWidth A) :
    dmiEncode (dmiOp w) (dmiAddr w A) (dmiData w) A = w := by
  have hhigh : w.toNat / 2 ^ 34 < 2 ^ A := Nat.div_lt_of_lt_mul (by rwa [← Nat.pow_add])
  apply BitVec.eq_of_toNat_eq
  rw [dmiEncode_toNat _ _ _ hA, dmiOp_eq, dmiData_eq, dmiAddr, Nat.mod_mod, Nat.mod_eq_of_lt hhigh]
  omega

/-- An address read from a word fits the 63 bits of an instruction's operand. -/
theorem toNat_ofNat_dmiAddr {A : Nat} (hA : A ≤ 63) (w : DmiWord) :
    (BitVec.ofNat 63 (dmiAddr w A)).toNat = dmiAddr w A := by
  have : dmiAddr w A < 2 ^ A := Nat.mod_lt _ (Nat.two_pow_pos A)
  exact Nat.mod_eq_of_lt (this.trans_le (Nat.pow_le_pow_right (by decide) hA))

/-! ## hart-select -/

/-- R73, the two halves in the layout of the source. -/
theorem hartselField_halves (i : BitVec 20) :
    (hartselField .doc i).extractLsb' 6 10 = i.extractLsb' 0 10
      ∧ (hartselField .doc i).extractLsb' 16 10 = i.extractLsb' 10 10 := by
  unfold hartselField
  simp only [BitVec.extractLsb'_or]
  constructor
  · rw [field_at _ (by omega), field_below _ (by omega)]
    simp
  · rw [field_at _ (by omega), field_above _ (by omega)]
    simp

/-- Settles O4: the fields of hart-select, which DMCONTROL_BASE leaves clear. -/
theorem hartselWord : Obligations.HartselWord := by
  unfold Obligations.HartselWord
  refine ⟨fun i => ⟨(hartselField_halves i).1, (hartselField_halves i).2, hartselField_and .doc i⟩, fun _ => rfl,
    fun p i => ⟨rfl, hartselDecode_dmcontrol p i, dmcontrolWord_and p i⟩, fun l => ?_⟩
  cases l <;> rfl

/-- Encoding what hart-select reads keeps the bits of hart-select and clears the others. -/
theorem hartselField_decode (l : HartselLayout) (w : Word) :
    hartselField l (hartselDecode l w) = w &&& 0x03FFFFC0 := by
  apply BitVec.eq_of_getLsbD_eq
  intro k hk
  cases l <;>
  · simp only [hartselField, hartselDecode, BitVec.getLsbD_and, BitVec.getLsbD_or, BitVec.getLsbD_shiftLeft,
      BitVec.getLsbD_setWidth, BitVec.getLsbD_extractLsb', BitVec.getLsbD_append]
    interval_cases k <;> simp

/-- A word whose other bits are DMCONTROL_BASE is the word of what hart-select reads from it. -/
theorem dmcontrolWord_decode {p : Params} {w : Word} (h : w &&& 0xFC00003F = p.dmcontrolBase) :
    dmcontrolWord p (hartselDecode p.hartselLayout w) = w := by
  have hmask : (0xFC00003F : Word) ||| 0x03FFFFC0 = BitVec.allOnes 32 := by decide
  rw [dmcontrolWord, hartselField_decode, ← h, ← BitVec.and_or_distrib_left, hmask, BitVec.and_allOnes]

/-! ## Command words -/

/-- A word whose upper half is that of a command is that command with the register its lower half names. -/
theorem eq_command {w c : Word} (hc : c.extractLsb' 0 16 = 0) (h : w.extractLsb' 16 16 = c.extractLsb' 16 16) :
    w = c ||| (w.extractLsb' 0 16).setWidth 32 :=
  word_ext (h.trans (command_form c _).symm) (command_regno c _ hc).symm

/-- Settles O6: the upper half of the word selects the form, and the lower half is free in all but one. -/
theorem commandForms : Obligations.CommandForms := by
  unfold Obligations.CommandForms
  intro w i
  constructor
  · intro h
    simp only [decodeCmdAr] at h
    split_ifs at h with hpost hread hwrite hreadInc hwriteInc <;> cases h
    · exact .inl ⟨hpost, rfl⟩
    · exact .inr ⟨_, .inl ⟨eq_command (by decide) hread, rfl⟩⟩
    · exact .inr ⟨_, .inr (.inl ⟨eq_command (by decide) hwrite, rfl⟩)⟩
    · exact .inr ⟨_, .inr (.inr (.inl ⟨eq_command (by decide) hreadInc, rfl⟩))⟩
    · exact .inr ⟨_, .inr (.inr (.inr ⟨eq_command (by decide) hwriteInc, rfl⟩))⟩
  · rintro (⟨rfl, rfl⟩ | ⟨r, ⟨rfl, rfl⟩ | ⟨rfl, rfl⟩ | ⟨rfl, rfl⟩ | ⟨rfl, rfl⟩⟩)
    · rfl
    · exact Laws.RoundTrip.decodeCmdAr_form 0x00220000 r (by decide) (by decide)
    · exact Laws.RoundTrip.decodeCmdAr_form 0x00230000 r (by decide) (by decide)
    · exact Laws.RoundTrip.decodeCmdAr_form 0x002A0000 r (by decide) (by decide)
    · exact Laws.RoundTrip.decodeCmdAr_form 0x002B0000 r (by decide) (by decide)

/-! ## Program-buffer words -/

/-- A word whose low 20 bits are those of `csrrs x1, csr, x0` is that instruction, for the csr of its upper bits. -/
theorem csrrsX1Word_decode {w : Word} (h : w.extractLsb' 0 20 = (0x020F3 : BitVec 20)) :
    csrrsX1Word (w.extractLsb' 20 12) = w := by
  have hlow := congrArg BitVec.toNat ((csrrs_low (w.extractLsb' 20 12)).trans h.symm)
  have hhigh := congrArg BitVec.toNat (csrrs_high (w.extractLsb' 20 12))
  simp only [BitVec.extractLsb'_toNat, Nat.shiftRight_eq_div_pow] at hlow hhigh
  apply BitVec.eq_of_toNat_eq
  omega

end Sys2Proof
end

section
/-! The encoding of what each decoder reads: no reserved word is taken for an instruction (30_encoding.md R85). -/

namespace Sys2Proof

section

variable {p : Params} {A : Nat} {i : Instr}

theorem encode_of_decodeIr {c : Byte} (h : decodeIr c = .ok i) :
    encode p A i = .wire { format := .ir, bits := c.setWidth 97 } := by
  unfold decodeIr at h
  split_ifs at h with hc hc <;> cases h
  all_goals rw [hc]; rfl

theorem encode_of_decodeDtmcsW {w : Word} (h : decodeDtmcsW w = .ok i) : encode p A i = wire32 .dtmcsW w := by
  unfold decodeDtmcsW at h
  split_ifs at h with hw hw hw <;> cases h
  all_goals rw [hw]; rfl

theorem encode_of_decodeDmiReq (hA : A ≤ 63) {w : DmiWord} (hw : w.toNat < 2 ^ dmiWidth A)
    (h : decodeDmiReq A w = .ok i) : encode p A i = .wire { format := .dmiReq, bits := w } := by
  have hword : dmiEncode (dmiOp w) (BitVec.ofNat 63 (dmiAddr w A)).toNat (dmiData w) A = w := by
    rw [toNat_ofNat_dmiAddr hA, dmiEncode_fields hA hw]
  simp only [decodeDmiReq] at h
  split_ifs at h with hop hop hop <;> cases h
  all_goals rw [hop] at hword; rw [encode, hword]

theorem encode_of_decodeCmdAr {w : Word} (h : decodeCmdAr w = .ok i) : encode p A i = wire32 .cmdAr w := by
  rcases (commandForms w i).mp h with
    ⟨rfl, rfl⟩ | ⟨r, ⟨rfl, rfl⟩ | ⟨rfl, rfl⟩ | ⟨rfl, rfl⟩ | ⟨rfl, rfl⟩⟩ <;> rfl

theorem encode_of_decodeAutoexec {w : Word} (h : decodeAutoexec w = .ok i) : encode p A i = wire32 .autoexec w := by
  unfold decodeAutoexec at h
  split_ifs at h with hw hw hw <;> cases h
  all_goals rw [hw]; rfl

theorem encode_of_decodeDmcontrol {w : Word} (h : decodeDmcontrol p w = .ok i) :
    encode p A i = wire32 .dmcontrol w := by
  unfold decodeDmcontrol at h
  split_ifs at h with hw
  cases h
  rw [encode, dmcontrolWord_decode hw]

theorem encode_of_decodeRv32 {w : Word} (h : decodeRv32 w = .ok i) : encode p A i = wire32 .rv32 w := by
  unfold decodeRv32 at h
  split_ifs at h with hw hw <;> cases h
  · rw [hw]
    rfl
  · rw [encode, csrrsX1Word_decode hw]

/-- A word that fits a narrower format is that format's word, zero extended. -/
theorem wire_setWidth {n : Nat} {f : Format} {w : DmiWord} (h : w.toNat < 2 ^ n) :
    RawWord.wire { format := f, bits := (w.setWidth n).setWidth 97 } = .wire { format := f, bits := w } := by
  have hbits : (w.setWidth n).setWidth 97 = w := by
    apply BitVec.eq_of_toNat_eq
    rw [BitVec.toNat_setWidth, BitVec.toNat_setWidth, Nat.mod_eq_of_lt h, Nat.mod_eq_of_lt w.isLt]
  rw [hbits]

theorem lt_of_decodeWire {w : WireWord} (h : decodeWire p A w = .ok i) : w.bits.toNat < 2 ^ w.format.width A := by
  by_contra hwide
  rw [decodeWire, if_pos (Nat.le_of_not_lt hwide)] at h
  cases h

/-- A word of the wire that decodes, the captured ones aside, is the word of its instruction (R85). -/
theorem encode_of_decodeWire (hA : A ≤ 63) {w : WireWord} (hrsp : w.format ≠ .dmiRsp) (hacs : w.format ≠ .acsRead)
    (h : decodeWire p A w = .ok i) : encode p A i = .wire w := by
  have hw := lt_of_decodeWire h
  rw [decodeWire, if_neg (Nat.not_le.mpr hw)] at h
  obtain ⟨f, w⟩ := w
  cases f with
  | ir => exact (encode_of_decodeIr h).trans (wire_setWidth hw)
  | dtmcsW => exact (encode_of_decodeDtmcsW h).trans (wire_setWidth hw)
  | dmiReq => exact encode_of_decodeDmiReq hA hw h
  | dmiRsp => exact absurd rfl hrsp
  | cmdAr => exact (encode_of_decodeCmdAr h).trans (wire_setWidth hw)
  | acsRead => exact absurd rfl hacs
  | acsWrite =>
    simp only at h
    split_ifs at h with hclear
    cases h
    exact (congrArg (wire32 .acsWrite) hclear.symm).trans (wire_setWidth hw)
  | autoexec => exact (encode_of_decodeAutoexec h).trans (wire_setWidth hw)
  | dmcontrol => exact (encode_of_decodeDmcontrol h).trans (wire_setWidth hw)
  | rv32 => exact (encode_of_decodeRv32 h).trans (wire_setWidth hw)

/-! ## Host requests -/

theorem toNat_of_operand {n v : Nat} {x : BitVec n} (h : operand n v = .ok x) : x.toNat = v := by
  unfold operand at h
  split_ifs at h with hv
  cases h
  exact Nat.mod_eq_of_lt hv

theorem operand_map_ok_inv {n v : Nat} {f : BitVec n → Instr} (h : (operand n v).map f = .ok i) :
    ∃ x : BitVec n, x.toNat = v ∧ f x = i := by
  cases hx : operand n v with
  | error e => rw [hx] at h; cases h
  | ok x => rw [hx] at h; cases h; exact ⟨x, toNat_of_operand hx, rfl⟩

theorem map_toNat_of_wordOperands : ∀ {vs : List Nat} {ws : List Word}, wordOperands vs = .ok ws →
    ws.map BitVec.toNat = vs
  | [], _, h => by cases h; rfl
  | v :: vs, _, h => by
    unfold wordOperands at h
    split at h
    · next hv hvs =>
      cases h
      rw [List.map_cons, toNat_of_operand hv, map_toNat_of_wordOperands hvs]
    · cases h

/-- A request word is known by the number of its code and its operands. -/
theorem hostWord_eq {w : HostWord} {c : Byte} {ops : List Nat} (hc : w.code.toNat = c.toNat) (ho : w.operands = ops) :
    hostWord c ops = .host w := by
  obtain ⟨code, operands⟩ := w
  cases BitVec.eq_of_toNat_eq hc
  cases ho
  rfl

/-- A request word that decodes is the word of its request (R88). -/
theorem encode_of_decodeHost {w : HostWord} (h : decodeHost w = .ok i) : encode p A i = .host w := by
  unfold decodeHost at h
  split at h
  case h_1 hc ho | h_4 hc ho | h_5 hc ho | h_6 hc ho =>
    obtain ⟨x, rfl, rfl⟩ := operand_map_ok_inv h
    exact hostWord_eq hc ho
  case h_7 hc ho =>
    split at h
    · next hb hvs =>
      cases h
      rw [← toNat_of_operand hb, ← map_toNat_of_wordOperands hvs] at ho
      exact hostWord_eq hc ho
    · cases h
  case h_2 hc ho | h_3 hc ho | h_8 hc ho | h_9 hc ho =>
    cases h
    exact hostWord_eq hc ho
  case h_10 => split_ifs at h

end

/-- Settles O2: format by format, and the host requests. -/
theorem decodedWordIsTheEncoding : Obligations.DecodedWordIsTheEncoding := by
  unfold Obligations.DecodedWordIsTheEncoding
  exact fun p A i hA => ⟨fun w => encode_of_decodeWire hA, fun w => encode_of_decodeHost⟩

/-- Settles O7: the decoder run on each word. -/
theorem wordsOfTheSpecDecode : Obligations.WordsOfTheSpecDecode := by
  unfold Obligations.WordsOfTheSpecDecode
  exact ⟨rfl, rfl, rfl, rfl, rfl, rfl, rfl, rfl, rfl, rfl, rfl, rfl⟩

end Sys2Proof
end

section
/-! The lone DTMCS words, the requests outside their phase and the version tables (30_encoding.md R66, R67, R75,
R88). -/

namespace Sys2Proof.Machine

/-- A word whose operation completes without an error ends with its value; what it put on the lower port, and the
selected instruction, stay. -/
theorem runWord_puts {α : Type} {x : Op α} {f : α → Value} {s u : State} {a : α} {ls : List (Action × Reply)}
    {ms : List (List Line)} {rest : List Reply} (e : x s = .ok a u) (P : Put s u ls ms rest) :
    ∃ t, runWord (do let d ← x; pure (f d)) s = .next t ∧ t.trace = s.trace ++ ls ∧ t.replies = rest
      ∧ t.irCurrent = u.irCurrent ∧ SameReplay s t ∧ SameButWire s t ∧ Ended s t (.ok (f a)) :=
  ⟨u.finish (.ok (f a)), runWord_of_ok (bind_ok _ e), P.trace, P.replies, rfl, ⟨P.last, P.valid⟩,
    { sameButWire_of_core P.core with }, ended_finish s u _ (core_field P.core State.hostOut)⟩

/-- Settles O14: each word is one DTMCS shift of its value. -/
theorem dtmcsWordsShift : Obligations.DtmcsWordsShift := by
  unfold Obligations.DtmcsWordsShift
  rintro s i v a b rest out (⟨rfl, rfl, rfl⟩ | ⟨rfl, rfl, rfl⟩ | ⟨rfl, rfl, rfl⟩) h ha
  · obtain ⟨u, e, P, hi⟩ := dtmcs_run 94 dtmcsReadValue (BitVec.setWidth 32) h ha trivial
    exact hi ▸ runWord_puts (x := readDtmcs) (f := .word) e P
  · obtain ⟨u, e, P, hi⟩ := dtmcs_run 92 dtmcsDmiresetValue (fun _ => ()) h ha trivial
    exact hi ▸ runWord_puts (x := softReset) (f := fun _ => .unit) e P
  · obtain ⟨u, e, P, hi⟩ := dtmcs_run 93 dtmcsDmihardresetValue (fun _ => ()) h ha trivial
    exact hi ▸ runWord_puts (x := hardReset) (f := fun _ => .unit) e P

theorem sameButWire_turnAway (s : State) : SameButWire s (turnAway s) where
  toSameSession := sameSession_turnAway s
  toSameHost := by constructor <;> simp [turnAway]
  harts := by simp [turnAway]
  currentHart := by simp [turnAway]

/-- Settles O31: outside its phase a request is turned away. -/
theorem wrongPhaseIsTurnedAway : Obligations.WrongPhaseIsTurnedAway := by
  unfold Obligations.WrongPhaseIsTurnedAway
  exact fun s i hi hadm => ⟨turnAway s, exec_away hi hadm, by simp [turnAway], by simp [turnAway], by simp [turnAway],
    ⟨rfl, rfl⟩, sameButWire_turnAway s, answered_away s⟩

/-- Settles O59: the sixteen values of each version field, and the two cases of the resolution. -/
theorem versionTables : Obligations.VersionTables := by
  unfold Obligations.VersionTables
  refine ⟨by decide, by decide, fun dm dtm => ?_⟩
  cases dm <;> rfl

end Sys2Proof.Machine
end

section
/-! The ends of a DMI word with one capture or none left to take, and the two DMI requests (40_dmi_transaction.md R97,
R99, R100, R103 to R109). -/

namespace Sys2Proof.Machine

variable {lk : Link}

/-! ## The ways out of a capture -/

/-- A capture with status RESERVED or OP_FAILED leads to the soft reset and the error (R100). -/
theorem onStatus_failed {st : DmiStatus} (hst : st = .reserved ∨ st = .opFailed) (again : Op Word) {r : DmiWord}
    (h : dmiOp r = st.toBits) (s : State) :
    onStatus again r s
      = (do pass 95 [10]; line 95 21 softReset; line 95 22 (raise (.dmiOperationFailed st.toBits))) s := by
  unfold onStatus
  rw [h, ofBits_toBits]
  rcases hst with rfl | rfl <;> rfl

/-- A word that comes, in the state `u`, to a soft reset before an error, in a Ready session (R99, R100, R180). -/
theorem runWord_resets {x : Op Word} {s u : State} {ns : List Nat} {m k : Nat} {e : Error} {a b : Reply}
    {rest : List Reply} (h : x s = (do pass 95 ns; line 95 m softReset; line 95 k (raise e)) u)
    (he : e ≠ .transportFailure) (hp : s.phase = .ready) (hrep : u.replies = a :: b :: rest) (ha : a.completes)
    (hb : b.completes) (hr : SameReplay s u) (hc : u.core = s.core) :
    ∃ t, runWord (do let d ← x; pure (.word d)) s = .next t ∧ t.trace = u.trace ++ softResetLines a b
      ∧ t.replies = rest ∧ t.irCurrent = .dtmcs ∧ SameReplay s t ∧ SameButWire s t ∧ Ended s t (.err e) := by
  obtain ⟨v, e1, P, hi⟩ := resetThenRaise_run (α := Word) ns m k e hrep ha hb
  have hcv : v.core = s.core := P.core.trans hc
  have hpv : v.phase = .ready := (core_field hcv State.phase).trans hp
  refine ⟨v.finish (.err e), ?_, P.trace, P.replies, hi, ⟨P.last.trans hr.lastDmiCommand, P.valid.trans hr.lastValid⟩,
    { sameButWire_of_core hcv with }, ended_finish s v _ (core_field hcv State.hostOut)⟩
  rw [runWord_of_error (bind_error _ (h.trans e1)), sessionEffect_ready hpv he]

/-! ## DMI words -/

/-- Settles O17: the first capture leads to the soft reset and the error. -/
theorem failedStatusResets : Obligations.FailedStatusResets := by
  unfold Obligations.FailedStatusResets
  intro s lk i w st d pre rest r a b hi hst hp hw hs hrep hr ha hb
  obtain ⟨op, addr, v, rfl, he⟩ := exec_dmiWord hi
  obtain ⟨u, e, htr, hre, -, -, hl, hv, -, -, hc⟩ := dmiShift_first (dmiEncode op addr v) hr.completes hw hs hrep
  rw [onStatus_failed hst _ hr.value.1] at e
  obtain ⟨t, ht, ttr, hrest⟩ := runWord_resets e Error.noConfusion hp hre ha hb ⟨hl, hv⟩ hc
  exact ⟨t, (he s).trans ht, by rw [ttr, htr]; simp, hrest⟩

/-- Settles O19: after the rounds of `dmiShift_rounds` no recovery is left, and the next interrupted capture leads to
the soft reset and the error. -/
theorem retryBoundExhausted : Obligations.RetryBoundExhausted := by
  unfold Obligations.RetryBoundExhausted
  intro s lk i w d pre rest qs r a b hi hp hk hs hrep hq hn hr ha hb
  obtain ⟨op, addr, v, rfl, he⟩ := exec_dmiWord hi
  obtain ⟨u, e, htr, hre, -, -, hl, hv, -, -, hc⟩ :=
    dmiShift_rounds (dmiEncode op addr v) qs hk hq hn.le hr.completes hs hrep
  rw [hn, Nat.sub_self, onStatus_exhausted hr.value.1] at e
  obtain ⟨t, ht, ttr, hrest⟩ := runWord_resets e Error.noConfusion hp hre ha hb ⟨hl, hv⟩ hc
  exact ⟨t, (he s).trans ht, by rw [ttr, htr, List.append_assoc], hrest⟩

/-! ## Captured words -/

/-- Settles O21: a captured NO_ERROR passes five lines and records the word in force. -/
theorem statusNoErrorRecords : Obligations.StatusNoErrorRecords := by
  unfold Obligations.StatusNoErrorRecords
  intro s d
  obtain ⟨u, hu⟩ : ∃ u, u = s.passed 95 [5, 6, 7, 8, 9] := ⟨_, rfl⟩
  have P : Put s u [] (movesAt 95 [5, 6, 7, 8, 9] s.label) s.replies := hu ▸ put_pass 95 _ rfl
  have h : dmiClassify s.recoveriesLeft (dmiResponse .noError d) s = .ok d u.recordSuccess := by
    rw [dmiClassify_run, onStatus_noError _ _ _ (dmiOp_response .noError d), dmiData_response, passed_passed, hu]
    rfl
  have hx := (classifyCapture_eq .noError d s).trans (runWord_of_ok (bind_ok (fun d => pure (Value.word d)) h))
  exact ⟨_, hx, congrArg some P.cmd, rfl, by simpa using P.trace, P.replies, hu ▸ rfl,
    { sameButWire_of_core P.core with }, ended_finish s _ _ (core_field P.core State.hostOut)⟩

/-- A captured RESERVED or OP_FAILED fails the shift in force (R100, R107). -/
theorem classifyCapture_failed {st : DmiStatus} (hst : st = .reserved ∨ st = .opFailed) (d : Word) {s : State}
    {a b : Reply} {rest : List Reply} (hp : s.phase = .ready) (hrep : s.replies = a :: b :: rest) (ha : a.completes)
    (hb : b.completes) :
    ∃ t, classifyCapture st d s = .next t ∧ t.trace = s.trace ++ softResetLines a b ∧ t.replies = rest
      ∧ t.irCurrent = .dtmcs ∧ SameReplay s t ∧ SameButWire s t ∧ Ended s t (.err (.dmiOperationFailed st.toBits)) := by
  have h := (dmiClassify_run s.recoveriesLeft (dmiResponse st d) s).trans
    (onStatus_failed hst _ (dmiOp_response st d) (s.passed 95 [5, 6]))
  exact runWord_resets (u := s.passed 95 [5, 6]) h Error.noConfusion hp hrep ha hb ⟨rfl, rfl⟩ rfl

/-- Settles O22: the two statuses that fail. -/
theorem statusFailedResets : Obligations.StatusFailedResets := by
  unfold Obligations.StatusFailedResets
  rintro s d i st rest a b (⟨rfl, rfl⟩ | ⟨rfl, rfl⟩) hp hrep ha hb
  · exact classifyCapture_failed (.inl rfl) d hp hrep ha hb
  · exact classifyCapture_failed (.inr rfl) d hp hrep ha hb

/-! ## DMI requests -/

/-- Settles O33: the body of each request serves the words of `dmi_read` or `dmi_write`. -/
theorem dmiRequests : Obligations.DmiRequests := by
  unfold Obligations.DmiRequests
  intro s lk address word d v pre rs rest hp hw hs hrep
  constructor
  · intro hq
    have hbody := ((serves_dmiRead (lk := lk) (p := s.params) address d v).line 108 1).thenPure Value.word
    obtain ⟨t, ht, hrest⟩ := serve_shifts (req := .hostDmiRead address) hbody (List.cons_ne_nil _ _) hw hs hrep hq
    exact ⟨t, (whenReady_ready _ hp).trans ht, hrest⟩
  · intro hq
    have hbody := ((serves_dmiWrite (lk := lk) (p := s.params) address word d).line 109 1).thenPure fun _ => Value.unit
    obtain ⟨t, ht, hrest⟩ := serve_shifts (req := .hostDmiWrite address word) hbody (List.cons_ne_nil _ _) hw hs hrep hq
    exact ⟨t, (whenReady_ready _ hp).trans ht, hrest⟩

end Sys2Proof.Machine
end

section
/-! SUPPORT. How many transport actions a DMI word can take, and that nothing but a success writes the replay register
(40_dmi_transaction.md R97 to R100, R113). -/

namespace Sys2Proof.Machine

variable {α β : Type}

/-! ## What an operation may spend -/

/-- Between `s` and `t` at most `n` transport actions were issued and what `State.core` holds stayed; the replay
register stayed too, unless the operation `records` its word. -/
structure Spent (records : Prop) (n : Nat) (s t : State) : Prop where
  core : t.core = s.core
  trace : t.trace.length ≤ s.trace.length + n
  replay : ¬ records → SameReplay s t

variable {records : Prop} {m n : Nat} {p : Params}

theorem Spent.mono {s t : State} (h : Spent records m s t) (hn : m ≤ n) : Spent records n s t :=
  ⟨h.core, h.trace.trans (Nat.add_le_add_left hn _), h.replay⟩

/-- An operation that records nothing, then one that may. -/
theorem Spent.trans {s t u : State} (h : Spent False m s t) (g : Spent records n t u) : Spent records (m + n) s u where
  core := g.core.trans h.core
  trace := by
    have hm := h.trace
    have hn := g.trace
    omega
  replay hr := by
    have a := h.replay not_false
    have b := g.replay hr
    exact ⟨b.lastDmiCommand.trans a.lastDmiCommand, b.lastValid.trans a.lastValid⟩

/-- A change that is none of the port's, nor of the replay register. -/
theorem Spent.free {s t : State} (hc : t.core = s.core) (ht : t.trace = s.trace) (hr : SameReplay s t) :
    Spent records 0 s t := ⟨hc, ht ▸ le_rfl, fun _ => hr⟩

/-- How an operation that started in `s` ended: only a result can have been recorded. -/
def EndsSpent (records : Prop) (n : Nat) (s : State) : EStateM.Result Stop State α → Prop
  | .ok _ t => Spent records n s t
  | .error _ t => Spent False n s t

theorem EndsSpent.after {s t : State} (h : Spent False m s t) : ∀ {r : EStateM.Result Stop State α},
    EndsSpent records n t r → EndsSpent records (m + n) s r
  | .ok _ _, h2 => h.trans h2
  | .error _ _, h2 => h.trans h2

/-- With the parameters `p` every run of the operation issues at most `n` transport actions, and it writes the replay
register only where it `records` its word and ends with a result. -/
def Costs (p : Params) (records : Prop) (n : Nat) (x : Op α) : Prop :=
  ∀ s : State, s.params = p → EndsSpent records n s (x s)

theorem Costs.ok {x : Op α} {s t : State} {a : α} (h : Costs s.params records n x) (e : x s = .ok a t) :
    Spent records n s t := by
  have := h s rfl; rwa [e] at this

theorem Costs.error {x : Op α} {s t : State} {e' : Stop} (h : Costs s.params records n x) (e : x s = .error e' t) :
    Spent False n s t := by
  have := h s rfl; rwa [e] at this

theorem Costs.mono {x : Op α} (h : Costs p records m x) (hn : m ≤ n) : Costs p records n x := by
  intro s hs
  have hx := h s hs
  cases e : x s <;> rw [e] at hx <;> exact Spent.mono hx hn

/-! ## The rules -/

theorem costs_pure (a : α) : Costs p records 0 (pure a : Op α) := fun _ _ => .free rfl rfl ⟨rfl, rfl⟩

theorem costs_raise (e : Error) : Costs p records 0 (raise e : Op α) := fun _ _ => .free rfl rfl ⟨rfl, rfl⟩

theorem costs_pass (r : Nat) (ns : List Nat) : Costs p records 0 (pass r ns) := fun _ _ => .free rfl rfl ⟨rfl, rfl⟩

theorem costs_update {f : State → State} (hc : ∀ s, (f s).core = s.core) (ht : ∀ s, (f s).trace = s.trace)
    (hr : ∀ s, SameReplay s (f s)) : Costs p records 0 (update f) := fun s _ => .free (hc s) (ht s) (hr s)

theorem costs_readReg (r : SessionReg) (f : State → Option α) : Costs p records 0 (readReg r f) := by
  intro s _
  cases h : f s with
  | some a => rw [readReg_some h]; exact .free rfl rfl ⟨rfl, rfl⟩
  | none => rw [readReg_none h]; exact .free rfl rfl ⟨rfl, rfl⟩

/-- An operation that records nothing, then one that may. -/
theorem Costs.bind {x : Op α} {f : α → Op β} (hx : Costs p False m x) (hf : ∀ a, Costs p records n (f a)) :
    Costs p records (m + n) (x >>= f) := by
  intro s hs
  have h := hx s hs
  cases e : x s with
  | ok a t =>
    rw [e] at h
    rw [bind_ok f e]
    exact .after h (hf a t ((core_field h.core State.params).trans hs))
  | error e' t =>
    rw [e] at h
    rw [bind_error f e]
    exact Spent.mono h (Nat.le_add_right m n)

theorem costs_looking {f : State → α} {g : α → Op β} (hg : ∀ a, Costs p records n (g a)) :
    Costs p records n (look f >>= g) := fun s hs => hg (f s) s hs

/-- The parameters read. -/
theorem costs_params {g : Params → Op β} (hg : Costs p records n (g p)) :
    Costs p records n (look State.params >>= g) := by
  intro s hs
  rw [look_bind, hs]
  exact hg s hs

theorem Costs.line {x : Op α} (hx : Costs p records n x) (r k : Nat) : Costs p records n (line r k x) := by
  intro s hs
  have h := hx (s.moveTo ⟨r, k⟩) hs
  cases e : x (s.moveTo ⟨r, k⟩) with
  | ok a t => rw [e] at h; rw [line_ok e]; exact ⟨h.core, h.trace, fun hr => { h.replay hr with }⟩
  | error e' t => rw [e] at h; rw [line_error e]; exact ⟨h.core, h.trace, fun hr => { h.replay hr with }⟩

/-- A result made from the result. -/
theorem Costs.thenPure {x : Op α} (hx : Costs p records n x) (f : α → β) :
    Costs p records n (do let a ← x; pure (f a)) := by
  intro s hs
  have h := hx s hs
  cases e : x s with
  | ok a t => rw [e] at h; rw [bind_ok _ e]; exact h
  | error e' t => rw [e] at h; rw [bind_error _ e]; exact h

/-! ## The operations of the DMI layer -/

theorem costs_act (a : Action) : Costs p False 1 (act a) := by
  intro s _
  have h : Spent False 1 s (s.issued a) := ⟨rfl, by simp, fun _ => ⟨rfl, rfl⟩⟩
  unfold act
  cases s.nextReply <;> exact h

theorem costs_txIr (c : Byte) (sel : IrSel) : Costs p False 1 (txIr c sel) :=
  (costs_act _).bind fun _ =>
    costs_update (f := (State.selectIr · sel)) (fun _ => rfl) (fun _ => rfl) fun _ => ⟨rfl, rfl⟩

theorem costs_txShift (k : Nat) (w : DmiWord) : Costs p False 1 (txShift k w) := (costs_act _).thenPure _

theorem costs_softReset : Costs p False 2 softReset :=
  ((costs_txIr _ _).line _ _).bind fun _ => ((costs_txShift _ _).line _ _).thenPure fun _ => ()

theorem costs_ensureDmi : Costs p False 1 ensureDmi := by
  refine Costs.line (fun s hs => ?_) 102 1
  by_cases h : s.irCurrent = .dmi
  · rw [if_pos h]; exact (costs_pure ()).mono (Nat.zero_le 1) s hs
  · rw [if_neg h]; exact costs_txIr _ _ s hs

theorem costs_addressWidth : Costs p False 0 addressWidth := (costs_readReg _ _).thenPure _

theorem costs_shiftDmi (w : DmiWord) : Costs p False 1 (shiftDmi w) :=
  costs_addressWidth.bind fun _ => costs_txShift _ w

theorem costs_replayWord : Costs p False 0 replayWord := by
  refine costs_looking fun valid => ?_
  cases valid
  · exact costs_pure nopWord
  · exact costs_readReg _ _

theorem costs_replay : Costs p False 1 replay :=
  costs_replayWord.bind fun w => (costs_shiftDmi w).thenPure fun _ => ()

theorem costs_recoveryIdle : Costs p False 1 recoveryIdle := by
  refine (costs_readReg _ _).bind (n := 1) fun idle => ?_
  split
  · exact (costs_act _).thenPure fun _ => ()
  · exact (costs_pure ()).mono (Nat.zero_le 1)

/-- A recovery: the soft reset, the selection, the replay and the idle clocks (R98). -/
theorem costs_recover : Costs p False 5 recover :=
  have hcount : Costs p False 0 (update State.countRecovery) :=
    costs_update (fun _ => rfl) (fun _ => rfl) fun _ => ⟨rfl, rfl⟩
  (hcount.line _ _).bind (n := 5) fun _ =>
  (costs_softReset.line _ _).bind (n := 3) fun _ =>
  ((costs_txIr _ _).line _ _).bind (n := 2) fun _ =>
  (costs_replay.line _ _).bind (n := 1) fun _ =>
  (costs_recoveryIdle.line _ _).bind (n := 0) fun _ => costs_pass _ _

theorem costs_shiftCmd : Costs p False 1 shiftCmd :=
  (costs_pass _ _).bind fun _ => (costs_looking fun w => costs_shiftDmi w).line _ _

/-- The one place where the replay register is written (R97). -/
theorem costs_recordShift (r : DmiWord) : Costs p True 0 (recordShift r) := by
  intro s _
  rw [recordShift_eq]
  exact ⟨rfl, le_rfl, fun h => absurd trivial h⟩

theorem costs_statusFailed (st : BitVec 2) : Costs p True 2 (statusFailed st) :=
  (costs_pass _ _).bind (n := 2) fun _ => (costs_softReset.line _ _).bind fun _ => (costs_raise _).line _ _

theorem costs_classifyWith {again : Op Word} (h : Costs p True n again) (hn : 2 ≤ n) (r : DmiWord) :
    Costs p True n (classifyWith again r) := by
  have hs : Costs p True n (onStatus again r) := by
    unfold onStatus
    split
    · exact (costs_recordShift r).mono (Nat.zero_le n)
    · exact (costs_statusFailed 1).mono hn
    · exact (costs_statusFailed 2).mono hn
    · exact h
  exact ((costs_pass _ _).bind fun _ => hs).mono (Nat.zero_add n).le

/-- An interrupted shift with `left` recoveries left: six actions for each recovery with its shift, and the last soft
reset (R98, R99). -/
theorem costs_dmiRetry (left : Nat) : Costs p True (6 * left + 2) (dmiRetry left) := by
  induction left with
  | zero =>
    exact (costs_pass _ _).bind (n := 2) fun _ => (costs_softReset.line _ _).bind fun _ => (costs_raise _).line _ _
  | succ left ih =>
    have h := (costs_pass (p := p) 95 [10, 11]).bind fun _ => costs_recover.bind fun _ => costs_shiftCmd.bind fun r =>
      costs_classifyWith ih (Nat.le_add_left 2 _) r
    exact h.mono (by omega)

/-- A DMI shift: the selection, the shift, and what its recoveries take (R95, R99). -/
theorem costs_dmiShift (cmd : Nat → DmiWord) : Costs p True (6 * p.dmiRetryMax + 4) (dmiShift cmd) := by
  have hbegin : Costs p False 0 (beginShift cmd) := costs_addressWidth.bind fun A =>
    costs_update (f := (State.beginShift · (cmd A))) (fun _ => rfl) (fun _ => rfl) fun _ => ⟨rfl, rfl⟩
  have hshift := costs_shiftCmd.bind fun r =>
    costs_classifyWith (costs_dmiRetry (p := p) p.dmiRetryMax) (Nat.le_add_left 2 _) r
  have h := (hbegin.line 95 1).bind fun _ => (costs_ensureDmi.line 95 2).bind fun _ =>
    costs_params (g := fun q => shiftCmd >>= dmiClassify q.dmiRetryMax) hshift
  exact h.mono (by omega)

/-! ## DMI words -/

/-- How a word of the wire that answers a next state ended. -/
theorem runWord_next_inv {body : Op Value} {s t : State} (h : runWord body s = .next t) :
    (∃ v u, body s = .ok v u ∧ t = u.finish (.ok v))
    ∨ ∃ e u, body s = .error (.err e) u ∧ t = (u.sessionEffect e).finish (.err e) := by
  cases hb : body s with
  | ok v u => rw [runWord_of_ok hb] at h; cases h; exact .inl ⟨v, u, rfl, rfl⟩
  | error e u =>
    cases e with
    | err e => rw [runWord_of_error hb] at h; cases h; exact .inr ⟨e, u, rfl, rfl⟩
    | fault f => rw [runWord_of_fault hb] at h; cases h

/-- A word of the wire whose body does not stop answers a next state. -/
theorem runWord_next {body : Op Value} {s : State} (h : ∀ f u, body s ≠ .error (.fault f) u) :
    ∃ t, runWord body s = .next t := by
  cases hb : body s with
  | ok v u => exact ⟨_, runWord_of_ok hb⟩
  | error e u =>
    cases e with
    | err e => exact ⟨_, runWord_of_error hb⟩
    | fault f => exact absurd hb (h f u)

/-- The body of a DMI word. -/
theorem costs_shiftWord (cmd : Nat → DmiWord) :
    Costs p True (6 * p.dmiRetryMax + 4) (do let d ← dmiShift cmd; pure (.word d) : Op Value) :=
  (costs_dmiShift cmd).thenPure Value.word

/-- Settles O16: an error of the shift leaves the replay register, and in a Ready session the error changes nothing. -/
theorem replayWordOnlyOnSuccess : Obligations.ReplayWordOnlyOnSuccess := by
  unfold Obligations.ReplayWordOnlyOnSuccess
  intro s t A i w e hi h hp hres he
  obtain ⟨op, a, d, -, hx⟩ := exec_dmiWord hi
  rw [hx s] at h
  rcases runWord_next_inv h with ⟨v, u, -, rfl⟩ | ⟨e', u, hb, rfl⟩
  · simp at hres
  · obtain rfl : e' = e := by simpa using hres
    have hs := (costs_shiftWord _).error hb
    rw [sessionEffect_ready ((core_field hs.core State.phase).trans hp) he]
    exact { hs.replay not_false with }

/-- No read of a DMI word stops it where its registers are written. -/
theorem shiftWord_next {s : State} {lk : Link} (hk : Linked s lk) (op : BitVec 2) (a : Nat) (d : Word) :
    ∃ t, shiftWord (dmiEncode op a d) s = .next t := by
  have F : DmiFrame (Carries Recoverable) (fun _ _ => True) (fun s => ¬ Recoverable s) :=
    (cleanupFrame_carries recoverable_offWire fun _ => id).toDmiFrame
  have K := keeps_thenPure F.toRuns (F.dmiShift (fits_encode op a d)) Value.word
  exact runWord_next fun f u h => K.stopped h ⟨lk, hk⟩

/-- Settles O20: the shift does not stop, and what it may spend bounds it. -/
theorem dmiWordIsBounded : Obligations.DmiWordIsBounded := by
  unfold Obligations.DmiWordIsBounded
  intro s lk i w hi hk
  obtain ⟨op, a, d, -, hx⟩ := exec_dmiWord hi
  obtain ⟨t, ht⟩ := shiftWord_next hk op a d
  refine ⟨t, (hx s).trans ht, ?_⟩
  rcases runWord_next_inv ht with ⟨v, u, hb, rfl⟩ | ⟨e, u, hb, rfl⟩
  · exact ((costs_shiftWord _).ok hb).trace
  · rw [State.finish_trace, sessionEffect_trace]
    exact ((costs_shiftWord _).error hb).trace

end Sys2Proof.Machine
end

section
/-! A transport action that fails is the last of its instruction (40_dmi_transaction.md R101, 60_exceptions.md R187). -/

namespace Sys2Proof.Machine

/-! ## The relations -/

/-- Both relations speak of the trace alone. -/
theorem AllComplete.of_trace {s t s' t' : State} (h : AllComplete s t) (hs : s'.trace = s.trace)
    (ht : t'.trace = t.trace) : AllComplete s' t' := by
  unfold AllComplete
  rwa [hs, ht]

theorem StopsAtFailure.of_trace {s t s' t' : State} (h : StopsAtFailure s t) (hs : s'.trace = s.trace)
    (ht : t'.trace = t.trace) : StopsAtFailure s' t' := by
  unfold StopsAtFailure
  rwa [hs, ht]

theorem allComplete_of_trace {s t : State} (h : t.trace = s.trace) : AllComplete s t := ⟨[], by simpa using h, nofun⟩

theorem AllComplete.trans {a b c : State} (h : AllComplete a b) (g : AllComplete b c) : AllComplete a c := by
  obtain ⟨l, hl, al⟩ := h
  obtain ⟨m, hm, am⟩ := g
  refine ⟨l ++ m, by rw [hm, hl, List.append_assoc], fun x hx => ?_⟩
  exact (List.mem_append.mp hx).elim (al x) (am x)

/-- Completed actions before a run that stops at a failure. -/
theorem AllComplete.thenStops {a b c : State} (h : AllComplete a b) (g : StopsAtFailure b c) : StopsAtFailure a c := by
  obtain ⟨l, hl, al⟩ := h
  obtain ⟨m, x, hm, am⟩ := g
  refine ⟨l ++ m, x, by rw [hm, hl]; simp, fun y hy => ?_⟩
  exact (List.mem_append.mp hy).elim (al y) (am y)

theorem allComplete_issued {s : State} {a : Action} {b : Buffer} (h : s.nextReply = .done b) :
    AllComplete s (s.issued a) := ⟨[(a, s.nextReply)], rfl, by simp [h, Reply.completes]⟩

theorem stopsAtFailure_issued {s : State} {a : Action} (h : s.nextReply = .failed) : StopsAtFailure s (s.issued a) :=
  ⟨[], a, by simp [h], nofun⟩

/-! ## Operations -/

/-- Every operation but ATTACH completes its actions or stops at the one that fails. -/
theorem csrFrame_completes : CsrFrame AllComplete StopsAtFailure (fun _ => True) where
  refl _ := allComplete_of_trace rfl
  trans := AllComplete.trans
  fails := AllComplete.thenStops
  stops _ _ := trivial
  moved _ _ := allComplete_of_trace rfl
  back _ _ := allComplete_of_trace rfl
  backFailed _ h := h.of_trace rfl rfl
  issued _ _ _ _ h := allComplete_issued h
  failed _ _ _ h := stopsAtFailure_issued h
  ir _ _ _ := allComplete_of_trace rfl
  noWidth _ _ := trivial
  noIdle _ _ := trivial
  noReplay _ _ _ := trivial
  success _ := allComplete_of_trace rfl
  begun _ _ _ := allComplete_of_trace rfl
  recovery _ := allComplete_of_trace rfl
  polled _ := allComplete_of_trace rfl
  polls _ := allComplete_of_trace rfl
  started _ _ := allComplete_of_trace rfl
  reissued _ := allComplete_of_trace rfl
  register _ _ := allComplete_of_trace rfl
  noAutoexec _ _ := trivial
  pushed _ _ := allComplete_of_trace rfl
  popped _ := allComplete_of_trace rfl
  held _ _ := allComplete_of_trace rfl
  noImpebreak _ _ := trivial
  noCsrPath _ _ := trivial
  backup _ _ _ _ _ _ h := h.of_trace rfl rfl

/-- So do negotiation and discovery. -/
theorem attachFrame_completes : AttachFrame AllComplete StopsAtFailure (fun _ => True) where
  toCleanupFrame := csrFrame_completes.toCleanupFrame
  version _ _ := allComplete_of_trace rfl
  impebreak _ _ := allComplete_of_trace rfl
  capabilities _ _ := allComplete_of_trace rfl
  csrPath _ _ := allComplete_of_trace rfl
  autoexec _ _ := allComplete_of_trace rfl
  phase _ _ := allComplete_of_trace rfl
  hartsellen _ _ := allComplete_of_trace rfl
  cleared _ := allComplete_of_trace rfl
  candidate _ := allComplete_of_trace rfl
  added _ _ := allComplete_of_trace rfl
  current _ _ := allComplete_of_trace rfl
  diagnosed _ _ := allComplete_of_trace rfl

/-! ## Instructions -/

/-- How any instruction ends: it is turned away, it is a DETACH, or its operation completes its actions or stops at the
one that fails. -/
theorem exec_completes {s t : State} {i : Instr} (h : exec i s = .next t) :
    t = turnAway s ∨ t = s.detached
    ∨ ∃ u r, Ending AllComplete StopsAtFailure (startOf s i) u r ∧ t = closeOf i u r := by
  by_cases ha : ∃ w, i = .hostAttach w
  · obtain ⟨w, rfl⟩ := ha
    by_cases hp : s.phase = .detached
    · exact .inr (.inr (attach_ends attachFrame_completes hp (fun _ => allComplete_of_trace rfl)
        (fun _ _ => allComplete_of_trace rfl) (fun _ _ _ => allComplete_of_trace rfl)
        (fun _ _ hu => hu.of_trace rfl rfl) h))
    · rw [exec_away (i := .hostAttach w) rfl hp] at h
      cases h
      exact .inl rfl
  · rcases exec_next_of_frame (fun w hw => ha ⟨w, hw⟩)
      (.ofCsr csrFrame_completes fun _ _ _ _ h => h.of_trace rfl rfl) h with ⟨-, ht | ht⟩ | hu
    · exact .inl ht
    · exact .inr (.inl ht)
    · exact .inr (.inr hu)

/-- The same, from the start of the instruction to its end. -/
theorem Ending.closes {s u : State} {i : Instr} {r : Response}
    (h : Ending AllComplete StopsAtFailure (startOf s i) u r) :
    if r = .err .transportFailure then StopsAtFailure s (closeOf i u r) else AllComplete s (closeOf i u r) := by
  have hs : s.trace = (startOf s i).trace := (startOf_trace s i).symm
  have ht : (closeOf i u r).trace = u.trace := closeOf_trace i u r
  cases r with
  | ok v => exact AllComplete.of_trace h hs ht
  | err e =>
    by_cases he : e = .transportFailure
    · subst he
      rw [if_pos rfl]
      exact StopsAtFailure.of_trace (by simpa [Ending] using h) hs ht
    · rw [if_neg (by simpa using he)]
      exact AllComplete.of_trace (by simpa [Ending, he] using h) hs ht

/-- Settles O54: the ends of `exec_completes`; a request turned away and a DETACH issue no action. -/
theorem nothingAfterTransportFailure : Obligations.NothingAfterTransportFailure := by
  unfold Obligations.NothingAfterTransportFailure
  intro s t i h
  rcases exec_completes h with rfl | rfl | ⟨u, r, he, rfl⟩
  · exact allComplete_of_trace (turnAway_trace s)
  · exact allComplete_of_trace (detached_trace s)
  · simpa using he.closes

end Sys2Proof.Machine
end

section
/-! The requests of the capability negotiation: DETACH, and ATTACH up to the session it leaves or the check that refuses
it (41_capability_negotiation.md R114 to R131, 60_exceptions.md R189). -/

namespace Sys2Proof.Machine

variable {lk : Link} {p : Params}

/-! ## DETACH -/

/-- Settles O48: DETACH leaves `State.detached`, or is turned away as any request outside its phase. -/
theorem detachRequest : Obligations.DetachRequest := by
  unfold Obligations.DetachRequest
  constructor
  · intro s hp
    refine ⟨s.detached, exec_detach hp, sessionGone_detached s, detached_trace s, ?_, ?_, answered_detached s⟩
    · simp [State.detached]
    · constructor <;> simp [State.detached]
  · intro s hp
    obtain ⟨t, ht, htrace, hreplies, -, hrest⟩ := wrongPhaseIsTurnedAway s .hostDetach rfl hp
    exact ⟨t, ht, htrace, hreplies, hrest⟩

/-! ## How an admitted ATTACH ends -/

/-- A request that does not stop is answered. -/
theorem serve_next {s : State} {req : Instr} {body : Op Value} (h : ∀ f, serve req body s ≠ .fault f) :
    ∃ t, serve req body s = .next t := by
  cases hb : body (s.serving req) with
  | ok v t => exact ⟨_, serve_of_ok hb⟩
  | error e t =>
    cases e with
    | err e => exact ⟨_, serve_of_error hb⟩
    | fault f => exact absurd (serve_of_fault hb) (h f)

theorem exec_attach_exists (idcode : Word) {s : State} (hp : s.phase = .detached) :
    ∃ t, exec (.hostAttach idcode) s = .next t := by
  have hf := exec_attach_ne_fault idcode s
  rw [exec_attach idcode hp] at hf ⊢
  exact serve_next hf

/-- Where its steps succeed, the count of harts is the response. -/
theorem exec_attach_of_ok {s u : State} {idcode : Word} {n : Nat} (hp : s.phase = .detached)
    (h : attachSteps (s.attaching idcode) = .ok n u) :
    exec (.hostAttach idcode) s = .next ((u.backTo s.label).answer (.ok (.hartCount n))) := by
  obtain ⟨t, ht⟩ := exec_attach_exists idcode hp
  rcases exec_attach_next hp ht with ⟨m, v, hv, rfl⟩ | ⟨e, v, hv, -⟩ <;> rw [h] at hv <;> cases hv
  exact ht

/-- Where they raise, the session is reset and the error is the response. -/
theorem exec_attach_of_error {s u : State} {idcode : Word} {e : Error} (hp : s.phase = .detached)
    (h : attachSteps (s.attaching idcode) = .error (.err e) u) :
    exec (.hostAttach idcode) s = .next (((u.attachFailed e).backTo s.label).answer (.err e)) := by
  obtain ⟨t, ht⟩ := exec_attach_exists idcode hp
  rcases exec_attach_next hp ht with ⟨m, v, hv, -⟩ | ⟨e, v, hv, rfl⟩ <;> rw [h] at hv <;> cases hv
  exact ht

theorem attaching_tells (s : State) (idcode : Word) : Tells 0 s (s.attaching idcode) :=
  tells_none (by simp [State.attaching]) 0

/-- The diagnostic AttachFailed comes after those of the steps, just before the error (R114, R189). -/
theorem answered_attachFailed {s u : State} {ds : List Diag} (h : u.hostOut = s.hostOut ++ ds.map .diag)
    (ls : List Line) (e : Error) :
    Answered s (((u.attachFailed e).backTo ls).answer (.err e)) (ds ++ [.attachFailed e.code]) (.err e) :=
  { req := rfl, label := rfl, pending := rfl, primaryError := rfl, result := rfl, hostOut := by simp [h] }

theorem sessionGone_attach_answered (u : State) (ls : List Line) (e : Error) :
    SessionGone (((u.attachFailed e).backTo ls).answer (.err e)) :=
  ((sessionGone_attachFailed u e).backTo ls).answer _

/-- Where the rest of the state is `c`, it is also the rest of `c`, from which `core_field` reads. -/
theorem core_eq_core {t c : State} (h : t.core = c) : t.core = c.core := by
  rw [← h]
  rfl

/-- The table that an ATTACH leaves has an entry for each hart counted, within the capacity (R171 to R173). -/
theorem attachSteps_harts {s u : State} {n : Nat} (h : attachSteps s = .ok n u) :
    u.harts.length = n ∧ n ≤ s.params.hartCapacity ∧ u.currentHart = some 0 := by
  obtain ⟨d, st, nextdm, acs, readback, width, -, hcap, -, hc, -⟩ := attachSteps_ok h
  have hc' := core_eq_core hc
  refine ⟨?_, hcap, (core_field hc' State.currentHart).trans (State.attached_currentHart ..)⟩
  rw [core_field hc' State.harts, State.attached_harts, List.length_map, List.length_range]

/-- Settles O50: the steps of an ATTACH succeed and leave a whole session, or raise and it is reset. -/
theorem attachIsAllOrNothing : Obligations.AttachIsAllOrNothing := by
  unfold Obligations.AttachIsAllOrNothing
  intro s idcode hp
  obtain ⟨t, ht⟩ := exec_attach_exists idcode hp
  refine ⟨t, ht, ?_⟩
  rcases exec_attach_next hp ht with ⟨n, u, hu, rfl⟩ | ⟨e, u, hu, rfl⟩
  · obtain ⟨hphase, hready⟩ := attachSteps_ready (by simp [State.attaching]) hu
    obtain ⟨hlen, hcap, hcurrent⟩ := attachSteps_harts hu
    have htells := (attaching_tells s idcode).trans (attachSteps_tells.ok hu) (Nat.le_refl 1)
    obtain ⟨ds, ha, -⟩ := answered_of_tells htells s.label (.ok (.hartCount n))
    exact .inl ⟨n, ds, ha, by simpa using hphase, (hready.backTo s.label).answer _, by simpa using hlen,
      by simpa [State.attaching] using hcap, by simpa using hcurrent⟩
  · obtain ⟨ds, -, hout⟩ := (attaching_tells s idcode).trans (attachSteps_tells.same hu) (Nat.le_refl 1)
    exact .inr ⟨e, ds, answered_attachFailed hout s.label e, sessionGone_attach_answered u s.label e⟩

/-! ## ATTACH up to the negotiation -/

theorem startAttach_core (s : State) (idcode : Word) : (s.startAttach idcode).core = s.core.startAttach idcode := rfl

theorem attaching_core (s : State) (idcode : Word) : (s.attaching idcode).core = s.core.startAttach idcode := by
  rw [State.attaching, startAttach_core, passed_core, serving_core]

/-- The DTMCS read of an ATTACH, after which the rest of its steps runs (R115). -/
theorem attachSteps_started (idcode : Word) {s : State} {a0 : Reply} {cap : Buffer} {rest : List Reply} {d : Word}
    (h : s.replies = a0 :: .done cap :: rest) (h0 : a0.completes) (hd : d = (unpackBytes 32 cap.toList).setWidth 32) :
    ∃ v, attachSteps (s.attaching idcode) = attachRest (dtmcsVersion d) v
      ∧ v.trace = s.trace ++ dtmcsLines 0x00000000 a0 (.done cap) ∧ v.replies = rest
      ∧ v.core = (s.core.startAttach idcode).wroteDtmcs d := by
  have hr : ((s.attaching idcode).passed 114 [3]).replies = a0 :: .done cap :: rest := by
    simpa [State.attaching] using h
  obtain ⟨v, e, S⟩ := sessionStart_run hr h0 hd
  refine ⟨v, ?_, by simpa [State.attaching] using S.trace, S.replies, ?_⟩
  · rw [attachSteps_eq, pass_bind, bind_ok _ e]
  · rw [S.core, passed_core, attaching_core]

/-- What the rest of the steps takes from the session that the DTMCS read started. -/
theorem started_link {s v : State} {idcode d : Word} (hc : v.core = (s.core.startAttach idcode).wroteDtmcs d)
    (ha : lk.abits = d.extractLsb' 4 6) :
    v.params = s.params ∧ v.addressBits = some lk.abits ∧ v.hostOut = s.hostOut := by
  have hc' : v.core = ((s.startAttach idcode).wroteDtmcs d).core := hc
  refine ⟨core_field hc' State.params, (core_field hc' State.addressBits).trans ?_, core_field hc' State.hostOut⟩
  rw [ha]
  rfl

/-! ## The checks of the negotiation -/

/-- The version is not supported (R118). -/
theorem serves_negotiateSteps_version {dtm : DebugVersion} (x : Word) {st : Word}
    (h : resolveVersion (dmstatusVersion st) dtm ≠ .v0_13) :
    Serves lk p (negotiateSteps dtm) (readWords lk.A addrDmstatus) [x, st]
      (.error (.versionUnsupported (resolveVersion (dmstatusVersion st) dtm)))
      (State.wroteVersion · (resolveVersion (dmstatusVersion st) dtm)) := by
  have h1 := serves_negotiateVersion (lk := lk) (p := p) dtm x st
  rw [if_neg h] at h1
  exact h1.bind_error _

/-- The version check passed, then what follows step (b) (R117). -/
theorem Serves.afterVersion {dtm : DebugVersion} (x : Word) {st : Word}
    (hres : resolveVersion (dmstatusVersion st) dtm = .v0_13) {y : Word → Op Unit} {ws : List DmiWord} {ds : List Word}
    {out : Except Error Unit} {g : State → State} (hy : Serves lk p (y st) ws ds out g) :
    Serves lk p (negotiateVersion dtm >>= y) (readWords lk.A addrDmstatus ++ ws) ([x, st] ++ ds) out
      fun s => g (s.wroteVersion .v0_13) := by
  have h1 := serves_negotiateVersion (lk := lk) (p := p) dtm x st
  rw [if_pos hres, hres] at h1
  exact h1.andThen hy

/-- The target is not authenticated (R119). -/
theorem serves_negotiateSteps_authentication {dtm : DebugVersion} (x : Word) {st : Word}
    (hres : resolveVersion (dmstatusVersion st) dtm = .v0_13) (hauth : dmstatusAuthenticated st = false) :
    Serves lk p (negotiateSteps dtm) (readWords lk.A addrDmstatus) [x, st] (.error .authenticationRequired)
      (State.wroteVersion · .v0_13) := by
  refine (Serves.afterVersion x hres (ws := []) (ds := []) (g := id) ?_).cast (by simp) (by simp) rfl
  rw [hauth]
  exact serves_require_false _ _

/-- The capabilities are out of their bounds (R123). -/
theorem serves_negotiateSteps_capabilities {dtm : DebugVersion} (x1 : Word) {st : Word} (x2 nextdm x3 : Word)
    {acs : Word} (hres : resolveVersion (dmstatusVersion st) dtm = .v0_13) (hauth : dmstatusAuthenticated st = true)
    (hv : capabilitiesValid (acsFields acs).datacount (acsFields acs).progbufsize (impebreakFlag st) = false) :
    Serves lk p (negotiateSteps dtm)
      (readWords lk.A addrDmstatus ++ (readWords lk.A addrNextdm ++ readWords lk.A addrAbstractCs))
      [x1, st, x2, nextdm, x3, acs]
      (.error (.invalidCapabilities (acsFields acs).datacount (acsFields acs).progbufsize (impebreakFlag st)))
      fun s => ((s.wroteVersion .v0_13).sawNextdm nextdm).wroteImpebreak (impebreakFlag st) := by
  have hcaps := (serves_negotiateCapabilities_invalid (lk := lk) (p := p) st x3 acs hv).bind_error
    fun _ => autoexecProbe
  have hnext := (serves_negotiateNextdm (lk := lk) (p := p) x2 nextdm).andThen (f := fun _ => _) hcaps
  refine Serves.afterVersion x1 hres (g := fun s => (s.sawNextdm nextdm).wroteImpebreak (impebreakFlag st)) ?_
  exact Serves.required .authenticationRequired hauth hnext

/-- The four bounds of R123. -/
theorem capabilitiesValid_eq_false {dc : BitVec 4} {pb : BitVec 5} {imp : Bool}
    (h : dc.toNat < 1 ∨ 12 < dc.toNat ∨ 16 < pb.toNat ∨ (pb = 1 ∧ imp = false)) :
    capabilitiesValid dc pb imp = false := by
  rcases h with h | h | h | ⟨rfl, rfl⟩
  case inr.inr.inr => simp [capabilitiesValid]
  all_goals simp [capabilitiesValid, Nat.not_le.mpr h]

/-- A negotiation that shifts words, each answered NO_ERROR, and raises ends the steps (R116). -/
theorem attachRest_refused {dtm : DebugVersion} {ws : List DmiWord} {ds : List Word} {e : Error} {g : State → State}
    (H : Serves lk p (negotiateSteps dtm) ws ds (.error e) g) (hws : ws ≠ []) {s : State} {a1 a2 a3 : Reply}
    {rs rest : List Reply} (hp : s.params = p) (hw : s.addressBits = some lk.abits) (h1 : a1.completes)
    (h2 : a2.completes) (h3 : a3.completes) (hr : s.replies = a1 :: a2 :: a3 :: (rs ++ rest)) (hq : Quiet lk.A rs ds) :
    ∃ t, attachRest dtm s = .error (.err e) t ∧ t.replies = rest ∧ t.core = g s.core := by
  obtain ⟨u, e0, S⟩ := hardReset_run (s := s.moveTo ⟨114, 5⟩) hr h1 h2
  have hc : u.core = s.core := S.core
  cases a3 with
  | failed => exact h3.elim
  | done b =>
    obtain ⟨t, e1, A, c⟩ := H.run u [.done b] rs rest ((core_field hc State.params).trans hp)
      ((core_field hc State.addressBits).trans hw) (by simp [Selecting, hws, Selected, S.ir])
      (by simp [S.replies]) hq
    refine ⟨t.backTo s.label, ?_, A.replies, c.trans (congrArg g hc)⟩
    exact bind_error _ (line_error ((bind_ok _ e0).trans e1))

/-- Settles O51: each check that fails ends the negotiation with its error, after the words of the steps before it. -/
theorem attachRefusals : Obligations.AttachRefusals := by
  unfold Obligations.AttachRefusals
  intro s idcode a0 a1 a2 a3 cap d st ds e rs rest lk hp hrep h0 h1 h2 h3 hd ha _ hq hcase
  obtain ⟨v, ev, -, hr, hc⟩ := attachSteps_started idcode (by simpa using hrep) h0 hd
  obtain ⟨-, hw, ho⟩ := started_link hc ha
  obtain ⟨ws, g, hserves, hws, hg⟩ : ∃ ws g, Serves lk v.params (negotiateSteps (dtmcsVersion d)) ws ds (.error e) g
      ∧ ws ≠ [] ∧ ∀ c, (g c).hostOut = c.hostOut := by
    rcases hcase with ⟨x, _, rfl, rfl, hv, rfl⟩ | ⟨x, rfl, hv, hauth, rfl⟩ | ⟨x1, x2, x3, acs, rfl, hv, hauth, hb, rfl⟩
    · exact ⟨_, _, serves_negotiateSteps_version x hv, List.cons_ne_nil _ _, fun _ => rfl⟩
    · exact ⟨_, _, serves_negotiateSteps_authentication x hv hauth, List.cons_ne_nil _ _, fun _ => rfl⟩
    · exact ⟨_, _, serves_negotiateSteps_capabilities x1 x2 0 x3 hv hauth (capabilitiesValid_eq_false hb),
        List.cons_ne_nil _ _, fun _ => rfl⟩
  obtain ⟨u, eu, hu, hcu⟩ := attachRest_refused hserves hws rfl hw h1 h2 h3 hr hq
  have hout : u.hostOut = s.hostOut := (congrArg State.hostOut hcu).trans ((hg v.core).trans ho)
  exact ⟨_, exec_attach_of_error hp (ev.trans eu), sessionGone_attach_answered u s.label e, by simpa using hu,
    answered_attachFailed (ds := []) (by simpa using hout) s.label e⟩

/-! ## A whole ATTACH -/

/-- The DMCONTROL word of the width probe, whatever the layout (R73, R170). -/
theorem dmcontrolWord_allOnes (p : Params) : dmcontrolWord p 0xFFFFF = p.dmcontrolBase ||| 0x03FFFFC0 := by
  obtain ⟨-, -, -, hall⟩ := hartselWord
  rw [dmcontrolWord, hall]

/-- What the host was told before the response. -/
theorem answered_attached {s t : State} {nextdm : Word} (r : Response)
    (h : t.hostOut = s.hostOut ++ if nextdm = 0 then [] else [.diag (.nextDmIgnored nextdm)]) (ls : List Line) :
    Answered s ((t.backTo ls).answer r) (if nextdm = 0 then [] else [.nextDmIgnored nextdm]) r where
  req := rfl
  label := rfl
  pending := rfl
  primaryError := rfl
  result := rfl
  hostOut := by
    rw [State.answer_hostOut, State.backTo_hostOut, h, apply_ite (List.map HostEvent.diag)]
    rfl

/-- Settles O49: the DTMCS read, then the run of `attachRest_run`, and the fields of the session it leaves. -/
theorem attachRequest : Obligations.AttachRequest := by
  unfold Obligations.AttachRequest
  intro s idcode a0 a1 a2 a3 cap d st nextdm acs readback width x1 x2 x3 x4 x5 x6 x7 x8 found stop rs rest lk hp hrep
    h0 h1 h2 h3 hd ha hi hq hres hauth hv hscan
  obtain ⟨v, ev, htv, hr, hcv⟩ := attachSteps_started idcode (by simpa using hrep) h0 hd
  obtain ⟨hpv, hw, -⟩ := started_link hcv ha
  obtain ⟨t, et, htr, hre, hva, -, hc⟩ := attachRest_run (dtmcsVersion d) hpv hw h1 h2 h3 hr hq hres hauth hv hscan
  rw [hcv] at hc
  have hsame := (sameButWire_of_core (core_eq_core (c := State.attached ..) hc)).answer s.label
    (.ok (.hartCount found.length))
  have hout : t.hostOut = s.hostOut ++ _ :=
    (core_field (core_eq_core hc) State.hostOut).trans (State.attached_hostOut ..)
  have habits : dtmcsAbits d = lk.abits := ha.symm
  have hidle : dtmcsIdle d = lk.idle := hi.symm
  refine ⟨_, exec_attach_of_ok hp (ev.trans et), ?_, by simpa using hre,
    hsame.phase.trans (State.attached_phase ..),
    hsame.idcode.trans (State.attached_idcode ..),
    hsame.dtmVersion.trans (State.attached_dtmVersion ..),
    hsame.debugVersion.trans (State.attached_debugVersion ..),
    hsame.addressBits.trans ((State.attached_addressBits ..).trans (congrArg some habits)),
    hsame.idleCycles.trans ((State.attached_idleCycles ..).trans (congrArg some hidle)),
    hsame.impebreak.trans (State.attached_impebreak ..),
    hsame.abstractDataCount.trans (State.attached_abstractDataCount ..),
    hsame.programBufferSize.trans (State.attached_programBufferSize ..),
    hsame.progbufCsrEnabled.trans (State.attached_progbufCsrEnabled ..),
    hsame.autoexecSupported.trans (State.attached_autoexecSupported ..),
    hsame.hartsellen.trans (State.attached_hartsellen ..),
    hsame.harts.trans (State.attached_harts ..),
    hsame.currentHart.trans (State.attached_currentHart ..), by simpa using hva,
    answered_attached _ hout s.label⟩
  rw [State.answer_trace, State.backTo_trace, htr, htv, dmcontrolWord_allOnes]
  rfl

end Sys2Proof.Machine
end

section
/-! The abstract command engine (42_abstract_command.md): the command words, the captured ABSTRACT_CS words and the
request RUN. -/

namespace Sys2Proof.Machine

variable {lk : Link} {p : Params} {α : Type}

/-! ## Command words -/

/-- What a command word runs: `RunReg` for a register access, `run` itself for the program buffer (R153, R164). -/
def commandBody (i : Instr) (word : Word) : Op Unit :=
  if i = .arPostexec then run word else runReg word (word.extractLsb' 0 16)

/-- What a command word makes of an error of its run (R153, R164). -/
def commandError (i : Instr) (word : Word) (e : Error) : Error :=
  if i = .arPostexec then e else regError (word.extractLsb' 0 16) e

/-- A register access is its body, run to its end: the lower half of its word names the register. -/
theorem issueCommand_eq {i : Instr} (hi : i ≠ .arPostexec) {c : Word} (hc : c.extractLsb' 0 16 = 0) (r : BitVec 16)
    (s : State) :
    issueCommand (c ||| r.setWidth 32) r s = runWord (do commandBody i (c ||| r.setWidth 32); pure .unit) s := by
  rw [commandBody, if_neg hi, command_regno c r hc]
  rfl

/-- A command word alone on the wire is its body, run to its end (log 8). -/
theorem exec_commandOf {i : Instr} {word : Word} (h : commandOf i word) (s : State) :
    exec i s = runWord (do commandBody i word; pure .unit) s := by
  rcases h with ⟨r, ⟨rfl, rfl⟩ | ⟨rfl, rfl⟩ | ⟨rfl, rfl⟩ | ⟨rfl, rfl⟩⟩ | ⟨rfl, rfl⟩
  · exact issueCommand_eq (c := 0x00220000) Instr.noConfusion (by decide) r s
  · exact issueCommand_eq (c := 0x00230000) Instr.noConfusion (by decide) r s
  · exact issueCommand_eq (c := 0x002A0000) Instr.noConfusion (by decide) r s
  · exact issueCommand_eq (c := 0x002B0000) Instr.noConfusion (by decide) r s
  · rfl

/-- A command word serves what its run serves, with its error mapped. -/
theorem serves_commandBody (i : Instr) {word : Word} {ws : List DmiWord} {ds : List Word} {out : Except Error Unit}
    (h : Serves lk p (run word) ws ds out id) :
    Serves lk p (commandBody i word) ws ds (mapOut (commandError i word) out) id := by
  by_cases hi : i = .arPostexec
  · have hmap : mapOut (commandError i word) out = out := by cases out <;> simp [mapOut, commandError, hi]
    rwa [commandBody, if_pos hi, hmap]
  · have hmap : commandError i word = regError (word.extractLsb' 0 16) := funext fun _ => if_neg hi
    rw [commandBody, if_neg hi, hmap]
    exact h.runReg _

theorem command_words_ne_nil (A : Nat) (cmd : Word) (c : Command) : c.words A cmd ≠ [] := by
  simp [Command.words, Attempt.words, writeWords]

/-- Settles O25: the run of a command that ends with cmderr none. -/
theorem commandWordsRun : Obligations.CommandWordsRun := by
  unfold Obligations.CommandWordsRun
  intro s lk i word c pre rs rest hi ha hs hrep hq hends
  have hbody : Serves lk s.params (commandBody i word) _ _ (.ok ()) id := serves_commandBody i (serves_run_ok word hends)
  rw [exec_commandOf hi]
  exact runWord_ok (hbody.thenPure fun _ => .unit) (command_words_ne_nil lk.A word c) ha hs hrep hq

/-- Settles O26: the run of a command that ends with cmderr exception, and what the word makes of that error. -/
theorem commandExceptionIsMapped : Obligations.CommandExceptionIsMapped := by
  unfold Obligations.CommandExceptionIsMapped
  intro s lk i word d c pre rs rest hi hp ha hs hrep hq hends
  have hbody : Serves lk s.params (commandBody i word) _ _
      (.error (if i = .arPostexec then .abstractCmdError .exception
        else .registerNotPresent (word.extractLsb' 0 16))) id :=
    serves_commandBody i (serves_run_fail word hends rfl d)
  rw [exec_commandOf hi]
  exact runWord_error (hbody.bind_error _) (by simp [writeWords]) (by split <;> nofun) hp ha hs hrep hq

/-! ## Captured ABSTRACT_CS words -/

theorem acsBusy_word (f : AcsFields) (e : CmdErr) : acsBusy (acsWord f e) = f.busy :=
  congrArg AcsFields.busy (acsFields_word f e)

/-- The rest of a run of `cmd` from a captured ABSTRACT_CS word on, with `polls` reads and `reissues` re-issues left
(R134, R135). -/
def runCaptured (polls reissues : Nat) (cmd acs : Word) : Op Unit := do
  let w ← line 134 4 (pollWith (pollAgain polls) acs)
  runWith (runAgain cmd reissues) w

/-- A captured word is classified by the rest of the run in force (log 8). -/
theorem classifyAcs_eq (acs : AcsFields) (e : CmdErr) (s : State) :
    classifyAcs acs e s
      = runWord (do runCaptured s.pollsLeft s.reissuesLeft s.runCmd (acsWord acs e); pure .unit) s := by
  rw [classifyAcs_run, runCaptured, bind_assoc]

/-- The eight words are the captured words of the eight codes. -/
theorem exec_cmderrWord {acs : AcsFields} {i : Instr} (h : cmderrWord acs i) :
    ∃ e, ∀ s, exec i s = classifyAcs acs e s := by
  rcases h with rfl | rfl | rfl | rfl | rfl | rfl | rfl | rfl <;> exact ⟨_, fun _ => rfl⟩

/-- The words of the codes that are surfaced (R136). -/
theorem exec_surfaced {acs : AcsFields} {i : Instr} {kind : AbstractKind} (h : surfaced acs i kind) :
    ∃ e, classify e = .fail kind ∧ ∀ s, exec i s = classifyAcs acs e s := by
  rcases h with ⟨rfl, rfl⟩ | ⟨rfl, rfl⟩ | ⟨rfl, rfl⟩ | ⟨rfl, rfl⟩ | ⟨rfl, rfl⟩ | ⟨rfl, rfl⟩ <;>
    exact ⟨_, rfl, fun _ => rfl⟩

/-- A captured word with busy clear ends the poll at once: what is left is its classification. -/
theorem Serves.runCaptured_idle {polls reissues : Nat} {cmd : Word} {acs : AcsFields} {e : CmdErr}
    (hb : acs.busy = false) {ws : List DmiWord} {ds : List Word} {out : Except Error Unit}
    (h : Serves lk p (runWith (runAgain cmd reissues) (acsWord acs e)) ws ds out id) :
    Serves lk p (runCaptured polls reissues cmd (acsWord acs e)) ws ds out id :=
  h.after ((serves_pollWith_idle _ ((acsBusy_word acs e).trans hb)).line 134 4)

/-- A captured word with busy clear whose classification shifts the words `ws`, each answered NO_ERROR, and raises, in
a Ready session. -/
theorem classifyAcs_raises {s : State} {acs : AcsFields} {e : CmdErr} (hb : acs.busy = false) {ws : List DmiWord}
    {ds : List Word} {err : Error}
    (h : Serves lk s.params (runWith (runAgain s.runCmd s.reissuesLeft) (acsWord acs e)) ws ds (.error err) id)
    (hw : ws ≠ []) (he : err ≠ .transportFailure) (hp : s.phase = .ready) (ha : s.addressBits = some lk.abits)
    {pre rs rest : List Reply} (hs : Selected s pre) (hr : s.replies = pre ++ rs ++ rest) (hq : Quiet lk.A rs ds) :
    ∃ t, classifyAcs acs e s = .next t ∧ Shifted s t lk.A ws pre rs rest ∧ SameButWire s t ∧ Ended s t (.err err) := by
  rw [classifyAcs_eq]
  exact runWord_error ((Serves.runCaptured_idle hb h).bind_error _) hw he hp ha hs hr hq

/-! ### Captured words that shift nothing -/

/-- A polled word with busy clear, and one with busy set, in any state (R135). -/
theorem pollWith_idle (again : Op Word) {acs : Word} (h : acsBusy acs = false) (s : State) :
    pollWith again acs s = .ok acs (s.passed 135 [5]) := by
  unfold pollWith
  rw [pass_bind, h]
  rfl

theorem pollWith_busy (again : Op Word) {acs : Word} (h : acsBusy acs = true) (s : State) :
    pollWith again acs s = again (s.passed 135 [5]) := by
  unfold pollWith
  rw [pass_bind, h]
  rfl

/-- The last read saw busy: the poll's ceiling is reached (R135). -/
theorem pollAgain_zero (s : State) : pollAgain 0 s = .error (.err (.timeout .poll)) (s.passed 135 [6]) :=
  line_error rfl

/-- A polled word with cmderr none ends the run (R134). -/
theorem runWith_none (again : Op Unit) {acs : Word} (h : acsCmderr acs = .none) (s : State) :
    runWith again acs s = .ok () (s.passed 134 [5, 6]) := by
  unfold runWith
  rw [pass_bind, h]
  rfl

/-- Lines of a called rule passed at line `n`, which then returns. -/
theorem put_called {s : State} {r n m : Nat} {ns : List Nat} {rest : List Reply} (h : s.replies = rest) :
    Put s (((s.moveTo ⟨r, n⟩).passed m ns).backTo s.label) []
      ((⟨r, n⟩ :: s.label) :: movesAt m ns (⟨r, n⟩ :: s.label)) rest := by
  constructor <;> simp [h, State.core]

/-- A word whose operation ends in an error other than TransportFailure, in a Ready session: what it put on the lower
port, and the selected instruction, stay (R180). -/
theorem runWord_puts_error {x : Op α} (f : α → Op Value) {s u : State} {e : Error} {ls : List (Action × Reply)}
    {ms : List (List Line)} {rest : List Reply} (h : x s = .error (.err e) u) (he : e ≠ .transportFailure)
    (hp : s.phase = .ready) (P : Put s u ls ms rest) :
    ∃ t, runWord (x >>= f) s = .next t ∧ t.trace = s.trace ++ ls ∧ t.replies = rest ∧ t.irCurrent = u.irCurrent
      ∧ SameReplay s t ∧ SameButWire s t ∧ Ended s t (.err e) := by
  have hu : u.phase = .ready := (core_field P.core State.phase).trans hp
  refine ⟨u.finish (.err e), ?_, P.trace, P.replies, rfl, ⟨P.last, P.valid⟩, { sameButWire_of_core P.core with },
    ended_finish s u _ (core_field P.core State.hostOut)⟩
  rw [runWord_of_error (bind_error f h), sessionEffect_ready hu he]

/-- Settles O27: the poll and the run end at the captured word, and only lines are passed. -/
theorem cmderrNoneSucceeds : Obligations.CmderrNoneSucceeds := by
  unfold Obligations.CmderrNoneSucceeds
  intro s acs hb
  have hpoll := line_ok (r := 134) (n := 4)
    (pollWith_idle (pollAgain s.pollsLeft) ((acsBusy_word acs .none).trans hb) (s.moveTo ⟨134, 4⟩))
  have hrun := (bind_ok (runWith (runAgain s.runCmd s.reissuesLeft)) hpoll).trans
    (runWith_none _ (acsCmderr_word acs .none) _)
  have P := (put_called (r := 134) (n := 4) (m := 135) (ns := [5]) (s := s) rfl).trans (put_pass 134 [5, 6] rfl)
  obtain ⟨t, ht, htr, hre, hir, hrest⟩ := runWord_puts (f := fun _ => .unit) hrun P
  exact ⟨t, (classifyAcs_eq acs .none s).trans ht, by simpa using htr, hre, hir, hrest⟩

/-- Settles O28: the clear of the captured code, then its error. -/
theorem cmderrSurfaces : Obligations.CmderrSurfaces := by
  unfold Obligations.CmderrSurfaces
  intro s lk acs i kind d pre rest r hi hb hp ha hs hrep hr
  obtain ⟨e, hk, he⟩ := exec_surfaced hi
  have hcode : classify (acsCmderr (acsWord acs e)) = .fail kind := by rw [acsCmderr_word, hk]
  rw [he]
  exact classifyAcs_raises hb (serves_runWith_fail _ d hcode) (List.cons_ne_nil _ _) Error.noConfusion hp ha hs
    (by simpa using hrep) (.cons hr .nil)

/-- Settles O29: the clear of the captured code, then the re-issues of the command in force, or none left. -/
theorem cmderrBusyReissues : Obligations.CmderrBusyReissues := by
  unfold Obligations.CmderrBusyReissues
  constructor
  · intro s lk acs d c pre rs rest hb ha hs hrep hq hrej hlast hnone hlt
    obtain ⟨left, hleft⟩ : ∃ left, s.reissuesLeft = left + c.rejected.length + 1 :=
      ⟨s.params.busyRetryMax - s.busyTries - c.rejected.length - 1, by unfold State.reissuesLeft; omega⟩
    have hagain := serves_runAgain_rejected (lk := lk) s.runCmd c.rejected hrej c.last hlast left
      (serves_runWith_ok _ hnone)
    rw [← hleft] at hagain
    have hbody := (Serves.runCaptured_idle (polls := s.pollsLeft) hb
      (serves_runWith_busy d (acsCmderr_word acs .busy) hagain)).thenPure fun _ => Value.unit
    rw [List.append_nil, List.append_nil] at hbody
    have hexec : exec (.cmderrBusy acs) s = _ := classifyAcs_eq acs .busy s
    rw [hexec]
    exact runWord_ok hbody (List.cons_ne_nil _ _) ha hs hrep hq
  · intro s lk acs d pre rest r hb hp ha hs hrep hr hge
    have hleft : s.reissuesLeft = 0 := Nat.sub_eq_zero_of_le hge
    have hspent := serves_runAgain_spent (lk := lk) (p := s.params) s.runCmd
    rw [← hleft] at hspent
    exact classifyAcs_raises hb (serves_runWith_busy d (acsCmderr_word acs .busy) hspent) (List.cons_ne_nil _ _)
      Error.noConfusion hp ha hs (by simpa using hrep) (.cons hr .nil)

/-- Settles O30: with a read left the poll goes on to the word with busy clear; with none left it is a timeout. -/
theorem cmderrWaitsWhileBusy : Obligations.CmderrWaitsWhileBusy := by
  unfold Obligations.CmderrWaitsWhileBusy
  constructor
  · intro s lk acs i q pre rs rest hi hb ha hs hrep hq hbusy hlt hidle hnone
    obtain ⟨e, he⟩ := exec_cmderrWord hi
    obtain ⟨left, hleft, hle⟩ : ∃ left, s.pollsLeft = left + 1 ∧ q.busy.length ≤ left :=
      ⟨s.params.pollMax - s.polls - 1, by unfold State.pollsLeft; omega, by omega⟩
    have hpoll := serves_pollAgain (lk := lk) (p := s.params) q.busy q.stale q.acs hbusy hidle left hle
    rw [← hleft] at hpoll
    have hwait := (serves_pollWith_busy ((acsBusy_word acs e).trans hb) hpoll).line 134 4
    have hrun : Serves lk s.params (runCaptured s.pollsLeft s.reissuesLeft s.runCmd (acsWord acs e)) (q.words lk.A)
        q.data (.ok ()) id :=
      hwait.bind (serves_runWith_ok _ hnone) (List.append_nil _).symm (List.append_nil _).symm
    rw [he, classifyAcs_eq]
    exact runWord_ok (hrun.thenPure fun _ => .unit) (List.cons_ne_nil _ _) ha hs hrep hq
  · intro s acs i hi hb hp hge
    obtain ⟨e, he⟩ := exec_cmderrWord hi
    have hleft : s.pollsLeft = 0 := Nat.sub_eq_zero_of_le hge
    have hpoll : pollWith (pollAgain s.pollsLeft) (acsWord acs e) (s.moveTo ⟨134, 4⟩)
        = .error (.err (.timeout .poll)) ((s.moveTo ⟨134, 4⟩).passed 135 [5, 6]) := by
      rw [pollWith_busy _ ((acsBusy_word acs e).trans hb), hleft, pollAgain_zero, passed_passed]
      rfl
    obtain ⟨t, ht, htr, hrest⟩ := runWord_puts_error (fun _ => pure .unit) (bind_error _ (line_error hpoll))
      Error.noConfusion hp (put_called rfl)
    exact ⟨t, (he s).trans ((classifyAcs_eq acs e s).trans ht), by simpa using htr, hrest⟩

/-! ## RUN -/

/-- Settles O34: the run of a command that ends with cmderr none, as a request. -/
theorem runRequestSucceeds : Obligations.RunRequestSucceeds := by
  unfold Obligations.RunRequestSucceeds
  intro s lk word c pre rs rest hp ha hs hrep hq hends
  have hbody := ((serves_run_ok (lk := lk) word hends).line 140 1).thenPure fun _ => Value.unit
  obtain ⟨t, ht, hrest⟩ := serve_shifts (req := .hostRun word) hbody (command_words_ne_nil lk.A word c) ha hs hrep hq
  exact ⟨t, (whenReady_ready _ hp).trans ht, hrest⟩

/-- A RUN whose command ends in an error other than TransportFailure (R140, R180). -/
theorem exec_hostRun_raises {s : State} {word : Word} {ws : List DmiWord} {ds : List Word} {e : Error}
    (h : Serves lk s.params (run word) ws ds (.error e) id) (hw : ws ≠ []) (he : e ≠ .transportFailure)
    (hp : s.phase = .ready) (ha : s.addressBits = some lk.abits) {pre rs rest : List Reply} (hs : Selected s pre)
    (hr : s.replies = pre ++ rs ++ rest) (hq : Quiet lk.A rs ds) :
    ∃ t, exec (.hostRun word) s = .next t ∧ Shifted s t lk.A ws pre rs rest ∧ SameButWire s t
      ∧ Answered s t [] (.err e) := by
  have hbody := (h.line 140 1).bind_error fun _ => pure Value.unit
  obtain ⟨t, ht, hrest⟩ := serve_raises (req := .hostRun word) hbody hw he hp ha hs hr hq
  exact ⟨t, (whenReady_ready _ hp).trans ht, hrest⟩

/-- Settles O35: the run of a command that ends with a code that is surfaced. -/
theorem runRequestSurfacesError : Obligations.RunRequestSurfacesError := by
  unfold Obligations.RunRequestSurfacesError
  intro s lk word d c e kind pre rs rest hk hp ha hs hrep hq hends
  have hkind : classify e = .fail kind := by
    rcases hk with ⟨rfl, rfl⟩ | ⟨rfl, rfl⟩ | ⟨rfl, rfl⟩ | ⟨rfl, rfl⟩ | ⟨rfl, rfl⟩ | ⟨rfl, rfl⟩ <;> rfl
  exact exec_hostRun_raises (serves_run_fail word hends hkind d) (by simp [writeWords]) Error.noConfusion hp ha hs hrep
    hq

/-- A run whose first poll never sees busy clear (R135). -/
theorem serves_run_pollSpent (cmd d : Word) {busy : List (Word × Word)} (hb : ∀ b ∈ busy, acsBusy b.2 = true)
    (hn : busy.length = p.pollMax) :
    Serves lk p (run cmd)
      (writeWords lk.A addrAbstractCmd cmd ++ (List.replicate busy.length (readWords lk.A addrAbstractCs)).flatten)
      (d :: busy.flatMap fun b => [b.1, b.2]) (.error (.timeout .poll)) id := by
  have hissue : Serves lk p (issue cmd) _ _ (.error (.timeout .poll)) id :=
    (((serves_dmiWrite addrAbstractCmd cmd d).line 134 3).bind
      ((serves_waitIdle_exhausted hb hn).line 134 4) rfl rfl).afterPass
  exact Serves.afterOwn (hissue.bind_error _)

/-- Settles O36: the run ends at either ceiling. -/
theorem runRequestCeilings : Obligations.RunRequestCeilings := by
  unfold Obligations.RunRequestCeilings
  constructor
  · intro s lk word qs pre rs rest hp ha hs hrep hq hrej hn
    have hne : rejectedWords lk.A word qs ≠ [] := by
      cases qs with
      | nil => simp at hn
      | cons q qs => simp [rejectedWords, writeWords]
    exact exec_hostRun_raises (serves_run_spent word hrej hn) hne Error.noConfusion hp ha hs hrep hq
  · intro s lk word d busy pre rs rest hp ha hs hrep hq hb hn
    exact exec_hostRun_raises (serves_run_pollSpent word d hb hn) (by simp [writeWords]) Error.noConfusion hp ha hs
      hrep hq

end Sys2Proof.Machine
end

section
/-! The register access layer (43_register_access.md): the requests READ_REGS and WRITE_REGS, in None mode and as
batches. -/

namespace Sys2Proof.Machine

variable {lk : Link} {p : Params} {α : Type}

/-! ## Checks and mode selection -/

theorem runTooLong_eq_false {base : BitVec 16} {count : Nat} (h : base.toNat + count ≤ 0x10000) :
    runTooLong base count = false := decide_eq_false (Nat.not_lt.mpr h)

theorem runTooLong_eq_true {base : BitVec 16} {count : Nat} (h : 0x10000 < base.toNat + count) :
    runTooLong base count = true := decide_eq_true h

/-- An empty run is never too long (R143). -/
theorem runTooLong_zero (base : BitVec 16) : runTooLong base 0 = false := runTooLong_eq_false (Nat.le_of_lt base.isLt)

theorem readRegisters_empty (base : BitVec 16) (s : State) : readRegisters base 0 s = .ok [] (s.passed 154 [1]) := by
  rw [readRegisters, runTooLong_zero, line_require]
  rfl

theorem writeRegisters_empty (base : BitVec 16) (s : State) : writeRegisters base [] s = .ok () (s.passed 155 [1]) := by
  unfold writeRegisters
  rw [List.length_nil, runTooLong_zero, line_require]
  rfl

theorem readRegisters_tooLong {base : BitVec 16} {count : Nat} (h : 0x10000 < base.toNat + count) (s : State) :
    readRegisters base count s = .error (.err .invalidRequest) (s.passed 154 [1]) := by
  rw [readRegisters, runTooLong_eq_true h, line_require]
  rfl

theorem writeRegisters_tooLong {base : BitVec 16} {vals : List Word} (h : 0x10000 < base.toNat + vals.length)
    (s : State) : writeRegisters base vals s = .error (.err .invalidRequest) (s.passed 155 [1]) := by
  unfold writeRegisters
  rw [runTooLong_eq_true h, line_require]
  rfl

/-- Whether a run of `count` registers goes as a batch in `s` (R142). -/
def State.batches (s : State) (count : Nat) (batch : Bool) : Prop :=
  if count = 1 then batch = false else s.autoexecSupported = some batch

theorem batches_false {s : State} {count : Nat} (h : count = 1 ∨ s.autoexecSupported = some false) :
    s.batches count false := by
  unfold State.batches
  split
  · rfl
  · next h1 => exact h.resolve_left h1

theorem batches_true {s : State} {count : Nat} (hc : 1 < count) (h : s.autoexecSupported = some true) :
    s.batches count true := by
  rwa [State.batches, if_neg (Nat.ne_of_gt hc)]

/-- The line that selects the mode is passed (R142, R154, R155). -/
theorem line_usesAutoexec {s : State} {count : Nat} {batch : Bool} (h : s.batches count batch) (r n : Nat) :
    line r n (usesAutoexec count) s = .ok batch (s.passed r [n]) := by
  refine line_pass ?_
  unfold State.batches at h
  unfold usesAutoexec
  split at h
  · next h1 => rw [if_pos h1, h]; rfl
  · next h1 => rw [if_neg h1]; exact readReg_some h

/-- The accesses of READ_REGS in the mode selected (R142, R154). -/
def readIn (batch : Bool) (base : BitVec 16) (count : Nat) : Op (List Word) :=
  if batch then readBatch base count else readEach base count

/-- The accesses of WRITE_REGS in the mode selected (R142, R155). -/
def writeIn (batch : Bool) (base : BitVec 16) (v : Word) (vs : List Word) : Op Unit :=
  if batch then writeBatch base v vs else writeEach base (v :: vs)

theorem readRegisters_known {s : State} {base : BitVec 16} {count : Nat} {batch : Bool} (hc : count ≠ 0)
    (hl : base.toNat + count ≤ 0x10000) (hb : s.batches count batch) :
    readRegisters base count s = readIn batch base count (s.passed 154 [1, 2]) := by
  have hmode := bind_ok (fun b => readIn b base count) (line_usesAutoexec (s := s.passed 154 [1]) hb 154 2)
  rw [passed_passed] at hmode
  unfold readRegisters
  rw [runTooLong_eq_false hl, line_require, Bool.not_false, if_pos rfl, if_neg hc]
  exact hmode

theorem writeRegisters_known {s : State} {base : BitVec 16} {v : Word} {vs : List Word} {batch : Bool}
    (hl : base.toNat + (vs.length + 1) ≤ 0x10000) (hb : s.batches (vs.length + 1) batch) :
    writeRegisters base (v :: vs) s = writeIn batch base v vs (s.passed 155 [1, 2]) := by
  have hmode := bind_ok (fun b => writeIn b base v vs) (line_usesAutoexec (s := s.passed 155 [1]) hb 155 2)
  rw [passed_passed] at hmode
  unfold writeRegisters
  rw [List.length_cons, runTooLong_eq_false hl, line_require, Bool.not_false, if_pos rfl]
  exact hmode

/-- READ_REGS once its mode is known (R154). -/
def readKnown (batch : Bool) (base : BitVec 16) (count : Nat) : Op Value := do
  pass 154 [1, 2]
  let out ← readIn batch base count
  pure (.words out)

/-- WRITE_REGS once its mode is known (R155). -/
def writeKnown (batch : Bool) (base : BitVec 16) (v : Word) (vs : List Word) : Op Value := do
  pass 155 [1, 2]
  writeIn batch base v vs
  pure .unit

/-- An operation that runs as another one does from a later state, and what follows it. -/
theorem bind_eq_of_run {β : Type} {x y : Op α} {s t : State} (f : α → Op β) (h : x s = y t) :
    (x >>= f) s = (y >>= f) t := by
  rw [bind_run, bind_run, h]

/-- The two requests in a Ready session (R154, R155). -/
theorem exec_hostReadRegs {s : State} (base : BitVec 16) (count : Nat) (hp : s.phase = .ready) :
    exec (.hostReadRegs base count) s
      = serve (.hostReadRegs base count) (do let out ← readRegisters base count; pure (.words out)) s :=
  whenReady_ready _ hp

theorem exec_hostWriteRegs {s : State} (base : BitVec 16) (vals : List Word) (hp : s.phase = .ready) :
    exec (.hostWriteRegs base vals) s
      = serve (.hostWriteRegs base vals) (do writeRegisters base vals; pure .unit) s :=
  whenReady_ready _ hp

theorem exec_hostReadRegs_known {s : State} {base : BitVec 16} {count : Nat} {batch : Bool} (hp : s.phase = .ready)
    (hc : count ≠ 0) (hl : base.toNat + count ≤ 0x10000) (hb : s.batches count batch) :
    exec (.hostReadRegs base count) s = serve (.hostReadRegs base count) (readKnown batch base count) s :=
  (exec_hostReadRegs base count hp).trans
    (serve_congr (bind_eq_of_run _ (readRegisters_known (s := s.serving _) hc hl hb)))

theorem exec_hostWriteRegs_known {s : State} {base : BitVec 16} {v : Word} {vs : List Word} {batch : Bool}
    (hp : s.phase = .ready) (hl : base.toNat + (vs.length + 1) ≤ 0x10000) (hb : s.batches (vs.length + 1) batch) :
    exec (.hostWriteRegs base (v :: vs)) s = serve (.hostWriteRegs base (v :: vs)) (writeKnown batch base v vs) s :=
  (exec_hostWriteRegs base (v :: vs) hp).trans
    (serve_congr (bind_eq_of_run _ (writeRegisters_known (s := s.serving _) hl hb)))

/-- A request whose body only passes lines before its result. -/
theorem serve_passed_ok {s : State} {req : Instr} {body : Op Value} {v : Value} {r : Nat} {ns : List Nat}
    (h : body (s.serving req) = .ok v ((s.serving req).passed r ns)) :
    ∃ t, serve req body s = .next t ∧ t.trace = s.trace ∧ SameReplay s t ∧ SameButWire s t
      ∧ Answered s t [] (.ok v) :=
  ⟨_, serve_of_ok h, by simp, ⟨by simp, by simp⟩,
    (sameButWire_of_core (s := s) (t := (s.serving req).passed r ns) (by simp)).answer s.label (.ok v),
    answered_answer s _ _ (by simp)⟩

/-- The same before an error. -/
theorem serve_passed_error {s : State} {req : Instr} {body : Op Value} {e : Error} {r : Nat} {ns : List Nat}
    (hp : s.phase = .ready) (he : e ≠ .transportFailure)
    (h : body (s.serving req) = .error (.err e) ((s.serving req).passed r ns)) :
    ∃ t, serve req body s = .next t ∧ t.trace = s.trace ∧ SameReplay s t ∧ SameButWire s t
      ∧ Answered s t [] (.err e) :=
  serve_refused hp he h (by simp) (by simp) ⟨by simp, by simp⟩

/-- Settles O37: the check of R143 is line 1 of both requests, and an empty run ends there. -/
theorem registerRunsAreValidated : Obligations.RegisterRunsAreValidated := by
  unfold Obligations.RegisterRunsAreValidated
  intro s base hp
  refine ⟨?_, ?_, fun count _ hl => ?_, fun vals _ hl => ?_⟩
  · rw [exec_hostReadRegs base 0 hp]
    exact serve_passed_ok (bind_ok _ (readRegisters_empty base _))
  · rw [exec_hostWriteRegs base [] hp]
    exact serve_passed_ok (bind_ok _ (writeRegisters_empty base _))
  · rw [exec_hostReadRegs base count hp]
    exact serve_passed_error hp Error.noConfusion (bind_error _ (readRegisters_tooLong hl _))
  · rw [exec_hostWriteRegs base vals hp]
    exact serve_passed_error hp Error.noConfusion (bind_error _ (writeRegisters_tooLong hl _))

/-! ## None mode -/

/-- A batch or None-mode access made the body of its request. -/
theorem serves_readKnown {batch : Bool} {base : BitVec 16} {count : Nat} {ws : List DmiWord} {ds : List Word}
    {out : Except Error (List Word)} (h : Serves lk p (readIn batch base count) ws ds out id) :
    Serves lk p (readKnown batch base count) ws ds (out.map .words) id := by
  refine Serves.afterPass ?_
  cases out with
  | ok vs => exact h.thenPure Value.words
  | error e => exact h.bind_error _

theorem serves_writeKnown {batch : Bool} {base : BitVec 16} {v : Word} {vs : List Word} {ws : List DmiWord}
    {ds : List Word} {out : Except Error Unit} (h : Serves lk p (writeIn batch base v vs) ws ds out id) :
    Serves lk p (writeKnown batch base v vs) ws ds (out.map fun _ => .unit) id := by
  refine Serves.afterPass ?_
  cases out with
  | ok => exact h.thenPure fun _ => Value.unit
  | error e => exact h.bind_error _

theorem noneReadWords_ne_nil (A : Nat) (base : BitVec 16) {qs : List OneRead} (h : qs ≠ []) (k : Nat) :
    noneReadWords A base qs k ≠ [] := by
  cases qs with
  | nil => exact absurd rfl h
  | cons q qs => simp [noneReadWords, OneRead.words, readWords]

theorem noneWriteWords_ne_nil (A : Nat) (base : BitVec 16) {qs : List (Word × OneWrite)} (h : qs ≠ []) (k : Nat) :
    noneWriteWords A base qs k ≠ [] := by
  cases qs with
  | nil => exact absurd rfl h
  | cons q qs => simp [noneWriteWords, OneWrite.words, writeWords]

/-- Settles O38: the None-mode reads one after the other. -/
theorem readRegsNoneMode : Obligations.ReadRegsNoneMode := by
  unfold Obligations.ReadRegsNoneMode
  intro s lk base qs pre rs rest hp ha hne hl hmode hs hrep hq hends
  have hbody : Serves lk s.params (readEach base qs.length) _ _ (.ok (qs.map OneRead.value)) id :=
    (serves_readNone base qs hends 0).thenReturn 154 [4] id
  rw [exec_hostReadRegs_known hp (mt List.length_eq_zero_iff.mp hne) hl (batches_false hmode)]
  exact serve_shifts (serves_readKnown (batch := false) hbody) (noneReadWords_ne_nil lk.A base hne 0) ha hs hrep hq

/-- Settles O39: the None-mode writes one after the other. -/
theorem writeRegsNoneMode : Obligations.WriteRegsNoneMode := by
  unfold Obligations.WriteRegsNoneMode
  intro s lk base qs pre rs rest hp ha hne hl hmode hs hrep hq hends
  obtain ⟨q, qs, rfl⟩ := List.exists_cons_of_ne_nil hne
  have hbody : Serves lk s.params (writeEach base ((q :: qs).map Prod.fst)) _ _ (.ok ()) id :=
    (serves_writeNone base (q :: qs) hends 0).bind (serves_pass 155 [4]) (List.append_nil _).symm
      (List.append_nil _).symm
  have hlen : (qs.map Prod.fst).length + 1 = (q :: qs).length := by simp
  rw [List.map_cons, exec_hostWriteRegs_known hp (hlen ▸ hl) (batches_false (hlen ▸ hmode))]
  exact serve_shifts (serves_writeKnown (batch := false) hbody) (noneWriteWords_ne_nil lk.A base hne 0) ha hs hrep hq

/-! ## Batches -/

/-- A batch read inside its cleanup (R154). -/
def readRun (base : BitVec 16) (count : Nat) : Op (List Word) := do
  let v ← line 154 6 (initRead base count)
  let vs ← continueReads base count (count - 1) 1
  pure (v :: vs)

/-- A batch write inside its cleanup (R155). -/
def writeRun (base : BitVec 16) (v : Word) (vs : List Word) : Op Unit := do
  line 155 6 (initWrite base v)
  continueWrites base vs 1

/-- The cleanup of a batch whose request is rule R`r` (R150, R154, R155). -/
def disarm (r : Nat) : Op Unit := do
  pass r [8]
  line r 9 disarmAutoexec

/-- A batch that is not ended by TransportFailure ends with the disarm (R150, R187). -/
theorem serves_disarmed (r : Nat) (d : Word) {x : Op α} {ws : List DmiWord} {ds : List Word} {out : Except Error α}
    (h : Serves lk p x ws ds out id) (hout : out ≠ .error .transportFailure) :
    Serves lk p (withCleanup .disarm (disarm r) x) (ws ++ writeWords lk.A addrAutoexec autoexecDisarmWord) (ds ++ [d])
      out id := by
  have hc : Serves lk p (disarm r) _ [d] (.ok ()) id :=
    ((serves_dmiWrite addrAutoexec autoexecDisarmWord d).line r 9).afterPass
  cases out with
  | ok a => exact h.withCleanup_ok hc
  | error e => exact h.withCleanup_error (by simpa using hout) hc

theorem serves_readBatch (base : BitVec 16) (count : Nat) (d : Word) {ws : List DmiWord} {ds : List Word}
    {out : Except Error (List Word)} (h : Serves lk p (readRun base count) ws ds out id)
    (hout : out ≠ .error .transportFailure) :
    Serves lk p (readBatch base count) (ws ++ writeWords lk.A addrAutoexec autoexecDisarmWord) (ds ++ [d]) out id := by
  have h2 := (serves_disarmed 154 d h hout).thenReturn 154 [10] id
  rw [show out.map id = out by cases out <;> rfl] at h2
  exact Serves.afterPass (y := fun _ => _) h2

theorem serves_writeBatch (base : BitVec 16) (v d : Word) (vs : List Word) {ws : List DmiWord} {ds : List Word}
    {out : Except Error Unit} (h : Serves lk p (writeRun base v vs) ws ds out id)
    (hout : out ≠ .error .transportFailure) :
    Serves lk p (writeBatch base v vs) (ws ++ writeWords lk.A addrAutoexec autoexecDisarmWord) (ds ++ [d]) out id :=
  Serves.afterPass (y := fun _ => _) (serves_disarmed 155 d h hout)

/-- Init mode up to the poll of the execution its data0 read started (R146). -/
theorem serves_initRead (base : BitVec 16) (count : Nat) {c : Command} (hc : c.Ends p .none) (arm stale value : Word)
    {ws : List DmiWord} {ds : List Word} {out : Except Error Unit}
    (h : Serves lk p (continuePoll (regnoAt base 1) (decide (count = 1))) ws ds out id) :
    Serves lk p (initRead base count)
      (c.words lk.A (arReadPostincWord base) ++ (writeWords lk.A addrAutoexec autoexecArmWord
        ++ (readWords lk.A addrData0 ++ ws)))
      (c.data ++ ([arm] ++ ([stale, value] ++ ds))) (out.map fun _ => value) id :=
  have hread := ((serves_dmiRead addrData0 stale value).line 146 3).bind (f := fun v => do
    line 146 4 (continuePoll (regnoAt base 1) (decide (count = 1)))
    pass 146 [5]
    pure v) ((h.line 146 4).thenReturn 146 [5] fun _ => value) rfl rfl
  Serves.after ((((serves_run_ok _ hc).runReg base).line 146 1).bind
    (((serves_dmiWrite addrAutoexec autoexecArmWord arm).line 146 2).bind hread rfl rfl) rfl rfl)
    (serves_setBatchIndex 0)

/-- Init mode of a write (R148). -/
theorem serves_initWrite (base : BitVec 16) (v put arm : Word) {c : Command} (hc : c.Ends p .none) :
    Serves lk p (initWrite base v)
      (writeWords lk.A addrData0 v ++ (c.words lk.A (arWritePostincWord base)
        ++ writeWords lk.A addrAutoexec autoexecArmWord))
      ([put] ++ (c.data ++ [arm])) (.ok ()) id :=
  Serves.after (((serves_dmiWrite addrData0 v put).line 148 1).bind
    ((((serves_run_ok _ hc).runReg base).line 148 2).bind
      ((serves_dmiWrite addrAutoexec autoexecArmWord arm).line 148 3) rfl rfl) rfl rfl) (serves_setBatchIndex 0)

/-- A batch read whose polls find no code, but for the trailing one, which is cleared (R146, R147, R152). -/
theorem serves_readRun (base : BitVec 16) {c : Command} (hc : c.Ends p .none) (arm : Word) (q : BatchStep)
    (qs : List BatchStep) (last : BatchStep) (hq : ∀ x ∈ q :: qs, x.poll.Ends p ∧ acsCmderr x.poll.acs = .none)
    (hlast : last.poll.Ends p) {cs : List Word} (hcs : cs.length = (clearWords lk.A (acsCmderr last.poll.acs)).length) :
    Serves lk p (readRun base (qs.length + 2))
      (c.words lk.A (arReadPostincWord base) ++ writeWords lk.A addrAutoexec autoexecArmWord
        ++ batchReadWords lk.A (q :: qs ++ [last]) ++ clearWords lk.A (acsCmderr last.poll.acs))
      (c.data ++ arm :: batchReadData (q :: qs ++ [last]) ++ cs)
      (.ok ((q :: qs ++ [last]).map BatchStep.value)) id := by
  obtain ⟨hq1, hq0⟩ := hq q List.mem_cons_self
  have hpoll := serves_continuePoll (lk := lk) (cs := []) (regnoAt base 1) (decide (qs.length + 2 = 1)) hq1
    (by simp [hq0, clearWords]) (.inr hq0)
  have hinit := serves_initRead base (qs.length + 2) hc arm q.stale q.value hpoll
  have hrest := serves_continueReads (lk := lk) (p := p) (cs := cs) base (qs.length + 2) (qs ++ [last]) 1
    (by simp; omega) (fun x hx => (List.mem_append.mp hx).elim (fun h => (hq x (List.mem_cons_of_mem _ h)).1)
      fun h => List.mem_singleton.mp h ▸ hlast)
    (fun x hx => (hq x (List.mem_cons_of_mem _ (by simpa using hx))).2) (by simpa using hcs)
  rw [List.length_append, List.length_singleton] at hrest
  refine (hinit.line 154 6).bind ((hrest.bind (serves_pure _) (List.append_nil _).symm (List.append_nil _).symm)) ?_ ?_
  · simp [batchReadWords, hq0, clearWords]
  · simp [batchReadData]

/-- A batch write whose polls find no code (R148, R149). -/
theorem serves_writeRun (base : BitVec 16) (v put arm : Word) {c : Command} (hc : c.Ends p .none)
    (qs : List (Word × Word × Poll)) (hq : ∀ q ∈ qs, q.2.2.Ends p ∧ acsCmderr q.2.2.acs = .none) :
    Serves lk p (writeRun base v (qs.map Prod.fst))
      (writeWords lk.A addrData0 v ++ c.words lk.A (arWritePostincWord base)
        ++ writeWords lk.A addrAutoexec autoexecArmWord ++ batchWriteWords lk.A qs)
      (put :: c.data ++ arm :: batchWriteData qs) (.ok ()) id :=
  ((serves_initWrite base v put arm hc).line 155 6).bind (serves_continueWrites base qs 1 hq)

/-- Settles O40: Init mode, the Continue reads to the trailing poll, and the disarm. -/
theorem readRegsBatch : Obligations.ReadRegsBatch := by
  unfold Obligations.ReadRegsBatch
  intro s lk base c arm qs last clears disarm pre rs rest hp ha hne hl hauto hs hrep hq hc hqs hlast hcs
  obtain ⟨q, qs, rfl⟩ := List.exists_cons_of_ne_nil hne
  have hbatch : s.batches (qs.length + 2) true := batches_true (by omega) hauto
  have hbody := serves_readBatch base _ disarm (serves_readRun (lk := lk) base hc arm q qs last hqs hlast hcs) nofun
  rw [List.length_cons, exec_hostReadRegs_known hp (by omega) hl hbatch]
  have hall := serve_shifts (req := .hostReadRegs base (qs.length + 2)) (serves_readKnown (batch := true) hbody)
    (by simp [writeWords]) ha hs hrep hq
  rwa [List.map_append] at hall

/-- Settles O41: Init mode, the Continue writes, and the disarm. -/
theorem writeRegsBatch : Obligations.WriteRegsBatch := by
  unfold Obligations.WriteRegsBatch
  intro s lk base v put c arm qs disarm pre rs rest hp ha hne hl hauto hs hrep hq hc hqs
  have hlen : (qs.map Prod.fst).length = qs.length := List.length_map _
  have hpos : 0 < qs.length := List.length_pos_iff.mpr hne
  have hbatch : s.batches ((qs.map Prod.fst).length + 1) true := batches_true (by omega) hauto
  have hbody := serves_writeBatch base v disarm _ (serves_writeRun (lk := lk) base v put arm hc qs hqs) nofun
  rw [exec_hostWriteRegs_known hp (by omega) hbatch]
  exact serve_shifts (serves_writeKnown (batch := true) hbody) (by simp [writeWords]) ha hs hrep hq

/-! ## Batches that a poll ends -/

theorem continueError_eq (r : BitVec 16) (c : CmdClass) :
    continueError r c = match c with
      | .ok | .busy => .timeout .busyRetry
      | .fail .exception => .registerNotPresent r
      | .fail kind => .abstractCmdError kind := by
  cases c with
  | ok => rfl
  | busy => rfl
  | fail kind => cases kind <;> rfl

theorem continueError_ne_transportFailure (r : BitVec 16) (c : CmdClass) : continueError r c ≠ .transportFailure := by
  cases c with
  | ok => nofun
  | busy => nofun
  | fail kind => cases kind <;> nofun

/-- A batch read whose poll after `bad`, which is not the last register, finds a code (R147, R151). -/
theorem serves_readRun_fail (base : BitVec 16) {count : Nat} {c : Command} (hc : c.Ends p .none) (arm d : Word)
    (qs : List BatchStep) (bad : BatchStep) (hcount : qs.length + 1 < count)
    (hq : ∀ q ∈ qs, q.poll.Ends p ∧ acsCmderr q.poll.acs = .none) (hb : bad.poll.Ends p)
    (he : acsCmderr bad.poll.acs ≠ .none) :
    Serves lk p (readRun base count)
      (c.words lk.A (arReadPostincWord base) ++ writeWords lk.A addrAutoexec autoexecArmWord
        ++ batchReadWords lk.A (qs ++ [bad]) ++ writeWords lk.A addrAbstractCs cmderrClearWord)
      (c.data ++ arm :: batchReadData (qs ++ [bad]) ++ [d])
      (.error (continueError (regnoAt base (qs.length + 1)) (classify (acsCmderr bad.poll.acs)))) id := by
  cases qs with
  | nil =>
    have hfirst : decide (count = 1) = false := decide_eq_false (Nat.ne_of_gt hcount)
    have hpoll := serves_continuePoll_fail (lk := lk) (regnoAt base 1) hb d he
    rw [← hfirst] at hpoll
    have hinit : Serves lk p (readRun base count) _ _ (.error _) id :=
      ((serves_initRead base count hc arm bad.stale bad.value hpoll).line 154 6).bind_error _
    simpa [batchReadWords, batchReadData] using hinit
  | cons q qs =>
    obtain ⟨hq1, hq0⟩ := hq q List.mem_cons_self
    have hpoll := serves_continuePoll (lk := lk) (cs := []) (regnoAt base 1) (decide (count = 1)) hq1
      (by simp [hq0, clearWords]) (.inr hq0)
    have hinit := serves_initRead base count hc arm q.stale q.value hpoll
    rw [List.length_cons] at hcount ⊢
    have hrest := serves_continueReads_fail (lk := lk) (p := p) base count qs bad d 1 (count - 1) (by omega) (by omega)
      (by omega) (fun x hx => hq x (List.mem_cons_of_mem _ hx)) hb he
    rw [Nat.add_comm 1 qs.length] at hrest
    refine (hinit.line 154 6).bind (hrest.bind_error _) ?_ ?_
    · simp [batchReadWords, hq0, clearWords]
    · simp [batchReadData]

/-- A batch write whose poll after `bad` finds a code (R149, R151). -/
theorem serves_writeRun_fail (base : BitVec 16) (v put arm d : Word) {c : Command} (hc : c.Ends p .none)
    (qs : List (Word × Word × Poll)) (bad : Word × Word × Poll) (more : List Word)
    (hq : ∀ q ∈ qs, q.2.2.Ends p ∧ acsCmderr q.2.2.acs = .none) (hb : bad.2.2.Ends p)
    (he : acsCmderr bad.2.2.acs ≠ .none) :
    Serves lk p (writeRun base v (qs.map Prod.fst ++ bad.1 :: more))
      (writeWords lk.A addrData0 v ++ c.words lk.A (arWritePostincWord base)
        ++ writeWords lk.A addrAutoexec autoexecArmWord ++ batchWriteWords lk.A (qs ++ [bad])
        ++ writeWords lk.A addrAbstractCs cmderrClearWord)
      (put :: c.data ++ arm :: batchWriteData (qs ++ [bad]) ++ [d])
      (.error (continueError (regnoAt base (qs.length + 1)) (classify (acsCmderr bad.2.2.acs)))) id := by
  have hrest := serves_continueWrites_fail (lk := lk) (p := p) base qs bad more d 1 hq hb he
  rw [Nat.add_comm 1 qs.length] at hrest
  exact ((serves_initWrite base v put arm hc).line 155 6).bind hrest

/-- Settles O43: the error of the poll's code ends the batch before its disarm. -/
theorem batchStopsAtError : Obligations.BatchStopsAtError := by
  unfold Obligations.BatchStopsAtError
  constructor
  · intro s lk base count c arm qs bad d disarm pre rs rest hp ha hcount hl hauto hs hrep hq hc hqs hb he
    have hne := continueError_ne_transportFailure (regnoAt base (qs.length + 1)) (classify (acsCmderr bad.poll.acs))
    have hbody := serves_readBatch base _ disarm (serves_readRun_fail (lk := lk) base hc arm d qs bad hcount hqs hb he)
      (by simpa using hne)
    have h := serve_raises (req := .hostReadRegs base count) (serves_readKnown (batch := true) hbody)
      (by simp [writeWords]) hne hp ha hs hrep (by simpa using hq)
    rw [exec_hostReadRegs_known hp (by omega) hl (batches_true (by omega) hauto)]
    rw [continueError_eq] at h
    exact h
  · intro s lk base v put c arm qs bad more d disarm pre rs rest hp ha hl hauto hs hrep hq hc hqs hb he
    have hne := continueError_ne_transportFailure (regnoAt base (qs.length + 1)) (classify (acsCmderr bad.2.2.acs))
    have hlen : (qs.map Prod.fst ++ bad.1 :: more).length + 1 = qs.length + more.length + 2 := by simp; omega
    have hbody := serves_writeBatch base v disarm _
      (serves_writeRun_fail (lk := lk) base v put arm d hc qs bad more hqs hb he)
      (by simpa using hne)
    have h := serve_raises (req := .hostWriteRegs base (v :: (qs.map Prod.fst ++ bad.1 :: more)))
      (serves_writeKnown (batch := true) hbody) (by simp [writeWords]) hne hp ha hs hrep (by simpa using hq)
    rw [exec_hostWriteRegs_known hp (hlen ▸ hl) (batches_true (by omega) hauto)]
    rw [continueError_eq] at h
    exact h

end Sys2Proof.Machine
end

section
/-! What the lower port saw last (43_register_access.md R150, R156): the disarm of a batch that is not ended by
TransportFailure, whatever the environment answers. -/

namespace Sys2Proof.Machine

variable {lk : Link} {α β : Type}

/-! ## The port across an operation -/

/-- What a DMI shift and its recoveries put on the lower port depends on: the trace so far, the address width and the
word of the shift in force. -/
structure Port where
  trace : List (Action × Reply)
  width : Option (BitVec 6)
  cmd   : DmiWord

/-- The port in a state. -/
def State.port (s : State) : Port := ⟨s.trace, s.addressBits, s.dmiCmd⟩

/-- The port once the actions `ls` have been issued and answered. -/
def Port.issued (p : Port) (ls : List (Action × Reply)) : Port := { p with trace := p.trace ++ ls }

theorem Port.issued_issued (p : Port) (ls ms : List (Action × Reply)) :
    (p.issued ls).issued ms = p.issued (ls ++ ms) := by simp [Port.issued]

/-- The operation ended with a result at a port that `Q` describes, with an error at one that `E` describes, or with
TransportFailure or a fault. -/
def EndsAt (Q E : Port → Prop) : EStateM.Result Stop State α → Prop
  | .ok _ t => Q t.port
  | .error (.err e) t => e ≠ .transportFailure → E t.port
  | .error (.fault _) _ => True

/-- From a port that `P` describes every run of the operation ends so. -/
def Leads (P Q E : Port → Prop) (x : Op α) : Prop := ∀ s : State, P s.port → EndsAt Q E (x s)

variable {P Q R E : Port → Prop}

theorem Leads.bind {x : Op α} {f : α → Op β} (hx : Leads P Q E x) (hf : ∀ a, Leads Q R E (f a)) :
    Leads P R E (x >>= f) := by
  intro s hs
  have h := hx s hs
  cases e : x s with
  | ok a t =>
    rw [e] at h
    rw [bind_ok f e]
    exact hf a t h
  | error e' t =>
    rw [e] at h
    rw [bind_error f e]
    cases e' <;> exact h

theorem Leads.line {x : Op α} (h : Leads P Q E x) (r n : Nat) : Leads P Q E (line r n x) := by
  intro s hs
  have h := h (s.moveTo ⟨r, n⟩) hs
  cases e : x (s.moveTo ⟨r, n⟩) with
  | ok a t => rw [e] at h; rw [line_ok e]; exact h
  | error e' t => rw [e] at h; rw [line_error e]; cases e' <;> exact h

theorem leads_pure (h : ∀ p, P p → Q p) (a : α) : Leads P Q E (pure a : Op α) := fun s => h s.port

/-- A result made from the result. -/
theorem Leads.thenPure {x : Op α} (hx : Leads P Q E x) (f : α → β) : Leads P Q E (do let a ← x; pure (f a)) :=
  hx.bind fun a => leads_pure (fun _ => id) (f a)

theorem leads_raise (h : ∀ p, P p → E p) (e : Error) : Leads P Q E (raise e : Op α) := fun s hs _ => h s.port hs

/-- A change that is none of the port's. -/
theorem leads_update (f : State → State) (h : ∀ s, (f s).port = s.port) : Leads P P E (update f) := by
  intro s hs
  rw [← h s] at hs
  exact hs

theorem leads_pass (r : Nat) (ns : List Nat) : Leads P P E (pass r ns) := leads_update _ fun _ => rfl

/-- Lines passed, then the rest. -/
theorem Leads.afterPass {r : Nat} {ns : List Nat} {y : Unit → Op α} (h : Leads P Q E (y ())) :
    Leads P Q E (pass r ns >>= y) := (leads_pass r ns).bind fun _ => h

theorem leads_readReg (r : SessionReg) (f : State → Option α) : Leads P P E (readReg r f) := by
  intro s hs
  cases h : f s with
  | some a => rw [readReg_some h]; exact hs
  | none => rw [readReg_none h]; trivial

theorem leads_act {a : Action} (h : ∀ p r, P p → Q (p.issued [(a, r)])) : Leads P Q E (act a) := by
  intro s hs
  have hq := h s.port s.nextReply hs
  unfold act
  cases s.nextReply with
  | done b => exact hq
  | failed => exact fun hne => absurd rfl hne

/-- `try … finally` (R187, R188): the cleanup starts where the body ended, unless the body failed. -/
theorem Leads.withCleanup {o : Pending} {c : Op Unit} {x : Op α} (hx : Leads P Q Q x) (hc : Leads Q R R c) :
    Leads P R R (withCleanup o c x) := by
  intro s hs
  have hbody := hx (s.pushPending o) hs
  unfold Machine.withCleanup
  cases e : x (s.pushPending o) with
  | ok a t =>
    rw [e] at hbody
    have hclean := hc t.popPending hbody
    cases e2 : c t.popPending with
    | ok b u => rw [e2] at hclean; simp only [e2]; exact hclean
    | error e' u => rw [e2] at hclean; simp only [e2]; cases e' <;> exact hclean
  | error e' t =>
    rw [e] at hbody
    cases e' with
    | fault f => trivial
    | err e' =>
      by_cases he : e' = .transportFailure
      · simp [he, EndsAt]
      · have hclean := hc (t.popPending.holdPrimary e') (hbody he)
        simp only [he, if_false]
        cases e2 : c (t.popPending.holdPrimary e') with
        | ok b u => rw [e2] at hclean; exact fun _ => hclean
        | error e'' u =>
          rw [e2] at hclean
          cases e'' with
          | fault f => trivial
          | err e'' =>
            intro hne
            refine hclean fun h => hne ?_
            rw [if_pos h, h]

/-- A request whose response is not TransportFailure leaves the port where its body did. -/
theorem serve_leads {s t : State} {req : Instr} {body : Op Value} (hb : Leads P Q Q body) (hs : P s.port)
    (h : serve req body s = .next t) (ht : t.result ≠ some (.err .transportFailure)) :
    ∃ u : State, Q u.port ∧ t.trace = u.trace := by
  have hbody := hb (s.serving req) hs
  cases e : body (s.serving req) with
  | ok v u =>
    rw [e] at hbody
    rw [serve_of_ok e] at h
    cases h
    exact ⟨u, hbody, by simp⟩
  | error e' u =>
    rw [e] at hbody
    cases e' with
    | fault f => rw [serve_of_fault e] at h; cases h
    | err e' =>
      rw [serve_of_error e] at h
      cases h
      exact ⟨u, hbody (by simpa using ht), by simp⟩

/-! ## The last DMI word -/

/-- The trace has grown from `tr`, in a session of the width of `lk`. -/
def Grown (lk : Link) (tr : List (Action × Reply)) (p : Port) : Prop := tr <+: p.trace ∧ p.width = some lk.abits

/-- And `w` is the word of the shift in force. -/
def InForce (lk : Link) (w : DmiWord) (tr : List (Action × Reply)) (p : Port) : Prop := Grown lk tr p ∧ p.cmd = w

/-- And it is what the port saw last. -/
def JustSent (lk : Link) (w : DmiWord) (tr : List (Action × Reply)) (p : Port) : Prop :=
  InForce lk w tr p ∧ ∃ before r, p.trace = tr ++ before ++ [dmiLine lk.A w r]

/-- The last DMI word since `tr` is `w`, with at most a soft reset after it (40_dmi_transaction.md R99, R100). -/
def LastWord (lk : Link) (w : DmiWord) (tr : List (Action × Reply)) (p : Port) : Prop :=
  ∃ before r tail, p.trace = tr ++ before ++ [dmiLine lk.A w r] ++ tail ∧ (tail = [] ∨ ∃ a b, tail = softResetLines a b)

variable {w : DmiWord} {tr : List (Action × Reply)} {p : Port}

theorem InForce.issued (h : InForce lk w tr p) (ls : List (Action × Reply)) : InForce lk w tr (p.issued ls) :=
  ⟨⟨h.1.1.trans (List.prefix_append _ _), h.1.2⟩, h.2⟩

theorem InForce.sent (h : InForce lk w tr p) (r : Reply) : JustSent lk w tr (p.issued [dmiLine lk.A w r]) := by
  obtain ⟨before, hb⟩ := h.1.1
  exact ⟨h.issued _, before, r, by rw [hb]; rfl⟩

theorem JustSent.lastWord (h : JustSent lk w tr p) : LastWord lk w tr p := by
  obtain ⟨-, before, r, e⟩ := h
  exact ⟨before, r, [], by rw [e, List.append_nil], .inl rfl⟩

theorem JustSent.softReset (h : JustSent lk w tr p) (a b : Reply) :
    LastWord lk w tr (p.issued (softResetLines a b)) := by
  obtain ⟨-, before, r, e⟩ := h
  exact ⟨before, r, softResetLines a b, by rw [← e]; rfl, .inr ⟨a, b, rfl⟩⟩

/-! ## The DMI layer -/

theorem leads_txIr (c : Byte) (sel : IrSel) (h : ∀ p r, P p → Q (p.issued [(.writeIr c, r)])) :
    Leads P Q E (txIr c sel) := (leads_act h).bind fun _ => leads_update _ fun _ => rfl

theorem leads_txShift (n : Nat) (out : DmiWord) (h : ∀ p r, P p → Q (p.issued [(.shiftDr (packBytes n out) n, r)])) :
    Leads P Q E (txShift n out) := (leads_act h).thenPure _

/-- R92. -/
theorem leads_softReset (h : ∀ p a b, P p → Q (p.issued (softResetLines a b))) : Leads P Q E softReset :=
  have hselect : Leads P (fun p => ∃ p0 a, P p0 ∧ p = p0.issued [(.writeIr irCodeDtmcs, a)]) E selectDtmcs :=
    leads_txIr _ _ fun p a hp => ⟨p, a, hp, rfl⟩
  (hselect.line 92 1).bind fun _ => ((leads_txShift 32 _ fun p b hp => by
    obtain ⟨p0, a, hp0, rfl⟩ := hp
    rw [Port.issued_issued]
    exact h p0 a b hp0).line 92 2).thenPure _

theorem leads_selectDmi : Leads (InForce lk w tr) (InForce lk w tr) E selectDmi :=
  leads_txIr _ _ fun _ _ h => h.issued _

theorem leads_ensureDmi : Leads (InForce lk w tr) (InForce lk w tr) E ensureDmi := by
  refine Leads.line (fun s hs => ?_) 102 1
  split
  · exact hs
  · exact leads_selectDmi s hs

/-- A word goes out with the width of the session (R95). -/
theorem leads_shiftDmi (v : DmiWord) (hQ : ∀ p r, InForce lk w tr p → Q (p.issued [dmiLine lk.A v r])) :
    Leads (InForce lk w tr) Q E (shiftDmi v) := by
  intro s hs
  unfold shiftDmi
  rw [bind_ok _ (addressWidth_some hs.1.2)]
  exact leads_txShift _ _ hQ s hs

theorem leads_replayWord : Leads P P E replayWord := by
  intro s hs
  unfold replayWord
  rw [look_bind]
  cases s.lastValid with
  | false => exact hs
  | true => exact leads_readReg _ _ s hs

theorem leads_replay : Leads (InForce lk w tr) (InForce lk w tr) E replay :=
  leads_replayWord.bind fun v => (leads_shiftDmi v fun _ _ h => h.issued _).thenPure _

theorem leads_recoveryIdle : Leads (InForce lk w tr) (InForce lk w tr) E recoveryIdle := by
  refine (leads_readReg _ _).bind fun i => ?_
  split
  · exact (leads_act fun _ _ h => h.issued _).thenPure _
  · exact leads_pure (fun _ => id) _

/-- A recovery leaves the word of the shift in force (R98). -/
theorem leads_recover : Leads (InForce lk w tr) (InForce lk w tr) E recover :=
  ((leads_update State.countRecovery fun _ => rfl).line 95 14).bind fun _ =>
  ((leads_softReset fun _ a b h => InForce.issued h (softResetLines a b)).line 95 15).bind fun _ =>
  (leads_selectDmi.line 95 16).bind fun _ =>
  (leads_replay.line 95 17).bind fun _ =>
  (leads_recoveryIdle.line 95 18).bind fun _ => leads_pass 95 [19]

/-- SHIFT sends the word in force (R95). -/
theorem leads_shiftCmd : Leads (InForce lk w tr) (JustSent lk w tr) E shiftCmd := by
  refine Leads.afterPass (Leads.line (fun s hs => ?_) 95 4)
  rw [look_bind, show s.dmiCmd = w from hs.2]
  exact leads_shiftDmi w (fun _ r h => h.sent r) s hs

/-- The end of a shift by a soft reset and an error (R99, R100). -/
theorem leads_resetThenRaise (ns : List Nat) (m n : Nat) (e : Error) :
    Leads (JustSent lk w tr) (LastWord lk w tr) (LastWord lk w tr) (do
      pass 95 ns
      line 95 m softReset
      line 95 n (raise e) : Op Word) :=
  Leads.afterPass (((leads_softReset fun _ a b h => h.softReset a b).line 95 m).bind fun _ =>
    (leads_raise (fun _ => id) e).line 95 n)

theorem leads_onStatus {again : Op Word} (h : Leads (JustSent lk w tr) (LastWord lk w tr) (LastWord lk w tr) again)
    (r : DmiWord) : Leads (JustSent lk w tr) (LastWord lk w tr) (LastWord lk w tr) (onStatus again r) := by
  unfold onStatus
  split
  · rw [recordShift_eq]
    exact Leads.afterPass ((leads_update State.recordSuccess fun _ => rfl).bind fun _ =>
      leads_pure (fun _ => JustSent.lastWord) _)
  · exact leads_resetThenRaise [10] 21 22 _
  · exact leads_resetThenRaise [10] 21 22 _
  · exact h

/-- However often the shift is interrupted, its word is the last one (R98, R99). -/
theorem leads_dmiRetry (left : Nat) :
    Leads (JustSent lk w tr) (LastWord lk w tr) (LastWord lk w tr) (dmiRetry left) := by
  induction left with
  | zero => exact leads_resetThenRaise [10, 11] 12 13 _
  | succ n ih =>
    have hrecover : Leads (JustSent lk w tr) (InForce lk w tr) (LastWord lk w tr) recover :=
      fun s hs => leads_recover s hs.1
    exact Leads.afterPass (hrecover.bind fun _ => leads_shiftCmd.bind fun r => Leads.afterPass (leads_onStatus ih r))

theorem leads_beginShift (cmd : Nat → DmiWord) : Leads (Grown lk tr) (InForce lk (cmd lk.A) tr) E (beginShift cmd) := by
  intro s hs
  unfold beginShift
  rw [bind_ok _ (addressWidth_some hs.2)]
  exact ⟨hs, rfl⟩

theorem leads_dmiShift (cmd : Nat → DmiWord) :
    Leads (Grown lk tr) (LastWord lk (cmd lk.A) tr) (LastWord lk (cmd lk.A) tr) (dmiShift cmd) :=
  ((leads_beginShift cmd).line 95 1).bind fun _ => (leads_ensureDmi.line 95 2).bind fun _ =>
    (show Leads _ _ _ (look State.params) from fun _ hs => hs).bind fun _ => leads_shiftCmd.bind fun r =>
      Leads.afterPass (leads_onStatus (leads_dmiRetry _) r)

theorem leads_dmiWrite (a : Nat) (v : Word) :
    Leads (Grown lk tr) (LastWord lk (dmiEncode 2 a v lk.A) tr) (LastWord lk (dmiEncode 2 a v lk.A) tr)
      (dmiWrite a v) :=
  ((leads_dmiShift (dmiEncode 2 a v)).line 104 1).thenPure _

/-! ## Batches -/

/-- An operation of the session leaves its width, and the trace grows. -/
theorem leads_of_emitted {x : Op α} (h : Keeps Emitted Emitted (fun _ => True) x) :
    Leads (Grown lk tr) (Grown lk tr) (Grown lk tr) x := by
  intro s hs
  have hgrown : ∀ t, Emitted s t → Grown lk tr t.port := fun t ht =>
    ⟨hs.1.trans (ht.trace.elim fun ls hls => ⟨ls, hls.1.symm⟩), ht.abits.trans hs.2⟩
  cases e : x s with
  | ok a t => exact hgrown t (h.ok e)
  | error e' t =>
    cases e' with
    | err e' => exact fun _ => hgrown t (h.same e)
    | fault f => trivial

/-- The disarm write is the last DMI word. -/
abbrev Disarmed (lk : Link) (tr : List (Action × Reply)) : Port → Prop :=
  LastWord lk (dmiEncode 2 addrAutoexec autoexecDisarmWord lk.A) tr

/-- Whatever a batch did, its cleanup disarms last (R150, R187). -/
theorem leads_disarmed (r : Nat) {x : Op α} (h : Keeps Emitted Emitted (fun _ => True) x) :
    Leads (Grown lk tr) (Disarmed lk tr) (Disarmed lk tr) (withCleanup .disarm (disarm r) x) :=
  (leads_of_emitted h).withCleanup (Leads.afterPass ((leads_dmiWrite _ _).line r 9))

theorem leads_readBatch (base : BitVec 16) (count : Nat) :
    Leads (Grown lk tr) (Disarmed lk tr) (Disarmed lk tr) (readBatch base count) :=
  have F := csrFrame_emitted.toWireFrame
  have hrun : Keeps Emitted Emitted (fun _ => True) (readRun base count) :=
    keeps_bind F.toRuns (F.toTxFrame.line (F.initRead base count)) fun _ =>
      keeps_thenPure F.toRuns (F.continueReads base count _ 1) _
  Leads.afterPass ((leads_disarmed 154 hrun).bind fun _ => Leads.afterPass (leads_pure (fun _ => id) _))

theorem leads_writeBatch (base : BitVec 16) (v : Word) (vs : List Word) :
    Leads (Grown lk tr) (Disarmed lk tr) (Disarmed lk tr) (writeBatch base v vs) :=
  have F := csrFrame_emitted.toWireFrame
  have hrun : Keeps Emitted Emitted (fun _ => True) (writeRun base v vs) :=
    keeps_bind F.toRuns (F.toTxFrame.line (F.initWrite base v)) fun _ => F.continueWrites base vs 1
  Leads.afterPass (leads_disarmed 155 hrun)

/-- A request whose body disarms last. -/
theorem serve_disarmedLast {s t : State} {req : Instr} {body : Op Value}
    (hb : Leads (Grown lk s.trace) (Disarmed lk s.trace) (Disarmed lk s.trace) body)
    (ha : s.addressBits = some lk.abits) (h : serve req body s = .next t)
    (ht : t.result ≠ some (.err .transportFailure)) : DisarmedLast lk.A s t := by
  obtain ⟨u, ⟨before, r, tail, htrace, htail⟩, hu⟩ := serve_leads hb ⟨List.prefix_rfl, ha⟩ h ht
  exact ⟨before, r, tail, hu.trans htrace, htail⟩

/-- Settles O42: the disarm runs after the batch, and no recovery of its shift sends another word last. -/
theorem batchAlwaysDisarms : Obligations.BatchAlwaysDisarms := by
  unfold Obligations.BatchAlwaysDisarms
  intro s t lk i base n hi hp ha hn hl hexec hauto hres
  rcases hi with rfl | ⟨vals, rfl, rfl⟩
  · rw [exec_hostReadRegs_known hp (by omega) hl (batches_true hn hauto)] at hexec
    exact serve_disarmedLast (Leads.afterPass ((leads_readBatch base n).thenPure _)) ha hexec hres
  · obtain ⟨v, vs, rfl⟩ := List.exists_cons_of_length_pos (Nat.lt_of_succ_lt hn)
    rw [exec_hostWriteRegs_known hp hl (batches_true hn hauto)] at hexec
    exact serve_disarmedLast (Leads.afterPass ((leads_writeBatch base v vs).thenPure _)) ha hexec hres

end Sys2Proof.Machine
end

section
/-! The program-buffer CSR read (44_progbuf_csr.md): a READ_CSR_PROGBUF whose checks pass, with the value of x1 that it
backs up in the hart table, whichever way the program's run ends. -/

namespace Sys2Proof.Machine

variable {lk : Link}

/-! ## Requests that back up a register -/

/-- The response to a request whose body ends with `out` (R185). -/
def responseTo : Except Error Value → Response
  | .ok v => .ok v
  | .error e => .err e

/-- What a served request leaves, whether its body ends with a value or with an error that keeps the session (R180). -/
theorem serve_of_gives {s t : State} {req : Instr} {body : Op Value} {out : Except Error Value}
    (h : Gives (body (s.serving req)) out t) (hp : t.phase = .ready) (hout : out ≠ .error .transportFailure) :
    serve req body s = .next ((t.backTo s.label).answer (responseTo out)) := by
  cases out with
  | ok v => exact serve_of_ok h
  | error e =>
    have he : e ≠ .transportFailure := fun h => hout (congrArg Except.error h)
    rw [serve_of_error h, sessionEffect_ready (t := t.backTo s.label) hp he]
    rfl

/-- The table after a backup of one register is the one that R162 describes. -/
theorem backedUpX1_of_backUp {s t : State} {h : Nat} {b : Word} (hl : h < s.harts.length)
    (ht : t.harts = (s.backUp h [b]).harts) : backedUpX1 s t h b :=
  ⟨s.harts[h], List.getElem?_eq_getElem hl, ht.trans (List.modify_eq_set_get _ hl)⟩

/-- A request whose body shifts the words `ws`, each answered NO_ERROR, and backs up x1 with the value `b`. -/
theorem serve_backsUp {s : State} {req : Instr} {body : Op Value} {ws : List DmiWord} {ds : List Word}
    {out : Except Error Value} {h : Nat} {b : Word}
    (hbody : Serves lk s.params body ws ds out (State.backUp · h [b])) (hw : ws ≠ [])
    (hout : out ≠ .error .transportFailure) (hp : s.phase = .ready) (ha : s.addressBits = some lk.abits)
    (hl : h < s.harts.length) {pre rs rest : List Reply} (hs : Selected s pre) (hr : s.replies = pre ++ rs ++ rest)
    (hq : Quiet lk.A rs ds) :
    ∃ t, serve req body s = .next t ∧ Shifted s t lk.A ws pre rs rest ∧ SameSession s t ∧ SameHost s t
      ∧ t.currentHart = s.currentHart ∧ backedUpX1 s t h b ∧ Answered s t [] (responseTo out) := by
  obtain ⟨t, e, A, c⟩ := hbody.run (s.serving req) pre rs rest (by simp) (by simpa using ha)
    (by simpa [Selecting, hw, Selected] using hs) (by simpa using hr) hq
  have hc : t.core = (s.backUp h [b]).core := c
  have hsame := (sameButWire_of_core hc).answer s.label (responseTo out)
  exact ⟨_, serve_of_gives e ((core_field hc State.phase).trans hp) hout, (A.shifted hw).answer _ _,
    { hsame.toSameSession with }, { hsame.toSameHost with }, hsame.currentHart,
    backedUpX1_of_backUp hl hsame.harts, answered_answer s _ _ (core_field hc State.hostOut)⟩

/-! ## READ_CSR_PROGBUF -/

/-- The program word of a CSR number that R157 admits (R158). -/
theorem csrrsX1Word_ofNat {csr : Nat} (h : csr ≤ 0xFFF) :
    csrrsX1Word (BitVec.ofNat 12 csr) = BitVec.ofNat 32 csr <<< 20 ||| 0x000020F3 := by
  have hw : (BitVec.ofNat 12 csr).setWidth 32 = BitVec.ofNat 32 csr := by
    apply BitVec.eq_of_toNat_eq
    simp only [BitVec.toNat_setWidth, BitVec.toNat_ofNat]
    omega
  rw [csrrsX1Word, hw]

theorem uploadWords_length (A : Nat) (impebreak : Bool) (w : Word) :
    (uploadWords A impebreak w).length = if impebreak then 1 else 2 := by
  cases impebreak <;> rfl

theorem uploadWords_ne_nil (A : Nat) (impebreak : Bool) (w : Word) : uploadWords A impebreak w ≠ [] :=
  List.cons_ne_nil _ _

/-- The checks of R157 and R160 pass for `csr`, and what the request reads of the session is at hand: the DMI width, the
current hart `h` and `impebreak`. -/
structure CsrAdmitted (s : State) (lk : Link) (csr h : Nat) (impebreak : Bool) : Prop where
  phase : s.phase = .ready
  width : s.addressBits = some lk.abits
  enabled : s.progbufCsrEnabled = some true
  csr : csr ≤ 0xFFF
  current : s.currentHart = some h
  entry : h < s.harts.length
  impebreak : s.impebreak = some impebreak

/-- Such a request is served by the body that knows what it reads. -/
theorem CsrAdmitted.exec_eq {s : State} {csr h : Nat} {impebreak : Bool} (hadm : CsrAdmitted s lk csr h impebreak) :
    exec (.hostReadCsrProgbuf csr) s = serve (.hostReadCsrProgbuf csr)
      (readCsrKnown impebreak h (BitVec.ofNat 32 csr <<< 20 ||| 0x000020F3)) s := by
  obtain ⟨hp, -, he, hcsr, hc, hl, hi⟩ := hadm
  rw [← csrrsX1Word_ofNat hcsr]
  exact (whenReady_ready _ hp).trans (serve_congr (readCsr_known (s := s.serving _) he hcsr hi hc hl))

/-- The request where every check passes and the backup and the restore complete: the words of the program's run stand
between theirs, and what the run ends with is the response (R157 to R168). -/
theorem CsrAdmitted.runs {s : State} {csr h : Nat} {impebreak : Bool} {us : List Word} {backup : OneRead}
    {restore : OneWrite} {ws : List DmiWord} {ds : List Word} {out : Except Error (List Word)}
    {pre rs rest : List Reply} (hadm : CsrAdmitted s lk csr h impebreak) (hs : Selected s pre)
    (hr : s.replies = pre ++ rs ++ rest) (hu : us.length = if impebreak then 1 else 2)
    (hb : backup.command.Ends s.params .none) (hrest : restore.command.Ends s.params .none)
    (hbody : Serves lk s.params (execBody [] 1) ws ds out id) (hout : out ≠ .error .transportFailure)
    (hq : Quiet lk.A rs (us ++ (backup.data ++ (ds ++ restore.data)))) :
    ∃ t, exec (.hostReadCsrProgbuf csr) s = .next t
      ∧ Shifted s t lk.A (uploadWords lk.A impebreak (BitVec.ofNat 32 csr <<< 20 ||| 0x000020F3)
          ++ (backup.words lk.A 0x1001 ++ (ws ++ restore.words lk.A 0x1001 backup.value))) pre rs rest
      ∧ SameSession s t ∧ SameHost s t ∧ t.currentHart = s.currentHart ∧ backedUpX1 s t h backup.value
      ∧ Answered s t [] (responseTo (out.map firstOut)) := by
  have hall := serves_readCsr (lk := lk) impebreak h (BitVec.ofNat 32 csr <<< 20 ||| 0x000020F3)
    (hu.trans (uploadWords_length ..).symm) hb hrest hbody hout
  have hmap : out.map firstOut ≠ .error .transportFailure := by
    cases out with
    | ok vs => nofun
    | error e => simpa [Except.map] using hout
  rw [hadm.exec_eq]
  exact serve_backsUp hall (List.append_ne_nil_of_left_ne_nil (uploadWords_ne_nil _ _ _) _) hmap hadm.phase
    hadm.width hadm.entry hs hr hq

/-- Settles O45: the program's run succeeds and x1 is read back. -/
theorem readCsrRequest : Obligations.ReadCsrRequest := by
  unfold Obligations.ReadCsrRequest
  intro s lk csr h impebreak us backup c value restore pre rs rest hp ha he hcsr hcur hl hi hs hr hu hq hb hc hv hrest
  simp only [List.append_assoc] at hq ⊢
  have hrun := CsrAdmitted.runs ⟨hp, ha, he, hcsr, hcur, hl, hi⟩ hs hr hu hb hrest (serves_execBody hc hv) nofun
    (by rwa [List.append_assoc])
  rwa [List.append_assoc] at hrun

/-- Settles O46: the program's run fails, and its error outlives the restore. -/
theorem readCsrRestoresOnError : Obligations.ReadCsrRestoresOnError := by
  unfold Obligations.ReadCsrRestoresOnError
  intro s lk csr h impebreak us backup c e kind d restore pre rs rest hp ha he hcsr hcur hl hi hs hr hu hq hb hc hk
    hrest
  simp only [List.append_assoc] at hq ⊢
  have hrun := CsrAdmitted.runs ⟨hp, ha, he, hcsr, hcur, hl, hi⟩ hs hr hu hb hrest (serves_execBody_fail hc hk d)
    nofun (by rwa [List.append_assoc])
  rwa [List.append_assoc] at hrun

end Sys2Proof.Machine
end

section
/-! SELECT_HART (45_hart_manager.md R175): the index check, the DMCONTROL write, and the current hart it leaves. -/

namespace Sys2Proof.Machine

variable {lk : Link} {p : Params}

/-! ## The body of the request -/

/-- SELECT_HART of an index whose entry of the table is `e` (R175). -/
def selectEntry (i : Nat) (e : HartEntry) : Op Value := do
  pass 175 [1]
  line 175 2 (writeHartsel (BitVec.ofNat 20 e.index))
  line 175 3 (update (State.makeCurrent · i))
  pure .unit

theorem selectHart_of_entry {s : State} {i : Nat} {e : HartEntry} (h : s.harts[i]? = some e) :
    selectHart i s = selectEntry i e s := by
  unfold selectHart
  rw [look_bind, h]
  rfl

theorem selectHart_past {s : State} {i : Nat} (h : s.harts.length ≤ i) :
    selectHart i s = .error (.err .invalidRequest) (s.passed 175 [1]) := by
  unfold selectHart
  rw [look_bind, List.getElem?_eq_none h]
  rfl

/-- One DMCONTROL write answered NO_ERROR, after which the hart is current. -/
theorem serves_selectEntry (i : Nat) (e : HartEntry) (d : Word) :
    Serves lk p (selectEntry i e) (writeWords lk.A addrDmcontrol (dmcontrolWord p (BitVec.ofNat 20 e.index))) [d]
      (.ok .unit) (State.makeCurrent · i) :=
  Serves.afterPass <| ((serves_writeHartsel (BitVec.ofNat 20 e.index) d).line 175 2).shiftThen
    (Serves.change (serves_change (State.makeCurrent · i)) (serves_pure Value.unit))

/-- An error comes from the DMCONTROL write, and the current hart is changed only after it. -/
theorem selectEntry_error {s t : State} {i : Nat} {entry : HartEntry} {e : Error}
    (h : selectEntry i entry s = .error (.err e) t) (he : e ≠ .transportFailure) : t.core = s.core := by
  unfold selectEntry at h
  rw [pass_bind] at h
  rcases bind_error_inv h with hwrite | ⟨_, u, -, hselect⟩
  · exact ((wireFrame_through.toTxFrame.line (wireFrame_through.toDmiFrame.writeHartsel _)).error hwrite he).core
  · cases hselect

/-- SELECT_HART with an error leaves the session, the table and the current hart, whatever the index. -/
theorem selectHart_error {s t : State} {i : Nat} {e : Error} (h : selectHart i s = .error (.err e) t)
    (he : e ≠ .transportFailure) : t.core = s.core := by
  cases hentry : s.harts[i]? with
  | none =>
    rw [selectHart_past (List.getElem?_eq_none_iff.mp hentry)] at h
    cases h
    exact passed_core s 175 [1]
  | some entry =>
    rw [selectHart_of_entry hentry] at h
    exact selectEntry_error h he

/-! ## The request -/

theorem exec_hostSelectHart {s : State} (i : Nat) (hp : s.phase = .ready) :
    exec (.hostSelectHart i) s = serve (.hostSelectHart i) (selectHart i) s := whenReady_ready _ hp

/-- An error response is the error that the body raised (R185). -/
theorem serve_error_inv {s t : State} {req : Instr} {body : Op Value} {e : Error} (h : serve req body s = .next t)
    (ht : t.result = some (.err e)) :
    ∃ u, body (s.serving req) = .error (.err e) u ∧ t = ((u.backTo s.label).sessionEffect e).answer (.err e) := by
  cases hb : body (s.serving req) with
  | ok v u => rw [serve_of_ok hb] at h; cases h; cases ht
  | error stop u =>
    cases stop with
    | err e' => rw [serve_of_error hb] at h; cases h; cases ht; exact ⟨u, rfl, rfl⟩
    | fault f => rw [serve_of_fault hb] at h; cases h

/-- The index names an entry and the write is answered NO_ERROR. -/
theorem selectHart_selects {s : State} {i : Nat} {e : HartEntry} {d : Word} {pre rest : List Reply} {r : Reply}
    (hp : s.phase = .ready) (ha : s.addressBits = some lk.abits) (he : s.harts[i]? = some e) (hs : Selected s pre)
    (hr : s.replies = pre ++ r :: rest) (hd : r.answers lk.A .noError d) :
    ∃ t, exec (.hostSelectHart i) s = .next t
      ∧ Shifted s t lk.A (writeWords lk.A addrDmcontrol (dmcontrolWord s.params (BitVec.ofNat 20 e.index))) pre [r] rest
      ∧ t.currentHart = some i ∧ SameSession s t ∧ SameHost s t ∧ t.harts = s.harts ∧ Answered s t [] (.ok .unit) := by
  obtain ⟨u, hrun, hafter, hcore⟩ := (serves_selectEntry i e d).run (s.serving (.hostSelectHart i)) pre [r] rest
    rfl (by simpa using ha) (by simpa [Selecting, writeWords, Selected] using hs) (by simpa using hr)
    (.cons hd .nil)
  have hc : u.core = (s.makeCurrent i).core := hcore
  have hsame := (sameButWire_of_core hc).answer s.label (.ok .unit)
  refine ⟨(u.backTo s.label).answer (.ok .unit), ?_, (hafter.shifted (List.cons_ne_nil _ _)).answer _ _,
    hsame.currentHart, { hsame.toSameSession with }, { hsame.toSameHost with }, hsame.harts,
    answered_answer s _ _ (core_field hc State.hostOut)⟩
  rw [exec_hostSelectHart i hp]
  exact serve_of_ok ((selectHart_of_entry (s := s.serving _) he).trans hrun)

/-- Settles O47: the index check is line 1 of R175, before the write, and the current hart changes at line 3, after
it. -/
theorem selectHartRequest : Obligations.SelectHartRequest := by
  unfold Obligations.SelectHartRequest
  refine ⟨fun s i hp => ?_, fun s i hp hl => ?_, fun s lk i e d pre rest r => selectHart_selects, ?_⟩
  · obtain ⟨t, ht, htrace, -, -, hrest⟩ := wrongPhaseIsTurnedAway s (.hostSelectHart i) rfl hp
    exact ⟨t, ht, htrace, hrest⟩
  · rw [exec_hostSelectHart i hp]
    exact serve_passed_error hp Error.noConfusion (selectHart_past hl)
  · intro s t i e hp ht hres he
    rw [exec_hostSelectHart i hp] at ht
    obtain ⟨u, hu, rfl⟩ := serve_error_inv ht hres
    have hc : u.core = s.core := (selectHart_error hu he).trans (serving_core s _)
    have hready : (u.backTo s.label).phase = .ready := (core_field hc State.phase).trans hp
    rw [sessionEffect_ready hready he]
    exact core_field hc State.currentHart

end Sys2Proof.Machine
end

section
/-! The statements about errors of the exceptions family (60_exceptions.md R179, R187, R188). -/

namespace Sys2Proof.Machine

/-! ## The result of a cleanup, one equation for each way in which the body ends -/

section
variable {α : Type} {o : Pending} {cleanup : Op Unit} {body : Op α} {s t u : State} {a : α} {e e2 : Error}

/-- No cleanup runs (R187). -/
theorem withCleanup_transportFailure (h : body (s.pushPending o) = .error (.err .transportFailure) t) :
    withCleanup o cleanup body s = .error (.err .transportFailure) t := by
  simp [withCleanup, h]

theorem withCleanup_ok_ok (h : body (s.pushPending o) = .ok a t) (hc : cleanup t.popPending = .ok () u) :
    withCleanup o cleanup body s = .ok a u := by
  simp [withCleanup, h, hc]

theorem withCleanup_ok_error {stop : Stop} (h : body (s.pushPending o) = .ok a t)
    (hc : cleanup t.popPending = .error stop u) : withCleanup o cleanup body s = .error stop u := by
  simp [withCleanup, h, hc]

theorem withCleanup_error_ok (h : body (s.pushPending o) = .error (.err e) t) (he : e ≠ .transportFailure)
    (hc : cleanup (t.popPending.holdPrimary e) = .ok () u) : withCleanup o cleanup body s = .error (.err e) u := by
  simp [withCleanup, h, he, hc]

theorem withCleanup_error_error (h : body (s.pushPending o) = .error (.err e) t) (he : e ≠ .transportFailure)
    (hc : cleanup (t.popPending.holdPrimary e) = .error (.err e2) u) :
    withCleanup o cleanup body s = .error (.err (if e2 = .transportFailure then e2 else e)) u := by
  simp [withCleanup, h, he, hc]

/-- `primary_error` takes the error in flight, unless it holds another (R188). -/
theorem holdPrimary_eq (h : t.primaryError = none ∨ t.primaryError = some e) :
    t.holdPrimary e = { t with primaryError := some e } := by
  rcases h with h | h <;> simp [State.holdPrimary, h]

end

/-- Settles O58: the body ends with TransportFailure, with a value, or with an error that `primary_error` takes. -/
theorem cleanupPriority : Obligations.CleanupPriority := by
  unfold Obligations.CleanupPriority
  intro o cleanup body s t u v e e2
  refine ⟨withCleanup_transportFailure, fun _ hb => ⟨withCleanup_ok_ok hb, withCleanup_ok_error hb⟩,
    fun hprimary hb he t' ht' => ?_⟩
  obtain rfl : t' = t.popPending.holdPrimary e := ht'.trans (holdPrimary_eq (t := t.popPending) hprimary).symm
  refine ⟨withCleanup_error_ok hb he, fun hc he2 => ?_, withCleanup_error_error hb he⟩
  rw [withCleanup_error_error hb he hc, if_neg he2]

/-- Settles O60: `Error.code` is the table of R179, and no code depends on the info its error carries. -/
theorem errorCodes : Obligations.ErrorCodes := by
  unfold Obligations.ErrorCodes
  intros
  and_intros <;> rfl

end Sys2Proof.Machine
end
